-- ==== Sys2Proof/Word.lean ====
section
/-! DEFINITION. The plainest types of the ZP640: a byte of a message, a call reference, and the numbers
of slots, loops, orbits, tenants and digits (00_scope.md, "Numbering"). -/

namespace Sys2Proof

/-- One byte of a message body or one character of a caller name, label or display line. -/
abbrev Byte := BitVec 8

/-- A call reference as a message carries it, 0..65535 (0 stands for "none": R5). -/
abbrev Word := BitVec 16

/-- A slot of the call table, 0..63 (R1). -/
abbrev Slot := Fin 64

/-- A loop, 0..7 (R12). -/
abbrev Loop := Fin 8

/-- A park orbit, 0..9 (R12). -/
abbrev Orbit := Fin 10

/-- A tenant, 0..15 (R8). -/
abbrev Tenant := Fin 16

/-- A dialled digit '0'..'9', kept as its value (00_scope.md, "Values"). -/
abbrev Digit := Fin 10

/-- The 64 slots in rising order. -/
def slots : List Slot := List.finRange 64

/-- The eight loops in rising order. -/
def loops : List Loop := List.finRange 8

/-- The ten orbits in rising order. -/
def orbits : List Orbit := List.finRange 10

/-- The sixteen tenants in rising order. -/
def tenants : List Tenant := List.finRange 16

end Sys2Proof
end

