-- ==== Sys2Proof/Syntax.lean ====
section
/-! DEFINITION. The commands of the ZP640: one constructor of `Instr` for each row of
spec/opcode_table.json, in the table's order. A command is one step of the part, whole and indivisible
(95_what_each_step_holds.md). The table gives no row any bits. A command carries as operands only what
comes from outside the State: the levels of input pins, a character on the line, or the slot that an
event of the time base names. A message command takes the message at the head of the inbound queue
(R166), a key command takes the key event at the head of the key event queue (R87). -/

namespace Sys2Proof

/-- What the receiver finds on RXD in one character time (R161): after a start bit eight data bits in the
order in which they arrive, a parity bit and a stop bit (`true` is the mark level), or a break, which counts
as one character error and ends when the line has returned to the mark level. -/
inductive LineChar where
  | frame (data : Vector Bool 8) (parity stop : Bool)
  | lineBreak
  deriving DecidableEq, Repr

/-- The commands, one for each row of spec/opcode_table.json. -/
inductive Instr where
  /-- POWER_ON_RESET (R20): `straps` are the levels of RATE[2:0] at the release of RESETn. -/
  | powerOnReset (straps : BitVec 3)
  /-- KEY_SCAN (R137): `rows` are the levels of KROW[3:0] while this tick's column is driven. -/
  | keyScan (rows : BitVec 4)
  /-- ANSWER (R90). -/
  | answer
  /-- LOOP_KEY (R91): loop key `k`. -/
  | loopKey (k : Loop)
  /-- HOLD_KEY (R94). -/
  | holdKey
  /-- RELEASE (R95). -/
  | release
  /-- EXTEND_KEY (R96). -/
  | extendKey
  /-- CALL (R98). -/
  | call
  /-- SWAP (R99). -/
  | swap
  /-- JOIN_KEY (R100). -/
  | joinKey
  /-- CANCEL (R101, R102). -/
  | cancel
  /-- PARK_KEY (R97). -/
  | parkKey
  /-- RETRIEVE (R93). -/
  | retrieve
  /-- POSITION_KEY (R125). -/
  | positionKey
  /-- RECEIVE_CHARACTER (R163): the character `c` arrives on RXD. -/
  | receiveCharacter (c : LineChar)
  /-- RECEIVED_HALT (R170). -/
  | receivedHalt
  /-- RECEIVED_GO (R170). -/
  | receivedGo
  /-- GAP_TIMEOUT (R164). -/
  | gapTimeout
  /-- LINK_BASE_TICK (R171). -/
  | linkBaseTick
  /-- SUPERVISION_TIMEOUT (R171). -/
  | supervisionTimeout
  /-- OFFER (R29). -/
  | offer
  /-- POLL (R172). -/
  | poll
  /-- SET (R130). -/
  | set
  /-- CADENCE_LOAD (R148). -/
  | cadenceLoad
  /-- CADENCE_COMMIT (R149). -/
  | cadenceCommit
  /-- POSITION (R126). -/
  | position
  /-- AUDIT_ENTRY (R178). -/
  | auditEntry
  /-- AUDIT_END (R180). -/
  | auditEnd
  /-- RESTART (R181). -/
  | restart
  /-- CONFIRM (R56). -/
  | confirm
  /-- CLEARED (R33). -/
  | cleared
  /-- DELIVERED (R36). -/
  | delivered
  /-- CAMP_FREE (R37). -/
  | campFree
  /-- FAR_END (R38). -/
  | farEnd
  /-- UNKNOWN_KIND (R166). -/
  | unknownKind
  /-- TRANSMIT_START (R170). -/
  | transmitStart
  /-- TRANSMIT_END (R54). -/
  | transmitEnd
  /-- SEND_CONTROL_CHARACTER (R167). -/
  | sendControlCharacter
  /-- CONFIRM_BEAT (R112). -/
  | confirmBeat
  /-- CONFIRM_TIMEOUT (R55): the confirm timer of the order pending on slot `p`. -/
  | confirmTimeout (p : Slot)
  /-- AGING_TICK (R73). -/
  | agingTick
  /-- CUSTODY_COUNT_TICK (R116). -/
  | custodyCountTick
  /-- CUSTODY_TIMER_EXPIRY (R117): the expiry reported for slot `p`. -/
  | custodyTimerExpiry (p : Slot)
  /-- AUTO_ANSWER (R84). -/
  | autoAnswer
  /-- EXPIRY_RETRY (R121): the retry of slot `p`'s waiting expiry or owed order. -/
  | expiryRetry (p : Slot)
  /-- CADENCE_STEP (R150). -/
  | cadenceStep
  /-- EPOCH_BOUNDARY (R149). -/
  | epochBoundary
  deriving DecidableEq, Repr

end Sys2Proof
end

