-- ==== Sys2Proof/Config.lean ====
section
/-! DEFINITION. The fixed sizes of the part, and the free values: what the spec leaves to the outside
world or leaves open. A free value is an opaque constant with no body, so nothing can be proved of it
and every claim holds whatever it is. -/

namespace Sys2Proof.Config

/-- The last value of the prescaler (R110). -/
def prescalerLast : Nat := 36863

/-- The last value of the step divider (R110). -/
def stepDividerLast : Nat := 4

/-- The last value of the second divider (R110). -/
def secondDividerLast : Nat := 19

/-- The last value of the epoch phase (R110). -/
def epochPhaseLast : Nat := 1

/-- Room of the key event queue (R140). -/
def keyQueueRoom : Nat := 8

/-- Room of the dial buffer (R141). -/
def dialRoom : Nat := 6

/-- Room of the inbound queue (R166). -/
def inboundRoom : Nat := 16

/-- Room of the reply group (R168). -/
def replyRoom : Nat := 8

/-- Room of the order group (R169). -/
def orderRoom : Nat := 16

/-- The most bytes an assembly stores (R164). -/
def assemblyRoom : Nat := 41

/-- The gap count at which an assembly is abandoned (R164). -/
def gapLimit : Nat := 4

/-- Free value (DESIGN CHOICE, log entry 7): the levels of KROW[3:0] at the n-th key scan that the part
makes of its own accord. What the attendant's contacts show there comes from outside. -/
opaque krowLevels : Nat → BitVec 4

/-- Free value (DESIGN CHOICE, log entry 6): which of several confirm timers that step to 0 at one
confirm beat is taken first. The spec gives no order among them. -/
opaque firstTimeout : Nat → Nat

/-- Free value (DESIGN CHOICE, log entry 21): how many characters of the message being sent go out before the
control character that is sent between two of them. The durations of characters are outside the model. -/
opaque charsGone : Nat → Nat

end Sys2Proof.Config
end

