-- ==== Sys2Proof/Machine/Types.lean ====
section
/-! DEFINITION. The data that the seven blocks of the ZP640 hold, as plain types: call records, pending
orders, custody timers, settings, keys, cadence banks and messages. -/

namespace Sys2Proof.Machine

/-! ### Call records (R7 to R16, R22, R49) -/

/-- The seven custody states (R22). -/
inductive Custody where
  | queued | active | held | setup | extended | camped | parked
  deriving DecidableEq, Repr

/-- How the call came into custody (R8). -/
inductive Leg where
  | incoming | dialled
  deriving DecidableEq, Repr

/-- The kind of call as offered (R8). -/
inductive CallClass where
  | urgent | external | internal
  deriving DecidableEq, Repr

/-- The far-end status of a DIALLED leg (R13). -/
inductive FarEnd where
  | proceeding | ringing | answered | busy
  deriving DecidableEq, Repr

/-- The nine kinds of order (R49). -/
inductive OrderKind where
  | connect | hold | clear | extend | dial | join | park | recall | divert
  deriving DecidableEq, Repr

/-- The stage of a pending order (R49, R54). -/
inductive Stage where
  | awaitingLine | onTheLine | awaitingConfirm
  deriving DecidableEq, Repr

/-- The kinds of custody timer other than NONE (R113). -/
inductive TimerKind where
  | hold | park | camp | noAnswer
  deriving DecidableEq, Repr

/-- The queue fields of a QUEUED record (R11), which are also what an occupied leaf holds (R78). -/
structure QueueFields where
  /-- The value of the sequence counter taken on entry into QUEUED (R75). -/
  seq  : BitVec 16
  /-- Seconds waited, 0..65535 (R73). -/
  wait : Nat
  /-- The presentation key, 0..5118 (R71). -/
  key  : Nat
  deriving DecidableEq, Repr

/-- A pending order (R49). -/
structure Order where
  kind          : OrderKind
  stage         : Stage
  /-- The second record the order acts on, while it has not been dropped. -/
  secondary     : Option Slot
  reservedLoop  : Option Loop
  reservedOrbit : Option Orbit
  reservedSlot  : Option Slot
  /-- The destination digits of an EXTEND or a DIAL. -/
  digits        : List Digit
  /-- RECALL and DIVERT: the kind of the custody timer whose expiry issued it. -/
  expiryKind    : Option TimerKind
  /-- DIVERT: the primary's tenant at issue. -/
  tenant        : Option Tenant
  /-- The confirm timer, running while AWAITING CONFIRM (R112). -/
  confirmTimer  : Option Nat
  deriving DecidableEq, Repr

/-- A call record (R7). -/
structure Record where
  ref          : Word
  state        : Custody
  leg          : Leg
  tenant       : Tenant
  cls          : CallClass
  recallCount  : Nat
  number       : List Digit
  name         : List Byte
  /-- seq, wait and key, present while QUEUED (R11). -/
  queue        : Option QueueFields
  loop         : Option Loop
  destination  : Option (List Digit)
  orbit        : Option Orbit
  farEnd       : Option FarEnd
  partner      : Option Slot
  recallAlert  : Bool
  order        : Option Order
  lock         : Option Slot
  /-- The audit mark (R16). -/
  marked       : Bool
  /-- The audit partner ref, 0 for none (R16). -/
  auditPartner : Word
  deriving DecidableEq, Repr

/-- The condition of a slot (R1). -/
inductive SlotState where
  | free
  | reserved (owner : Slot)
  | live (r : Record)
  deriving DecidableEq, Repr

/-- The outcome note (R62). -/
inductive Note where
  | busy | invalid
  deriving DecidableEq, Repr

/-! ### Custody timers (R113) -/

/-- An order that a custody timer owes (R67). -/
inductive Owed where
  | recall | divert
  deriving DecidableEq, Repr

/-- The custody timer of a slot (R113). `reported` is the model's own: the report of an expiry, made by
the TBT and not yet taken by the CCC (R116, R117; log entry 8). -/
structure Timer where
  kind      : Option TimerKind
  remaining : Nat
  /-- The expired-waiting flag. -/
  waiting   : Bool
  owed      : Option Owed
  reported  : Bool
  deriving DecidableEq, Repr

/-! ### Position state and settings (R123, R131, R132) -/

/-- The position state (R123). -/
inductive PosState where
  | closed | opened | busyOut | closing
  deriving DecidableEq, Repr

/-- The thirteen position items (R131). -/
structure Settings where
  baseUrgent   : Nat
  baseRecall   : Nat
  baseExternal : Nat
  baseInternal : Nat
  ageRate      : Nat
  ageCap       : Nat
  autoAnswer   : Nat
  confirmTime  : Nat
  supervision  : Nat
  highMark     : Nat
  lowMark      : Nat
  burstCount   : Nat
  burstGap     : Nat
  deriving DecidableEq, Repr

/-- The ten items of a tenant profile (R132). -/
structure Profile where
  offset         : Nat
  queueLimit     : Nat
  flashThreshold : Nat
  campOn         : Nat
  holdReload     : Nat
  parkReload     : Nat
  campReload     : Nat
  noAnswerReload : Nat
  recallLimit    : Nat
  /-- Twelve printable characters. -/
  label          : List Byte
  deriving DecidableEq, Repr

/-- PSEL's working settings (R69). -/
structure Working where
  baseUrgent   : Nat
  baseRecall   : Nat
  baseExternal : Nat
  baseInternal : Nat
  offsets      : Vector Nat 16
  ageRate      : Nat
  ageCap       : Nat
  deriving DecidableEq, Repr

/-! ### Keys (R137, R138, R140) -/

/-- A key event: any key but a digit (R140). -/
inductive KeyEvent where
  | loop (k : Loop)
  | answer | release | hold | extend | call | swap | join | cancel | park | retrieve | position
  deriving DecidableEq, Repr

/-- A key of the console: a digit, or a key that makes a key event (R139). -/
inductive Key where
  | digit (d : Digit)
  | event (e : KeyEvent)
  deriving DecidableEq, Repr

/-- The debounce record of a key (R138): `pressed` is the stable level. -/
structure Debounce where
  pressed : Bool
  run     : Nat
  deriving DecidableEq, Repr

/-! ### Cadence banks (R146, R147) -/

/-- The mode of a cadence pattern (R146). -/
inductive Mode where
  | repeat_ | once
  deriving DecidableEq, Repr

/-- A step of a cadence pattern: its level (`true` is ON) and its duration in cadence steps. -/
structure CadStep where
  on       : Bool
  duration : Nat
  deriving DecidableEq, Repr

/-- A cadence pattern (R146). -/
structure Pattern where
  mode  : Mode
  steps : List CadStep
  deriving DecidableEq, Repr

/-- The sixteen indications, in the order of their numbers (R174). -/
inductive Indication where
  | dark | active | held | heldRecall | setup | pending | fault | queueLow | queueHigh
  | posOpen | posBusyOut | posClosing | posClosed | toneAlert | toneChirp | toneRecall
  deriving DecidableEq, Repr

/-- A cadence bank: sixteen patterns and the map from indications to patterns (R147). -/
structure Bank where
  patterns : Vector Pattern 16
  map      : Vector (Fin 16) 16
  deriving DecidableEq, Repr

/-- The alert burst (R156). `count` is the burst count N as it was read at the latest epoch boundary
(R156, R135; log entry 13). -/
structure Burst where
  running  : Bool
  position : Nat
  assigned : Bool
  count    : Nat
  deriving DecidableEq, Repr

/-- The display image: the twenty characters of line 1 and of line 2 (R158). -/
structure Image where
  line1 : List Byte
  line2 : List Byte
  deriving DecidableEq, Repr

/-- One strobe of DWR (R159): the start of line 1 (`0`) or 2 (`1`) selected with DRS, or one character
on DDB. That the selection is a strobe of its own is a DESIGN CHOICE (log entry 30). -/
inductive DisplayWrite where
  | selectLine (n : Fin 2)
  | char (b : Byte)
  deriving DecidableEq, Repr

/-! ### The switch link (R161 to R174) -/

/-- The receiver's state (R163). -/
inductive RxState where
  | hunt | body | escaped
  deriving DecidableEq, Repr

/-- The link state (R171). -/
inductive LinkState where
  | up | down
  deriving DecidableEq, Repr

/-- The pending control character (R167). -/
inductive Control where
  | halt | go
  deriving DecidableEq, Repr

/-- Refusal reasons (R174, Codes). -/
inductive Reason where
  | full | tenantFull | duplicate | closed | busyOut | resync | malformed | conflict | bankBusy
  deriving DecidableEq, Repr

/-- LINK-FAULT kinds (R174, Codes). -/
inductive LinkFault where
  | parity | check | gap | length | overrun | truncated | unknownKind
  deriving DecidableEq, Repr

/-- ORDER-FAULT kinds (R68). -/
inductive OrderFault where
  | timeout | late | mismatch | duplicateRef
  deriving DecidableEq, Repr

/-- The values a STATUS reply carries (R172). -/
structure StatusValues where
  position   : PosState
  linkUp     : Bool
  resync     : Bool
  live       : Nat
  queued     : Nat
  headRef    : Word
  freeLoops  : Nat
  freeOrbits : Nat
  deriving DecidableEq, Repr

/-- A reply in the reply group (R168): every one echoes the tag and ref of its request. -/
inductive Reply where
  | accept (tag : Byte) (ref : Word)
  | refuse (tag : Byte) (ref : Word) (reason : Reason)
  | ack    (tag : Byte) (ref : Word) (clamped : Bool)
  | status (tag : Byte) (ref : Word) (v : StatusValues)
  deriving DecidableEq, Repr

/-- The message the transmitter is sending (R170): its body, and for an order the slot of its primary,
to which the end of the transmission is reported (R54). `left` are the characters of its frame that have
not yet gone out (R162, R167). -/
structure Sending where
  body  : List Byte
  owner : Option Slot
  left  : List Byte
  deriving DecidableEq, Repr

end Sys2Proof.Machine
end

