-- ==== Sys2Proof/Machine/Defaults.lean ====
section
/-! DEFINITION. Power-on values: the built-in cadence bank (R147), the default settings (R131, R132),
PSEL's power-on working settings (R69), the stopped custody timer (R113), the line rates (R161), and the
character tables that write a text as bytes. -/

namespace Sys2Proof.Machine

/-- The bytes of a text of characters below 0x80. -/
def bytesOf (t : String) : List Byte := t.toList.map fun c => BitVec.ofNat 8 c.toNat

/-- The character of a digit, 0x30..0x39 (R174). -/
def digitByte (d : Digit) : Byte := BitVec.ofNat 8 (0x30 + d.val)

/-- A number 0..99 in two decimal digits. -/
def twoDigits (n : Nat) : List Byte :=
  [BitVec.ofNat 8 (0x30 + n / 10 % 10), BitVec.ofNat 8 (0x30 + n % 10)]

/-- A pattern from its levels and durations. -/
def patternOf (m : Mode) (steps : List (Bool × Nat)) : Pattern :=
  { mode := m, steps := steps.map fun x => { on := x.1, duration := x.2 } }

/-- The built-in patterns 0..9 (R147); 10..15 are OFF 40, ONCE. -/
def builtinPatterns : List Pattern :=
  [ patternOf .once [(false, 40)],
    patternOf .once [(true, 40)],
    patternOf .repeat_ [(true, 9), (false, 1)],
    patternOf .repeat_ [(true, 10), (false, 10)],
    patternOf .repeat_ [(true, 5), (false, 5)],
    patternOf .repeat_ [(true, 1), (false, 1)],
    patternOf .once [(true, 2), (false, 2), (true, 2), (false, 34)],
    patternOf .once [(true, 20), (false, 20)],
    patternOf .once [(true, 2), (false, 38)],
    patternOf .once [(true, 2), (false, 2), (true, 2), (false, 2), (true, 2), (false, 30)] ]

/-- The built-in indication map (R147), in the order of the indications' numbers (R174). -/
def builtinMap : List (Fin 16) := [0, 1, 2, 4, 3, 5, 6, 1, 3, 1, 3, 4, 0, 7, 8, 9]

/-- The built-in bank (R147). -/
def builtinBank : Bank :=
  { patterns := Vector.ofFn fun i => builtinPatterns.getD i.val (patternOf .once [(false, 40)])
    map := Vector.ofFn fun i => builtinMap.getD i.val 0 }

/-- The position items' defaults (R131). -/
def defaultSettings : Settings :=
  { baseUrgent := 0, baseRecall := 256, baseExternal := 1024, baseInternal := 2048
    ageRate := 4, ageCap := 1024, autoAnswer := 0, confirmTime := 30, supervision := 5
    highMark := 12, lowMark := 4, burstCount := 2, burstGap := 2 }

/-- The default label of tenant nn: "TENANT nn" and three spaces (R132). -/
def defaultLabel (t : Tenant) : List Byte := bytesOf "TENANT " ++ twoDigits t.val ++ bytesOf "   "

/-- The tenant items' defaults (R132). -/
def defaultProfile (t : Tenant) : Profile :=
  { offset := 0, queueLimit := 64, flashThreshold := 4, campOn := 1, holdReload := 60
    parkReload := 90, campReload := 120, noAnswerReload := 30, recallLimit := 2
    label := defaultLabel t }

/-- The power-on working settings (R69). -/
def defaultWorking : Working :=
  { baseUrgent := 0, baseRecall := 256, baseExternal := 1024, baseInternal := 2048
    offsets := Vector.replicate 16 0, ageRate := 4, ageCap := 1024 }

/-- A stopped custody timer: kind NONE, remaining 0, flag clear, owed order absent (R113, R115). -/
def Timer.stopped : Timer :=
  { kind := none, remaining := 0, waiting := false, owed := none, reported := false }

/-- The line rate in bit/s that the straps RATE[2:0] choose (R161). -/
def lineRateOf (straps : BitVec 3) : Nat :=
  match straps.toNat with
  | 1 => 19200
  | 2 => 38400
  | 3 => 57600
  | 4 => 115200
  | _ => 9600

end Sys2Proof.Machine
end

