-- ==== Sys2Proof/Machine/State.lean ====
section
/-! DEFINITION. The state of the ZP640: one structure for each of its seven blocks (00_scope.md), the
output pins, the queue of waiting commands, and the state after power-on reset. -/

namespace Sys2Proof.Machine

/-- The Call Custody Controller's own state, the Order Tracker's included (R1, R5, R15, R52, R62, R175).
The free pool is the set of FREE slots (R3), the live count the number of LIVE slots (R1) and the
headset record the live record in ACTIVE or SETUP (R24): they are read from the table. -/
structure Ccc where
  /-- The 64 slots of the call table (R1). -/
  table  : Vector SlotState 64
  /-- The reference index, ordered by reference (R5). -/
  index  : List (Word × Slot)
  /-- The headset claim (R52). -/
  claim  : Option Slot
  /-- The outcome note (R62). -/
  note   : Option Note
  /-- The resync flag (R176). -/
  resync : Bool
  deriving DecidableEq, Repr

/-- The Presentation Selector's state (R69 to R83). Node n of the selection tree stands at `nodes` index
n - 1, where node 1 is the root, node n's children are nodes 2n and 2n + 1, and nodes 64..127 are the
leaves: level L, node j of R78 is node 2^(6 - L) + j. The head is the slot the root holds (R81), the total
queued count the sum of `queued` (R83). -/
structure Psel where
  working : Working
  /-- The sequence counter (R75). -/
  seq     : BitVec 16
  /-- The 64 leaves: empty, or the key, wait and seq of the slot's record (R78). -/
  leaves  : Vector (Option QueueFields) 64
  /-- The 63 internal nodes: empty, or the slot that wins the subtree (R78). -/
  nodes   : Vector (Option Slot) 63
  /-- The sixteen tenants' queued counts (R82). -/
  queued  : Vector Nat 16
  deriving DecidableEq, Repr

/-- The Time Base and Custody Timers' state (R110, R113). -/
structure Tbt where
  prescaler     : Nat
  stepDivider   : Nat
  secondDivider : Nat
  epochPhase    : Nat
  /-- One custody timer for each slot (R113). -/
  timers        : Vector Timer 64
  deriving DecidableEq, Repr

/-- Position Control's state (R123, R131, R132). -/
structure Pos where
  state    : PosState
  settings : Settings
  profiles : Vector Profile 16
  deriving DecidableEq, Repr

/-- The Key Scanner's state (R137 to R141). The 29 debounce records stand in the order loop 0..7,
digit 0..9, ANSWER, RELEASE, HOLD, EXTEND, CALL, SWAP, JOIN, CANCEL, PARK, RETRIEVE, POSITION. -/
structure Ksc where
  /-- The scan position (R137). -/
  scan  : Fin 8
  keys  : Vector Debounce 29
  /-- The key event queue, oldest first (R140). -/
  queue : List KeyEvent
  /-- The dial buffer, in the order accepted (R141). -/
  dial  : List Digit
  deriving DecidableEq, Repr

/-- The Indication Unit's state (R147, R154 to R159). -/
structure Ind where
  active      : Bank
  shadow      : Bank
  /-- The commit-pending flag (R147). -/
  commit      : Bool
  /-- The chirp's request flag (R154). -/
  chirpReq    : Bool
  /-- The chirp's play state: idle, or playing at a phase 0..39 (R154). -/
  chirp       : Option Nat
  /-- The recall tone's request flag (R155). -/
  recallReq   : Bool
  /-- The recall-epoch mark on the current epoch (R155). -/
  recallEpoch : Bool
  burst       : Burst
  /-- The display image as last formed (R158, R159). -/
  image       : Option Image
  /-- The image last written to the display module (R159). -/
  written     : Option Image
  deriving DecidableEq, Repr

/-- The Switch Link Interface's state (10_the_switch_link.md, its table of items). -/
structure Sli where
  /-- The line rate in bit/s (R161). -/
  rate        : Nat
  rx          : RxState
  /-- The unescaped bytes assembled so far (R163). -/
  assembly    : List Byte
  damaged     : Bool
  /-- The gap count, 0..4 (R164). -/
  gap         : Nat
  /-- The inbound queue of message bodies, oldest first (R166). -/
  inbound     : List (List Byte)
  /-- The reply group, oldest first (R168). -/
  replies     : List Reply
  /-- The order group, oldest first: each entry names the slot of the order's primary (R169, R49). -/
  orders      : List Slot
  /-- The AUDIT-REQUEST notice slot (R169). -/
  auditNotice : Bool
  /-- The POSITION-STATE notice slot (R128, R169). -/
  posNotice   : Option PosState
  /-- The ORDER-FAULT notice slot: kind and reference (R68, R169). -/
  orderNotice : Option (OrderFault × Word)
  /-- The LINK-FAULT notice slot: kind and reference (R169). -/
  linkNotice  : Option (LinkFault × Word)
  /-- The halted-sent flag (R167). -/
  haltedSent  : Bool
  /-- The control character pending (R167). -/
  control     : Option Control
  /-- The received-HALT flag (R170). -/
  haltedBy    : Bool
  /-- The transmitter: idle, or sending one message (R170). -/
  sending     : Option Sending
  link        : LinkState
  /-- The supervision count (R171). -/
  supCount    : Nat
  deriving DecidableEq, Repr

/-- The output pins (00_scope.md, "Signals"). LSD, DDB, DRS, DWR and TXD carry sequences: they are kept as
what the latest step that drove them put out (log entry 11). -/
structure Pins where
  /-- KCOL[7:0]: bit c is set while column c is asserted (R137). -/
  kcol    : BitVec 8
  /-- The levels shifted out on LSD, one on each LSC pulse, at the latest cadence step (R150). -/
  lsd     : List Bool
  /-- The pulses given on LSC at the latest cadence step, one for each level of `lsd` (R150). -/
  lsc     : Nat
  /-- LLT: asserted once the frame has been shifted out (R150). -/
  llt     : Bool
  /-- BUZ (R153). -/
  buz     : Bool
  /-- The strobes of DWR at the latest cadence step, with what DRS and DDB carried (R159). -/
  display : List DisplayWrite
  /-- The characters that the latest transmit step put on TXD (R162, R167, R170), each as its eleven levels
  in the order of time, `true` the mark level (R161). -/
  txd     : List (List Bool)
  deriving DecidableEq, Repr

/-- The state of the part. `pending` is the queue of commands that wait, first in, first out;
`freeCount` is the model's own count of the free values used (log entries 6, 7 and 21). -/
structure State where
  ccc       : Ccc
  psel      : Psel
  tbt       : Tbt
  pos       : Pos
  ksc       : Ksc
  ind       : Ind
  sli       : Sli
  pins      : Pins
  freeCount : Nat
  pending   : List Instr
  deriving DecidableEq, Repr

/-- The part never stops with a fault: the spec names no event after which it ceases to act (its own
faults, LINK-FAULT and ORDER-FAULT, are notices it sends while it goes on). No constructor. -/
inductive Fault
  deriving DecidableEq, Repr

/-- Why a command has no meaning. -/
inductive Refusal where
  /-- Raised by an arm of `exec` whose command is not modelled yet (safe): no arm raises it. -/
  | notModelled (mnemonic : String)
  deriving DecidableEq, Repr

/-- The CCC after power-on reset (R20, R175). -/
def Ccc.reset : Ccc :=
  { table := Vector.replicate 64 .free, index := [], claim := none, note := none, resync := false }

/-- PSEL after power-on reset (R86, R69). -/
def Psel.reset : Psel :=
  { working := defaultWorking, seq := 0, leaves := Vector.replicate 64 none
    nodes := Vector.replicate 63 none, queued := Vector.replicate 16 0 }

/-- The TBT after power-on reset (R110, R113). -/
def Tbt.reset : Tbt :=
  { prescaler := 0, stepDivider := 0, secondDivider := 0, epochPhase := 0
    timers := Vector.replicate 64 Timer.stopped }

/-- POS after power-on reset (R136). -/
def Pos.reset : Pos :=
  { state := .closed, settings := defaultSettings, profiles := Vector.ofFn defaultProfile }

/-- The KSC after power-on reset (R144). -/
def Ksc.reset : Ksc :=
  { scan := 0, keys := Vector.replicate 29 { pressed := false, run := 0 }, queue := [], dial := [] }

/-- The IND after power-on reset (R160). No image has been formed: a DESIGN CHOICE (log entry 10). -/
def Ind.reset : Ind :=
  { active := builtinBank, shadow := builtinBank, commit := false, chirpReq := false, chirp := none
    recallReq := false, recallEpoch := false
    burst := { running := false, position := 0, assigned := false, count := 0 }
    image := none, written := none }

/-- The SLI after power-on reset with the straps at `straps` (R173). The supervision count is a DESIGN
CHOICE (log entry 10): while the link is DOWN it is not used. -/
def Sli.reset (straps : BitVec 3) : Sli :=
  { rate := lineRateOf straps, rx := .hunt, assembly := [], damaged := false, gap := 0
    inbound := [], replies := [], orders := [], auditNotice := false, posNotice := none
    orderNotice := none, linkNotice := none, haltedSent := false, control := none
    haltedBy := false, sending := none, link := .down, supCount := 0 }

/-- The output pins after power-on reset: all released (R160); KCOL and TXD are a DESIGN CHOICE (log
entry 10). -/
def Pins.reset : Pins :=
  { kcol := 0, lsd := [], lsc := 0, llt := false, buz := false, display := [], txd := [] }

/-- The machine right after power-on reset with the straps at `straps`. -/
def State.resetWith (straps : BitVec 3) : State :=
  { ccc := Ccc.reset, psel := Psel.reset, tbt := Tbt.reset, pos := Pos.reset, ksc := Ksc.reset
    ind := Ind.reset, sli := Sli.reset straps, pins := Pins.reset, freeCount := 0, pending := [] }

/-- The machine right after reset. RATE[2:0] is an input: 0 is a DESIGN CHOICE (log entry 9). -/
def State.reset : State := State.resetWith 0

end Sys2Proof.Machine
end

