-- ==== Sys2Proof/Machine/Operands.lean ====
section
/-! DEFINITION. The operands of the message commands: how the fields of a message body are read (R174 and
the rules of each message), and how the codes of R174 are written. A reader of a request body answers
`none` exactly when the body is malformed by the rule that owns the request. -/

namespace Sys2Proof.Machine

/-! ### Bytes of a body and its header (R174) -/

/-- Byte `i` of a body, 0x00 where the body is shorter. -/
def byteAt (b : List Byte) (i : Nat) : Byte := b.getD i 0

/-- A two-byte field, high byte first (R174). -/
def wordAt (b : List Byte) (i : Nat) : Word := byteAt b i ++ byteAt b (i + 1)

/-- The high byte and the low byte of a two-byte field (R174). -/
def wordBytes (w : Word) : List Byte := [w.extractLsb' 8 8, w.extractLsb' 0 8]

/-- The kind of a message: byte 0. -/
def kindOf (b : List Byte) : Byte := byteAt b 0

/-- The tag of a message: byte 1. -/
def tagOf (b : List Byte) : Byte := byteAt b 1

/-- The ref of a message: bytes 2..3. -/
def refOf (b : List Byte) : Word := wordAt b 2

/-- The length of a header (R174). -/
def headerLength : Nat := 4

/-! ### Kind codes (R174, Header and catalogue) -/

def kindOffer : Byte := 0x21
def kindPoll : Byte := 0x22
def kindSet : Byte := 0x23
def kindCadenceLoad : Byte := 0x24
def kindCadenceCommit : Byte := 0x25
def kindPosition : Byte := 0x26
def kindAuditEntry : Byte := 0x27
def kindAuditEnd : Byte := 0x28
def kindRestart : Byte := 0x29
def kindConfirm : Byte := 0x31
def kindCleared : Byte := 0x32
def kindDelivered : Byte := 0x33
def kindCampFree : Byte := 0x34
def kindFarEnd : Byte := 0x35

/-- The command that hands on a message of kind `k`, by its owner (R166): UNKNOWN_KIND for a byte that is
none of the fourteen inbound codes. -/
def commandOfKind (k : Byte) : Instr :=
  if k = kindOffer then .offer
  else if k = kindPoll then .poll
  else if k = kindSet then .set
  else if k = kindCadenceLoad then .cadenceLoad
  else if k = kindCadenceCommit then .cadenceCommit
  else if k = kindPosition then .position
  else if k = kindAuditEntry then .auditEntry
  else if k = kindAuditEnd then .auditEnd
  else if k = kindRestart then .restart
  else if k = kindConfirm then .confirm
  else if k = kindCleared then .cleared
  else if k = kindDelivered then .delivered
  else if k = kindCampFree then .campFree
  else if k = kindFarEnd then .farEnd
  else .unknownKind

/-! ### Codes (R174, Codes) -/

/-- The call class of a code. -/
def classOfCode (c : Byte) : Option CallClass :=
  if c = 0x01 then some .urgent
  else if c = 0x02 then some .external
  else if c = 0x03 then some .internal
  else none

/-- The custody state of a code. -/
def custodyOfCode (c : Byte) : Option Custody :=
  if c = 0x01 then some .queued
  else if c = 0x02 then some .active
  else if c = 0x03 then some .held
  else if c = 0x04 then some .setup
  else if c = 0x05 then some .extended
  else if c = 0x06 then some .camped
  else if c = 0x07 then some .parked
  else none

/-- The far-end status of a code. -/
def farEndOfCode (c : Byte) : Option FarEnd :=
  if c = 0x01 then some .proceeding
  else if c = 0x02 then some .ringing
  else if c = 0x03 then some .answered
  else if c = 0x04 then some .busy
  else none

/-- The outcomes of a confirm (R56). -/
inductive Verdict where
  | done | ringing | busy | invalid | refused
  deriving DecidableEq, Repr

/-- The confirm outcome of a code. -/
def verdictOfCode (c : Byte) : Option Verdict :=
  if c = 0x01 then some .done
  else if c = 0x02 then some .ringing
  else if c = 0x03 then some .busy
  else if c = 0x04 then some .invalid
  else if c = 0x05 then some .refused
  else none

/-- The code of an order kind. -/
def OrderKind.code : OrderKind → Byte
  | .connect => 0x51
  | .hold => 0x52
  | .clear => 0x53
  | .extend => 0x54
  | .dial => 0x55
  | .join => 0x56
  | .park => 0x57
  | .recall => 0x58
  | .divert => 0x59

/-- The code of a position state (R123). -/
def PosState.code : PosState → Byte
  | .closed => 0x00
  | .opened => 0x01
  | .busyOut => 0x02
  | .closing => 0x03

/-- The code of a refusal reason. -/
def Reason.code : Reason → Byte
  | .full => 0x01
  | .tenantFull => 0x02
  | .duplicate => 0x03
  | .closed => 0x04
  | .busyOut => 0x05
  | .resync => 0x06
  | .malformed => 0x07
  | .conflict => 0x08
  | .bankBusy => 0x09

/-- The code of a LINK-FAULT kind. -/
def LinkFault.code : LinkFault → Byte
  | .parity => 0x01
  | .check => 0x02
  | .gap => 0x03
  | .length => 0x04
  | .overrun => 0x05
  | .truncated => 0x06
  | .unknownKind => 0x07

/-- The code of an ORDER-FAULT kind. -/
def OrderFault.code : OrderFault → Byte
  | .timeout => 0x01
  | .late => 0x02
  | .mismatch => 0x03
  | .duplicateRef => 0x04

/-! ### Characters, tenants and digits -/

/-- A printable character, 0x20..0x7E (R10, R134). -/
def printable (c : Byte) : Bool := decide (0x20 ≤ c.toNat ∧ c.toNat ≤ 0x7E)

/-- A character as it is stored: '?' where it is not printable (R10, R134). -/
def degrade (c : Byte) : Byte := if printable c then c else 0x3F

/-- The tenant that a byte names, 0..15. -/
def tenantOfByte (c : Byte) : Option Tenant :=
  if h : c.toNat < 16 then some ⟨c.toNat, h⟩ else none

/-- The orbit that a byte names, 0..9. -/
def orbitOfByte (c : Byte) : Option Orbit :=
  if h : c.toNat < 10 then some ⟨c.toNat, h⟩ else none

/-- The pattern or indication number that a byte names, 0..15. -/
def numberOfByte (c : Byte) : Option (Fin 16) :=
  if h : c.toNat < 16 then some ⟨c.toNat, h⟩ else none

/-- The digit that a byte '0'..'9' spells. -/
def digitOfByte (c : Byte) : Option Digit :=
  if h : 0x30 ≤ c.toNat ∧ c.toNat < 0x3A then some ⟨c.toNat - 0x30, by omega⟩ else none

/-- The digits that a run of bytes spells, when every byte is a digit. -/
def digitsOfBytes : List Byte → Option (List Digit)
  | [] => some []
  | c :: cs =>
    match digitOfByte c, digitsOfBytes cs with
    | some d, some ds => some (d :: ds)
    | _, _ => none

/-- The `n` bytes of a body from byte `i` on. -/
def bytesFrom (b : List Byte) (i n : Nat) : List Byte := (b.drop i).take n

/-! ### OFFER (R30) -/

/-- The fields of a well-formed OFFER; the name is already degraded (R10). -/
structure OfferBody where
  tenant : Tenant
  cls    : CallClass
  number : List Digit
  name   : List Byte
  deriving DecidableEq, Repr

/-- Reads an OFFER body (R30, R174): `none` when it is malformed. -/
def readOffer (b : List Byte) : Option OfferBody :=
  let n := (byteAt b 6).toNat
  let m := (byteAt b 7).toNat
  if 8 ≤ b.length ∧ n ≤ 16 ∧ m ≤ 16 ∧ b.length = 8 + n + m then
    match tenantOfByte (byteAt b 4), classOfCode (byteAt b 5), digitsOfBytes (bytesFrom b 8 n) with
    | some t, some c, some ds =>
      some { tenant := t, cls := c, number := ds, name := (bytesFrom b (8 + n) m).map degrade }
    | _, _, _ => none
  else none

/-! ### CONFIRM (R56, R174) -/

/-- The order kind, outcome and new ref of a CONFIRM: missing bytes read as 0x00 (R174). -/
structure ConfirmBody where
  kind    : Byte
  verdict : Option Verdict
  newRef  : Word
  deriving DecidableEq, Repr

/-- Reads a CONFIRM body; every body can be read (R174). -/
def readConfirm (b : List Byte) : ConfirmBody :=
  { kind := byteAt b 4, verdict := verdictOfCode (byteAt b 5), newRef := wordAt b 6 }

/-! ### FAR-END (R28, R41) -/

/-- The status a FAR-END carries: `none` where it is outside the four values or missing (R28). -/
def readFarEnd (b : List Byte) : Option FarEnd :=
  if 5 ≤ b.length then farEndOfCode (byteAt b 4) else none

/-! ### POSITION (R126) -/

/-- The targets of a POSITION request (R126). -/
inductive Target where
  | opened | busyOut | close
  deriving DecidableEq, Repr

/-- Reads a POSITION body (R126): `none` when it is malformed. -/
def readPosition (b : List Byte) : Option Target :=
  if b.length = 5 then
    if byteAt b 4 = 0x01 then some .opened
    else if byteAt b 4 = 0x02 then some .busyOut
    else if byteAt b 4 = 0x03 then some .close
    else none
  else none

/-! ### SET (R130 to R132) -/

/-- The numeric position items (R131). -/
inductive PosItem where
  | baseUrgent | baseRecall | baseExternal | baseInternal | ageRate | ageCap | autoAnswer
  | confirmTime | supervision | highMark | lowMark | burstCount | burstGap
  deriving DecidableEq, Repr

/-- The numeric tenant items (R132). -/
inductive TenantItem where
  | offset | queueLimit | flashThreshold | campOn | holdReload | parkReload | campReload
  | noAnswerReload | recallLimit
  deriving DecidableEq, Repr

/-- A well-formed SET: the item it names and the value it sends. -/
inductive SetBody where
  | position (item : PosItem) (value : Nat)
  | tenant (t : Tenant) (item : TenantItem) (value : Nat)
  | label (t : Tenant) (chars : List Byte)
  deriving DecidableEq, Repr

/-- The position item of an item code (R131). -/
def posItemOfCode (c : Byte) : Option PosItem :=
  if c = 0x01 then some .baseUrgent
  else if c = 0x02 then some .baseRecall
  else if c = 0x03 then some .baseExternal
  else if c = 0x04 then some .baseInternal
  else if c = 0x05 then some .ageRate
  else if c = 0x06 then some .ageCap
  else if c = 0x07 then some .autoAnswer
  else if c = 0x08 then some .confirmTime
  else if c = 0x09 then some .supervision
  else if c = 0x0A then some .highMark
  else if c = 0x0B then some .lowMark
  else if c = 0x0C then some .burstCount
  else if c = 0x0D then some .burstGap
  else none

/-- The numeric tenant item of an item code (R132). -/
def tenantItemOfCode (c : Byte) : Option TenantItem :=
  if c = 0x11 then some .offset
  else if c = 0x12 then some .queueLimit
  else if c = 0x13 then some .flashThreshold
  else if c = 0x14 then some .campOn
  else if c = 0x15 then some .holdReload
  else if c = 0x16 then some .parkReload
  else if c = 0x17 then some .campReload
  else if c = 0x18 then some .noAnswerReload
  else if c = 0x19 then some .recallLimit
  else none

/-- The item code of the label (R132). -/
def labelCode : Byte := 0x1A

/-- Reads a SET body (R130, R174): `none` when it is malformed. Scope 0x80 is the position, 0x00..0x0F a
tenant; a numeric value makes the body 8 bytes, a label 18. -/
def readSet (b : List Byte) : Option SetBody :=
  if b.length < 6 then none
  else if byteAt b 4 = 0x80 then
    match posItemOfCode (byteAt b 5) with
    | some i => if b.length = 8 then some (.position i (wordAt b 6).toNat) else none
    | none => none
  else
    match tenantOfByte (byteAt b 4) with
    | none => none
    | some t =>
      if byteAt b 5 = labelCode then
        if b.length = 18 then some (.label t (bytesFrom b 6 12)) else none
      else
        match tenantItemOfCode (byteAt b 5) with
        | some i => if b.length = 8 then some (.tenant t i (wordAt b 6).toNat) else none
        | none => none

/-! ### CADENCE-LOAD (R148) -/

/-- A well-formed CADENCE-LOAD: what it writes, and whether a duration was brought down to 40. -/
inductive LoadBody where
  | pattern (n : Fin 16) (p : Pattern) (clamped : Bool)
  | map (indication pattern : Fin 16)
  deriving DecidableEq, Repr

/-- The duration field of a step byte: bits 5..0 (R174). -/
def stepDuration (c : Byte) : Nat := c.toNat % 64

/-- A step byte as it is stored: bit 7 the level, bit 6 ignored, a duration of 41..63 stored as 40
(R148, R174). -/
def stepOfByte (c : Byte) : CadStep :=
  { on := c.getLsbD 7, duration := min (stepDuration c) 40 }

/-- The mode of a mode byte (R174). -/
def modeOfByte (c : Byte) : Option Mode :=
  if c = 0x00 then some .repeat_ else if c = 0x01 then some .once else none

/-- Reads a CADENCE-LOAD body (R148, R174): `none` when its form is malformed. -/
def readLoad (b : List Byte) : Option LoadBody :=
  if b.length < 5 then none
  else if byteAt b 4 = 0x01 then
    let k := (byteAt b 7).toNat
    let steps := b.drop 8
    if 8 ≤ b.length ∧ 1 ≤ k ∧ k ≤ 8 ∧ steps.length = k ∧ steps.all (fun c => stepDuration c != 0) then
      match numberOfByte (byteAt b 5), modeOfByte (byteAt b 6) with
      | some n, some m =>
        some (.pattern n { mode := m, steps := steps.map stepOfByte }
          (steps.any fun c => decide (40 < stepDuration c)))
      | _, _ => none
    else none
  else if byteAt b 4 = 0x02 then
    if b.length = 7 then
      match numberOfByte (byteAt b 5), numberOfByte (byteAt b 6) with
      | some i, some n => some (.map i n)
      | _, _ => none
    else none
  else none

/-! ### AUDIT-ENTRY (R178, R174) -/

/-- The fields of an AUDIT-ENTRY that is well formed but for the SETUP test of R178, which needs the
record's leg. -/
structure EntryBody where
  state       : Custody
  tenant      : Tenant
  cls         : CallClass
  /-- The recall count byte as sent. -/
  recallCount : Nat
  /-- The orbit, examined for PARKED only (R178). -/
  orbit       : Option Orbit
  partnerRef  : Word
  destination : List Digit
  number      : List Digit
  deriving DecidableEq, Repr

/-- Reads an AUDIT-ENTRY body (R178, R174): `none` when it is malformed on its own account. -/
def readEntry (b : List Byte) : Option EntryBody :=
  let d := (byteAt b 11).toNat
  let k := (byteAt b (12 + d)).toNat
  if refOf b ≠ 0 ∧ 13 ≤ b.length ∧ d ≤ 6 ∧ k ≤ 16 ∧ b.length = 13 + d + k then
    match custodyOfCode (byteAt b 4), tenantOfByte (byteAt b 5), classOfCode (byteAt b 6),
      digitsOfBytes (bytesFrom b 12 d), digitsOfBytes (bytesFrom b (13 + d) k) with
    | some st, some t, some c, some dest, some num =>
      let orbit := if st = .parked then orbitOfByte (byteAt b 8) else none
      if (st = .parked ∧ orbit = none) ∨ ((st = .extended ∨ st = .camped) ∧ d = 0) then none
      else
        some { state := st, tenant := t, cls := c, recallCount := (byteAt b 7).toNat, orbit := orbit
               partnerRef := wordAt b 9, destination := dest, number := num }
    | _, _, _, _, _ => none
  else none

/-- The leg rule of R7 for an entry that creates a record. -/
def EntryBody.leg (e : EntryBody) : Leg :=
  if e.partnerRef ≠ 0 ∧ e.cls = .internal ∧ e.destination ≠ [] then .dialled else .incoming

end Sys2Proof.Machine
end

