-- ==== Sys2Proof/Machine/Presentation.lean ====
section
/-! DEFINITION. Presentation selection as pure functions: the presentation key (R70, R71), the selection
order (R76) and the selection tree (R78, R79). -/

namespace Sys2Proof.Machine

/-! ### The presentation key -/

/-- The class base under which a record is ranked: RECALL's when the recall count is above 0, its class's
otherwise (R70). -/
def classBase (w : Working) (cls : CallClass) (recallCount : Nat) : Nat :=
  if 0 < recallCount then w.baseRecall
  else
    match cls with
    | .urgent => w.baseUrgent
    | .external => w.baseExternal
    | .internal => w.baseInternal

/-- The base of a key: the class base plus the tenant's working offset (R70). -/
def keyBase (w : Working) (t : Tenant) (cls : CallClass) (recallCount : Nat) : Nat :=
  classBase w cls recallCount + w.offsets[t]

/-- The capped credit of a wait (R71). -/
def cappedCredit (w : Working) (wait : Nat) : Nat := min (wait * w.ageRate / 8) w.ageCap

/-- The presentation key (R71): the base less the capped credit, and not below 0. -/
def presentationKey (w : Working) (t : Tenant) (cls : CallClass) (recallCount wait : Nat) : Nat :=
  keyBase w t cls recallCount - cappedCredit w wait

/-- The presentation key of a record after `wait` seconds. -/
def Record.keyAt (r : Record) (w : Working) (wait : Nat) : Nat :=
  presentationKey w r.tenant r.cls r.recallCount wait

/-! ### The selection order -/

/-- Seq `a` is older than seq `b` (R76, test 3). -/
def seqOlder (a b : BitVec 16) : Bool := decide (1 ≤ (b - a).toNat ∧ (b - a).toNat ≤ 32767)

/-- The record of slot `p` with queue fields `a` comes before that of slot `q` with `b` (R76). -/
def comesFirst (a : QueueFields) (p : Slot) (b : QueueFields) (q : Slot) : Bool :=
  if a.key ≠ b.key then decide (a.key < b.key)
  else if a.wait ≠ b.wait then decide (b.wait < a.wait)
  else if seqOlder a.seq b.seq then true
  else if seqOlder b.seq a.seq then false
  else decide (p < q)

/-! ### The selection tree -/

/-- The winner of two children of a node (R78). -/
def winner (leaves : Vector (Option QueueFields) 64) : Option Slot → Option Slot → Option Slot
  | none, q => q
  | some p, none => some p
  | some p, some q =>
    match leaves[p], leaves[q] with
    | some a, some b => if comesFirst a p b q then some p else some q
    | some _, none => some p
    | none, _ => some q

/-- What child number `c` of the tree yields: a leaf's slot when it is occupied (64..127), an internal
node's winner (1..63). -/
def childWinner (leaves : Vector (Option QueueFields) 64) (nodes : Vector (Option Slot) 63) (c : Nat) :
    Option Slot :=
  if h : 64 ≤ c ∧ c < 128 then
    let p : Slot := ⟨c - 64, by omega⟩
    if leaves[p].isSome then some p else none
  else nodes[c - 1]?.join

/-- Node `n` decided from its two children (R78). -/
def decideNode (leaves : Vector (Option QueueFields) 64) (nodes : Vector (Option Slot) 63) (n : Nat) :
    Option Slot :=
  winner leaves (childWinner leaves nodes (2 * n)) (childWinner leaves nodes (2 * n + 1))

/-- The six nodes on the path from leaf `p` to the root, bottom to top (R79). -/
def pathNodes (p : Slot) : List Nat :=
  [(64 + p.val) / 2, (64 + p.val) / 4, (64 + p.val) / 8, (64 + p.val) / 16, (64 + p.val) / 32,
    (64 + p.val) / 64]

/-- The nodes after the path from leaf `p` to the root has been decided again (R79). -/
def replay (leaves : Vector (Option QueueFields) 64) (nodes : Vector (Option Slot) 63) (p : Slot) :
    Vector (Option Slot) 63 :=
  (pathNodes p).foldl (fun ns n => ns.setIfInBounds (n - 1) (decideNode leaves ns n)) nodes

/-- PSEL with leaf `p` holding `leaf`: a leaf that changes is written and its path replayed (R79). -/
def Psel.setLeaf (ps : Psel) (p : Slot) (leaf : Option QueueFields) : Psel :=
  if ps.leaves[p] = leaf then ps
  else
    let leaves := ps.leaves.set p leaf
    { ps with leaves := leaves, nodes := replay leaves ps.nodes p }

/-- The head: the slot the root holds (R81). -/
def Psel.head (ps : Psel) : Option Slot := ps.nodes[0]

/-- The total queued count: the sum of the tenants' counts (R83). -/
def Psel.total (ps : Psel) : Nat := ps.queued.toList.sum

/-- One more queued record of tenant `t`, when there is one to count (R82). -/
def Psel.countUp (ps : Psel) : Option Tenant → Psel
  | none => ps
  | some t => { ps with queued := ps.queued.set t (ps.queued[t] + 1) }

/-- One queued record less of tenant `t`, when there is one to take off (R82). -/
def Psel.countDown (ps : Psel) : Option Tenant → Psel
  | none => ps
  | some t => { ps with queued := ps.queued.set t (ps.queued[t] - 1) }

/-- PSEL emptied by RESTART (R86): the working settings are kept. -/
def Psel.restart (ps : Psel) : Psel :=
  { Psel.reset with working := ps.working }

end Sys2Proof.Machine
end

