-- ==== Sys2Proof/Machine/Flags.lean ====
section
/-! DEFINITION. The flags, notices and requests that the blocks raise to one another: the chirp and
recall-tone requests (R154, R155), the notice slots (R169), the reply group (R168) and the flow-control
comparison (R167). -/

namespace Sys2Proof.Machine

/-- The position is frozen: the link is DOWN (R175). -/
def State.frozen (s : State) : Bool := decide (s.sli.link = .down)

/-- Timers, aging, retries and auto-answer are held (R175, R177). -/
def State.isHeld (s : State) : Bool := s.frozen || s.ccc.resync

/-- A chirp request (R154): ignored while a chirp is playing. -/
def State.requestChirp (s : State) : State :=
  if s.ind.chirp = none then { s with ind.chirpReq := true } else s

/-- A recall tone request (R155). -/
def State.requestRecallTone (s : State) : State := { s with ind.recallReq := true }

/-- A reply placed at the tail of the reply group (R168). -/
def State.reply (s : State) (r : Reply) : State :=
  { s with sli.replies := s.sli.replies ++ [r] }

/-- A LINK-FAULT notice raised (R169). -/
def State.linkFault (s : State) (k : LinkFault) (ref : Word) : State :=
  { s with sli.linkNotice := some (k, ref) }

/-- An ORDER-FAULT notice raised (R68, R169). -/
def State.orderNotice (s : State) (k : OrderFault) (ref : Word) : State :=
  { s with sli.orderNotice := some (k, ref) }

/-- The position state changed, with its POSITION-STATE notice (R128); a state that is kept raises none. -/
def State.setPosition (s : State) (p : PosState) : State :=
  if s.pos.state = p then s else { s with pos.state := p, sli.posNotice := some p }

/-- HALT becomes the pending control character and the halted-sent flag is set; a GO not yet sent is
withdrawn instead (R167). -/
def Sli.askHalt (l : Sli) : Sli :=
  { l with haltedSent := true, control := if l.control = some .go then none else some .halt }

/-- GO becomes the pending control character and the halted-sent flag is cleared; a HALT not yet sent is
withdrawn instead (R167). -/
def Sli.askGo (l : Sli) : Sli :=
  { l with haltedSent := false, control := if l.control = some .halt then none else some .go }

/-- The comparison of the inbound count with the marks as POS holds them, at a change of the count
(R167). -/
def State.compareFlow (s : State) : State :=
  let n := s.sli.inbound.length
  if s.pos.settings.highMark ≤ n ∧ s.sli.haltedSent = false then { s with sli := s.sli.askHalt }
  else if n ≤ s.pos.settings.lowMark ∧ s.sli.haltedSent = true then { s with sli := s.sli.askGo }
  else s

end Sys2Proof.Machine
end

