-- ==== Sys2Proof/Machine/Ops.lean ====
section
/-! DEFINITION. The named operations over the call table and what hangs on it: reading and writing a slot
(with the reference index, PSEL's leaf and the queued counts kept in the same step), custody timers,
issue and end of orders, retirement, resync entry and the close of the position. -/

namespace Sys2Proof.Machine

/-! ### Reading a slot -/

/-- The record of a LIVE slot. -/
def SlotState.record? : SlotState → Option Record
  | .live r => some r
  | _ => none

/-- The reference that a slot's record holds (R5). -/
def SlotState.ref? (c : SlotState) : Option Word := c.record?.map Record.ref

/-- The tenant whose queued count includes the slot (R82): its record is QUEUED. -/
def SlotState.queuedTenant (c : SlotState) : Option Tenant :=
  match c with
  | .live r => if r.state = .queued then some r.tenant else none
  | _ => none

/-- What the slot's leaf holds (R78): the queue fields of a QUEUED record with no pending order. -/
def SlotState.leaf (c : SlotState) : Option QueueFields :=
  match c with
  | .live r => if r.state = .queued ∧ r.order = none then r.queue else none
  | _ => none

/-- The condition of slot `p`. -/
def State.slot (s : State) (p : Slot) : SlotState := s.ccc.table[p]

/-- The live record of slot `p`. -/
def State.record? (s : State) (p : Slot) : Option Record := (s.slot p).record?

/-- The slot of the live record that holds a reference (R6). -/
def State.lookup (s : State) (ref : Word) : Option Slot :=
  (s.ccc.index.find? fun e => e.1 = ref).map Prod.snd

/-- The live count (R1). -/
def State.liveCount (s : State) : Nat := (slots.filter fun p => (s.record? p).isSome).length

/-- The slot the free pool hands out: the lowest FREE slot (R3). -/
def State.lowestFree (s : State) : Option Slot := slots.find? fun p => s.slot p = .free

/-- The record is ACTIVE or SETUP: it is the headset record (R24). -/
def Record.onHeadset (r : Record) : Bool := decide (r.state = .active ∨ r.state = .setup)

/-- The slot of the headset record (R24). -/
def State.headset (s : State) : Option Slot :=
  slots.find? fun p => (s.record? p).any Record.onHeadset

/-- The head (R81). -/
def State.head (s : State) : Option Slot := s.psel.head

/-- The profile of a tenant (R132). -/
def State.profile (s : State) (t : Tenant) : Profile := s.pos.profiles[t]

/-! ### Writing a slot -/

/-- The reference index with an entry added at its place in the order of references (R5). -/
def insertRef (w : Word) (p : Slot) : List (Word × Slot) → List (Word × Slot)
  | [] => [(w, p)]
  | e :: es => if w.toNat ≤ e.1.toNat then (w, p) :: e :: es else e :: insertRef w p es

/-- The reference index after slot `p` went from holding reference `old` to holding `new` (R5). -/
def reindex (ix : List (Word × Slot)) (p : Slot) (old new : Option Word) : List (Word × Slot) :=
  if old = new then ix
  else
    let ix := match old with
      | none => ix
      | some w => ix.filter fun e => e.1 ≠ w
    match new with
    | none => ix
    | some w => insertRef w p ix

/-- Slot `p` takes the condition `c`. The reference index (R5), the tenants' queued counts (R82) and the
slot's leaf with its path to the root (R79) follow in the same step. -/
def State.put (s : State) (p : Slot) (c : SlotState) : State :=
  { s with
    ccc.table := s.ccc.table.set p c
    ccc.index := reindex s.ccc.index p (s.slot p).ref? c.ref?
    psel := ((s.psel.countUp c.queuedTenant).countDown (s.slot p).queuedTenant).setLeaf p c.leaf }

/-- The live record of slot `p` changed by `f`; nothing where the slot holds none. -/
def State.update (s : State) (p : Slot) (f : Record → Record) : State :=
  match s.record? p with
  | some r => s.put p (.live (f r))
  | none => s

/-! ### Loops and orbits (R12, R25, R26) -/

/-- The loop that a pending order has reserved. -/
def Record.reservedLoop (r : Record) : Option Loop := r.order.bind Order.reservedLoop

/-- The orbit that a pending order has reserved. -/
def Record.reservedOrbit (r : Record) : Option Orbit := r.order.bind Order.reservedOrbit

/-- Loop `k` is free: no live record carries it and no pending order has reserved it (R12). -/
def State.loopFree (s : State) (k : Loop) : Bool :=
  slots.all fun p => (s.record? p).all fun r => r.loop ≠ some k && r.reservedLoop ≠ some k

/-- Orbit `o` is free: no live record carries it and no pending order has reserved it (R97). -/
def State.orbitFree (s : State) (o : Orbit) : Bool :=
  slots.all fun p => (s.record? p).all fun r => r.orbit ≠ some o && r.reservedOrbit ≠ some o

/-- The lowest free loop (R12). -/
def State.lowestLoop (s : State) : Option Loop := loops.find? s.loopFree

/-- The lowest free orbit (R97). -/
def State.lowestOrbit (s : State) : Option Orbit := orbits.find? s.orbitFree

/-- The number of free loops (R25). -/
def State.freeLoops (s : State) : Nat := (loops.filter s.loopFree).length

/-- The number of free orbits (R26). -/
def State.freeOrbits (s : State) : Nat := (orbits.filter s.orbitFree).length

/-- The slot of the record that carries loop `k`. -/
def State.onLoop (s : State) (k : Loop) : Option Slot :=
  slots.find? fun p => (s.record? p).any fun r => r.loop = some k

/-- The slot of the record that is PARKED at orbit `o`. -/
def State.parkedAt (s : State) (o : Orbit) : Option Slot :=
  slots.find? fun p => (s.record? p).any fun r => r.state = .parked && r.orbit = some o

/-! ### Custody timers (R113 to R116) -/

/-- The kind of timer that a custody state has (R22, R114). -/
def Custody.timerKind : Custody → Option TimerKind
  | .held => some .hold
  | .parked => some .park
  | .camped => some .camp
  | .extended => some .noAnswer
  | .queued | .active | .setup => none

/-- A tenant's reload of a timer kind (R114). -/
def Profile.reload (f : Profile) : TimerKind → Nat
  | .hold => f.holdReload
  | .park => f.parkReload
  | .camp => f.campReload
  | .noAnswer => f.noAnswerReload

/-- The timer as a record enters a custody state (R114, R115): armed from the reload of the state's kind,
and stopped where the state has no kind or the reload is 0. -/
def timerFor (f : Profile) (st : Custody) : Timer :=
  match st.timerKind with
  | none => Timer.stopped
  | some k =>
    if f.reload k = 0 then Timer.stopped
    else { kind := some k, remaining := f.reload k, waiting := false, owed := none, reported := false }

/-- The custody timer of slot `p`. -/
def State.timer (s : State) (p : Slot) : Timer := s.tbt.timers[p]

/-- The custody timer of slot `p` replaced. -/
def State.setTimer (s : State) (p : Slot) (t : Timer) : State :=
  { s with tbt.timers := s.tbt.timers.set p t }

/-- Slot `p`'s timer armed for its record's present state (R114). -/
def State.armTimer (s : State) (p : Slot) : State :=
  match s.record? p with
  | some r => s.setTimer p (timerFor (s.profile r.tenant) r.state)
  | none => s

/-- The timer's expiry or its order waits (R117): remaining 0, the flag set. -/
def Timer.wait (t : Timer) : Timer :=
  { t with remaining := 0, waiting := true, owed := none, reported := false }

/-- The timer left spent: it has expired and acted (R113). -/
def Timer.spend (t : Timer) : Timer :=
  { t with remaining := 0, waiting := false, owed := none, reported := false }

/-- The timer is spent (R113). One whose expiry has been reported and not yet taken has not acted, and is not
(log entry 32). -/
def Timer.isSpent (t : Timer) : Bool :=
  t.kind.isSome && t.remaining == 0 && !t.waiting && !t.reported

/-- The timer is counting (R116). -/
def Timer.isCounting (t : Timer) : Bool := t.kind.isSome && decide (0 < t.remaining) && !t.waiting

/-- A timer that owes an order of expiry kind `k` (R67, R120). -/
def Timer.owing (k : Option TimerKind) (o : Owed) : Timer :=
  { kind := k, remaining := 0, waiting := true, owed := some o, reported := false }

/-- Slot `p`'s live record becomes `r`, which has entered a custody state: the timer of the old state is
stopped and that of the new one armed in the same step (R114, R115). -/
def State.enter (s : State) (p : Slot) (r : Record) : State :=
  (s.put p (.live r)).setTimer p (timerFor (s.profile r.tenant) r.state)

/-! ### Entry into QUEUED (R72, R75) -/

/-- The record as it enters QUEUED: the next seq, a wait of 0 and the key of that wait (R72). -/
def State.queuedRecord (s : State) (r : Record) : Record :=
  { r with
    state := .queued, loop := none, orbit := none, recallAlert := false
    queue := some { seq := s.psel.seq, wait := 0, key := r.keyAt s.psel.working 0 } }

/-- Slot `p`'s record `r` enters QUEUED and the sequence counter moves on (R72, R75). -/
def State.enterQueued (s : State) (p : Slot) (r : Record) : State :=
  { s with psel.seq := s.psel.seq + 1 }.enter p (s.queuedRecord r)

/-! ### Orders: issue (R50, R51) -/

/-- An order of a kind, with nothing reserved and no secondary. -/
def Order.new (k : OrderKind) : Order :=
  { kind := k, stage := .awaitingLine, secondary := none, reservedLoop := none, reservedOrbit := none
    reservedSlot := none, digits := [], expiryKind := none, tenant := none, confirmTimer := none }

/-- The order takes the headset claim (R52): CONNECT, DIAL and a CLEAR that reconnects its secondary. -/
def Order.takesClaim (o : Order) : Bool :=
  match o.kind with
  | .connect | .dial => true
  | .clear => o.secondary.isSome
  | _ => false

/-- The issue of the order clears the dial buffer (R51). -/
def Order.clearsDial (o : Order) : Bool :=
  match o.kind with
  | .extend | .dial | .park => true
  | _ => false

/-- The record has neither a pending order nor a lock. -/
def Record.unfenced (r : Record) : Bool := r.order.isNone && r.lock.isNone

/-- Slot `p` holds a live record that has neither a pending order nor a lock. -/
def State.unfenced (s : State) (p : Slot) : Bool := (s.record? p).any Record.unfenced

/-- The conditions of R50 that every order shares: link UP, no resync, room in the order group, primary
and secondary without a pending order or a lock, and no claim where the kind takes one. The resources a
kind reserves are found free by the command that issues it. -/
def State.mayIssue (s : State) (p : Slot) (o : Order) : Bool :=
  !s.isHeld && decide (s.sli.orders.length < Config.orderRoom) && s.unfenced p
    && o.secondary.all s.unfenced && (!o.takesClaim || s.ccc.claim.isNone)

/-- The slot that a DIAL reserves becomes RESERVED with the primary as owner (R51). -/
def State.reserveSlot (s : State) (p : Slot) (o : Order) : State :=
  match o.reservedSlot with
  | some f => s.put f (.reserved p)
  | none => s

/-- The lock on a secondary set to `l` (R53). -/
def State.setLock (s : State) (q : Option Slot) (l : Option Slot) : State :=
  match q with
  | some q => s.update q fun r => { r with lock := l }
  | none => s

/-- The issue of order `o` on primary `p` (R51). -/
def State.issueOrder (s : State) (p : Slot) (o : Order) : State :=
  let note := if s.headset = some p then none else s.ccc.note
  let s := s.reserveSlot p o
  let s := s.update p fun r => { r with order := some o }
  let s := s.setLock o.secondary (some p)
  { s with
    ccc.claim := if o.takesClaim then some p else s.ccc.claim
    ccc.note := note
    ksc.dial := if o.clearsDial then [] else s.ksc.dial
    sli.orders := s.sli.orders ++ [p] }

/-! ### Orders: the end of an order (R58, R66) -/

/-- The slot that a DIAL had reserved becomes FREE again (R2). -/
def State.releaseSlot (s : State) (p : Slot) (o : Order) : State :=
  match o.reservedSlot with
  | some f => if s.slot f = .reserved p then s.put f .free else s
  | none => s

/-- The claim is cleared when `p` holds it (R52). -/
def State.dropClaim (s : State) (p : Slot) : State :=
  if s.ccc.claim = some p then { s with ccc.claim := none } else s

/-- The order on `p` is withdrawn from the order group if it is AWAITING LINE (R54). -/
def State.withdraw (s : State) (p : Slot) (o : Order) : State :=
  if o.stage = .awaitingLine then { s with sli.orders := s.sli.orders.filter (· ≠ p) } else s

/-- The order pending on `p` ends, in whatever way (R58, R66, R17): it is withdrawn if it still waits for
the line, its reservations, its lock and its claim are released, and the field on its primary is cleared,
which fills a QUEUED primary's leaf again. -/
def State.endOrder (s : State) (p : Slot) : State :=
  match (s.record? p).bind Record.order with
  | none => s
  | some o =>
    let s := s.withdraw p o
    let s := s.releaseSlot p o
    let s := s.setLock o.secondary none
    let s := s.dropClaim p
    s.update p fun r => { r with order := none }

/-- What a cancelled order of a kind leaves owed (R67). -/
def OrderKind.owes : OrderKind → Option Owed
  | .recall => some .recall
  | .divert => some .divert
  | _ => none

/-- The order pending on `p` is cancelled (R66): a RECALL or DIVERT is left owed on the slot's timer
(R67, R120). -/
def State.cancelOrder (s : State) (p : Slot) : State :=
  match (s.record? p).bind Record.order with
  | none => s
  | some o =>
    let s := s.endOrder p
    match o.kind.owes with
    | some w => s.setTimer p (Timer.owing o.expiryKind w)
    | none => s

/-- Every pending order is cancelled and the headset claim cleared (R66, R175, R176). -/
def State.cancelAll (s : State) : State :=
  let s := slots.foldl State.cancelOrder s
  { s with ccc.claim := none }

/-! ### Retirement (R17) -/

/-- The retiring record is dropped as secondary from the order of `q`, the slot its lock names; a CLEAR
that would have reconnected it loses its claim too (R17, step 4; R52). -/
def State.dropSecondary (s : State) (q : Option Slot) : State :=
  match q with
  | none => s
  | some q =>
    let clears := ((s.record? q).bind Record.order).any fun o => o.kind = .clear
    let s := s.update q fun r => { r with order := r.order.map fun o => { o with secondary := none } }
    if clears then s.dropClaim q else s

/-- The partner field of slot `q`'s record cleared (R14). -/
def State.unlinkPartner (s : State) (q : Option Slot) : State :=
  match q with
  | none => s
  | some q => s.update q fun r => { r with partner := none }

/-- The outcome note cleared (R62). -/
def State.clearNote (s : State) : State := { s with ccc.note := none }

/-- Retirement of the live record in slot `p` (R17). -/
def State.retire (s : State) (p : Slot) : State :=
  match s.record? p with
  | none => s
  | some r =>
    let s := s.endOrder p
    let s := s.dropSecondary r.lock
    let s := s.unlinkPartner r.partner
    let s := s.setTimer p Timer.stopped
    let s := s.put p .free
    if r.onHeadset then s.clearNote else s

/-- A CLOSING position becomes CLOSED in the step that leaves no live record (R127). It is taken at the
end of the step (log entry 16). -/
def State.closeIfEmpty (s : State) : State :=
  if s.pos.state = .closing ∧ s.liveCount = 0 then s.setPosition .closed else s

/-! ### Resync and faults (R68, R175, R176) -/

/-- Every record's audit mark is cleared and its audit partner ref set to 0 (R176, R180). -/
def State.clearMarks (s : State) : State :=
  slots.foldl (fun s p => s.update p fun r => { r with marked := false, auditPartner := 0 }) s

/-- Entry to resync (R176); nothing where one is under way. -/
def State.enterResync (s : State) : State :=
  if s.ccc.resync then s
  else
    let s := { s with ccc.resync := true }
    let s := s.cancelAll
    let s := s.clearMarks
    { s with sli.auditNotice := true }

/-- An ORDER-FAULT is raised, and a resync started when none is under way (R68, R42). -/
def State.orderFault (s : State) (k : OrderFault) (ref : Word) : State :=
  (s.orderNotice k ref).enterResync

/-- A call event that does not fit its record (R42). -/
def State.mismatch (s : State) (ref : Word) : State := s.orderFault .mismatch ref

/-- The link enters DOWN: the received-HALT flag is cleared (R171), every pending order is cancelled and
the claim cleared (R175). -/
def State.linkDown (s : State) : State :=
  { s with sli.link := .down, sli.haltedBy := false }.cancelAll

/-- A valid message has been queued: the supervision count restarts, and a link that was DOWN becomes UP,
which starts a resync (R171, R176). -/
def State.linkAlive (s : State) : State :=
  if s.sli.link = .down then { s with sli.supCount := 0, sli.link := .up }.enterResync
  else { s with sli.supCount := 0 }

/-! ### STATUS (R172) -/

/-- The reference of slot `p`'s record, 0 where there is none (R174). -/
def State.refAt (s : State) (p : Option Slot) : Word :=
  ((p.bind s.record?).map Record.ref).getD 0

/-- The values a STATUS carries, as they stand (R172). -/
def State.statusValues (s : State) : StatusValues :=
  { position := s.pos.state, linkUp := decide (s.sli.link = .up), resync := s.ccc.resync
    live := s.liveCount, queued := s.psel.total, headRef := s.refAt s.head
    freeLoops := s.freeLoops, freeOrbits := s.freeOrbits }

/-! ### Handing on a message (R166) -/

/-- The head of the inbound queue is handed on to its owner `take` when its kind is `ours` and the reply
group has a free entry (R166). The change of the inbound count is compared at the end of the step, with
the marks as the message leaves them (R167; log entry 17). Otherwise nothing happens (log entry 1). -/
def State.handOn (s : State) (ours : Byte → Bool) (take : List Byte → State → State) : State :=
  match s.sli.inbound with
  | [] => s
  | b :: rest =>
    if ours (kindOf b) ∧ s.sli.replies.length < Config.replyRoom then
      (take b { s with sli.inbound := rest }).compareFlow
    else s

end Sys2Proof.Machine
end

