-- ==== Sys2Proof/Machine/Audit.lean ====
section
/-! DEFINITION. The audit and the restart (R178 to R181): AUDIT-ENTRY with its tests and its effects,
AUDIT-END with the linking of pairs, and RESTART. -/

namespace Sys2Proof.Machine

/-! ### AUDIT-ENTRY: the tests (R178) -/

/-- The state needs a loop (R12). -/
def Custody.needsLoop (st : Custody) : Bool := decide (st = .active ∨ st = .held ∨ st = .setup)

/-- The state is a headset state (R24). -/
def Custody.onHeadset (st : Custody) : Bool := decide (st = .active ∨ st = .setup)

/-- The first slot other than `own` whose live record satisfies `f`. -/
def State.findOther (s : State) (own : Option Slot) (f : Record → Bool) : Option Slot :=
  slots.find? fun p => decide (some p ≠ own) && (s.record? p).any f

/-- The record is PARKED at the orbit `o`. -/
def Record.parkedOn (r : Record) (o : Option Orbit) : Bool :=
  decide (r.state = .parked) && r.orbit.isSome && decide (r.orbit = o)

/-- The unmarked record other than the entry's own that is PARKED at the entry's orbit: the entry retires it
(R179). -/
def State.displacedParked (s : State) (own : Option Slot) (e : EntryBody) : Option Slot :=
  if e.state = .parked then s.findOther own fun r => !r.marked && r.parkedOn e.orbit else none

/-- The unmarked record other than the entry's own that is on the headset, when the entry places its record
there: the entry holds it (R179). -/
def State.displacedHeadset (s : State) (own : Option Slot) (e : EntryBody) : Option Slot :=
  if e.state.onHeadset then s.findOther own fun r => !r.marked && r.onHeadset else none

/-- The leg of the entry's record: an existing record keeps its own, a new one has it by the rule of R7. -/
def State.entryLeg (s : State) (own : Option Slot) (e : EntryBody) : Leg :=
  match own.bind s.record? with
  | some r => r.leg
  | none => e.leg

/-- The entry's record carries a loop already. -/
def State.ownLoop (s : State) (own : Option Slot) : Option Loop :=
  (own.bind s.record?).bind Record.loop

/-- The first test that an AUDIT-ENTRY fails, with its reason (R178). -/
def State.entryRefusal (s : State) (own : Option Slot) (body : Option EntryBody) : Option Reason :=
  if s.pos.state = .closed then some .closed
  else if !s.ccc.resync then some .resync
  else
    match body with
    | none => some .malformed
    | some e =>
      if e.state = .setup ∧ s.entryLeg own e = .incoming then some .malformed
      else if e.state.onHeadset ∧ (s.findOther own fun r => r.marked && r.onHeadset).isSome then
        some .conflict
      else if e.state = .parked ∧ (s.findOther own fun r => r.marked && r.parkedOn e.orbit).isSome then
        some .conflict
      else if own.isNone ∧ s.lowestFree.isNone ∧ (s.displacedParked own e).isNone then some .full
      else if e.state.needsLoop ∧ (s.ownLoop own).isNone ∧ s.lowestLoop.isNone then some .conflict
      else none

/-! ### AUDIT-ENTRY: the effects (R179) -/

/-- The recall count an entry stores: above 3 it is taken as 3 (R9). -/
def EntryBody.storedCount (e : EntryBody) : Nat := min e.recallCount 3

/-- An unmarked record on the headset is held on its loop (R179). -/
def State.holdDisplaced (s : State) (q : Option Slot) : State :=
  match q with
  | none => s
  | some q =>
    match s.record? q with
    | none => s
    | some r => (s.enter q { r with state := .held }).clearNote

/-- An unmarked record PARKED at the entry's orbit is retired (R179). -/
def State.retireDisplaced (s : State) (q : Option Slot) : State :=
  match q with
  | none => s
  | some q => s.retire q

/-- The record that an entry creates (R7), but for its loop and queue fields. -/
def EntryBody.newRecord (e : EntryBody) (ref : Word) : Record :=
  { ref := ref, state := e.state, leg := e.leg, tenant := e.tenant, cls := e.cls
    recallCount := e.storedCount, number := e.number, name := [], queue := none, loop := none
    destination :=
      if e.state = .extended ∨ e.state = .camped ∨ e.leg = .dialled then some e.destination else none
    orbit := e.orbit
    farEnd :=
      if e.leg = .dialled then some (if e.state = .setup then .proceeding else .answered) else none
    partner := none, recallAlert := false, order := none, lock := none
    marked := true, auditPartner := e.partnerRef }

/-- The destination of an existing record after an entry (R179): a DIALLED leg restated with none keeps its
own, an INCOMING record carries one in EXTENDED and CAMPED only. -/
def EntryBody.destinationFor (e : EntryBody) (r : Record) : Option (List Digit) :=
  if r.leg = .dialled then (if e.destination = [] then r.destination else some e.destination)
  else if e.state = .extended ∨ e.state = .camped then some e.destination
  else none

/-- The far-end status of an existing record after an entry (R179). -/
def EntryBody.farEndFor (e : EntryBody) (r : Record) : Option FarEnd :=
  if r.leg = .incoming then r.farEnd
  else if e.state ≠ .setup then some .answered
  else if r.state = .setup then r.farEnd
  else some .proceeding

/-- An existing record restated by an entry (R179), but for its loop and queue fields. -/
def EntryBody.restated (e : EntryBody) (r : Record) : Record :=
  { r with
    state := e.state, tenant := e.tenant, cls := e.cls, recallCount := e.storedCount
    number := e.number, destination := e.destinationFor r, farEnd := e.farEndFor r
    orbit := e.orbit, partner := none
    recallAlert := r.recallAlert && decide (r.state = .held ∧ e.state = .held)
    marked := true, auditPartner := e.partnerRef }

/-- The loop of a record in state `st` that carried `own` (R179). -/
def State.entryLoop (s : State) (st : Custody) (own : Option Loop) : Option Loop :=
  if st.needsLoop then (if own.isSome then own else s.lowestLoop) else none

/-- The entry's record placed in slot `p`, entering its state: into QUEUED with a new seq (R72), into any
other with the loop it needs and the timer of the state's kind (R114). -/
def State.placeEntry (s : State) (p : Slot) (r : Record) (own : Option Loop) : State :=
  if r.state = .queued then s.enterQueued p r
  else s.enter p { r with queue := none, loop := s.entryLoop r.state own }

/-- An accepted entry for a reference not in the index: a record is created in the lowest FREE slot. -/
def State.createEntry (s : State) (ref : Word) (e : EntryBody) : State :=
  match s.lowestFree with
  | none => s
  | some p =>
    let s := s.placeEntry p (e.newRecord ref) none
    if e.state.onHeadset then s.clearNote else s

/-- The outcome note goes when the record leaves ACTIVE or the headset record changes (R62, R179). -/
def State.noteAfterEntry (s : State) (was now : Custody) : State :=
  if was.onHeadset ∨ now.onHeadset then (if was = now then s else s.clearNote) else s

/-- An accepted entry for the known record `r` in slot `p`. A change of state enters the new state, and an
unchanged one keeps the timer and, for QUEUED, seq, wait and key (R179, R74). -/
def State.restateEntry (s : State) (p : Slot) (r : Record) (e : EntryBody) : State :=
  let s := s.unlinkPartner r.partner
  let r' := e.restated r
  let s :=
    if r.state = e.state then s.put p (.live { r' with loop := s.entryLoop e.state r.loop })
    else s.placeEntry p r' r.loop
  s.noteAfterEntry r.state e.state

/-- An accepted entry (R179): the records it displaces are settled first, then its own is created or
restated. -/
def State.acceptEntry (s : State) (own : Option Slot) (ref : Word) (e : EntryBody) : State :=
  let s := (s.holdDisplaced (s.displacedHeadset own e)).retireDisplaced (s.displacedParked own e)
  match own with
  | none => s.createEntry ref e
  | some p =>
    match s.record? p with
    | none => s
    | some r => s.restateEntry p r e

/-- An AUDIT-ENTRY taken by the CCC (R178, R179). -/
def State.takeEntry (b : List Byte) (s : State) : State :=
  let ref := refOf b
  let body := readEntry b
  let own := s.lookup ref
  match s.entryRefusal own body, body with
  | none, some e =>
    ((s.acceptEntry own ref e).closeIfEmpty).reply (.ack (tagOf b) ref (decide (3 < e.recallCount)))
  | some why, _ => s.reply (.refuse (tagOf b) ref why)
  | none, none => s

/-- AUDIT_ENTRY (R178). -/
def execAuditEntry (s : State) : Host.Outcome State Fault Refusal :=
  .next (s.handOn (· = kindAuditEntry) State.takeEntry)

/-! ### AUDIT-END (R180) -/

/-- Every live record without the audit mark is retired (R180, step 1). -/
def State.retireUnmarked (s : State) : State :=
  slots.foldl (fun s p => if (s.record? p).any fun r => !r.marked then s.retire p else s) s

/-- Two records may be linked as partners (R180, step 2): each names the other, one is DIALLED and the other
INCOMING, and at most one is not HELD, which is then ACTIVE or SETUP. -/
def mayLink (a b : Record) : Bool :=
  decide (a.auditPartner = b.ref ∧ b.auditPartner = a.ref ∧ a.leg ≠ b.leg)
    && ((decide (a.state = .held) && (decide (b.state = .held) || b.onHeadset))
      || (a.onHeadset && decide (b.state = .held)))

/-- The slot of the record that slot `p`'s is linked with at AUDIT-END, by the table as step 1 left it. -/
def State.linkOf (s : State) (p : Slot) : Option Slot :=
  match s.record? p with
  | none => none
  | some a =>
    (s.lookup a.auditPartner).filter fun q => decide (q ≠ p) && (s.record? q).any fun b => mayLink a b

/-- Every partner field cleared, and set afresh where two records name each other (R180, step 2). -/
def State.relink (s : State) : State :=
  slots.foldl (fun t p => t.update p fun r => { r with partner := s.linkOf p }) s

/-- An AUDIT-END taken by the CCC (R180). -/
def State.takeEnd (b : List Byte) (s : State) : State :=
  let s := if s.ccc.resync then
      let s := s.retireUnmarked.relink.clearMarks
      { s with ccc.resync := false }.closeIfEmpty
    else s
  s.reply (.ack (tagOf b) (refOf b) false)

/-- AUDIT_END (R180). -/
def execAuditEnd (s : State) : Host.Outcome State Fault Refusal :=
  .next (s.handOn (· = kindAuditEnd) State.takeEnd)

/-! ### RESTART (R181) -/

/-- The tones cleared (R160). -/
def Ind.quiet (i : Ind) : Ind :=
  { i with
    chirpReq := false, chirp := none, recallReq := false, recallEpoch := false
    burst := { i.burst with running := false, position := 0, assigned := false } }

/-- What RESTART empties (R181): the table with its index, claim and notes (R21), PSEL (R86), the custody
timers (R113), the key queue and the dial buffer (R145), the tones (R160), the order group and the notice
slots (R173), and the resync flag. -/
def State.emptied (s : State) : State :=
  { s with
    ccc := Ccc.reset
    psel := s.psel.restart
    tbt.timers := Tbt.reset.timers
    ksc.queue := [], ksc.dial := []
    ind := s.ind.quiet
    sli.orders := [], sli.auditNotice := false, sli.posNotice := none, sli.orderNotice := none
    sli.linkNotice := none }

/-- A RESTART taken by the CCC (R181): a CLOSING position becomes CLOSED, its notice standing in the emptied
slots (R127, R136). -/
def State.takeRestart (b : List Byte) (s : State) : State :=
  s.emptied.closeIfEmpty.reply (.ack (tagOf b) (refOf b) false)

/-- RESTART (R181). -/
def execRestart (s : State) : Host.Outcome State Fault Refusal :=
  .next (s.handOn (· = kindRestart) State.takeRestart)

end Sys2Proof.Machine
end

