-- ==== Sys2Proof/Machine/Keys.lean ====
section
/-! DEFINITION. The attendant's keys (R87 to R104): each command takes its key event from the head of the
key event queue, and issues an order, acts without one, or is refused with a chirp. -/

namespace Sys2Proof.Machine

/-- The key event at the head of the queue is taken when it is `e`, whatever its outcome (R87). Where
another event or none stands there, nothing happens (log entry 1). -/
def State.takeKey (s : State) (e : KeyEvent) (act : State → State) : State :=
  match s.ksc.queue with
  | [] => s
  | x :: rest => if x = e then act { s with ksc.queue := rest } else s

/-- The keys other than POSITION are refused: position CLOSED, frozen, or a resync under way (R88). -/
def State.keysBarred (s : State) : Bool := decide (s.pos.state = .closed) || s.isHeld

/-- A key refused (R87): a chirp is requested and nothing else changes. -/
def State.refuseKey (s : State) : State := s.requestChirp

/-- A key that would issue order `o` on `p`: it is refused where R50 or R89 does not allow it. -/
def State.keyIssues (s : State) (p : Slot) (o : Order) : State :=
  if s.mayIssue p o then s.issueOrder p o else s.refuseKey

/-- A key other than POSITION taken from the queue and judged by R88 first. -/
def State.attendantKey (s : State) (e : KeyEvent) (act : State → State) : State :=
  s.takeKey e fun s => if s.keysBarred then s.refuseKey else act s

/-- The headset record with its slot. -/
def State.headsetRecord (s : State) : Option (Slot × Record) :=
  s.headset.bind fun p => (s.record? p).map fun r => (p, r)

/-- The headset record, when it is ACTIVE. -/
def State.activeRecord (s : State) : Option (Slot × Record) :=
  s.headsetRecord.filter fun x => x.2.state = .active

/-- The headset record is in SETUP: it cannot be displaced (R90). -/
def State.headsetInSetup (s : State) : Bool := s.headsetRecord.any fun x => x.2.state = .setup

/-- A CONNECT with the headset record, if any, as secondary (R50, R90). -/
def State.connectOrder (s : State) (loop : Option Loop) : Order :=
  { Order.new .connect with secondary := s.headset, reservedLoop := loop }

/-! ### Taking calls onto the headset -/

/-- ANSWER judged (R90). -/
def State.answerKey (s : State) : State :=
  match s.head, s.lowestLoop with
  | some h, some k =>
    if s.headsetInSetup then s.refuseKey else s.keyIssues h (s.connectOrder (some k))
  | _, _ => s.refuseKey

/-- ANSWER (R90). -/
def execAnswer (s : State) : Host.Outcome State Fault Refusal :=
  .next (s.attendantKey .answer State.answerKey)

/-- Loop key `k` judged (R91, R92). -/
def State.loopKeyJudged (k : Loop) (s : State) : State :=
  match s.onLoop k with
  | none => s.refuseKey
  | some p =>
    match s.record? p with
    | none => s.refuseKey
    | some r =>
      if r.state = .held then
        if s.headsetInSetup then s.refuseKey else s.keyIssues p (s.connectOrder none)
      else if r.unfenced then s
      else s.refuseKey

/-- LOOP_KEY (R91, R92). -/
def execLoopKey (k : Loop) (s : State) : Host.Outcome State Fault Refusal :=
  .next (s.attendantKey (.loop k) (State.loopKeyJudged k))

/-- RETRIEVE judged (R93): the dial buffer is cleared where the order is issued. -/
def State.retrieveKey (s : State) : State :=
  match s.ksc.dial with
  | [d] =>
    match s.parkedAt d, s.lowestLoop with
    | some p, some k =>
      let o := s.connectOrder (some k)
      if s.headsetInSetup then s.refuseKey
      else if s.mayIssue p o then { s.issueOrder p o with ksc.dial := [] }
      else s.refuseKey
    | _, _ => s.refuseKey
  | _ => s.refuseKey

/-- RETRIEVE (R93). -/
def execRetrieve (s : State) : Host.Outcome State Fault Refusal :=
  .next (s.attendantKey .retrieve State.retrieveKey)

/-! ### Holding and releasing -/

/-- HOLD judged (R94). -/
def State.holdKeyJudged (s : State) : State :=
  match s.activeRecord with
  | some (p, _) => s.keyIssues p (Order.new .hold)
  | none => s.refuseKey

/-- HOLD_KEY (R94). -/
def execHoldKey (s : State) : Host.Outcome State Fault Refusal :=
  .next (s.attendantKey .hold State.holdKeyJudged)

/-- RELEASE judged (R95): a JOIN for a dialled leg in a pair, a plain CLEAR otherwise. -/
def State.releaseKey (s : State) : State :=
  match s.activeRecord with
  | some (p, r) =>
    if r.leg = .dialled ∧ r.partner.isSome then
      s.keyIssues p { Order.new .join with secondary := r.partner }
    else s.keyIssues p (Order.new .clear)
  | none => s.refuseKey

/-- RELEASE (R95). -/
def execRelease (s : State) : Host.Outcome State Fault Refusal :=
  .next (s.attendantKey .release State.releaseKey)

/-! ### Sending a call on -/

/-- The dial buffer holds a destination: 1..6 digits (R96, R98). -/
def State.dialsDestination (s : State) : Bool :=
  decide (1 ≤ s.ksc.dial.length ∧ s.ksc.dial.length ≤ Config.dialRoom)

/-- EXTEND judged (R96). -/
def State.extendKeyJudged (s : State) : State :=
  match s.activeRecord with
  | some (p, r) =>
    if r.partner.isNone ∧ s.dialsDestination then
      s.keyIssues p { Order.new .extend with digits := s.ksc.dial }
    else s.refuseKey
  | none => s.refuseKey

/-- EXTEND_KEY (R96). -/
def execExtendKey (s : State) : Host.Outcome State Fault Refusal :=
  .next (s.attendantKey .extend State.extendKeyJudged)

/-- The orbit that PARK reserves (R97): the lowest free one with an empty dial buffer, the one a single
digit names when it is free. -/
def State.parkOrbit (s : State) : Option Orbit :=
  match s.ksc.dial with
  | [] => s.lowestOrbit
  | [d] => if s.orbitFree d then some d else none
  | _ => none

/-- PARK judged (R97). -/
def State.parkKeyJudged (s : State) : State :=
  match s.activeRecord, s.parkOrbit with
  | some (p, r), some o =>
    if r.partner.isNone then s.keyIssues p { Order.new .park with reservedOrbit := some o }
    else s.refuseKey
  | _, _ => s.refuseKey

/-- PARK_KEY (R97). -/
def execParkKey (s : State) : Host.Outcome State Fault Refusal :=
  .next (s.attendantKey .park State.parkKeyJudged)

/-! ### Screened transfer -/

/-- CALL judged (R98). -/
def State.callKey (s : State) : State :=
  match s.activeRecord, s.lowestLoop, s.lowestFree with
  | some (p, r), some k, some f =>
    if r.leg = .incoming ∧ r.partner.isNone ∧ s.dialsDestination then
      s.keyIssues p { Order.new .dial with
        reservedLoop := some k, reservedSlot := some f, digits := s.ksc.dial }
    else s.refuseKey
  | _, _, _ => s.refuseKey

/-- CALL (R98). -/
def execCall (s : State) : Host.Outcome State Fault Refusal :=
  .next (s.attendantKey .call State.callKey)

/-- SWAP judged (R99). -/
def State.swapKey (s : State) : State :=
  match s.activeRecord with
  | some (p, r) =>
    match r.partner with
    | some q => s.keyIssues q { Order.new .connect with secondary := some p }
    | none => s.refuseKey
  | none => s.refuseKey

/-- SWAP (R99). -/
def execSwap (s : State) : Host.Outcome State Fault Refusal :=
  .next (s.attendantKey .swap State.swapKey)

/-- The headset record and its partner's slot, when it is a DIALLED leg in a pair (R100, R101). -/
def State.dialledLeg (s : State) : Option (Slot × Slot) :=
  match s.headsetRecord with
  | some (p, r) => if r.leg = .dialled then r.partner.map fun q => (p, q) else none
  | none => none

/-- JOIN judged (R100). -/
def State.joinKeyJudged (s : State) : State :=
  match s.dialledLeg with
  | some (p, q) => s.keyIssues p { Order.new .join with secondary := some q }
  | none => s.refuseKey

/-- JOIN_KEY (R100). -/
def execJoinKey (s : State) : Host.Outcome State Fault Refusal :=
  .next (s.attendantKey .join State.joinKeyJudged)

/-- CANCEL judged: a reconnecting CLEAR for a dialled leg in a pair (R101), and otherwise the dial buffer
emptied (R102). -/
def State.cancelKey (s : State) : State :=
  match s.dialledLeg with
  | some (p, q) => s.keyIssues p { Order.new .clear with secondary := some q }
  | none => { s with ksc.dial := [] }

/-- CANCEL (R101, R102). -/
def execCancel (s : State) : Host.Outcome State Fault Refusal :=
  .next (s.attendantKey .cancel State.cancelKey)

/-! ### POSITION -/

/-- The position state one step around the POSITION key's cycle (R125). -/
def State.positionStepped (s : State) : PosState :=
  match s.pos.state with
  | .closed => .opened
  | .opened => .busyOut
  | .busyOut => if s.liveCount = 0 then .closed else .closing
  | .closing => .busyOut

/-- POSITION_KEY (R125, R104): R88 does not apply to it. -/
def execPositionKey (s : State) : Host.Outcome State Fault Refusal :=
  .next (s.takeKey .position fun s => s.setPosition s.positionStepped)

end Sys2Proof.Machine
end

