-- ==== Sys2Proof/Machine/Indication.lean ====
section
/-! DEFINITION. The Indication Unit (R146 to R160): the cadence banks and their requests, the lamps, the
buzzer, the display, and the cadence step and epoch boundary that pace them. -/

namespace Sys2Proof.Machine

/-! ### Cadence banks (R148, R149) -/

/-- A pattern of a bank replaced. -/
def Bank.setPattern (b : Bank) (n : Fin 16) (p : Pattern) : Bank :=
  { b with patterns := b.patterns.set n p }

/-- A map entry of a bank replaced. -/
def Bank.setMap (b : Bank) (i n : Fin 16) : Bank := { b with map := b.map.set i n }

/-- The SHADOW bank after a load, and the ACK's clamped flag (R148). -/
def Bank.load (b : Bank) : LoadBody → Bank × Bool
  | .pattern n p clamped => (b.setPattern n p, clamped)
  | .map i n => (b.setMap i n, false)

/-- A CADENCE-LOAD taken by the IND (R148): BANK-BUSY is tested before the form. -/
def State.takeLoad (b : List Byte) (s : State) : State :=
  if s.ind.commit then s.reply (.refuse (tagOf b) (refOf b) .bankBusy)
  else
    match readLoad b with
    | none => s.reply (.refuse (tagOf b) (refOf b) .malformed)
    | some x =>
      let r := s.ind.shadow.load x
      { s with ind.shadow := r.1 }.reply (.ack (tagOf b) (refOf b) r.2)

/-- CADENCE_LOAD (R148). -/
def execCadenceLoad (s : State) : Host.Outcome State Fault Refusal :=
  .next (s.handOn (· = kindCadenceLoad) State.takeLoad)

/-- A CADENCE-COMMIT taken by the IND (R149). -/
def State.takeCommit (b : List Byte) (s : State) : State :=
  if s.ind.commit then s.reply (.refuse (tagOf b) (refOf b) .bankBusy)
  else { s with ind.commit := true }.reply (.ack (tagOf b) (refOf b) false)

/-- CADENCE_COMMIT (R149). -/
def execCadenceCommit (s : State) : Host.Outcome State Fault Refusal :=
  .next (s.handOn (· = kindCadenceCommit) State.takeCommit)

/-! ### Patterns (R146) -/

/-- The pattern's length D. -/
def Pattern.length (p : Pattern) : Nat := (p.steps.map CadStep.duration).sum

/-- The level of the step covering position `n` of a list of steps; past its end, the last step's level. -/
def levelAt : List CadStep → Nat → Bool
  | [], _ => false
  | [c], _ => c.on
  | c :: cs, n => if n < c.duration then c.on else levelAt cs (n - c.duration)

/-- The level of a pattern at phase `n` (R146). -/
def Pattern.level (p : Pattern) (n : Nat) : Bool :=
  match p.mode with
  | .repeat_ => levelAt p.steps (n % p.length)
  | .once => levelAt p.steps n

/-- The number of an indication (R174). -/
def Indication.number : Indication → Fin 16
  | .dark => 0
  | .active => 1
  | .held => 2
  | .heldRecall => 3
  | .setup => 4
  | .pending => 5
  | .fault => 6
  | .queueLow => 7
  | .queueHigh => 8
  | .posOpen => 9
  | .posBusyOut => 10
  | .posClosing => 11
  | .posClosed => 12
  | .toneAlert => 13
  | .toneChirp => 14
  | .toneRecall => 15

/-- The level of an indication at a phase, through a bank's map (R150). -/
def Bank.level (b : Bank) (i : Indication) (n : Nat) : Bool := b.patterns[b.map[i.number]].level n

/-! ### The lamps (R150 to R152) -/

/-- Loop `k` is reserved by a pending order. -/
def State.loopReserved (s : State) (k : Loop) : Bool :=
  slots.any fun p => (s.record? p).any fun r => r.reservedLoop = some k

/-- The record that carries loop `k`. -/
def State.loopRecord (s : State) (k : Loop) : Option Record := (s.onLoop k).bind s.record?

/-- The indication of loop lamp `k`: the first condition of R151 that holds. -/
def State.loopLamp (s : State) (k : Loop) : Indication :=
  if s.loopFree k then .dark
  else if s.loopReserved k || (s.loopRecord k).any (fun r => r.order.isSome) then .pending
  else if s.frozen then .fault
  else
    match s.loopRecord k with
    | none => .dark
    | some r =>
      match r.state with
      | .active => .active
      | .setup => .setup
      | .held => if r.recallAlert then .heldRecall else .held
      | _ => .dark

/-- The indication of tenant lamp `t` (R152). -/
def State.tenantLamp (s : State) (t : Tenant) : Indication :=
  if s.psel.queued[t] = 0 then .dark
  else if (s.profile t).flashThreshold ≤ s.psel.queued[t] then .queueHigh
  else .queueLow

/-- The indication of the position lamp (R152). -/
def State.positionLamp (s : State) : Indication :=
  if s.frozen then .fault
  else
    match s.pos.state with
    | .opened => .posOpen
    | .busyOut => .posBusyOut
    | .closing => .posClosing
    | .closed => .posClosed

/-- The indications of the 25 lamps in the order of the frame (R150). -/
def State.lamps (s : State) : List Indication :=
  loops.map s.loopLamp ++ tenants.map s.tenantLamp ++ [s.positionLamp]

/-- The lamp frame at an epoch phase (R150). -/
def State.frame (s : State) (phase : Nat) : List Bool := s.lamps.map fun i => s.ind.active.level i phase

/-! ### The buzzer (R153, R154, R156, R157) -/

/-- The chirp at a cadence step (R154): a playing chirp advances, and an idle one with its request flag set
starts at phase 0. -/
def Ind.stepChirp (i : Ind) : Ind :=
  let chirp := match i.chirp with
    | some n => if n < 39 then some (n + 1) else none
    | none => none
  if chirp.isNone && i.chirpReq then { i with chirp := some 0, chirpReq := false }
  else { i with chirp := chirp }

/-- The alert gate is closed: there is no headset record (R157). -/
def State.gateClosed (s : State) : Bool := s.headset.isNone

/-- The alert burst sounds at this step (R156): N is the count read at the latest boundary (log entry 13). A
gate that has opened and closed again within an assigned epoch lets it sound again (log entry 29). -/
def State.burstSounds (s : State) : Bool :=
  s.ind.burst.running && s.ind.burst.assigned && s.gateClosed
    && (s.ind.burst.count == 0 || decide (s.ind.burst.position < s.ind.burst.count))

/-- The level of BUZ at a step of epoch phase `phase` (R153). -/
def State.buzzer (s : State) (phase : Nat) : Bool :=
  match s.ind.chirp with
  | some n => s.ind.active.level .toneChirp n
  | none =>
    if s.ind.recallEpoch then s.ind.active.level .toneRecall phase
    else if s.burstSounds then s.ind.active.level .toneAlert phase
    else false

/-! ### The display (R158, R159) -/

/-- A space. -/
def blank : Byte := 0x20

/-- A text padded with spaces to `n` characters. -/
def padTo (n : Nat) (t : List Byte) : List Byte := t ++ List.replicate (n - t.length) blank

/-- The state word of the headset record (R158). The last line is no case of R158 (log entry 18). -/
def State.stateWord (s : State) (r : Record) : List Byte :=
  if (s.sli.orderNotice.map Prod.snd) = some r.ref then bytesOf "FAULT"
  else
    match r.state, s.ccc.note, r.farEnd with
    | .active, some .busy, _ => bytesOf "BUSY"
    | .active, some .invalid, _ => bytesOf "INVALID"
    | .active, none, _ => bytesOf "ACTIVE"
    | .setup, _, some .proceeding => bytesOf "CALLING"
    | .setup, _, some .ringing => bytesOf "RINGING"
    | .setup, _, some .busy => bytesOf "BUSY"
    | _, _, _ => []

/-- "DIAL " and the dial buffer's digits, when it holds any (R158, R159). -/
def State.dialLine (s : State) : Option (List Byte) :=
  if s.ksc.dial = [] then none else some (bytesOf "DIAL " ++ s.ksc.dial.map digitByte)

/-- Line 2 of the headset view (R158). -/
def State.headsetLine2 (s : State) (r : Record) : List Byte :=
  match s.dialLine with
  | some t => t
  | none =>
    if r.name ≠ [] then r.name
    else if r.number ≠ [] then r.number.map digitByte
    else
      match r.destination with
      | some d => d.map digitByte
      | none => bytesOf "NO NUMBER"

/-- Line 1 of the queue view (R159). -/
def State.queueLine1 (s : State) : List Byte :=
  bytesOf "QUEUED " ++ twoDigits s.psel.total ++ [blank] ++
    match s.head.bind s.record? with
    | some r => (s.profile r.tenant).label.take 10
    | none => List.replicate 10 blank

/-- The display image formed from the state as it stands (R158, R159). -/
def State.displayImage (s : State) : Image :=
  let line2 := match s.headsetRecord with
    | some (_, r) => s.headsetLine2 r
    | none => s.dialLine.getD []
  let line1 :=
    if s.frozen then bytesOf "LINK DOWN"
    else if s.ccc.resync then bytesOf "RESYNC"
    else
      match s.headsetRecord with
      | some (_, r) => (s.profile r.tenant).label ++ [blank] ++ padTo 7 (s.stateWord r)
      | none => s.queueLine1
  { line1 := padTo 20 line1, line2 := padTo 20 line2 }

/-- The strobes that write an image (R159). -/
def Image.writes (i : Image) : List DisplayWrite :=
  .selectLine 0 :: i.line1.map .char ++ .selectLine 1 :: i.line2.map .char

/-- The display at a cadence step: the image is formed, and written whole when it differs from the one last
written (R159). -/
def State.stepDisplay (s : State) : State :=
  let image := s.displayImage
  if s.ind.written = some image then { s with ind.image := some image, pins.display := [] }
  else { s with ind.image := some image, ind.written := some image, pins.display := image.writes }

/-! ### The cadence step and the epoch boundary -/

/-- The cadence position within the epoch, 0..39, read from the second divider and the epoch phase (R110). -/
def Tbt.phase (t : Tbt) : Nat := t.epochPhase * (Config.secondDividerLast + 1) + t.secondDivider

/-- A cadence step counted by the second divider, and its wrap by the epoch phase (R110; log entry 4). -/
def Tbt.countStep (t : Tbt) : Tbt :=
  if t.secondDivider < Config.secondDividerLast then { t with secondDivider := t.secondDivider + 1 }
  else if t.epochPhase < Config.epochPhaseLast then
    { t with secondDivider := 0, epochPhase := t.epochPhase + 1 }
  else { t with secondDivider := 0, epochPhase := 0 }

/-- CADENCE_STEP (R150, R153, R154, R159): the step is counted, the chirp moves, the lamp frame is shifted
out, one level on each pulse of LSC, and latched, BUZ takes its level, and the display is rewritten when its
image has changed. Wherever the count stands, it hands out no confirm beat, no second tick and no epoch
boundary: those are commands of their own (log entry 28). -/
def execCadenceStep (s : State) : Host.Outcome State Fault Refusal :=
  .next
    (let s := { s with tbt := s.tbt.countStep, ind := s.ind.stepChirp }
    let phase := s.tbt.phase
    let levels := s.frame phase
    { s with
      pins.lsd := levels, pins.lsc := levels.length, pins.llt := true
      pins.buz := s.buzzer phase }.stepDisplay)

/-- The banks at an epoch boundary (R149): a pending commit makes SHADOW the ACTIVE bank, and the new SHADOW
a copy of it. -/
def Ind.swapBanks (i : Ind) : Ind :=
  if i.commit then { i with active := i.shadow, commit := false } else i

/-- The recall tone at an epoch boundary (R155). -/
def Ind.settleRecall (i : Ind) : Ind := { i with recallEpoch := i.recallReq, recallReq := false }

/-- The alert condition (R156). -/
def State.alertCondition (s : State) : Bool := decide (0 < s.psel.total) && !s.isHeld

/-- The cycle length of the burst with count `n` and gap `g` (R156). -/
def cycleLength (n g : Nat) : Nat := if n = 0 then 1 else n + g

/-- The burst at an epoch boundary (R156): `alert` the condition, `gate` whether the gate is closed, `n` and
`g` the burst count and gap as POS holds them. -/
def Burst.settle (b : Burst) (alert gate : Bool) (n g : Nat) : Burst :=
  if !alert then { running := false, position := 0, assigned := false, count := n }
  else if !b.running then { running := true, position := 0, assigned := gate, count := n }
  else
    let next := if b.position + 1 < cycleLength n g then b.position + 1 else 0
    { running := true, position := if b.assigned then next else b.position, assigned := gate, count := n }

/-- EPOCH_BOUNDARY (R149, R155, R156). It is a command of its own, at whatever phase the cascade stands, and
CADENCE_STEP makes no boundary: a DESIGN CHOICE (log entry 28). -/
def execEpochBoundary (s : State) : Host.Outcome State Fault Refusal :=
  .next
    (let b := s.ind.burst.settle s.alertCondition s.gateClosed s.pos.settings.burstCount
      s.pos.settings.burstGap
    { s with ind := { s.ind.swapBanks.settleRecall with burst := b } })

end Sys2Proof.Machine
end

