-- ==== Sys2Proof/Machine/KeyScan.lean ====
section
/-! DEFINITION. The Key Scanner's base tick (R137 to R141): one column of the key matrix is driven and
sampled, each key in it debounced, and each accepted press handed on. -/

namespace Sys2Proof.Machine

/-- The key at a row and column of the matrix; none at the three unused positions (R137). -/
def keyAt (row col : Nat) : Option Key :=
  match row, col with
  | 0, 0 => some (.event (.loop 0))
  | 0, 1 => some (.event (.loop 1))
  | 0, 2 => some (.event (.loop 2))
  | 0, 3 => some (.event (.loop 3))
  | 0, 4 => some (.event (.loop 4))
  | 0, 5 => some (.event (.loop 5))
  | 0, 6 => some (.event (.loop 6))
  | 0, 7 => some (.event (.loop 7))
  | 1, 0 => some (.digit 0)
  | 1, 1 => some (.digit 1)
  | 1, 2 => some (.digit 2)
  | 1, 3 => some (.digit 3)
  | 1, 4 => some (.digit 4)
  | 1, 5 => some (.digit 5)
  | 1, 6 => some (.digit 6)
  | 1, 7 => some (.digit 7)
  | 2, 0 => some (.digit 8)
  | 2, 1 => some (.digit 9)
  | 2, 2 => some (.event .answer)
  | 2, 3 => some (.event .release)
  | 2, 4 => some (.event .hold)
  | 2, 5 => some (.event .extend)
  | 2, 6 => some (.event .call)
  | 2, 7 => some (.event .swap)
  | 3, 0 => some (.event .join)
  | 3, 1 => some (.event .cancel)
  | 3, 2 => some (.event .park)
  | 3, 3 => some (.event .retrieve)
  | 3, 4 => some (.event .position)
  | _, _ => none

/-- The place of a key's debounce record among the 29 (the order of `Ksc.keys`). -/
def Key.place : Key → Fin 29
  | .event (.loop k) => ⟨k.val, by omega⟩
  | .digit d => ⟨8 + d.val, by omega⟩
  | .event .answer => 18
  | .event .release => 19
  | .event .hold => 20
  | .event .extend => 21
  | .event .call => 22
  | .event .swap => 23
  | .event .join => 24
  | .event .cancel => 25
  | .event .park => 26
  | .event .retrieve => 27
  | .event .position => 28

/-- A debounce record after a sample of level `closed`, and whether the sample made a press (R138): the
third consecutive sample of the opposite level is accepted, and only PRESSED makes a press. -/
def Debounce.sample (d : Debounce) (closed : Bool) : Debounce × Bool :=
  if closed = d.pressed then ({ d with run := 0 }, false)
  else if d.run < 2 then ({ d with run := d.run + 1 }, false)
  else ({ pressed := closed, run := 0 }, closed)

/-- A digit press offered to the dial buffer (R141). -/
def State.offerDigit (s : State) (d : Digit) : State :=
  if s.pos.state = .closed ∨ s.frozen ∨ s.ccc.resync ∨ Config.dialRoom ≤ s.ksc.dial.length then
    s.requestChirp
  else { s with ksc.dial := s.ksc.dial ++ [d] }

/-- A key event offered to the key event queue (R140). -/
def State.offerKey (s : State) (e : KeyEvent) : State :=
  if s.ksc.queue.length < Config.keyQueueRoom then { s with ksc.queue := s.ksc.queue ++ [e] }
  else s.requestChirp

/-- An accepted press handed on (R139). -/
def State.handPress (s : State) : Key → State
  | .digit d => s.offerDigit d
  | .event e => s.offerKey e

/-- One key sampled (R138, R139). -/
def State.sampleKey (s : State) (k : Key) (closed : Bool) : State :=
  let d := s.ksc.keys[k.place].sample closed
  let s := { s with ksc.keys := s.ksc.keys.set k.place d.1 }
  if d.2 then s.handPress k else s

/-- The key in one row of the scanned column sampled; a level at an unused position is discarded
(R137). -/
def State.sampleRow (s : State) (col : Fin 8) (rows : BitVec 4) (row : Nat) : State :=
  match keyAt row col.val with
  | some k => s.sampleKey k (rows.getLsbD row)
  | none => s

/-- A base tick at the KSC: the column of the scan position is driven, its four keys are sampled in row
order, and the scan position moves on (R137, R139). -/
def State.scanKeys (s : State) (rows : BitVec 4) : State :=
  let col := s.ksc.scan
  let s := { s with pins.kcol := BitVec.ofNat 8 (2 ^ col.val) }
  let s := [0, 1, 2, 3].foldl (fun s row => s.sampleRow col rows row) s
  { s with ksc.scan := col + 1 }

/-- KEY_SCAN (R137). -/
def execKeyScan (rows : BitVec 4) (s : State) : Host.Outcome State Fault Refusal :=
  .next (s.scanKeys rows)

end Sys2Proof.Machine
end

