-- ==== Sys2Proof/Machine/Link.lean ====
section
/-! DEFINITION. The Switch Link Interface (R161 to R174): the receiver, the gap and supervision counts,
flow control, POLL, the unknown kind, and the transmitter. -/

namespace Sys2Proof.Machine

/-! ### Control characters and framing (R162) -/

def som : Byte := 0xC1
def eom : Byte := 0xC2
def esc : Byte := 0xC3
def haltChar : Byte := 0xC4
def goChar : Byte := 0xC5

/-- The value lies in the control range 0xC1..0xC5 (R162). -/
def isControl (b : Byte) : Bool := decide (0xC1 ≤ b.toNat ∧ b.toNat ≤ 0xC5)

/-- A byte as it is sent (R162): ESC and the value XOR 0x80 where it lies in the control range. -/
def escapeByte (b : Byte) : List Byte := if isControl b then [esc, b ^^^ 0x80] else [b]

/-- The sum of bytes modulo 256. -/
def byteSum (bs : List Byte) : Byte := bs.foldl (· + ·) 0

/-- The check byte of a body (R162). -/
def checkByte (body : List Byte) : Byte := -(byteSum body)

/-- The characters of a frame after its SOM (R162). -/
def frameTail (body : List Byte) : List Byte := (body ++ [checkByte body]).flatMap escapeByte ++ [eom]

/-- The characters of a frame (R162). -/
def frameOf (body : List Byte) : List Byte := som :: frameTail body

/-! ### Characters on the line (R161) -/

/-- The data bits of a byte, least significant bit first (R161). -/
def dataBits (b : Byte) : Vector Bool 8 := Vector.ofFn fun i => b.getLsbD i.val

/-- The levels of TXD that send a byte, in the order of time (R161): the start bit at the space level, the
eight data bits least significant bit first, the even-parity bit, and the stop bit at the mark level. -/
def charLevels (b : Byte) : List Bool :=
  false :: ((dataBits b).toList ++ [(dataBits b).toList.foldl xor false, true])

/-! ### The receiver (R161, R163 to R165) -/

/-- The number of ones in eight data bits and their parity bit is even (R161). -/
def parityEven (data : Vector Bool 8) (parity : Bool) : Bool := (data.toList.foldl xor parity) == false

/-- The byte of eight data bits that arrive least significant bit first (R161). -/
def byteOfBits (data : Vector Bool 8) : Byte :=
  BitVec.ofNat 8 (data.toList.foldr (fun b n => b.toNat + 2 * n) 0)

/-- The byte that a character carries; none for a character error (R161). -/
def receivedByte : LineChar → Option Byte
  | .frame data parity stop => if parityEven data parity && stop then some (byteOfBits data) else none
  | .lineBreak => none

/-- The receiver in state `r` with an empty, undamaged assembly. -/
def Sli.fresh (l : Sli) (r : RxState) : Sli := { l with rx := r, assembly := [], damaged := false }

/-- An assembly abandoned with a fault, the receiver returning to HUNT (R164). -/
def State.abandon (s : State) (k : LinkFault) : State :=
  { s with sli := s.sli.fresh .hunt }.linkFault k 0

/-- A byte stored in the assembly, the receiver then in BODY; the 42nd abandons it with LENGTH (R164). -/
def State.storeByte (s : State) (b : Byte) : State :=
  if s.sli.assembly.length < Config.assemblyRoom then
    { s with sli.assembly := s.sli.assembly ++ [b], sli.rx := .body }
  else s.abandon .length

/-- The assembly marked damaged, the receiver then in state `r` (R163). -/
def State.damage (s : State) (r : RxState) : State := { s with sli.damaged := true, sli.rx := r }

/-- The fault of the first test that an ended frame fails; none for a valid message (R165). -/
def State.frameFault (s : State) : Option LinkFault :=
  if s.sli.damaged then some .parity
  else if byteSum s.sli.assembly ≠ 0 then some .check
  else if s.sli.assembly.length < headerLength + 1 then some .length
  else if Config.inboundRoom ≤ s.sli.inbound.length then some .overrun
  else none

/-- A valid message's body queued (R165), with what its arrival does to flow control (R167) and to the
link (R171). -/
def State.queueMessage (s : State) (body : List Byte) : State :=
  { s with sli.inbound := s.sli.inbound ++ [body] }.compareFlow.linkAlive

/-- A frame ended by EOM and judged, the receiver then in HUNT (R165). -/
def State.judgeFrame (s : State) : State :=
  match s.frameFault with
  | some k => s.abandon k
  | none => { s with sli := s.sli.fresh .hunt }.queueMessage s.sli.assembly.dropLast

/-- A character taken by the receiver in HUNT: only SOM starts an assembly (R163). -/
def State.takeHunt (s : State) (c : Option Byte) : State :=
  if c = some som then { s with sli := s.sli.fresh .body } else s

/-- A character taken by the receiver in BODY (R163). -/
def State.takeBody (s : State) (c : Option Byte) : State :=
  match c with
  | none => s.damage .body
  | some b =>
    if b = som then
      let s := s.abandon .truncated
      { s with sli := s.sli.fresh .body }
    else if b = eom then s.judgeFrame
    else if b = esc then { s with sli.rx := .escaped }
    else s.storeByte b

/-- A character taken by the receiver in ESCAPED (R163). -/
def State.takeEscaped (s : State) (c : Option Byte) : State :=
  match c with
  | none => s.damage .body
  | some b =>
    if b = som then
      let s := s.abandon .truncated
      { s with sli := s.sli.fresh .body }
    else if b = eom then (s.damage .body).judgeFrame
    else if b = esc then s.damage .escaped
    else if 0x41 ≤ b.toNat ∧ b.toNat ≤ 0x45 then s.storeByte (b ^^^ 0x80)
    else s.damage .body

/-- The gap count set to 0 by an arriving character (R164). -/
def State.clearGap (s : State) : State := { s with sli.gap := 0 }

/-- A HALT received (R170). -/
def State.takeHalt (s : State) : State := { s.clearGap with sli.haltedBy := true }

/-- A GO received (R170). -/
def State.takeGo (s : State) : State := { s.clearGap with sli.haltedBy := false }

/-- A character taken by the receiver (R163, R164): HALT and GO in every state alike, any other by the
receiver's state. -/
def State.takeChar (s : State) (c : Option Byte) : State :=
  if c = some haltChar then s.takeHalt
  else if c = some goChar then s.takeGo
  else
    match s.sli.rx with
    | .hunt => s.clearGap.takeHunt c
    | .body => s.clearGap.takeBody c
    | .escaped => s.clearGap.takeEscaped c

/-- RECEIVE_CHARACTER (R163). -/
def execReceiveCharacter (c : LineChar) (s : State) : Host.Outcome State Fault Refusal :=
  .next (s.takeChar (receivedByte c))

/-- RECEIVED_HALT (R170): a HALT has arrived without error. -/
def execReceivedHalt (s : State) : Host.Outcome State Fault Refusal := .next s.takeHalt

/-- RECEIVED_GO (R170): a GO has arrived without error. -/
def execReceivedGo (s : State) : Host.Outcome State Fault Refusal := .next s.takeGo

/-! ### Gap and supervision (R164, R171) -/

/-- The gap count raised by a base tick; reaching 4 in BODY or ESCAPED abandons the assembly (R164). -/
def State.stepGap (s : State) : State :=
  let s := { s with sli.gap := min (s.sli.gap + 1) Config.gapLimit }
  if s.sli.gap = Config.gapLimit ∧ s.sli.rx ≠ .hunt then s.abandon .gap else s

/-- The supervision window in base ticks (R171). -/
def State.window (s : State) : Nat := s.pos.settings.supervision * 100

/-- The supervision count raised by a base tick while the link is UP; reaching the window takes the link
DOWN (R171). -/
def State.stepSupervision (s : State) : State :=
  if s.sli.link = .up then
    let s := { s with sli.supCount := s.sli.supCount + 1 }
    if s.window ≤ s.sli.supCount then s.linkDown else s
  else s

/-- LINK_BASE_TICK (R164, R171): both counts raised, and whatever a count that reaches its limit brings
about, in this step (log entry 5). -/
def execLinkBaseTick (s : State) : Host.Outcome State Fault Refusal :=
  .next s.stepGap.stepSupervision

/-- GAP_TIMEOUT (R164): the gap count alone reaching 4 while an assembly is open (log entry 5). -/
def execGapTimeout (s : State) : Host.Outcome State Fault Refusal :=
  .next (if Config.gapLimit ≤ s.sli.gap + 1 ∧ s.sli.rx ≠ .hunt then s.stepGap else s)

/-- SUPERVISION_TIMEOUT (R171): the supervision count alone reaching the window (log entry 5). -/
def execSupervisionTimeout (s : State) : Host.Outcome State Fault Refusal :=
  .next (if s.sli.link = .up ∧ s.window ≤ s.sli.supCount + 1 then s.stepSupervision else s)

/-! ### POLL and unknown kinds -/

/-- POLL (R172): a STATUS built from the state as it stands. -/
def execPoll (s : State) : Host.Outcome State Fault Refusal :=
  .next (s.handOn (· = kindPoll) fun b s => s.reply (.status (tagOf b) (refOf b) s.statusValues))

/-- UNKNOWN_KIND (R166): the body is discarded with LINK-FAULT UNKNOWN-KIND. -/
def execUnknownKind (s : State) : Host.Outcome State Fault Refusal :=
  .next (s.handOn (fun k => commandOfKind k = .unknownKind) fun b s => s.linkFault .unknownKind (refOf b))

/-! ### The transmitter (R170, R54, R167) -/

/-- A message header (R174). -/
def header (kind tag : Byte) (ref : Word) : List Byte := kind :: tag :: wordBytes ref

/-- A count 0..255 as a byte. -/
def countByte (n : Nat) : Byte := BitVec.ofNat 8 n

/-- A flags byte: bit 0 and bit 1 (R174). The bits that R174 does not name are 0: a DESIGN CHOICE (log entry
31). -/
def flagsByte (bit0 bit1 : Bool) : Byte := countByte (bit0.toNat + 2 * bit1.toNat)

/-- The body of a reply (R174). -/
def Reply.body : Reply → List Byte
  | .accept tag ref => header 0x41 tag ref
  | .refuse tag ref why => header 0x42 tag ref ++ [why.code]
  | .ack tag ref clamped => header 0x43 tag ref ++ [flagsByte clamped false]
  | .status tag ref v =>
    header 0x44 tag ref
      ++ [v.position.code, flagsByte v.linkUp v.resync, countByte v.live, countByte v.queued]
      ++ wordBytes v.headRef ++ [countByte v.freeLoops, countByte v.freeOrbits]

/-- What an order carries from byte 6 on (R54, R174). -/
def Order.tail (o : Order) : List Byte :=
  match o.kind with
  | .extend | .dial => countByte o.digits.length :: o.digits.map digitByte
  | .park => (o.reservedOrbit.map fun n => countByte n.val).toList
  | .divert => (o.tenant.map fun t => countByte t.val).toList
  | _ => []

/-- The body of the order pending on record `r`, as it stands (R54). -/
def State.orderBody (s : State) (r : Record) (o : Order) : List Byte :=
  header o.kind.code 0 r.ref ++ wordBytes (s.refAt o.secondary) ++ o.tail

/-- The transmitter starts a message: the SOM of its frame goes out on TXD, and the rest of the frame is
left to go out (R170, R162; log entry 21). -/
def State.send (s : State) (body : List Byte) (owner : Option Slot) : State :=
  { s with
    sli.sending := some { body := body, owner := owner, left := frameTail body }
    pins.txd := [charLevels som] }

/-- The order at the head of the order group starts: it leaves the group and is ON THE LINE (R54). -/
def State.startOrder (s : State) (p : Slot) (rest : List Slot) : State :=
  let s := { s with sli.orders := rest }
  match s.record? p with
  | none => s
  | some r =>
    match r.order with
    | none => s
    | some o =>
      let body := s.orderBody r o
      (s.update p fun r => { r with order := some { o with stage := .onTheLine } }).send body (some p)

/-- The notice in the first filled slot starts, in the order of R170; nothing where all are empty. -/
def State.startNotice (s : State) : State :=
  if s.sli.auditNotice then
    { s with sli.auditNotice := false }.send (header 0x64 0 0) none
  else
    match s.sli.posNotice, s.sli.orderNotice, s.sli.linkNotice with
    | some p, _, _ => { s with sli.posNotice := none }.send (header 0x61 0 0 ++ [p.code]) none
    | none, some (k, ref), _ =>
      { s with sli.orderNotice := none }.send (header 0x63 0 ref ++ [k.code]) none
    | none, none, some (k, ref) =>
      { s with sli.linkNotice := none }.send (header 0x62 0 ref ++ [k.code]) none
    | none, none, none => s

/-- The first message found by the order of R170 starts: the oldest reply, else the oldest order, else a
notice. -/
def State.startMessage (s : State) : State :=
  match s.sli.replies with
  | r :: rest => { s with sli.replies := rest }.send r.body none
  | [] =>
    match s.sli.orders with
    | p :: rest => s.startOrder p rest
    | [] => s.startNotice

/-- The transmitter is idle and the received-HALT flag clear (R170). -/
def State.mayTransmit (s : State) : Bool := s.sli.sending.isNone && !s.sli.haltedBy

/-- TRANSMIT_START (R170). -/
def execTransmitStart (s : State) : Host.Outcome State Fault Refusal :=
  .next (if s.mayTransmit then s.startMessage else s)

/-- The end of an order's transmission reported for slot `p` (R54): it acts only on a pending order that
is ON THE LINE, whose confirm timer then starts at the confirm time. -/
def State.orderSent (s : State) (p : Slot) : State :=
  match (s.record? p).bind Record.order with
  | none => s
  | some o =>
    if o.stage = .onTheLine then
      s.update p fun r => { r with order := some { o with
        stage := .awaitingConfirm, confirmTimer := some s.pos.settings.confirmTime } }
    else s

/-- TRANSMIT_END (R54, R170): what was left of the frame has gone out, and the end is reported. Nothing where
the transmitter is idle. -/
def execTransmitEnd (s : State) : Host.Outcome State Fault Refusal :=
  .next
    (match s.sli.sending with
    | none => s
    | some m =>
      let s := { s with sli.sending := none, pins.txd := m.left.map charLevels }
      match m.owner with
      | some p => s.orderSent p
      | none => s)

/-- The character of a control (R162). -/
def Control.char : Control → Byte
  | .halt => haltChar
  | .go => goChar

/-- A control character goes out (R167): at once where the transmitter is idle, and otherwise between two
characters of the message being sent. How many of the characters left have gone out before it is a free
value, short of all (log entry 21). -/
def State.sendControl (s : State) (c : Control) : State :=
  match s.sli.sending with
  | none => { s with sli.control := none, pins.txd := [charLevels c.char] }
  | some m =>
    let n := Config.charsGone s.freeCount % m.left.length
    { s with
      sli.control := none
      sli.sending := some { m with left := m.left.drop n }
      pins.txd := (m.left.take n ++ [c.char]).map charLevels
      freeCount := s.freeCount + 1 }

/-- SEND_CONTROL_CHARACTER (R167): nothing where none is pending. -/
def execSendControlCharacter (s : State) : Host.Outcome State Fault Refusal :=
  .next
    (match s.sli.control with
    | none => s
    | some c => s.sendControl c)

end Sys2Proof.Machine
end

