-- ==== Sys2Proof/Machine/Position.lean ====
section
/-! DEFINITION. The requests that Position Control takes: POSITION (R126) and SET (R130 to R135). -/

namespace Sys2Proof.Machine

/-! ### POSITION -/

/-- CLOSED when the table holds no live record, CLOSING otherwise (R125, R126). -/
def State.closeTarget (s : State) : PosState := if s.liveCount = 0 then .closed else .closing

/-- The position state that a target moves the position to (R126). -/
def State.positionFor (s : State) (t : Target) : PosState :=
  match s.pos.state, t with
  | _, .opened => .opened
  | _, .busyOut => .busyOut
  | .closed, .close => .closed
  | .closing, .close => .closing
  | .opened, .close => s.closeTarget
  | .busyOut, .close => s.closeTarget

/-- A POSITION request taken by POS (R126). Its ACK carries the clamped flag clear: a DESIGN CHOICE (log entry
31). -/
def State.takePosition (b : List Byte) (s : State) : State :=
  match readPosition b with
  | none => s.reply (.refuse (tagOf b) (refOf b) .malformed)
  | some t => (s.setPosition (s.positionFor t)).reply (.ack (tagOf b) (refOf b) false)

/-- POSITION (R126). -/
def execPosition (s : State) : Host.Outcome State Fault Refusal :=
  .next (s.handOn (· = kindPosition) State.takePosition)

/-! ### SET -/

/-- The range of a position item; the low mark's depends on the high mark (R131, R133). -/
def posItemRange (st : Settings) : PosItem → Nat × Nat
  | .baseUrgent | .baseRecall | .baseExternal | .baseInternal | .ageCap => (0, 4095)
  | .ageRate | .burstCount | .burstGap => (0, 15)
  | .autoAnswer => (0, 1)
  | .confirmTime => (5, 50)
  | .supervision => (1, 30)
  | .highMark => (2, 15)
  | .lowMark => (0, st.highMark - 1)

/-- The range of a numeric tenant item (R132). -/
def tenantItemRange : TenantItem → Nat × Nat
  | .offset => (0, 1023)
  | .queueLimit => (0, 64)
  | .flashThreshold => (1, 64)
  | .campOn => (0, 1)
  | .holdReload | .parkReload | .campReload | .noAnswerReload => (0, 255)
  | .recallLimit => (1, 3)

/-- A value brought into a range (R133). -/
def clampTo (range : Nat × Nat) (v : Nat) : Nat := max range.1 (min v range.2)

/-- A position item stored, its value already in range; a high mark at or below the low mark lowers the low
mark below it (R133). -/
def storePosItem (st : Settings) (i : PosItem) (v : Nat) : Settings :=
  match i with
  | .baseUrgent => { st with baseUrgent := v }
  | .baseRecall => { st with baseRecall := v }
  | .baseExternal => { st with baseExternal := v }
  | .baseInternal => { st with baseInternal := v }
  | .ageRate => { st with ageRate := v }
  | .ageCap => { st with ageCap := v }
  | .autoAnswer => { st with autoAnswer := v }
  | .confirmTime => { st with confirmTime := v }
  | .supervision => { st with supervision := v }
  | .highMark => { st with highMark := v, lowMark := if v ≤ st.lowMark then v - 1 else st.lowMark }
  | .lowMark => { st with lowMark := v }
  | .burstCount => { st with burstCount := v }
  | .burstGap => { st with burstGap := v }

/-- A numeric tenant item stored, its value already in range. -/
def storeTenantItem (f : Profile) (i : TenantItem) (v : Nat) : Profile :=
  match i with
  | .offset => { f with offset := v }
  | .queueLimit => { f with queueLimit := v }
  | .flashThreshold => { f with flashThreshold := v }
  | .campOn => { f with campOn := v }
  | .holdReload => { f with holdReload := v }
  | .parkReload => { f with parkReload := v }
  | .campReload => { f with campReload := v }
  | .noAnswerReload => { f with noAnswerReload := v }
  | .recallLimit => { f with recallLimit := v }

/-- Tenant `t`'s profile replaced. -/
def Pos.setProfile (ps : Pos) (t : Tenant) (f : Profile) : Pos :=
  { ps with profiles := ps.profiles.set t f }

/-- A well-formed SET stored, and its ACK's clamped flag (R130, R133, R134): set when the value stored
differs from the value sent or another item was adjusted. -/
def Pos.store (ps : Pos) : SetBody → Pos × Bool
  | .position i v =>
    let w := clampTo (posItemRange ps.settings i) v
    let st := storePosItem ps.settings i w
    ({ ps with settings := st },
      w != v || (decide (i = .highMark) && st.lowMark != ps.settings.lowMark))
  | .tenant t i v =>
    let w := clampTo (tenantItemRange i) v
    (ps.setProfile t (storeTenantItem ps.profiles[t] i w), w != v)
  | .label t cs =>
    let ds := cs.map degrade
    (ps.setProfile t { ps.profiles[t] with label := ds }, ds != cs)

/-- A SET taken by POS (R130). -/
def State.takeSet (b : List Byte) (s : State) : State :=
  match readSet b with
  | none => s.reply (.refuse (tagOf b) (refOf b) .malformed)
  | some x =>
    let r := s.pos.store x
    { s with pos := r.1 }.reply (.ack (tagOf b) (refOf b) r.2)

/-- SET (R130). -/
def execSet (s : State) : Host.Outcome State Fault Refusal :=
  .next (s.handOn (· = kindSet) State.takeSet)

end Sys2Proof.Machine
end

