-- ==== Sys2Proof/Machine/Reset.lean ====
section
/-! DEFINITION. Power-on reset as a command (R20, R86, R110, R113, R136, R144, R160, R173, R175). -/

namespace Sys2Proof.Machine

/-- POWER_ON_RESET (R20): every block at its power-on values, the line rate taken from the straps (R161).
The queue of waiting commands is outside the part, and the count of free values is the model's own: both
are kept (log entry 20). -/
def execPowerOnReset (straps : BitVec 3) (s : State) : Host.Outcome State Fault Refusal :=
  .next { State.resetWith straps with freeCount := s.freeCount, pending := s.pending }

end Sys2Proof.Machine
end

