-- ==== Sys2Proof/Machine/Calls.lean ====
section
/-! DEFINITION. The call messages of the switch (R27 to R42): OFFER with its admission tests, CLEARED,
DELIVERED, CAMP-FREE and FAR-END. -/

namespace Sys2Proof.Machine

/-! ### OFFER -/

/-- The first admission test that an offer fails, with its reason (R29): none where every test passes. The
body has been read by R30. -/
def State.offerRefusal (s : State) (ref : Word) (body : Option OfferBody) : Option Reason :=
  match s.pos.state with
  | .busyOut => some .busyOut
  | .closing | .closed => some .closed
  | .opened =>
    if s.isHeld then some .resync
    else
      match body with
      | none => some .malformed
      | some o =>
        if ref = 0 ∨ (s.lookup ref).isSome then some .duplicate
        else if s.lowestFree.isNone then some .full
        else if (s.profile o.tenant).queueLimit ≤ s.psel.queued[o.tenant] then some .tenantFull
        else none

/-- The record that an accepted offer creates, before it enters QUEUED (R7, R31). -/
def offeredRecord (ref : Word) (o : OfferBody) : Record :=
  { ref := ref, state := .queued, leg := .incoming, tenant := o.tenant, cls := o.cls
    recallCount := 0, number := o.number, name := o.name, queue := none, loop := none
    destination := none, orbit := none, farEnd := none, partner := none, recallAlert := false
    order := none, lock := none, marked := false, auditPartner := 0 }

/-- An OFFER taken by the CCC (R29, R31, R32). -/
def State.takeOffer (b : List Byte) (s : State) : State :=
  let ref := refOf b
  let body := readOffer b
  match s.offerRefusal ref body, body, s.lowestFree with
  | none, some o, some p => (s.enterQueued p (offeredRecord ref o)).reply (.accept (tagOf b) ref)
  | some why, _, _ => s.reply (.refuse (tagOf b) ref why)
  | _, _, _ => s

/-- OFFER (R29). -/
def execOffer (s : State) : Host.Outcome State Fault Refusal :=
  .next (s.handOn (· = kindOffer) State.takeOffer)

/-! ### The call events -/

/-- An event that names a call: `act` on the slot and record of a known reference, nothing for an unknown
one (R6, R28). -/
def State.onKnown (s : State) (ref : Word) (act : Slot → Record → State) : State :=
  match s.lookup ref with
  | none => s
  | some p =>
    match s.record? p with
    | none => s
    | some r => act p r

/-- A CLEARED taken by the CCC (R33). -/
def State.takeCleared (b : List Byte) (s : State) : State :=
  s.onKnown (refOf b) fun p _ => (s.retire p).closeIfEmpty

/-- CLEARED (R33). -/
def execCleared (s : State) : Host.Outcome State Fault Refusal :=
  .next (s.handOn (· = kindCleared) State.takeCleared)

/-- The record has been sent on: EXTENDED, CAMPED or PARKED (R22). -/
def Record.away (r : Record) : Bool :=
  decide (r.state = .extended ∨ r.state = .camped ∨ r.state = .parked)

/-- A DELIVERED taken by the CCC (R36). -/
def State.takeDelivered (b : List Byte) (s : State) : State :=
  s.onKnown (refOf b) fun p r =>
    if r.away then (s.retire p).closeIfEmpty else s.mismatch (refOf b)

/-- DELIVERED (R36). -/
def execDelivered (s : State) : Host.Outcome State Fault Refusal :=
  .next (s.handOn (· = kindDelivered) State.takeDelivered)

/-- A CAMP-FREE taken by the CCC (R37). -/
def State.takeCampFree (b : List Byte) (s : State) : State :=
  s.onKnown (refOf b) fun p r =>
    if r.state = .camped then s.enter p { r with state := .extended } else s.mismatch (refOf b)

/-- CAMP_FREE (R37). -/
def execCampFree (s : State) : Host.Outcome State Fault Refusal :=
  .next (s.handOn (· = kindCampFree) State.takeCampFree)

/-- A FAR-END taken by the CCC (R38 to R41). -/
def State.takeFarEnd (b : List Byte) (s : State) : State :=
  s.onKnown (refOf b) fun p r =>
    match readFarEnd b with
    | none => s.mismatch (refOf b)
    | some st =>
      if r.leg = .dialled ∧ r.state = .setup then
        if st = .answered then s.enter p { r with state := .active, farEnd := some .answered }
        else s.put p (.live { r with farEnd := some st })
      else s.mismatch (refOf b)

/-- FAR_END (R38). -/
def execFarEnd (s : State) : Host.Outcome State Fault Refusal :=
  .next (s.handOn (· = kindFarEnd) State.takeFarEnd)

end Sys2Proof.Machine
end

