-- ==== Sys2Proof/Machine/Confirm.lean ====
section
/-! DEFINITION. CONFIRM and the commits (R56 to R65), the confirm timers (R55, R112) and the issue of
RECALL and DIVERT for custody timers (R117 to R122). -/

namespace Sys2Proof.Machine

/-! ### RECALL and DIVERT -/

/-- A RECALL or DIVERT of expiry kind `k` for a record of tenant `t` (R49, R50). -/
def timerOrder (w : Owed) (k : Option TimerKind) (t : Tenant) : Order :=
  match w with
  | .recall => { Order.new .recall with expiryKind := k }
  | .divert => { Order.new .divert with expiryKind := k, tenant := some t }

/-- The record is in a state in which R50 lets the order be issued. -/
def Owed.fits (w : Owed) (r : Record) : Bool :=
  match w with
  | .recall => r.away
  | .divert => r.away || decide (r.state = .held)

/-- R50 allows a RECALL or DIVERT for the record `r` of slot `p` now. -/
def State.mayRecall (s : State) (p : Slot) (r : Record) (w : Owed) (k : Option TimerKind) : Bool :=
  w.fits r && s.mayIssue p (timerOrder w k r.tenant)

/-! ### Commits -/

/-- The record as it enters HELD on its loop (R59, R60, R63). -/
def Record.toHeld (r : Record) : Record := { r with state := .held }

/-- Slot `p`'s record enters HELD and its HOLD timer is armed. -/
def State.holdRecord (s : State) (p : Slot) : State :=
  match s.record? p with
  | some r => s.enter p r.toHeld
  | none => s

/-- The record as it enters ACTIVE (R59): a loop it lacks is the reserved one, its queue fields and orbit
go, its recall alert is cleared, and a DIALLED leg is ANSWERED (R13). -/
def Record.toActive (r : Record) (reserved : Option Loop) : Record :=
  { r with
    state := .active
    loop := if r.loop.isSome then r.loop else reserved
    queue := none, orbit := none, recallAlert := false
    farEnd := if r.leg = .dialled then some .answered else r.farEnd }

/-- CONNECT DONE (R59): the secondary, if still present, is held and the primary becomes ACTIVE. The
outcome note goes with the change of headset record (R62). -/
def State.connectDone (s : State) (p : Slot) (r : Record) (o : Order) : State :=
  let s := match o.secondary with
    | some q => s.holdRecord q
    | none => s
  (s.enter p (r.toActive o.reservedLoop)).clearNote

/-- HOLD DONE (R60). -/
def State.holdDone (s : State) (p : Slot) (r : Record) : State := (s.enter p r.toHeld).clearNote

/-- PARK DONE (R60). -/
def State.parkDone (s : State) (p : Slot) (r : Record) (o : Order) : State :=
  (s.enter p { r with state := .parked, loop := none, orbit := o.reservedOrbit }).clearNote

/-- CLEAR DONE (R61): the primary retires, and a secondary still present is reconnected on its own loop. -/
def State.clearDone (s : State) (p : Slot) (o : Order) : State :=
  let s := s.retire p
  let s := match o.secondary with
    | some q =>
      match s.record? q with
      | some r => (s.enter q (r.toActive none)).clearNote
      | none => s
    | none => s
  s.closeIfEmpty

/-- JOIN DONE (R61): primary and secondary retire. -/
def State.joinDone (s : State) (p : Slot) (o : Order) : State :=
  let s := s.retire p
  let s := match o.secondary with
    | some q => s.retire q
    | none => s
  s.closeIfEmpty

/-- The primary of an EXTEND sent on: EXTENDED or CAMPED with the order's digits (R62). -/
def State.sentOn (s : State) (p : Slot) (r : Record) (o : Order) (st : Custody) : State :=
  (s.enter p { r with state := st, loop := none, destination := some o.digits }).clearNote

/-- The outcome note set (R62, R63). -/
def State.setNote (s : State) (n : Note) : State := { s with ccc.note := some n }

/-- EXTEND BUSY (R62): CAMPED where the tenant allows camp-on, the outcome note BUSY otherwise. -/
def State.extendBusy (s : State) (p : Slot) (r : Record) (o : Order) : State :=
  if (s.profile r.tenant).campOn = 1 then s.sentOn p r o .camped else s.setNote .busy

/-- The DIALLED leg that a DIAL DONE creates (R7, R63). -/
def dialledRecord (ref : Word) (source : Record) (p : Slot) (o : Order) : Record :=
  { ref := ref, state := .setup, leg := .dialled, tenant := source.tenant, cls := .internal
    recallCount := 0, number := [], name := [], queue := none, loop := o.reservedLoop
    destination := some o.digits, orbit := none, farEnd := some .proceeding, partner := some p
    recallAlert := false, order := none, lock := none, marked := false, auditPartner := 0 }

/-- DIAL DONE with a new reference (R63, R44): the leg is created in the reserved slot, the source is held,
and each names the other as partner. -/
def State.dialDone (s : State) (p : Slot) (r : Record) (o : Order) (ref : Word) : State :=
  match o.reservedSlot with
  | none => s
  | some f =>
    let s := s.enter f (dialledRecord ref r p o)
    (s.enter p { r.toHeld with partner := some f }).clearNote

/-- RECALL DONE (R64). -/
def State.recallDone (s : State) (p : Slot) (r : Record) : State :=
  let r := { r with destination := if r.leg = .dialled then r.destination else none }
  (s.enterQueued p r).requestRecallTone

/-- RECALL REFUSED (R64, R122): the timer is armed again where the record is still in the state of the
order's expiry kind, or where a timer left as it stood is spent. -/
def State.recallRefused (s : State) (p : Slot) (r : Record) (o : Order) : State :=
  if r.state.timerKind = o.expiryKind ∨ (s.timer p).isSpent then s.armTimer p else s

/-- DIVERT REFUSED (R65, R122): a HELD record is left with its recall alert set; for another a RECALL of the
same expiry kind is issued in its place, or owed where R50 does not allow it or `mayReplace` forbids it
(an invalid outcome, R57). -/
def State.divertRefused (s : State) (p : Slot) (r : Record) (o : Order) (mayReplace : Bool) : State :=
  if r.state = .held then s.put p (.live { r with recallAlert := true })
  else if mayReplace && s.mayRecall p r .recall o.expiryKind then
    s.issueOrder p (timerOrder .recall o.expiryKind r.tenant)
  else s.setTimer p (Timer.owing o.expiryKind .recall)

/-- The effects of REFUSED, by kind, on an order that has ended (R58, R64, R65). -/
def State.refusedOutcome (s : State) (p : Slot) (r : Record) (o : Order) (mayReplace : Bool) : State :=
  match o.kind with
  | .recall => s.recallRefused p r o
  | .divert => s.divertRefused p r o mayReplace
  | _ => s

/-- The outcome is valid for the order's kind (R57). -/
def validVerdict (k : OrderKind) (v : Verdict) (newRef : Word) : Bool :=
  match k, v with
  | _, .refused => true
  | .extend, .ringing | .extend, .busy | .extend, .invalid => true
  | .extend, .done => false
  | .dial, .done => newRef != 0
  | .dial, .busy | .dial, .invalid => true
  | _, .done => true
  | _, _ => false

/-- A valid outcome committed or refused, on an order `o` that has ended; `r` is the primary's record as the
end has left it (R59 to R65). -/
def State.commit (s : State) (p : Slot) (r : Record) (o : Order) (v : Verdict) (newRef : Word) : State :=
  match v, o.kind with
  | .refused, _ => s.refusedOutcome p r o true
  | .done, .connect => s.connectDone p r o
  | .done, .hold => s.holdDone p r
  | .done, .clear => s.clearDone p o
  | .done, .join => s.joinDone p o
  | .done, .park => s.parkDone p r o
  | .done, .recall => s.recallDone p r
  | .done, .divert => (s.retire p).closeIfEmpty
  | .done, .dial =>
    if (s.lookup newRef).isSome then s.orderFault .duplicateRef newRef else s.dialDone p r o newRef
  | .ringing, .extend => s.sentOn p r o .extended
  | .busy, .extend => s.extendBusy p r o
  | .invalid, .extend => s.setNote .invalid
  | .busy, .dial => s.setNote .busy
  | .invalid, .dial => s.setNote .invalid
  | _, _ => s

/-- A CONFIRM that matches its order: the order ends first, and the commit then acts (R56, R57, R58). -/
def State.confirmMatched (s : State) (p : Slot) (o : Order) (c : ConfirmBody) (ref : Word) : State :=
  let s := s.endOrder p
  match s.record? p with
  | none => s
  | some r =>
    match c.verdict.filter fun v => validVerdict o.kind v c.newRef with
    | some v => s.commit p r o v c.newRef
    | none => (s.refusedOutcome p r o false).orderFault .mismatch ref

/-- The order that a CONFIRM of kind byte `k` answers: it is of that kind and AWAITING CONFIRM (R56). -/
def Order.answers (o : Order) (k : Byte) : Bool :=
  decide (o.kind.code = k ∧ o.stage = .awaitingConfirm)

/-- A CONFIRM taken by the CCC: the first case of R56 that applies. -/
def State.takeConfirm (b : List Byte) (s : State) : State :=
  let c := readConfirm b
  s.onKnown (refOf b) fun p r =>
    if s.isHeld then s
    else
      match r.order.filter fun o => o.answers c.kind with
      | some o => s.confirmMatched p o c (refOf b)
      | none => s.orderFault .late (refOf b)

/-- CONFIRM (R56). -/
def execConfirm (s : State) : Host.Outcome State Fault Refusal :=
  .next (s.handOn (· = kindConfirm) State.takeConfirm)

/-! ### Confirm timers (R55, R112) -/

/-- The confirm timer of the order pending on slot `p`, while it runs (R112). -/
def State.confirmTimer (s : State) (p : Slot) : Option Nat :=
  ((s.record? p).bind Record.order).bind fun o =>
    if o.stage = .awaitingConfirm then o.confirmTimer else none

/-- A running confirm timer decremented by one. -/
def Order.tickDown (o : Order) : Order :=
  if o.stage = .awaitingConfirm then { o with confirmTimer := o.confirmTimer.map (· - 1) } else o

/-- Slot `p`'s confirm timer decremented by one (R112). -/
def State.tickConfirm (s : State) (p : Slot) : State :=
  if (s.confirmTimer p).isSome then s.update p fun r => { r with order := r.order.map Order.tickDown } else s

/-- The confirm timeout of slot `p`'s order, when its timer stands at 0 (R55): the order is cancelled,
ORDER-FAULT TIMEOUT raised and a resync started. -/
def State.confirmTimeout (s : State) (p : Slot) : State :=
  if s.confirmTimer p = some 0 then (s.cancelOrder p).orderFault .timeout (s.refAt (some p)) else s

/-- The slots in the order in which their timeouts at one beat are taken: the first is a free value where
there are several (log entry 6). -/
def timeoutOrder (n : Nat) (due : List Slot) : List Slot :=
  match due with
  | [] => []
  | [p] => [p]
  | _ => due.rotate (Config.firstTimeout n % due.length)

/-- CONFIRM_BEAT (R112): every running confirm timer decremented, and those that step to 0 time out in this
step (log entry 5). While the link is DOWN nothing is decremented. -/
def execConfirmBeat (s : State) : Host.Outcome State Fault Refusal :=
  .next
    (if s.frozen then s
    else
      let t := slots.foldl State.tickConfirm s
      let due := slots.filter fun p => t.confirmTimer p = some 0
      let t := (timeoutOrder s.freeCount due).foldl State.confirmTimeout t
      { t with freeCount := if 2 ≤ due.length then s.freeCount + 1 else s.freeCount })

/-- CONFIRM_TIMEOUT (R55): slot `p`'s confirm timer alone steps from 1 to 0 (log entry 5). -/
def execConfirmTimeout (p : Slot) (s : State) : Host.Outcome State Fault Refusal :=
  .next
    (if s.frozen then s
    else if (s.confirmTimer p).any (· ≤ 1) then (s.tickConfirm p).confirmTimeout p
    else s)

end Sys2Proof.Machine
end

