-- ==== Sys2Proof/Machine/TimeBase.lean ====
section
/-! DEFINITION. The second tick's work (R73, R84, R116 to R121): aging, custody timer counting, expiries and
their retries, and auto-answer. -/

namespace Sys2Proof.Machine

/-! ### Aging (R69, R73, R80) -/

/-- The working settings as a copy of what POS holds (R69). -/
def Pos.working (ps : Pos) : Working :=
  { baseUrgent := ps.settings.baseUrgent, baseRecall := ps.settings.baseRecall
    baseExternal := ps.settings.baseExternal, baseInternal := ps.settings.baseInternal
    offsets := Vector.ofFn fun t => ps.profiles[t].offset
    ageRate := ps.settings.ageRate, ageCap := ps.settings.ageCap }

/-- A record one second older: the wait raised by one, 65535 left as it is, and the key computed afresh
(R73). -/
def Record.aged (r : Record) (w : Working) : Record :=
  { r with queue := r.queue.map fun q =>
      let wait := min (q.wait + 1) 65535
      { q with wait := wait, key := r.keyAt w wait } }

/-- Slot `p`'s record aged, when it is QUEUED. -/
def State.ageSlot (s : State) (p : Slot) : State :=
  match s.record? p with
  | some r => if r.state = .queued then s.put p (.live (r.aged s.psel.working)) else s
  | none => s

/-- AGING_TICK (R73): the working copy is taken first, whatever the condition of the position; while
aging is held nothing else happens. -/
def execAgingTick (s : State) : Host.Outcome State Fault Refusal :=
  .next
    (let s := { s with psel.working := s.pos.working }
    if s.isHeld then s else slots.foldl State.ageSlot s)

/-! ### Custody timers: counting (R116) -/

/-- A custody timer decremented by one when it is counting; the step from 1 to 0 is reported (R116). -/
def Timer.count (t : Timer) : Timer :=
  if t.isCounting then
    { t with remaining := t.remaining - 1, reported := t.reported || decide (t.remaining = 1) }
  else t

/-- CUSTODY_COUNT_TICK (R116). -/
def execCustodyCountTick (s : State) : Host.Outcome State Fault Refusal :=
  .next
    (if s.isHeld then s
    else slots.foldl (fun s p => s.setTimer p (s.timer p).count) s)

/-! ### Custody timers: expiries (R117 to R119) -/

/-- The expiry of slot `p` waits (R117). -/
def State.waitExpiry (s : State) (p : Slot) : State := s.setTimer p (s.timer p).wait

/-- The recall count raised by one, 3 left at 3 (R9, R117). -/
def Record.raised (r : Record) : Nat := min (r.recallCount + 1) 3

/-- A HOLD expiry below the recall limit (R118): the recall alert is set, the recall tone requested and the
timer armed again. -/
def State.holdExpiry (s : State) (p : Slot) (r : Record) : State :=
  let r := { r with recallCount := r.raised, recallAlert := true }
  ((s.put p (.live r)).armTimer p).requestRecallTone

/-- An expiry that issues a RECALL or DIVERT (R118, R119): where R50 allows it the recall count is raised,
the timer left spent and the order issued; otherwise it waits. -/
def State.orderExpiry (s : State) (p : Slot) (r : Record) (k : TimerKind) (w : Owed) : State :=
  if s.mayRecall p r w (some k) then
    let s := s.put p (.live { r with recallCount := r.raised })
    let s := s.setTimer p (s.timer p).spend
    s.issueOrder p (timerOrder w (some k) r.tenant)
  else s.waitExpiry p

/-- The expiry of a timer of kind `k` tested and acted on (R117): it waits while the record has a pending
order or a lock. -/
def State.takeExpiry (s : State) (p : Slot) (k : TimerKind) : State :=
  match s.record? p with
  | none => s
  | some r =>
    if !r.unfenced then s.waitExpiry p
    else if (s.profile r.tenant).recallLimit ≤ r.raised then s.orderExpiry p r k .divert
    else if k = .hold then s.holdExpiry p r
    else s.orderExpiry p r k .recall

/-- CUSTODY_TIMER_EXPIRY (R117): the report of slot `p` is taken; it is void where the timer has been
stopped or armed again since (log entry 8). -/
def execCustodyTimerExpiry (p : Slot) (s : State) : Host.Outcome State Fault Refusal :=
  .next
    (if (s.timer p).reported then
      let t := s.setTimer p { s.timer p with reported := false }
      match (s.timer p).kind with
      | some k => t.takeExpiry p k
      | none => t
    else s)

/-! ### Retries (R121) -/

/-- An owed order issued, where R50 allows it (R121): the recall count is not raised, and the timer is left
spent. -/
def State.issueOwed (s : State) (p : Slot) (w : Owed) : State :=
  match s.record? p with
  | none => s
  | some r =>
    let k := (s.timer p).kind
    if s.mayRecall p r w k then
      (s.setTimer p (s.timer p).spend).issueOrder p (timerOrder w k r.tenant)
    else s

/-- EXPIRY_RETRY (R121): slot `p`'s waiting expiry or owed order is retried, unless retries are held. -/
def execExpiryRetry (p : Slot) (s : State) : Host.Outcome State Fault Refusal :=
  .next
    (if s.isHeld || !(s.timer p).waiting then s
    else
      match (s.timer p).owed, (s.timer p).kind with
      | some w, _ => s.issueOwed p w
      | none, some k => s.takeExpiry p k
      | none, none => s)

/-! ### Auto-answer (R84, R85) -/

/-- AUTO_ANSWER (R84): a CONNECT for the head when every condition holds, and otherwise nothing. -/
def execAutoAnswer (s : State) : Host.Outcome State Fault Refusal :=
  .next
    (match s.head, s.lowestLoop with
    | some h, some k =>
      let o := { Order.new .connect with reservedLoop := some k }
      if s.pos.settings.autoAnswer = 1 ∧ s.pos.state ≠ .closed ∧ s.headset.isNone ∧ s.mayIssue h o then
        s.issueOrder h o
      else s
    | _, _ => s)

end Sys2Proof.Machine
end

