-- ==== Sys2Proof/Machine/Clock.lean ====
section
/-! DEFINITION. What the part does of its own accord while no command waits (DESIGN CHOICE, log entry 3): it
takes the next step that its own state calls for, or else lets one cycle of REFCLK pass through the
cascade (R110) and hands the beats out as commands (R111). -/

namespace Sys2Proof.Machine

/-! ### Steps that the part's own state calls for -/

/-- The command that takes a key event (R87). -/
def KeyEvent.command : KeyEvent → Instr
  | .loop k => .loopKey k
  | .answer => .answer
  | .release => .release
  | .hold => .holdKey
  | .extend => .extendKey
  | .call => .call
  | .swap => .swap
  | .join => .joinKey
  | .cancel => .cancel
  | .park => .parkKey
  | .retrieve => .retrieve
  | .position => .positionKey

/-- The lowest slot with an expiry reported and not yet taken (R116). -/
def State.reportedSlot (s : State) : Option Slot := slots.find? fun p => (s.timer p).reported

/-- The transmitter has a message to start (R170). -/
def State.hasMessage (s : State) : Bool :=
  !s.sli.replies.isEmpty || !s.sli.orders.isEmpty || s.sli.auditNotice || s.sli.posNotice.isSome
    || s.sli.orderNotice.isSome || s.sli.linkNotice.isSome

/-- The step that the part takes next of its own accord, if its state calls for one: an expiry to take
(R117), a control character to send (R167), a message to hand on (R166), a key event to take (R87), a
message to start (R170). The order among them is a DESIGN CHOICE (log entry 3). -/
def State.ownStep (s : State) : Option Instr :=
  match s.reportedSlot with
  | some p => some (.custodyTimerExpiry p)
  | none =>
    if s.sli.control.isSome then some .sendControlCharacter
    else
      match s.sli.inbound, s.ksc.queue with
      | b :: _, q =>
        if s.sli.replies.length < Config.replyRoom then some (commandOfKind (kindOf b))
        else
          match q with
          | e :: _ => some e.command
          | [] => if s.mayTransmit && s.hasMessage then some .transmitStart else none
      | [], e :: _ => some e.command
      | [], [] => if s.mayTransmit && s.hasMessage then some .transmitStart else none

/-! ### The cascade (R110, R111) -/

/-- The commands of a base tick (R111); the levels of KROW are a free value (log entry 7). -/
def State.baseTickBeats (s : State) : List Instr :=
  [.keyScan (Config.krowLevels s.freeCount), .linkBaseTick]

/-- The retries of a second tick: every slot whose flag is set (R121). -/
def State.retryBeats (s : State) : List Instr :=
  (slots.filter fun p => (s.timer p).waiting).map .expiryRetry

/-- The commands of a second tick (R111). -/
def State.secondBeats (s : State) : List Instr :=
  [.agingTick, .custodyCountTick] ++ s.retryBeats ++ [.autoAnswer]

/-- The commands of a cadence beat (R110, R111): the confirm beat at every second one, the second tick and
the epoch boundary where the cascade wraps, and the cadence step, which counts itself. -/
def State.cadenceBeats (s : State) : List Instr :=
  let t := s.tbt.countStep
  (if t.secondDivider % 2 = 0 then [.confirmBeat] else [])
    ++ (if t.secondDivider = 0 then s.secondBeats else [])
    ++ (if t.secondDivider = 0 ∧ t.epochPhase = 0 then [.epochBoundary] else [])
    ++ [.cadenceStep]

/-- One cycle of REFCLK (R110): the prescaler counts it, a wrap is a base tick, which the step divider
counts, and its wrap is a cadence beat. The beats go to the queue as commands. -/
def State.refclk (s : State) : State :=
  if s.tbt.prescaler < Config.prescalerLast then
    { s with tbt.prescaler := s.tbt.prescaler + 1 }
  else if s.tbt.stepDivider < Config.stepDividerLast then
    { s with
      tbt.prescaler := 0, tbt.stepDivider := s.tbt.stepDivider + 1
      freeCount := s.freeCount + 1, pending := s.baseTickBeats }
  else
    { s with
      tbt.prescaler := 0, tbt.stepDivider := 0
      freeCount := s.freeCount + 1, pending := s.baseTickBeats ++ s.cadenceBeats }

/-- The part while no command waits: its next own step becomes the queue, or a cycle of REFCLK passes. -/
def State.idle (s : State) : State :=
  match s.ownStep with
  | some c => { s with pending := [c] }
  | none => s.refclk

end Sys2Proof.Machine
end

