-- ==== Sys2Proof/Machine/Dispatch.lean ====
section
/-! DEFINITION. The dispatch of the commands: one arm for each row of spec/opcode_table.json. -/

namespace Sys2Proof.Machine

def exec (i : Instr) (s : State) : Host.Outcome State Fault Refusal :=
  match i with
  | .powerOnReset straps => Sys2Proof.Machine.execPowerOnReset straps s
  | .keyScan rows => Sys2Proof.Machine.execKeyScan rows s
  | .answer => Sys2Proof.Machine.execAnswer s
  | .loopKey k => Sys2Proof.Machine.execLoopKey k s
  | .holdKey => Sys2Proof.Machine.execHoldKey s
  | .release => Sys2Proof.Machine.execRelease s
  | .extendKey => Sys2Proof.Machine.execExtendKey s
  | .call => Sys2Proof.Machine.execCall s
  | .swap => Sys2Proof.Machine.execSwap s
  | .joinKey => Sys2Proof.Machine.execJoinKey s
  | .cancel => Sys2Proof.Machine.execCancel s
  | .parkKey => Sys2Proof.Machine.execParkKey s
  | .retrieve => Sys2Proof.Machine.execRetrieve s
  | .positionKey => Sys2Proof.Machine.execPositionKey s
  | .receiveCharacter c => Sys2Proof.Machine.execReceiveCharacter c s
  | .receivedHalt => Sys2Proof.Machine.execReceivedHalt s
  | .receivedGo => Sys2Proof.Machine.execReceivedGo s
  | .gapTimeout => Sys2Proof.Machine.execGapTimeout s
  | .linkBaseTick => Sys2Proof.Machine.execLinkBaseTick s
  | .supervisionTimeout => Sys2Proof.Machine.execSupervisionTimeout s
  | .offer => Sys2Proof.Machine.execOffer s
  | .poll => Sys2Proof.Machine.execPoll s
  | .set => Sys2Proof.Machine.execSet s
  | .cadenceLoad => Sys2Proof.Machine.execCadenceLoad s
  | .cadenceCommit => Sys2Proof.Machine.execCadenceCommit s
  | .position => Sys2Proof.Machine.execPosition s
  | .auditEntry => Sys2Proof.Machine.execAuditEntry s
  | .auditEnd => Sys2Proof.Machine.execAuditEnd s
  | .restart => Sys2Proof.Machine.execRestart s
  | .confirm => Sys2Proof.Machine.execConfirm s
  | .cleared => Sys2Proof.Machine.execCleared s
  | .delivered => Sys2Proof.Machine.execDelivered s
  | .campFree => Sys2Proof.Machine.execCampFree s
  | .farEnd => Sys2Proof.Machine.execFarEnd s
  | .unknownKind => Sys2Proof.Machine.execUnknownKind s
  | .transmitStart => Sys2Proof.Machine.execTransmitStart s
  | .transmitEnd => Sys2Proof.Machine.execTransmitEnd s
  | .sendControlCharacter => Sys2Proof.Machine.execSendControlCharacter s
  | .confirmBeat => Sys2Proof.Machine.execConfirmBeat s
  | .confirmTimeout p => Sys2Proof.Machine.execConfirmTimeout p s
  | .agingTick => Sys2Proof.Machine.execAgingTick s
  | .custodyCountTick => Sys2Proof.Machine.execCustodyCountTick s
  | .custodyTimerExpiry p => Sys2Proof.Machine.execCustodyTimerExpiry p s
  | .autoAnswer => Sys2Proof.Machine.execAutoAnswer s
  | .expiryRetry p => Sys2Proof.Machine.execExpiryRetry p s
  | .cadenceStep => Sys2Proof.Machine.execCadenceStep s
  | .epochBoundary => Sys2Proof.Machine.execEpochBoundary s

end Sys2Proof.Machine
end

