-- ==== Sys2Proof/Safety.lean ====
section
/-! DEFINITION. What counts as a safe run of the ZP640: the laws of the device that the spec names, each as
a property of one state, and the invariant that gathers them. A run is safe while every state it passes
through is lawful; no state of the part is a stop, since no command faults or is refused. -/

namespace Sys2Proof.Machine

/-! ### Records (R7 to R13, R22, R23, R25, R26) -/

/-- The optional fields of a record fit its state and leg, and its counts lie in their ranges (R9 to R13,
the table "State and optional fields", R22, R23; the presence halves of R25 and R26). -/
abbrev Record.Fits (r : Record) : Prop :=
  r.ref ≠ 0
    ∧ (r.queue.isSome ↔ r.state = .queued)
    ∧ (r.loop.isSome ↔ r.state = .active ∨ r.state = .held ∨ r.state = .setup)
    ∧ (r.orbit.isSome ↔ r.state = .parked)
    ∧ (r.farEnd.isSome ↔ r.leg = .dialled)
    ∧ (r.destination.isSome ↔ r.leg = .dialled ∨ r.state = .extended ∨ r.state = .camped)
    ∧ (r.state = .setup → r.leg = .dialled ∧ r.farEnd ≠ some .answered)
    ∧ (r.state = .active → r.leg = .dialled → r.farEnd = some .answered)
    ∧ (r.recallAlert → r.state = .held)
    ∧ r.recallCount ≤ 3
    ∧ r.number.length ≤ 16 ∧ r.name.length ≤ 16
    ∧ (∀ d ∈ r.destination, 1 ≤ d.length ∧ d.length ≤ Config.dialRoom)
    ∧ (∀ q ∈ r.queue, q.wait ≤ 65535 ∧ q.key ≤ 5118)

/-- Every live record's fields fit its state. -/
abbrev State.RecordsFit (s : State) : Prop := ∀ p : Slot, ∀ r ∈ s.record? p, r.Fits

/-! ### Names of records (R5, R24, R25, R26, R43) -/

/-- The reference index holds exactly the references of the live records, in rising order (R5). -/
abbrev State.IndexExact (s : State) : Prop :=
  s.ccc.index.Pairwise (fun a b => a.1.toNat < b.1.toNat)
    ∧ (s.ccc.index.all fun e => (s.record? e.2).any fun r => r.ref = e.1)
    ∧ (∀ p : Slot, ∀ r ∈ s.record? p, (r.ref, p) ∈ s.ccc.index)

/-- At most one live record is in ACTIVE or SETUP (R24). -/
abbrev State.HeadsetAlone (s : State) : Prop :=
  ∀ p : Slot, ∀ r ∈ s.record? p, r.onHeadset →
    ∀ q : Slot, ∀ r' ∈ s.record? q, r'.onHeadset → q = p

/-- No loop is carried or reserved twice (R25). -/
abbrev State.LoopsApart (s : State) : Prop :=
  ∀ p : Slot, ∀ r ∈ s.record? p, ∀ q : Slot, ∀ r' ∈ s.record? q, ∀ k : Loop,
    (r.loop = some k → r'.loop = some k → q = p)
      ∧ (r.reservedLoop = some k → r'.reservedLoop = some k → q = p)
      ∧ (r.loop = some k → r'.reservedLoop ≠ some k)

/-- No orbit is carried or reserved twice (R26). -/
abbrev State.OrbitsApart (s : State) : Prop :=
  ∀ p : Slot, ∀ r ∈ s.record? p, ∀ q : Slot, ∀ r' ∈ s.record? q, ∀ o : Orbit,
    (r.orbit = some o → r'.orbit = some o → q = p)
      ∧ (r.reservedOrbit = some o → r'.reservedOrbit = some o → q = p)
      ∧ (r.orbit = some o → r'.reservedOrbit ≠ some o)

/-- The partner relation is symmetric, and a pair is one DIALLED and one INCOMING record of which at most
one is not HELD, that one being on the headset (R14, R43, R45). -/
abbrev State.PairsFit (s : State) : Prop :=
  ∀ p : Slot, ∀ r ∈ s.record? p, ∀ q ∈ r.partner,
    ∃ r' ∈ s.record? q, r'.partner = some p ∧ r'.leg ≠ r.leg
      ∧ ((r.state = .held ∧ (r'.state = .held ∨ r'.onHeadset))
        ∨ (r.onHeadset ∧ r'.state = .held))

/-! ### Orders in flight (R4, R49 to R53) -/

/-- A timer or expiry kind suits the custody state of its record: the state's own kind (R22), or CAMP for a
record that a CAMP-FREE has since moved to EXTENDED (R37, R122). -/
def TimerKind.suits (k : TimerKind) (st : Custody) : Bool :=
  match k with
  | .hold => decide (st = .held)
  | .park => decide (st = .parked)
  | .camp => decide (st = .camped ∨ st = .extended)
  | .noAnswer => decide (st = .extended)

/-- What a pending order of each kind holds (R49, R50). -/
abbrev Order.ShapeFits (o : Order) (r : Record) : Prop :=
  (o.stage = .awaitingConfirm ↔ o.confirmTimer.isSome)
    ∧ (∀ n ∈ o.confirmTimer, 1 ≤ n ∧ n ≤ 50)
    ∧ (o.reservedLoop.isSome ↔ (o.kind = .connect ∧ r.loop = none) ∨ o.kind = .dial)
    ∧ (o.reservedOrbit.isSome ↔ o.kind = .park)
    ∧ (o.reservedSlot.isSome ↔ o.kind = .dial)
    ∧ (o.secondary.isSome → o.kind = .connect ∨ o.kind = .clear ∨ o.kind = .join)
    ∧ (o.kind = .extend ∨ o.kind = .dial → 1 ≤ o.digits.length ∧ o.digits.length ≤ Config.dialRoom)
    ∧ (o.expiryKind.isSome ↔ o.kind = .recall ∨ o.kind = .divert)
    ∧ (o.tenant.isSome ↔ o.kind = .divert)

/-- How the primary of a pending order of each kind stands while it is pending (R50; the primary of a CLEAR
or JOIN is still on the headset, and its secondary, while present, is its partner). -/
abbrev Order.PrimaryFits (o : Order) (r : Record) : Prop :=
  (o.kind = .connect → r.state = .queued ∨ r.state = .held ∨ r.state = .parked)
    ∧ (o.kind = .hold ∨ o.kind = .extend ∨ o.kind = .park ∨ o.kind = .dial → r.state = .active)
    ∧ (o.kind = .clear ∨ o.kind = .join → r.onHeadset)
    ∧ (o.kind = .extend ∨ o.kind = .park ∨ o.kind = .dial → r.partner = none)
    ∧ (o.kind = .dial → r.leg = .incoming)
    ∧ (o.kind = .clear ∨ o.kind = .join → o.secondary.isSome →
        r.leg = .dialled ∧ r.partner = o.secondary)
    ∧ (o.kind = .recall → r.away)
    ∧ (∀ k ∈ o.expiryKind, k.suits r.state)

/-- Every pending order fits its primary. -/
abbrev State.OrdersFit (s : State) : Prop :=
  ∀ p : Slot, ∀ r ∈ s.record? p, ∀ o ∈ r.order, o.ShapeFits r ∧ o.PrimaryFits r

/-- The order group holds each order AWAITING LINE once, and nothing else (R49, R54). -/
abbrev State.GroupExact (s : State) : Prop :=
  s.sli.orders.Nodup
    ∧ (∀ p ∈ s.sli.orders, ∃ r ∈ s.record? p, ∃ o ∈ r.order, o.stage = .awaitingLine)
    ∧ (∀ p : Slot, ∀ r ∈ s.record? p, ∀ o ∈ r.order, o.stage = .awaitingLine → p ∈ s.sli.orders)

/-- Locks and secondaries name each other (R15, R53). -/
abbrev State.LocksExact (s : State) : Prop :=
  ∀ p : Slot, ∀ r ∈ s.record? p,
    (∀ o ∈ r.order, ∀ q ∈ o.secondary, ∃ r' ∈ s.record? q, r'.lock = some p ∧ r'.order = none)
      ∧ (∀ q ∈ r.lock, r.order = none
          ∧ ∃ r' ∈ s.record? q, ∃ o ∈ r'.order, o.secondary = some p)

/-- The headset claim names the primary of the one pending order that takes it (R52). -/
abbrev State.ClaimExact (s : State) : Prop :=
  ∀ p : Slot, s.ccc.claim = some p ↔ ∃ r ∈ s.record? p, ∃ o ∈ r.order, o.takesClaim

/-- A RESERVED slot and the DIAL that reserved it name each other (R4). -/
abbrev State.ReservedExact (s : State) : Prop :=
  (∀ f p : Slot, s.slot f = .reserved p →
      ∃ r ∈ s.record? p, ∃ o ∈ r.order, o.reservedSlot = some f)
    ∧ (∀ p : Slot, ∀ r ∈ s.record? p, ∀ o ∈ r.order, ∀ f ∈ o.reservedSlot, s.slot f = .reserved p)

/-- While a CONNECT is pending, the headset record, if any, is its ACTIVE secondary (R24). -/
abbrev State.ConnectAlone (s : State) : Prop :=
  ∀ p : Slot, ∀ r ∈ s.record? p, ∀ o ∈ r.order, o.kind = .connect →
    (∀ q ∈ o.secondary, ∀ r' ∈ s.record? q, r'.state = .active)
      ∧ (∀ q : Slot, ∀ r' ∈ s.record? q, r'.onHeadset → o.secondary = some q)

/-- No order is pending while the position is frozen or in resync (R66, R175, R176). -/
abbrev State.HeldQuiet (s : State) : Prop :=
  s.isHeld → ∀ p : Slot, ∀ r ∈ s.record? p, r.order = none

/-! ### Presentation (R71, R78, R79, R82) -/

/-- Every leaf holds what its slot's record gives it (R78). -/
abbrev State.LeavesExact (s : State) : Prop := ∀ p : Slot, s.psel.leaves[p] = (s.slot p).leaf

/-- Every internal node holds what deciding it afresh gives (R79). -/
abbrev Psel.Decided (ps : Psel) : Prop :=
  ∀ i : Fin 63, ps.nodes[i] = decideNode ps.leaves ps.nodes (i.val + 1)

/-- The number of QUEUED records of tenant `t` (R82). -/
def State.countQueued (s : State) (t : Tenant) : Nat :=
  slots.countP fun p => (s.slot p).queuedTenant = some t

/-- Every tenant's queued count is the number of its QUEUED records (R82). -/
abbrev State.CountsExact (s : State) : Prop := ∀ t : Tenant, s.psel.queued[t] = s.countQueued t

/-! ### Timers, notes and marks (R16, R62, R113) -/

/-- A custody timer's items fit one another (R113). -/
abbrev Timer.Fits (t : Timer) : Prop :=
  t.remaining ≤ 255
    ∧ (t.kind = none → t.remaining = 0 ∧ t.waiting = false ∧ t.reported = false)
    ∧ (t.owed.isSome → t.waiting)
    ∧ (t.waiting → t.remaining = 0 ∧ t.reported = false)
    ∧ (t.reported → t.remaining = 0)

/-- Every custody timer fits, and its kind suits the state of its slot's record (R113 to R115, R122). -/
abbrev State.TimersFit (s : State) : Prop :=
  ∀ p : Slot, (s.timer p).Fits ∧ ∀ k ∈ (s.timer p).kind, ∃ r ∈ s.record? p, k.suits r.state

/-- The outcome note stands only while the headset record is ACTIVE (R62). -/
abbrev State.NoteFits (s : State) : Prop :=
  s.ccc.note.isSome → ∃ p ∈ slots, ∃ r ∈ s.record? p, r.state = .active

/-- Outside a resync every audit mark is clear (R16). -/
abbrev State.MarksFit (s : State) : Prop :=
  s.ccc.resync = false → ∀ p : Slot, ∀ r ∈ s.record? p, r.marked = false ∧ r.auditPartner = 0

/-! ### The position and its settings (R124, R131 to R133) -/

/-- A CLOSED position holds no live and no reserved slot, a CLOSING one at least one live record (R124). -/
abbrev State.PositionFits (s : State) : Prop :=
  (s.pos.state = .closed → ∀ p : Slot, s.slot p = .free)
    ∧ (s.pos.state = .closing → s.liveCount ≠ 0)

/-- The position items lie in their ranges, the low mark below the high mark (R131, R133). -/
abbrev Settings.InRange (t : Settings) : Prop :=
  t.baseUrgent ≤ 4095 ∧ t.baseRecall ≤ 4095 ∧ t.baseExternal ≤ 4095 ∧ t.baseInternal ≤ 4095
    ∧ t.ageRate ≤ 15 ∧ t.ageCap ≤ 4095 ∧ t.autoAnswer ≤ 1
    ∧ 5 ≤ t.confirmTime ∧ t.confirmTime ≤ 50 ∧ 1 ≤ t.supervision ∧ t.supervision ≤ 30
    ∧ 2 ≤ t.highMark ∧ t.highMark ≤ 15 ∧ t.lowMark < t.highMark
    ∧ t.burstCount ≤ 15 ∧ t.burstGap ≤ 15

/-- The items of a tenant profile lie in their ranges (R132, R134). -/
abbrev Profile.InRange (f : Profile) : Prop :=
  f.offset ≤ 1023 ∧ f.queueLimit ≤ 64 ∧ 1 ≤ f.flashThreshold ∧ f.flashThreshold ≤ 64 ∧ f.campOn ≤ 1
    ∧ f.holdReload ≤ 255 ∧ f.parkReload ≤ 255 ∧ f.campReload ≤ 255 ∧ f.noAnswerReload ≤ 255
    ∧ 1 ≤ f.recallLimit ∧ f.recallLimit ≤ 3
    ∧ f.label.length = 12 ∧ (∀ c ∈ f.label, printable c)

/-- PSEL's working settings lie in their ranges (R69). -/
abbrev Working.InRange (w : Working) : Prop :=
  w.baseUrgent ≤ 4095 ∧ w.baseRecall ≤ 4095 ∧ w.baseExternal ≤ 4095 ∧ w.baseInternal ≤ 4095
    ∧ (∀ t : Tenant, w.offsets[t] ≤ 1023) ∧ w.ageRate ≤ 15 ∧ w.ageCap ≤ 4095

/-- Every setting, stored or working, lies in its range. -/
abbrev State.SettingsFit (s : State) : Prop :=
  s.pos.settings.InRange ∧ (∀ t : Tenant, (s.profile t).InRange) ∧ s.psel.working.InRange

/-! ### Counters, queues and patterns -/

/-- The counters of the cascade lie in their ranges (R110). -/
abbrev Tbt.InRange (t : Tbt) : Prop :=
  t.prescaler ≤ Config.prescalerLast ∧ t.stepDivider ≤ Config.stepDividerLast
    ∧ t.secondDivider ≤ Config.secondDividerLast ∧ t.epochPhase ≤ Config.epochPhaseLast

/-- Queues, groups and buffers hold no more than their room (R140, R141, R163, R164, R166, R168, R169). -/
abbrev State.RoomKept (s : State) : Prop :=
  s.ksc.queue.length ≤ Config.keyQueueRoom ∧ s.ksc.dial.length ≤ Config.dialRoom
    ∧ s.sli.inbound.length ≤ Config.inboundRoom ∧ s.sli.replies.length ≤ Config.replyRoom
    ∧ s.sli.orders.length ≤ Config.orderRoom ∧ s.sli.assembly.length ≤ Config.assemblyRoom
    ∧ s.sli.gap ≤ Config.gapLimit ∧ (∀ i : Fin 29, s.ksc.keys[i].run ≤ 2)

/-- Every message in the inbound queue has at least a header and at most 40 bytes (R162, R164, R165). -/
abbrev State.MessagesFit (s : State) : Prop :=
  ∀ b ∈ s.sli.inbound, headerLength ≤ b.length ∧ b.length ≤ 40

/-- While a message is being sent, part of its frame is left to go out: its EOM at least (R167, R170). -/
abbrev State.SendingFits (s : State) : Prop := ∀ m ∈ s.sli.sending, m.left ≠ []

/-- A cadence pattern holds 1..8 steps of 1..40 cadence steps each (R146, R147). -/
abbrev Pattern.Fits (p : Pattern) : Prop :=
  1 ≤ p.steps.length ∧ p.steps.length ≤ 8 ∧ ∀ c ∈ p.steps, 1 ≤ c.duration ∧ c.duration ≤ 40

/-- Every pattern of both banks fits (R147). -/
abbrev State.BanksFit (s : State) : Prop :=
  ∀ n : Fin 16, (s.ind.active.patterns[n]).Fits ∧ (s.ind.shadow.patterns[n]).Fits

/-- The chirp's phase and the burst's position lie in their ranges, and a STOPPED burst stands at 0 with no
epoch assigned (R154, R156). -/
abbrev Ind.TonesFit (i : Ind) : Prop :=
  (∀ n ∈ i.chirp, n ≤ 39) ∧ i.burst.position ≤ 29 ∧ i.burst.count ≤ 15
    ∧ (i.burst.running = false → i.burst.position = 0 ∧ i.burst.assigned = false)

/-! ### The gathered invariants -/

/-- The laws about the call table, its names and its orders. -/
abbrev State.TableLawful (s : State) : Prop :=
  s.RecordsFit ∧ s.IndexExact ∧ s.HeadsetAlone ∧ s.LoopsApart ∧ s.OrbitsApart ∧ s.PairsFit
    ∧ s.OrdersFit ∧ s.GroupExact ∧ s.LocksExact ∧ s.ClaimExact ∧ s.ReservedExact ∧ s.ConnectAlone
    ∧ s.HeldQuiet ∧ s.TimersFit ∧ s.NoteFits ∧ s.MarksFit ∧ s.PositionFits

/-- The laws about PSEL (R78 to R83). -/
abbrev State.PresentationLawful (s : State) : Prop :=
  s.LeavesExact ∧ s.psel.Decided ∧ s.CountsExact

/-- The laws about ranges, queues, patterns and tones. -/
abbrev State.RangesLawful (s : State) : Prop :=
  s.SettingsFit ∧ s.tbt.InRange ∧ s.RoomKept ∧ s.MessagesFit ∧ s.SendingFits ∧ s.BanksFit
    ∧ s.ind.TonesFit

/-- The state keeps every law of the device. -/
abbrev State.Lawful (s : State) : Prop :=
  s.TableLawful ∧ s.PresentationLawful ∧ s.RangesLawful

/-! ### The terms of the claims

What the statements of Certificates/Slice0/Obligations.lean say about a command, in plain relations between
the state before and the state after; none of them is a function of the model. -/

/-- Command `c` completes on `s`, and its next state satisfies `P`. -/
def Runs (c : Instr) (s : State) (P : State → Prop) : Prop := ∃ t, exec c s = .next t ∧ P t

/-- A message command `c` completes on `s`: what it does satisfies `P`, and the flow-control comparison of
R167 is then made. -/
def HandsOn (c : Instr) (s : State) (P : State → Prop) : Prop :=
  ∃ u, exec c s = .next u.compareFlow ∧ P u

/-- The commands of a list, one after the other. -/
def execAll : List Instr → State → Host.Outcome State Fault Refusal
  | [], s => .next s
  | c :: cs, s =>
    match exec c s with
    | .next t => execAll cs t
    | o => o

/-- The character that carries byte `b` without error: its bits least significant first, even parity, the
stop bit at the mark level (R161). -/
def goodChar (b : Byte) : LineChar :=
  .frame (Vector.ofFn fun i => b.getLsbD i.val)
    ((List.range 8).foldl (fun a i => xor a (b.getLsbD i)) false) true

/-- Keys other than POSITION are judged by their own conditions (R88). -/
abbrev State.TakesKeys (s : State) : Prop :=
  s.pos.state ≠ .closed ∧ s.sli.link = .up ∧ s.ccc.resync = false

/-- The message `b` of kind `k` stands at the head of the inbound queue, before `rest`, and the reply group
has a free entry (R166). -/
abbrev State.MessageWaits (s : State) (k : Byte) (b : List Byte) (rest : List (List Byte)) : Prop :=
  s.sli.inbound = b :: rest ∧ kindOf b = k ∧ s.sli.replies.length < Config.replyRoom

/-- The CONFIRM `b` at the head of the inbound queue answers the order `o` that awaits it on the record `r` of
slot `p`, while the position is neither frozen nor in resync (R56). -/
abbrev State.ConfirmWaits (s : State) (b : List Byte) (rest : List (List Byte)) (p : Slot) (r : Record)
    (o : Order) : Prop :=
  s.MessageWaits kindConfirm b rest ∧ s.lookup (refOf b) = some p ∧ s.record? p = some r
    ∧ r.order = some o ∧ o.stage = .awaitingConfirm ∧ byteAt b 4 = o.kind.code
    ∧ s.sli.link = .up ∧ s.ccc.resync = false

/-- The order group has a free entry (R50). -/
abbrev State.OrderRoom (s : State) : Prop := s.sli.orders.length < Config.orderRoom

/-- The headset record is absent, or ACTIVE with neither a pending order nor a lock (R89, R90). -/
abbrev State.HeadsetYields (s : State) : Prop :=
  ∀ q ∈ s.headset, ∀ u ∈ s.record? q, u.state = .active ∧ u.unfenced

/-- Every loop is carried by a live record or reserved by a pending order (R12). -/
abbrev State.NoLoop (s : State) : Prop :=
  ∀ k : Loop, ∃ p : Slot, ∃ r ∈ s.record? p, r.loop = some k ∨ r.reservedLoop = some k

/-- The headset record is in SETUP, or has a pending order or a lock: no CONNECT may displace it (R89, R90). -/
abbrev State.HeadsetBars (s : State) : Prop :=
  ∃ p ∈ s.headset, ∃ u ∈ s.record? p, u.state = .setup ∨ ¬ u.unfenced

/-- There is no headset record, or it is not ACTIVE (R94 to R99). -/
abbrev State.NoneActive (s : State) : Prop := ∀ p ∈ s.headset, ∀ u ∈ s.record? p, u.state ≠ .active

/-- The level `b` is that of pattern `p` at phase `n` (R146): the steps lie end to end, a REPEAT pattern shows
the step that covers `n` modulo its length, and a ONCE pattern the step that covers `n`, or past its end the
last one. -/
abbrev Pattern.Shows (p : Pattern) (n : Nat) (b : Bool) : Prop :=
  let start (i : Nat) : Nat := ((p.steps.take i).map CadStep.duration).sum
  let length := (p.steps.map CadStep.duration).sum
  let covered (m : Nat) : Prop :=
    ∃ i ∈ List.range p.steps.length, ∃ c ∈ p.steps[i]?,
      start i ≤ m ∧ m < start i + c.duration ∧ b = c.on
  (p.mode = .repeat_ → covered (n % length))
    ∧ (p.mode = .once → n < length → covered n)
    ∧ (p.mode = .once → length ≤ n → ∃ c ∈ p.steps.getLast?, b = c.on)

/-- `s` with a chirp requested: the request is ignored while a chirp is playing (R154). -/
abbrev State.chirped (s : State) : State :=
  { s with ind.chirpReq := s.ind.chirpReq || s.ind.chirp.isNone }

/-- Command `c` takes the key event at the head of the queue, before `rest`, and refuses it: a chirp is
requested and nothing else changes (R87). -/
abbrev State.Refuses (s : State) (c : Instr) (rest : List KeyEvent) : Prop :=
  exec c s = .next { s.chirped with ksc.queue := rest }

/-- `t` is `s` after order `o` has been issued on slot `p`, whose record was `r` (R51): the order stands on
its primary, the secondary is locked, a reserved slot names its owner, the claim and the order group hold
the primary, the note of a headset primary and the dial buffer of an EXTEND, DIAL or PARK are cleared, a
QUEUED primary's leaf is empty, and everything else is as before. -/
abbrev State.Issues (s t : State) (p : Slot) (r : Record) (o : Order) : Prop :=
  t.slot p = .live { r with order := some o }
    ∧ (∀ q ∈ o.secondary, ∀ u ∈ s.record? q, t.slot q = .live { u with lock := some p })
    ∧ (∀ f ∈ o.reservedSlot, t.slot f = .reserved p)
    ∧ (∀ x : Slot, x ≠ p → o.secondary ≠ some x → o.reservedSlot ≠ some x → t.slot x = s.slot x)
    ∧ t.psel.leaves = s.psel.leaves.set p none
    ∧ (r.state ≠ .queued → t.psel = s.psel)
    ∧ t =
      { s with
        ccc.table := t.ccc.table
        ccc.claim :=
          if o.kind = .connect ∨ o.kind = .dial ∨ (o.kind = .clear ∧ o.secondary.isSome) then some p
          else s.ccc.claim
        ccc.note := if s.headset = some p then none else s.ccc.note
        psel.leaves := t.psel.leaves
        psel.nodes := t.psel.nodes
        ksc.dial :=
          if o.kind = .extend ∨ o.kind = .dial ∨ o.kind = .park then [] else s.ksc.dial
        sli.orders := s.sli.orders ++ [p] }

/-- `t` is `s` after the order `o` AWAITING CONFIRM on slot `p`, whose record was `r`, has ended and nothing
else has come of it (R58): the order, its lock, its claim and its reservations are gone, a QUEUED primary's
leaf is filled again, and everything else is as before. -/
abbrev State.EndsOrder (s t : State) (p : Slot) (r : Record) (o : Order) : Prop :=
  t.slot p = .live { r with order := none }
    ∧ (∀ q ∈ o.secondary, ∀ u ∈ s.record? q, t.slot q = .live { u with lock := none })
    ∧ (∀ f ∈ o.reservedSlot, t.slot f = .free)
    ∧ (∀ x : Slot, x ≠ p → o.secondary ≠ some x → o.reservedSlot ≠ some x → t.slot x = s.slot x)
    ∧ t.psel.leaves = s.psel.leaves.set p r.queue
    ∧ t =
      { s with
        ccc.table := t.ccc.table
        ccc.claim := if s.ccc.claim = some p then none else s.ccc.claim
        psel.leaves := t.psel.leaves
        psel.nodes := t.psel.nodes }

/-- A timer of kind `k` freshly armed with `n` seconds, or none where `n` is 0 (R114). -/
def armed (k : TimerKind) (n : Nat) : Timer :=
  if n = 0 then Timer.stopped
  else { kind := some k, remaining := n, waiting := false, owed := none, reported := false }

/-- What the cancellation of an order of slot `p` leaves on the slot's timer (R66, R67): a RECALL or DIVERT
is owed, and any other order leaves the timer alone. -/
def State.timerCancelled (s : State) (p : Slot) : Timer :=
  match (s.record? p).bind Record.order with
  | some o =>
    match o.kind with
    | .recall => { kind := o.expiryKind, remaining := 0, waiting := true, owed := some .recall, reported := false }
    | .divert => { kind := o.expiryKind, remaining := 0, waiting := true, owed := some .divert, reported := false }
    | _ => s.timer p
  | none => s.timer p

/-- `t` is `s` after every pending order has been cancelled (R66, R67): no order, lock, claim or RESERVED
slot is left, the order group is empty, each cancelled RECALL or DIVERT is owed, the QUEUED records are all
in the contest, and everything else is as before. `f` is what else becomes of a record. -/
abbrev State.CancelsAll (s t : State) (f : Record → Record) : Prop :=
  (∀ p : Slot, ∀ r ∈ s.record? p, t.slot p = .live (f { r with order := none, lock := none }))
    ∧ (∀ p : Slot, s.record? p = none → t.slot p = .free)
    ∧ (∀ p : Slot, t.timer p = s.timerCancelled p)
    ∧ t.LeavesExact
    ∧ t =
      { s with
        ccc.table := t.ccc.table
        ccc.claim := none
        ccc.resync := t.ccc.resync
        psel.leaves := t.psel.leaves
        psel.nodes := t.psel.nodes
        tbt.timers := t.tbt.timers
        sli.orders := []
        sli.auditNotice := t.sli.auditNotice }

/-- `t` is `s` after entry to resync (R176). -/
abbrev State.EntersResync (s t : State) : Prop :=
  s.CancelsAll t (fun r => { r with marked := false, auditPartner := 0 })
    ∧ t.ccc.resync = true ∧ t.sli.auditNotice = true

/-- The ORDER-FAULT of kind `k` naming `ref` raised in `s` leads to `t` (R68): the notice stands, and a
resync has been entered unless one was under way. -/
abbrev State.Faults (s t : State) (k : OrderFault) (ref : Word) : Prop :=
  let u := { s with sli.orderNotice := some (k, ref) }
  (s.ccc.resync = true → t = u) ∧ (s.ccc.resync = false → u.EntersResync t)

/-- What is left of record `r` when the record of slot `p` has retired (R17): no name for `p`. -/
def Record.without (r : Record) (p : Slot) : Record :=
  { r with
    partner := if r.partner = some p then none else r.partner
    lock := if r.lock = some p then none else r.lock
    order := r.order.map fun o => { o with secondary := if o.secondary = some p then none else o.secondary } }

/-- `t` is `s` after the retirement of the record `r` of slot `p` (R17): every name for the slot is gone, its
order with its reservations, its timer and its place in the contest too, every other record keeps all but
what named it, and everything else is as before. -/
abbrev State.Retires (s t : State) (p : Slot) (r : Record) : Prop :=
  t.slot p = .free
    ∧ (∀ q : Slot, q ≠ p → ∀ u ∈ s.record? q, t.slot q = .live (u.without p))
    ∧ (∀ q : Slot, s.record? q = none →
        t.slot q = if s.slot q = .reserved p then .free else s.slot q)
    ∧ t.ccc.index = s.ccc.index.filter (fun e => e.1 ≠ r.ref)
    ∧ t.ccc.claim =
      (if s.ccc.claim = some p
          ∨ (∃ q ∈ r.lock, s.ccc.claim = some q ∧
              ∃ u ∈ s.record? q, ∃ o ∈ u.order, o.kind = .clear) then none
        else s.ccc.claim)
    ∧ t.ccc.note = (if r.onHeadset then none else s.ccc.note)
    ∧ t.psel.leaves = s.psel.leaves.set p none
    ∧ t.psel.queued =
      (if r.state = .queued then s.psel.queued.set r.tenant (s.psel.queued[r.tenant] - 1)
        else s.psel.queued)
    ∧ t.tbt = { s.tbt with timers := s.tbt.timers.set p Timer.stopped }
    ∧ t.sli = { s.sli with orders := s.sli.orders.filter (· ≠ p), posNotice := t.sli.posNotice }
    ∧ t =
      { s with
        ccc := { t.ccc with resync := s.ccc.resync }
        psel := { s.psel with leaves := t.psel.leaves, nodes := t.psel.nodes, queued := t.psel.queued }
        tbt := t.tbt, pos.state := t.pos.state, sli := t.sli }

/-- `t` is `s` after the AUDIT-ENTRY `e` for `ref` has settled the other record that it meets, if any, which is
unmarked (R179): one on the headset, where the entry puts its own there, becomes HELD on its loop with its
HOLD timer armed and the outcome note cleared; one PARKED at the entry's orbit is retired. -/
abbrev State.Settles (s t : State) (ref : Word) (e : EntryBody) : Prop :=
  let headset := e.state = .active ∨ e.state = .setup
  let meets (q : Slot) (v : Record) : Prop :=
    s.lookup ref ≠ some q ∧ ((headset ∧ v.onHeadset) ∨ (e.state = .parked ∧ v.orbit = e.orbit))
  ((∀ q : Slot, ∀ v ∈ s.record? q, ¬ meets q v) → t = s)
    ∧ (∀ q : Slot, ∀ v ∈ s.record? q, meets q v →
      v.marked = false
        ∧ (headset → t =
          { s with
            ccc.table := s.ccc.table.set q (.live { v with state := .held }), ccc.note := none
            tbt.timers := s.tbt.timers.set q (armed .hold (s.profile v.tenant).holdReload) })
        ∧ (e.state = .parked →
          s.Retires t q v ∧ t.psel = s.psel ∧ t.pos = s.pos ∧ t.sli = s.sli))

/-- The position after a step that began it in `s` and left the table as in `t` (R127): a CLOSING position
whose table holds no live record is CLOSED, with its notice; otherwise nothing changes. -/
abbrev State.Closes (s t : State) : Prop :=
  (s.pos.state = .closing → t.liveCount = 0 →
      t.pos.state = .closed ∧ t.sli.posNotice = some .closed)
    ∧ (s.pos.state ≠ .closing ∨ t.liveCount ≠ 0 →
      t.pos.state = s.pos.state ∧ t.sli.posNotice = s.sli.posNotice)

end Sys2Proof.Machine
end

