-- ==== Sys2Proof/Certificates/Slice0/Obligations.lean ====
section
/-! DEFINITION. The statements for the provers. Each is about every state that meets its premises, and says
what a command leaves as well as what it changes; `Safety.lean` explains the relations they are written in
(`Runs`, `HandsOn`, `Issues`, `EndsOrder`, `Retires`, `EntersResync`, `Faults`). In every statement about a
message the flow-control comparison of R167 is made at the end of the step (log entry 17), and in those about
a closing position the close is complete at the end of the step (log entry 16). -/

open Sys2Proof Sys2Proof.Machine

/-! ### The step, reset and the cascade -/

/-- A step takes the command at the front of the queue and runs it on the queue's rest. -/
def Obligations.StepRunsTheFrontCommand : Prop :=
  ∀ (c : Instr) (rest : List Instr) (s : State),
    s.pending = c :: rest → step s = exec c { s with pending := rest }

/-- With no command waiting and no step of the part's own to take, a step is one cycle of REFCLK (R110,
R111): the prescaler counts, its wrap is a base tick, the step divider's wrap a cadence beat, and the beats
go to the queue. A step of its own, where there is one, becomes the queue: the lowest slot's expiry
reported (R116, R117), else the pending control character (R167), else, while the reply group has room,
the command of the kind of the message at the head of the inbound queue (R166), else that of the key event
at the head of its queue (R87), else a transmission's start (R170). That an empty queue means this, and
the order among these, is the model's choice (log entry 3). -/
def Obligations.IdleStepCountsRefclk : Prop :=
  (∀ s : State, s.pending = [] → s.ownStep = none →
    let tick : List Instr := [.keyScan (Config.krowLevels s.freeCount), .linkBaseTick]
    let second : List Instr :=
      [.agingTick, .custodyCountTick] ++ (slots.filter fun p => (s.timer p).waiting).map .expiryRetry
        ++ [.autoAnswer]
    (s.tbt.prescaler < 36863 →
        step s = .next { s with tbt.prescaler := s.tbt.prescaler + 1 })
      ∧ (s.tbt.prescaler = 36863 → s.tbt.stepDivider < 4 →
        step s = .next { s with
          tbt.prescaler := 0, tbt.stepDivider := s.tbt.stepDivider + 1
          freeCount := s.freeCount + 1, pending := tick })
      ∧ (s.tbt.prescaler = 36863 → s.tbt.stepDivider = 4 → s.tbt.secondDivider < 19 →
        step s = .next { s with
          tbt.prescaler := 0, tbt.stepDivider := 0, freeCount := s.freeCount + 1
          pending := tick ++ (if s.tbt.secondDivider % 2 = 1 then [.confirmBeat] else [])
            ++ [.cadenceStep] })
      ∧ (s.tbt.prescaler = 36863 → s.tbt.stepDivider = 4 → s.tbt.secondDivider = 19 →
        s.tbt.epochPhase ≤ 1 →
        step s = .next { s with
          tbt.prescaler := 0, tbt.stepDivider := 0, freeCount := s.freeCount + 1
          pending := tick ++ [.confirmBeat] ++ second
            ++ (if s.tbt.epochPhase = 1 then [.epochBoundary] else []) ++ [.cadenceStep] }))
    ∧ ∀ s : State, s.pending = [] →
      let own (c : Instr) : Prop := step s = .next { s with pending := [c] }
      let reported := ∃ p : Slot, (s.timer p).reported = true
      let held := s.sli.inbound = [] ∨ 8 ≤ s.sli.replies.length
      let filled := s.sli.replies ≠ [] ∨ s.sli.orders ≠ [] ∨ s.sli.auditNotice = true
        ∨ s.sli.posNotice.isSome ∨ s.sli.orderNotice.isSome ∨ s.sli.linkNotice.isSome
      let starts := s.sli.sending = none ∧ s.sli.haltedBy = false ∧ filled
      let kinds : List (Byte × Instr) :=
        [(0x21, .offer), (0x22, .poll), (0x23, .set), (0x24, .cadenceLoad), (0x25, .cadenceCommit),
          (0x26, .position), (0x27, .auditEntry), (0x28, .auditEnd), (0x29, .restart), (0x31, .confirm),
          (0x32, .cleared), (0x33, .delivered), (0x34, .campFree), (0x35, .farEnd)]
      let keys : List (KeyEvent × Instr) :=
        [(.answer, .answer), (.release, .release), (.hold, .holdKey), (.extend, .extendKey),
          (.call, .call), (.swap, .swap), (.join, .joinKey), (.cancel, .cancel), (.park, .parkKey),
          (.retrieve, .retrieve), (.position, .positionKey)]
      (∀ p : Slot, (s.timer p).reported = true → (∀ q : Slot, q < p → (s.timer q).reported = false) →
          own (.custodyTimerExpiry p))
        ∧ (¬ reported → s.sli.control.isSome → own .sendControlCharacter)
        ∧ (¬ reported → s.sli.control = none →
          (∀ k body rest, s.sli.inbound = (k :: body) :: rest → s.sli.replies.length < 8 →
              (∀ x ∈ kinds, k = x.1 → own x.2) ∧ ((∀ x ∈ kinds, k ≠ x.1) → own .unknownKind))
            ∧ (held →
              (∀ e rest, s.ksc.queue = e :: rest →
                  (∀ x ∈ keys, e = x.1 → own x.2) ∧ (∀ k : Loop, e = .loop k → own (.loopKey k)))
                ∧ (s.ksc.queue = [] → starts → own .transmitStart)))
        ∧ (s.ownStep = none ↔
          ¬ reported ∧ s.sli.control = none ∧ held ∧ s.ksc.queue = [] ∧ ¬ starts)

/-- The state after reset keeps every law of the device. -/
def Obligations.ResetIsLawful : Prop := State.reset.Lawful

/-- POWER_ON_RESET, in every state, returns every block to its power-on values, releases the lamp, buzzer
and display outputs, and takes the line rate from the straps (R20, R69, R86, R110, R113, R132, R136,
R144, R147, R160, R161, R173). That the kept display image is none, that LSD, LSC and DWR are released
as nothing put out, and that the queue of waiting commands is kept, are the model's choice (log entries
10, 11 and 20). -/
def Obligations.PowerOnResetRestoresEveryBlock : Prop :=
  ∀ (straps : BitVec 3) (s : State), Runs (.powerOnReset straps) s fun t =>
    (∀ p : Slot, t.slot p = .free ∧ t.timer p = Timer.stopped ∧ t.psel.leaves[p] = none)
      ∧ (∀ i : Fin 63, t.psel.nodes[i] = none) ∧ (∀ n : Tenant, t.psel.queued[n] = 0)
      ∧ t.psel.seq = 0 ∧ t.psel.working = { t.psel.working with
          baseUrgent := 0, baseRecall := 256, baseExternal := 1024, baseInternal := 2048
          ageRate := 4, ageCap := 1024 }
      ∧ (∀ n : Tenant, t.psel.working.offsets[n] = 0)
      ∧ t.ccc = { t.ccc with index := [], claim := none, note := none, resync := false }
      ∧ t.tbt = { t.tbt with prescaler := 0, stepDivider := 0, secondDivider := 0, epochPhase := 0 }
      ∧ t.pos.state = .closed
      ∧ t.pos.settings =
        { baseUrgent := 0, baseRecall := 256, baseExternal := 1024, baseInternal := 2048
          ageRate := 4, ageCap := 1024, autoAnswer := 0, confirmTime := 30, supervision := 5
          highMark := 12, lowMark := 4, burstCount := 2, burstGap := 2 }
      ∧ (∀ n : Tenant, t.profile n = { t.profile n with
          offset := 0, queueLimit := 64, flashThreshold := 4, campOn := 1, holdReload := 60
          parkReload := 90, campReload := 120, noAnswerReload := 30, recallLimit := 2 })
      ∧ (∀ n : Tenant, (t.profile n).label = [0x54, 0x45, 0x4E, 0x41, 0x4E, 0x54, 0x20,
          BitVec.ofNat 8 (0x30 + n.val / 10), BitVec.ofNat 8 (0x30 + n.val % 10), 0x20, 0x20, 0x20])
      ∧ t.ksc.scan = 0 ∧ t.ksc.queue = [] ∧ t.ksc.dial = []
      ∧ (∀ i : Fin 29, t.ksc.keys[i] = { pressed := false, run := 0 })
      ∧ t.ind.active = builtinBank ∧ t.ind.shadow = builtinBank
      ∧ t.ind = { t.ind with
          commit := false, chirpReq := false, chirp := none, recallReq := false, recallEpoch := false
          image := none, written := none }
      ∧ t.ind.burst.running = false ∧ t.ind.burst.position = 0 ∧ t.ind.burst.assigned = false
      ∧ t.pins = { t.pins with lsd := [], lsc := 0, llt := false, buz := false, display := [] }
      ∧ t.sli.rate =
        (if straps = 1 then 19200 else if straps = 2 then 38400 else if straps = 3 then 57600
          else if straps = 4 then 115200 else 9600)
      ∧ t.sli = { t.sli with
          rx := .hunt, assembly := [], damaged := false, gap := 0, inbound := [], replies := []
          orders := [], auditNotice := false, posNotice := none, orderNotice := none, linkNotice := none
          haltedSent := false, control := none, haltedBy := false, sending := none, link := .down }
      ∧ t.pending = s.pending

/-! ### Invariants -/

/-- Every step keeps PSEL's leaves, the selection tree and the queued counts as the call table has them
(R78, R79, R82). -/
def Obligations.EveryStepKeepsThePresentation : Prop :=
  ∀ s t : State, s.PresentationLawful → step s = .next t → t.PresentationLawful

/-- Every step keeps in its range each of these: the position items, the tenant profiles and PSEL's working
settings (R69, R131 to R133); the four counters of the cascade (R110); the run counts of the keys, the key
queue and the dial buffer (R138, R140, R141); the gap count and the assembly, the inbound queue and its
messages, the reply group and the order group (R164 to R166, R168, R169), and the rest of a frame being
sent; the patterns of both banks (R146); the chirp's phase and the burst's position and count (R154,
R156). Custody timers and recall counts are among the laws of EveryStepKeepsTheLaws. -/
def Obligations.EveryStepKeepsTheRanges : Prop :=
  ∀ s t : State, s.RangesLawful → step s = .next t → t.RangesLawful

/-- Every step keeps all the laws of the device at once: the index, the headset, loops, orbits, pairs,
orders, locks, the claim, reserved slots, timers, marks, the position, the presentation and the ranges. -/
def Obligations.EveryStepKeepsTheLaws : Prop :=
  ∀ s t : State, s.Lawful → step s = .next t → t.Lawful

/-- The head is the first of the occupied leaves under the selection order of R76 (smaller key, larger wait,
older seq modulo 65536, lower slot) wherever that order is consistent on them, and in any case by its first
two tests; there is no head exactly when every leaf is empty (R81, R76). -/
def Obligations.HeadComesFirst : Prop :=
  ∀ ps : Psel, ps.Decided →
    let ahead (i j : QueueFields) : Nat := (65536 + j.seq.toNat - i.seq.toNat) % 65536
    let before (i : QueueFields) (x : Slot) (j : QueueFields) (y : Slot) : Prop :=
      i.key < j.key ∨ (i.key = j.key ∧ (j.wait < i.wait ∨ (i.wait = j.wait ∧
        ((1 ≤ ahead i j ∧ ahead i j ≤ 32767)
          ∨ ((ahead i j = 0 ∨ ahead i j = 32768) ∧ x < y)))))
    (ps.head = none ↔ ∀ p : Slot, ps.leaves[p] = none)
      ∧ (∀ h : Slot, ps.head = some h → ∃ a ∈ ps.leaves[h],
          ∀ q : Slot, q ≠ h → ∀ b ∈ ps.leaves[q],
            a.key ≤ b.key ∧ (a.key = b.key → b.wait ≤ a.wait)
              ∧ ((∀ x y z : Slot, ∀ i ∈ ps.leaves[x], ∀ j ∈ ps.leaves[y], ∀ k ∈ ps.leaves[z],
                    before i x j y → before j y k z → before i x k z) →
                  before a h b q))

/-- Only SET and power-on reset change a setting (R135, R136). -/
def Obligations.OnlySetAndResetChangeSettings : Prop :=
  ∀ (c : Instr) (s t : State), exec c s = .next t → c ≠ .set → (∀ straps, c ≠ .powerOnReset straps) →
    t.pos.settings = s.pos.settings ∧ t.pos.profiles = s.pos.profiles

/-- The position state moves by POSITION, the POSITION key, power-on reset or the completion of a close, and
every change but that of a reset leaves its notice in the slot (R125 to R129). -/
def Obligations.PositionMovesOnlyAsStated : Prop :=
  ∀ (c : Instr) (s t : State), exec c s = .next t → (∀ straps, c ≠ .powerOnReset straps) →
    t.pos.state ≠ s.pos.state →
      t.sli.posNotice = some t.pos.state
        ∧ (c = .position ∨ c = .positionKey
          ∨ (s.pos.state = .closing ∧ t.pos.state = .closed ∧ t.liveCount = 0))

/-! ### The console's keys -/

/-- KEY_SCAN drives the column of the scan position, debounces the keys of that column alone and moves the
scan position on; a sample of the stable level clears the run count, one of the other level raises it, and
the third such sample in a row is accepted. Outside the KSC it touches KCOL and the chirp's request only
(R137, R138). -/
def Obligations.KeyScanDebouncesOneColumn : Prop :=
  ∀ (rows : BitVec 4) (s : State), Runs (.keyScan rows) s fun t =>
    t.pins.kcol = 1#8 <<< s.ksc.scan.val
      ∧ t.ksc.scan.val = (s.ksc.scan.val + 1) % 8
      ∧ (∀ row : Fin 4, ∀ k ∈ keyAt row.val s.ksc.scan.val,
          let d := s.ksc.keys[k.place]
          let closed := rows.getLsbD row.val
          (closed = d.pressed → t.ksc.keys[k.place] = { d with run := 0 })
            ∧ (closed ≠ d.pressed → d.run < 2 → t.ksc.keys[k.place] = { d with run := d.run + 1 })
            ∧ (closed ≠ d.pressed → d.run = 2 →
                t.ksc.keys[k.place] = { pressed := closed, run := 0 }))
      ∧ (∀ i : Fin 29, (∀ row : Fin 4, ∀ k ∈ keyAt row.val s.ksc.scan.val, k.place ≠ i) →
          t.ksc.keys[i] = s.ksc.keys[i])
      ∧ t = { s with
          ksc := t.ksc, ind.chirpReq := t.ind.chirpReq, pins.kcol := t.pins.kcol }

/-- One press accepted in a KEY_SCAN is handed on: a key other than a digit to the queue, or with a chirp
where the queue holds 8; a digit to the dial buffer, or with a chirp where the position is CLOSED,
frozen or in resync or the buffer holds 6. All the presses accepted in one scan, none or several, are
handed on in row order in the same way, and none of them leaves the queue, the buffer and the chirp as
they were (R139, R140, R141). -/
def Obligations.KeyScanHandsAPressOn : Prop :=
  (∀ (rows : BitVec 4) (s : State) (row : Fin 4) (k : Key),
      keyAt row.val s.ksc.scan.val = some k →
      (s.ksc.keys[k.place].sample (rows.getLsbD row.val)).2 = true →
      (∀ row' : Fin 4, row' ≠ row → ∀ k' ∈ keyAt row'.val s.ksc.scan.val,
        (s.ksc.keys[k'.place].sample (rows.getLsbD row'.val)).2 = false) →
      Runs (.keyScan rows) s fun t =>
        (∀ e : KeyEvent, k = .event e → t.ksc.dial = s.ksc.dial
          ∧ (s.ksc.queue.length < 8 → t.ksc.queue = s.ksc.queue ++ [e] ∧ t.ind = s.ind)
          ∧ (8 ≤ s.ksc.queue.length → t.ksc.queue = s.ksc.queue ∧ t.ind = s.chirped.ind))
        ∧ (∀ d : Digit, k = .digit d → t.ksc.queue = s.ksc.queue
          ∧ (s.TakesKeys → s.ksc.dial.length < 6 →
              t.ksc.dial = s.ksc.dial ++ [d] ∧ t.ind = s.ind)
          ∧ (¬ s.TakesKeys ∨ 6 ≤ s.ksc.dial.length →
              t.ksc.dial = s.ksc.dial ∧ t.ind = s.chirped.ind)))
    ∧ ∀ (rows : BitVec 4) (s : State), Runs (.keyScan rows) s fun t =>
      let accepted : List Key := (List.finRange 4).filterMap fun row =>
        (keyAt row.val s.ksc.scan.val).filter fun k =>
          rows.getLsbD row.val && !s.ksc.keys[k.place].pressed && decide (2 ≤ s.ksc.keys[k.place].run)
      let events : List KeyEvent := accepted.filterMap fun k =>
        match k with
        | .event e => some e
        | .digit _ => none
      let digits : List Digit := accepted.filterMap fun k =>
        match k with
        | .event _ => none
        | .digit d => some d
      let room := 8 - s.ksc.queue.length
      let places := if s.TakesKeys then 6 - s.ksc.dial.length else 0
      t.ksc.queue = s.ksc.queue ++ events.take room
        ∧ t.ksc.dial = s.ksc.dial ++ digits.take places
        ∧ t.ind = if room < events.length ∨ places < digits.length then s.chirped.ind else s.ind

/-- Every key but POSITION is refused with a chirp, and changes nothing but the queue it is taken from, while
the position is CLOSED, frozen or in resync (R87, R88). -/
def Obligations.KeysAreBarredWhenClosedFrozenOrInResync : Prop :=
  ∀ (e : KeyEvent) (rest : List KeyEvent) (s : State), s.ksc.queue = e :: rest → e ≠ .position →
    ¬ s.TakesKeys → exec e.command s = .next { s.chirped with ksc.queue := rest }

/-- The keys that name the headset record are refused with a chirp while it has a pending order or a lock
(R87, R89). -/
def Obligations.HeadsetKeysAreRefusedWhileItsOrderIsPending : Prop :=
  ∀ (e : KeyEvent) (rest : List KeyEvent) (s : State) (p : Slot) (r : Record),
    s.ksc.queue = e :: rest → s.headset = some p → s.record? p = some r → ¬ r.unfenced →
    e ∈ [.answer, .hold, .release, .extend, .call, .park, .swap, .join, .retrieve] →
      exec e.command s = .next { s.chirped with ksc.queue := rest }

/-- ANSWER issues a CONNECT for the head, with the ACTIVE headset record, if any, as secondary, and the
lowest free loop (R90, R51). It is refused with no head, a claim, a headset record in SETUP or with a
pending order or lock, no free loop or a full order group (R89, R90). AUTO_ANSWER, where it is set and
the position is not CLOSED, issues the same with no headset record; it does nothing where it is not set,
there is a headset record or a claim, the position is CLOSED, frozen or in resync, or there is no head,
no free loop or no room for the order (R84, R85). -/
def Obligations.AnswerAndAutoAnswerConnectTheHead : Prop :=
  (∀ (s : State) (rest : List KeyEvent) (h : Slot) (r : Record) (k : Loop),
      s.TakesKeys → s.LeavesExact → s.OrderRoom → s.ccc.claim = none →
      s.head = some h → s.record? h = some r → r.state = .queued → r.queue.isSome → r.unfenced →
      s.HeadsetYields → s.lowestLoop = some k →
        (s.ksc.queue = .answer :: rest →
          Runs .answer s fun t => State.Issues { s with ksc.queue := rest } t h r
            { Order.new .connect with secondary := s.headset, reservedLoop := some k })
        ∧ (s.pos.settings.autoAnswer = 1 → s.headset = none →
          Runs .autoAnswer s fun t => State.Issues s t h r
            { Order.new .connect with reservedLoop := some k })
        ∧ (s.pos.settings.autoAnswer = 0 ∨ s.headset.isSome → exec .autoAnswer s = .next s))
    ∧ ∀ (s : State) (rest : List KeyEvent),
      let barred := s.head = none ∨ s.ccc.claim ≠ none ∨ s.NoLoop ∨ ¬ s.OrderRoom
      (s.ksc.queue = .answer :: rest → s.TakesKeys → barred ∨ s.HeadsetBars → s.Refuses .answer rest)
        ∧ (s.pos.settings.autoAnswer = 0 ∨ s.headset.isSome ∨ ¬ s.TakesKeys ∨ barred →
          exec .autoAnswer s = .next s)

/-- Loop key k is handled by what loop k holds: a HELD record is connected when R50 and R89 allow it and
refused otherwise, the headset record's own loop has no effect while that record is unfenced and is refused
otherwise, and a loop that no record carries is refused (R91, R92). -/
def Obligations.LoopKeyActsByWhatItsLoopHolds : Prop :=
  ∀ (s : State) (rest : List KeyEvent) (k : Loop),
    s.ksc.queue = .loop k :: rest → s.TakesKeys → s.LeavesExact →
    let chirp : Host.Outcome State Fault Refusal := .next { s.chirped with ksc.queue := rest }
    (∀ p : Slot, ∀ r ∈ s.record? p, s.onLoop k = some p → r.state = .held →
      (r.unfenced ∧ s.OrderRoom ∧ s.ccc.claim = none ∧ s.HeadsetYields →
        Runs (.loopKey k) s fun t => State.Issues { s with ksc.queue := rest } t p r
          { Order.new .connect with secondary := s.headset })
      ∧ (¬ (r.unfenced ∧ s.OrderRoom ∧ s.ccc.claim = none ∧ s.HeadsetYields) →
        exec (.loopKey k) s = chirp))
    ∧ (∀ p : Slot, ∀ r ∈ s.record? p, s.onLoop k = some p → r.onHeadset →
      (r.unfenced → exec (.loopKey k) s = .next { s with ksc.queue := rest })
        ∧ (¬ r.unfenced → exec (.loopKey k) s = chirp))
    ∧ (s.onLoop k = none → exec (.loopKey k) s = chirp)

/-- RETRIEVE issues a CONNECT for the record PARKED at the orbit the dial buffer's one digit names, and
clears the buffer (R93). It is refused, the buffer kept, with no digit or several, with no record PARKED
at the orbit or one with a pending order or lock, with a claim, a headset record in SETUP or with a
pending order or lock, no free loop or a full order group (R89, R93). -/
def Obligations.RetrieveConnectsTheParkedRecord : Prop :=
  (∀ (s : State) (rest : List KeyEvent) (d : Digit) (p : Slot) (r : Record) (k : Loop),
      s.ksc.queue = .retrieve :: rest → s.TakesKeys → s.LeavesExact → s.OrderRoom →
      s.ccc.claim = none → s.ksc.dial = [d] → s.parkedAt d = some p → s.record? p = some r →
      r.unfenced → s.HeadsetYields → s.lowestLoop = some k →
        Runs .retrieve s fun t => State.Issues { s with ksc.queue := rest, ksc.dial := [] } t p r
          { Order.new .connect with secondary := s.headset, reservedLoop := some k })
    ∧ ∀ (s : State) (rest : List KeyEvent), s.ksc.queue = .retrieve :: rest → s.TakesKeys →
      s.ksc.dial.length ≠ 1
          ∨ (∀ d ∈ s.ksc.dial, ∀ p : Slot, ∀ r ∈ s.record? p,
              r.state = .parked → r.orbit ≠ some d)
          ∨ (∃ d ∈ s.ksc.dial, ∃ p ∈ s.parkedAt d, ∃ r ∈ s.record? p, ¬ r.unfenced)
          ∨ s.ccc.claim ≠ none ∨ s.HeadsetBars ∨ s.NoLoop ∨ ¬ s.OrderRoom →
        s.Refuses .retrieve rest

/-- The keys that send the ACTIVE headset record on: HOLD issues a HOLD; RELEASE, for one that is not a
DIALLED leg in a pair, a plain CLEAR; and for one in no pair EXTEND an EXTEND to the digits of the dial
buffer and PARK a PARK at the lowest free orbit or the free one that the buffer's one digit names. Each
is refused, the buffer kept, with no ACTIVE headset record or a full order group, EXTEND and PARK also
for one in a pair, EXTEND with no digits, and PARK with two digits or more or no free orbit of those it
may take (R94, R95, R96, R97). -/
def Obligations.HeadsetKeysOrderForTheHeadset : Prop :=
  (∀ (s : State) (rest : List KeyEvent) (p : Slot) (r : Record),
      s.TakesKeys → s.LeavesExact → s.OrderRoom → s.headset = some p → s.record? p = some r →
      r.state = .active → r.unfenced →
        (s.ksc.queue = .hold :: rest → Runs .holdKey s fun t =>
            State.Issues { s with ksc.queue := rest } t p r (Order.new .hold))
          ∧ (s.ksc.queue = .release :: rest → r.leg = .incoming ∨ r.partner = none →
            Runs .release s fun t =>
              State.Issues { s with ksc.queue := rest } t p r (Order.new .clear))
          ∧ (s.ksc.queue = .extend :: rest → r.partner = none →
            1 ≤ s.ksc.dial.length → s.ksc.dial.length ≤ 6 →
            Runs .extendKey s fun t => State.Issues { s with ksc.queue := rest } t p r
              { Order.new .extend with digits := s.ksc.dial })
          ∧ (∀ o : Orbit, s.ksc.queue = .park :: rest → r.partner = none →
            (s.ksc.dial = [] ∧ s.lowestOrbit = some o) ∨ (s.ksc.dial = [o] ∧ s.orbitFree o) →
            Runs .parkKey s fun t => State.Issues { s with ksc.queue := rest } t p r
              { Order.new .park with reservedOrbit := some o }))
    ∧ ∀ (s : State) (rest : List KeyEvent), s.TakesKeys →
      let unready := s.NoneActive ∨ ¬ s.OrderRoom
      let paired := ∃ p ∈ s.headset, ∃ r ∈ s.record? p, r.partner.isSome
      let taken (o : Orbit) : Prop :=
        ∃ p : Slot, ∃ r ∈ s.record? p, r.orbit = some o ∨ r.reservedOrbit = some o
      (s.ksc.queue = .hold :: rest → unready → s.Refuses .holdKey rest)
        ∧ (s.ksc.queue = .release :: rest → unready → s.Refuses .release rest)
        ∧ (s.ksc.queue = .extend :: rest → unready ∨ paired ∨ s.ksc.dial = [] →
          s.Refuses .extendKey rest)
        ∧ (s.ksc.queue = .park :: rest →
          unready ∨ paired ∨ 2 ≤ s.ksc.dial.length ∨ (s.ksc.dial = [] ∧ ∀ o : Orbit, taken o)
              ∨ (∃ o : Orbit, s.ksc.dial = [o] ∧ taken o) →
          s.Refuses .parkKey rest)

/-- CALL issues a DIAL for the ACTIVE, INCOMING headset record in no pair, with the lowest free loop and the
lowest FREE slot reserved. It is refused, the buffer kept, with no ACTIVE headset record, for a DIALLED
leg or one in a pair, with no digits, a claim, no free loop, no FREE slot or a full order group (R98). -/
def Obligations.CallReservesALoopAndASlot : Prop :=
  (∀ (s : State) (rest : List KeyEvent) (p : Slot) (r : Record) (k : Loop) (f : Slot),
      s.ksc.queue = .call :: rest → s.TakesKeys → s.LeavesExact → s.OrderRoom → s.ccc.claim = none →
      s.headset = some p → s.record? p = some r → r.state = .active → r.leg = .incoming →
      r.unfenced → r.partner = none → 1 ≤ s.ksc.dial.length → s.ksc.dial.length ≤ 6 →
      s.lowestLoop = some k → s.lowestFree = some f →
        Runs .call s fun t => State.Issues { s with ksc.queue := rest } t p r
          { Order.new .dial with
            reservedLoop := some k, reservedSlot := some f, digits := s.ksc.dial })
    ∧ ∀ (s : State) (rest : List KeyEvent), s.ksc.queue = .call :: rest → s.TakesKeys →
      s.NoneActive
          ∨ (∃ p ∈ s.headset, ∃ r ∈ s.record? p, r.leg = .dialled ∨ r.partner.isSome)
          ∨ s.ksc.dial = [] ∨ s.ccc.claim ≠ none ∨ s.NoLoop ∨ (∀ f : Slot, s.slot f ≠ .free)
          ∨ ¬ s.OrderRoom →
        s.Refuses .call rest

/-- The keys of a screened transfer: SWAP connects the HELD partner of the ACTIVE headset record; for a
DIALLED leg on the headset JOIN, and RELEASE once it is ACTIVE, issue a JOIN with the partner, and
CANCEL a CLEAR that reconnects it. SWAP and JOIN are refused with no pair on the headset, and SWAP with
the headset record in SETUP, JOIN with the source on the headset; each of the four is refused where the
partner has a pending order or a lock or the order group is full, SWAP and CANCEL with a claim, and
CANCEL where the leg itself has a pending order or a lock (R89, R95, R99, R100, R101). -/
def Obligations.PairKeysOrderForTheirLegs : Prop :=
  (∀ (s : State) (rest : List KeyEvent) (p q : Slot) (r u : Record),
      s.TakesKeys → s.LeavesExact → s.OrderRoom → s.headset = some p → s.record? p = some r →
      s.record? q = some u → r.partner = some q → u.state = .held → r.unfenced → u.unfenced →
        (s.ksc.queue = .swap :: rest → s.ccc.claim = none → r.state = .active →
            Runs .swap s fun t => State.Issues { s with ksc.queue := rest } t q u
              { Order.new .connect with secondary := some p })
          ∧ (s.ksc.queue = .join :: rest → r.leg = .dialled →
            Runs .joinKey s fun t => State.Issues { s with ksc.queue := rest } t p r
              { Order.new .join with secondary := some q })
          ∧ (s.ksc.queue = .release :: rest → r.leg = .dialled → r.state = .active →
            Runs .release s fun t => State.Issues { s with ksc.queue := rest } t p r
              { Order.new .join with secondary := some q })
          ∧ (s.ksc.queue = .cancel :: rest → r.leg = .dialled → s.ccc.claim = none →
            Runs .cancel s fun t => State.Issues { s with ksc.queue := rest } t p r
              { Order.new .clear with secondary := some q }))
    ∧ ∀ (s : State) (rest : List KeyEvent), s.TakesKeys →
      let alone := ∀ p ∈ s.headset, ∀ r ∈ s.record? p, r.partner = none
      let source := ∀ p ∈ s.headset, ∀ r ∈ s.record? p, r.leg = .incoming
      let leg := ∃ p ∈ s.headset, ∃ r ∈ s.record? p, r.leg = .dialled ∧ r.partner.isSome
      let fenced := ∃ p ∈ s.headset, ∃ r ∈ s.record? p, ¬ r.unfenced
      let partnerFenced :=
        ∃ p ∈ s.headset, ∃ r ∈ s.record? p, ∃ q ∈ r.partner, ∃ u ∈ s.record? q, ¬ u.unfenced
      let unready := partnerFenced ∨ ¬ s.OrderRoom
      (s.ksc.queue = .swap :: rest → s.NoneActive ∨ alone ∨ s.ccc.claim ≠ none ∨ unready →
          s.Refuses .swap rest)
        ∧ (s.ksc.queue = .join :: rest → alone ∨ source ∨ unready → s.Refuses .joinKey rest)
        ∧ (s.ksc.queue = .release :: rest → leg → unready → s.Refuses .release rest)
        ∧ (s.ksc.queue = .cancel :: rest → leg → fenced ∨ s.ccc.claim ≠ none ∨ unready →
          s.Refuses .cancel rest)

/-- CANCEL with no DIALLED leg in a pair on the headset empties the dial buffer, issues no order and
requests no chirp, whatever order or lock the headset record has (R102). -/
def Obligations.CancelWithoutAPairClearsTheBuffer : Prop :=
  ∀ (s : State) (rest : List KeyEvent), s.ksc.queue = .cancel :: rest →
    (∀ p ∈ s.headset, ∀ r ∈ s.record? p, r.leg = .incoming ∨ r.partner = none) →
      (s.TakesKeys → exec .cancel s = .next { s with ksc.queue := rest, ksc.dial := [] })
        ∧ (¬ s.TakesKeys → exec .cancel s = .next { s.chirped with ksc.queue := rest })

/-- The POSITION key moves the position one step around its cycle in every condition, raises the notice of
the change, and moves nothing else (R104, R125, R128). -/
def Obligations.PositionKeyStepsTheCycle : Prop :=
  ∀ (s : State) (rest : List KeyEvent), s.ksc.queue = .position :: rest →
    let now (x : PosState) : Host.Outcome State Fault Refusal :=
      .next { s with ksc.queue := rest, pos.state := x, sli.posNotice := some x }
    (s.pos.state = .closed → exec .positionKey s = now .opened)
      ∧ (s.pos.state = .opened → exec .positionKey s = now .busyOut)
      ∧ (s.pos.state = .busyOut → (∀ p : Slot, s.record? p = none) →
          exec .positionKey s = now .closed)
      ∧ (s.pos.state = .busyOut → ∀ p : Slot, (s.record? p).isSome →
          exec .positionKey s = now .closing)
      ∧ (s.pos.state = .closing → exec .positionKey s = now .busyOut)

/-! ### The line -/

/-- A framed body sent to a receiver in HUNT arrives: after the characters of the frame of any body of 4..40
bytes, escapes and check byte included, the inbound queue ends with that body and the receiver is in
HUNT with no fault raised (R162, R163, R165). That a character is one event is the model's choice (log
entry 12). -/
def Obligations.FramedBodyArrivesWhole : Prop :=
  ∀ (s : State) (body : List Byte), s.sli.rx = .hunt → 4 ≤ body.length → body.length ≤ 40 →
    s.sli.inbound.length < 16 →
      ∃ t, execAll ((frameOf body).map fun b => .receiveCharacter (goodChar b)) s = .next t
        ∧ t.sli.inbound = s.sli.inbound ++ [body] ∧ t.sli.rx = .hunt ∧ t.sli.assembly = []
        ∧ t.sli.damaged = false ∧ t.sli.gap = 0 ∧ t.sli.link = .up ∧ t.sli.supCount = 0
        ∧ t.sli.linkNotice = s.sli.linkNotice ∧ t.sli.replies = s.sli.replies

/-- What the receiver does with a character, state by state, short of the EOM that ends a frame (R163,
R164): HALT and GO leave the assembly alone, HUNT takes only SOM, BODY stores, ESCAPED stores a byte
0x41..0x45 altered, and a character error or a stray byte damages the assembly. A character carries the
byte of its data bits, least significant first, where the stop bit is at the mark level and the count of
ones, parity bit included, is even; any other character and a break are character errors (R161). That a
character is one event is the model's choice (log entry 12). -/
def Obligations.ReceiverTakesCharactersByItsState : Prop :=
  (∀ (s : State) (c : LineChar),
      let s0 := { s with sli.gap := 0 }
      let run := exec (.receiveCharacter c) s
      let fresh := { s0.sli with rx := .body, assembly := [], damaged := false }
      let lost : Sli := { s0.sli with
        rx := .hunt, assembly := [], damaged := false, linkNotice := some (.length, 0) }
      (receivedByte c = some 0xC4 → run = .next { s0 with sli.haltedBy := true })
        ∧ (receivedByte c = some 0xC5 → run = .next { s0 with sli.haltedBy := false })
        ∧ (s.sli.rx = .hunt →
          (receivedByte c = some 0xC1 → run = .next { s0 with sli := fresh })
            ∧ (receivedByte c ≠ some 0xC1 → receivedByte c ≠ some 0xC4 → receivedByte c ≠ some 0xC5 →
              run = .next s0))
        ∧ (s.sli.rx ≠ .hunt → receivedByte c = some 0xC1 →
          run = .next { s0 with sli := { fresh with linkNotice := some (.truncated, 0) } })
        ∧ (s.sli.rx = .body →
          (receivedByte c = some 0xC3 → run = .next { s0 with sli.rx := .escaped })
            ∧ (receivedByte c = none → run = .next { s0 with sli.damaged := true })
            ∧ (∀ b ∈ receivedByte c, isControl b = false →
              (s.sli.assembly.length < 41 →
                  run = .next { s0 with sli.assembly := s.sli.assembly ++ [b] })
                ∧ (41 ≤ s.sli.assembly.length → run = .next { s0 with sli := lost })))
        ∧ (s.sli.rx = .escaped →
          (receivedByte c = some 0xC3 → run = .next { s0 with sli.damaged := true })
            ∧ (receivedByte c = none → run = .next { s0 with sli.damaged := true, sli.rx := .body })
            ∧ (∀ b ∈ receivedByte c, isControl b = false →
              (0x41 ≤ b.toNat ∧ b.toNat ≤ 0x45 → s.sli.assembly.length < 41 →
                  run = .next { s0 with
                    sli.rx := .body, sli.assembly := s.sli.assembly ++ [b ^^^ 0x80] })
                ∧ (0x41 ≤ b.toNat ∧ b.toNat ≤ 0x45 → 41 ≤ s.sli.assembly.length →
                  run = .next { s0 with sli := lost })
                ∧ (b.toNat < 0x41 ∨ 0x45 < b.toNat →
                  run = .next { s0 with sli.damaged := true, sli.rx := .body }))))
    ∧ (∀ (data : Vector Bool 8) (parity stop : Bool) (b : Byte),
      receivedByte (.frame data parity stop) = some b ↔
        stop = true ∧ (data.toList.count true + parity.toNat) % 2 = 0
          ∧ ∀ i : Fin 8, b.getLsbD i.val = data[i])
    ∧ receivedByte .lineBreak = none

/-- A frame ended by EOM is judged in order: damage (an EOM in ESCAPED damages it) is PARITY, a sum other
than 0 CHECK, fewer than 4 body bytes LENGTH, a full inbound queue OVERRUN; a body that passes is
queued, restarts supervision, and finds the link UP (R163, R165, R167, R171). That a character is one
event is the model's choice (log entry 12). -/
def Obligations.EndedFrameIsJudged : Prop :=
  ∀ (s : State) (c : LineChar), receivedByte c = some 0xC2 → s.sli.rx ≠ .hunt →
    let run := exec (.receiveCharacter c) s
    let cleared : Sli := { s.sli with gap := 0, rx := .hunt, assembly := [], damaged := false }
    let faulted (k : LinkFault) : Host.Outcome State Fault Refusal :=
      .next { s with sli := { cleared with linkNotice := some (k, 0) } }
    let damaged := s.sli.damaged = true ∨ s.sli.rx = .escaped
    let sum := s.sli.assembly.foldl (· + ·) (0 : Byte)
    (damaged → run = faulted .parity)
      ∧ (¬ damaged → sum ≠ 0 → run = faulted .check)
      ∧ (¬ damaged → sum = 0 → s.sli.assembly.length < 5 → run = faulted .length)
      ∧ (¬ damaged → sum = 0 → 5 ≤ s.sli.assembly.length → 16 ≤ s.sli.inbound.length →
          run = faulted .overrun)
      ∧ (¬ damaged → sum = 0 → 5 ≤ s.sli.assembly.length → s.sli.inbound.length < 16 →
          s.sli.link = .up →
          run = .next (State.compareFlow { s with sli := { cleared with
            supCount := 0, inbound := s.sli.inbound ++ [s.sli.assembly.dropLast] } }))

/-- A valid message that finds the link DOWN brings it UP and enters resync in the same step, unless one is
under way (R171, R175, R176). -/
def Obligations.ValidMessageBringsTheLinkUp : Prop :=
  ∀ (s : State) (c : LineChar), s.Lawful → receivedByte c = some 0xC2 → s.sli.rx = .body →
    s.sli.damaged = false → s.sli.assembly.foldl (· + ·) (0 : Byte) = 0 →
    5 ≤ s.sli.assembly.length → s.sli.inbound.length < 16 → s.sli.link = .down →
      Runs (.receiveCharacter c) s fun t =>
        t.sli.inbound = s.sli.inbound ++ [s.sli.assembly.dropLast] ∧ t.sli.link = .up
          ∧ t.sli.supCount = 0 ∧ t.ccc.resync = true
          ∧ (s.ccc.resync = false → t.sli.auditNotice = true
            ∧ ∀ p : Slot, ∀ r ∈ s.record? p,
                t.slot p = .live { r with marked := false, auditPartner := 0 })
          ∧ (s.ccc.resync = true → t.sli.auditNotice = s.sli.auditNotice ∧ t.ccc = s.ccc)
          ∧ t.tbt = s.tbt ∧ t.pos = s.pos ∧ t.ksc = s.ksc ∧ t.ind = s.ind ∧ t.pins = s.pins

/-- Flow control: at a change of the inbound count HALT becomes pending at the high mark and GO at the low
mark, and one that replaces the other not yet sent withdraws it (R167); SEND_CONTROL_CHARACTER sends the
pending character whatever the received-HALT flag says, at once where the transmitter is idle and
otherwise between two characters of the message being sent, at least one of which is left after it;
RECEIVED_HALT and RECEIVED_GO set and clear that flag and restart the gap count (R164, R170). That TXD
is kept as what the step puts out is the model's choice, and where in the message the character stands
is a free value (log entries 11 and 21). -/
def Obligations.FlowControlActsAtOnce : Prop :=
  ∀ s : State,
    let n := s.sli.inbound.length
    let high := s.pos.settings.highMark ≤ n ∧ s.sli.haltedSent = false
    let low := n ≤ s.pos.settings.lowMark ∧ s.sli.haltedSent = true
    (high → s.compareFlow = { s with
          sli.haltedSent := true
          sli.control := if s.sli.control = some .go then none else some .halt })
      ∧ (low → s.compareFlow = { s with
          sli.haltedSent := false
          sli.control := if s.sli.control = some .halt then none else some .go })
      ∧ (¬ high → ¬ low → s.compareFlow = s)
      ∧ exec .receivedHalt s = .next { s with sli.haltedBy := true, sli.gap := 0 }
      ∧ exec .receivedGo s = .next { s with sli.haltedBy := false, sli.gap := 0 }
      ∧ (∀ c : Control, ∀ b : Byte, (c = .halt ∧ b = 0xC4) ∨ (c = .go ∧ b = 0xC5) →
        s.sli.control = some c →
          (s.sli.sending = none → exec .sendControlCharacter s =
            .next { s with sli.control := none, pins.txd := [charLevels b] })
          ∧ (∀ m ∈ s.sli.sending, m.left ≠ [] →
            ∃ n, n < m.left.length ∧ exec .sendControlCharacter s =
              .next { s with
                sli.control := none, sli.sending := some { m with left := m.left.drop n }
                pins.txd := (m.left.take n ++ [b]).map charLevels
                freeCount := s.freeCount + 1 }))
      ∧ (s.sli.control = none → exec .sendControlCharacter s = .next s)

/-- A base tick of the link raises the gap count, which at 4 abandons an open assembly with GAP, and raises
the supervision count while the link is UP; short of the window nothing else happens (R164, R171). That
the tick takes the gap timeout with it, and that GAP_TIMEOUT is that count's last step alone, is the
model's choice (log entry 5). -/
def Obligations.BaseTickCountsGapAndSupervision : Prop :=
  ∀ s : State,
    let gap := if s.sli.gap < 3 then s.sli.gap + 1 else 4
    let count := if s.sli.link = .up then s.sli.supCount + 1 else s.sli.supCount
    let lost : Sli := { s.sli with
      gap := 4, rx := .hunt, assembly := [], damaged := false, linkNotice := some (.gap, 0) }
    (s.sli.link = .down ∨ s.sli.supCount + 1 < s.pos.settings.supervision * 100 →
        (s.sli.gap < 3 ∨ s.sli.rx = .hunt →
            exec .linkBaseTick s = .next { s with sli.gap := gap, sli.supCount := count })
          ∧ (3 ≤ s.sli.gap → s.sli.rx ≠ .hunt →
            exec .linkBaseTick s = .next { s with sli := { lost with supCount := count } }))
      ∧ (3 ≤ s.sli.gap → s.sli.rx ≠ .hunt → exec .gapTimeout s = .next { s with sli := lost })

/-- The supervision count reaching the window takes the link DOWN: the received-HALT flag is cleared, every
pending order is cancelled and the claim cleared, and every record keeps its state (R171, R175, R66,
R67). SUPERVISION_TIMEOUT is that last step of the count alone, and the LINK_BASE_TICK that takes the
step takes the timeout with it, beside what it does to the gap count (R164): both are the model's choice
(log entry 5). -/
def Obligations.SupervisionTimeoutFreezesThePosition : Prop :=
  ∀ s : State, s.Lawful → s.sli.link = .up →
    s.pos.settings.supervision * 100 ≤ s.sli.supCount + 1 →
      let downs (c : Instr) (l : Sli) : Prop := Runs c s fun t =>
        State.CancelsAll
          { s with sli :=
            { l with link := .down, haltedBy := false, supCount := s.sli.supCount + 1 } } t id
        ∧ t.ccc.resync = s.ccc.resync ∧ t.sli.auditNotice = s.sli.auditNotice
      downs .supervisionTimeout s.sli
        ∧ (s.sli.gap < 3 ∨ s.sli.rx = .hunt →
          downs .linkBaseTick
            { s.sli with gap := if s.sli.gap < 3 then s.sli.gap + 1 else 4 })
        ∧ (3 ≤ s.sli.gap → s.sli.rx ≠ .hunt →
          downs .linkBaseTick
            { s.sli with
              gap := 4, rx := .hunt, assembly := [], damaged := false
              linkNotice := some (.gap, 0) })

/-- The transmitter, idle and not held by a HALT, starts the oldest reply, else the oldest order, which goes
ON THE LINE, else the first filled notice slot; held or busy it starts nothing (R54, R170). Reply
bodies, order tails and codes are laid out by R174, a frame by R162, and the levels of a character by
R161. That TXD is kept as what the step puts out, and that a start puts out the SOM and leaves the rest
of the frame, and that the unnamed bits of a flags byte are 0, is the model's choice (log entries 11, 21
and 31). -/
def Obligations.TransmitterStartsTheFirstMessage : Prop :=
  (∀ s : State,
      let sends (u : State) (body : List Byte) (owner : Option Slot) : Host.Outcome State Fault Refusal :=
        .next { u with
          sli.sending := some { body := body, owner := owner, left := (frameOf body).drop 1 }
          pins.txd := [charLevels 0xC1] }
      let run := exec .transmitStart s
      ((s.sli.haltedBy = true ∨ s.sli.sending.isSome) → run = .next s)
      ∧ (s.sli.haltedBy = false → s.sli.sending = none →
        (∀ x rest, s.sli.replies = x :: rest → run = sends { s with sli.replies := rest } x.body none)
        ∧ (s.sli.replies = [] →
          (∀ p rest, s.sli.orders = p :: rest → ∀ r ∈ s.record? p, ∀ o ∈ r.order,
              s.LeavesExact →
              run = sends
                { s with
                  sli.orders := rest
                  ccc.table :=
                    s.ccc.table.set p (.live { r with order := some { o with stage := .onTheLine } }) }
                ([o.kind.code, 0] ++ wordBytes r.ref ++ wordBytes (s.refAt o.secondary) ++ o.tail)
                (some p))
          ∧ (s.sli.orders = [] →
            (s.sli.auditNotice = true →
                run = sends { s with sli.auditNotice := false } [0x64, 0, 0, 0] none)
            ∧ (s.sli.auditNotice = false →
              (∀ x, s.sli.posNotice = some x →
                  run = sends { s with sli.posNotice := none } [0x61, 0, 0, 0, x.code] none)
              ∧ (s.sli.posNotice = none →
                (∀ k ref, s.sli.orderNotice = some (k, ref) →
                    run = sends { s with sli.orderNotice := none }
                      ([0x63, 0] ++ wordBytes ref ++ [k.code]) none)
                ∧ (s.sli.orderNotice = none → ∀ k ref, s.sli.linkNotice = some (k, ref) →
                    run = sends { s with sli.linkNotice := none }
                      ([0x62, 0] ++ wordBytes ref ++ [k.code]) none)))))))
    ∧ (∀ body : List Byte, ∃ check : Byte,
      (body ++ [check]).foldl (· + ·) 0 = 0
        ∧ frameOf body =
          0xC1 :: ((body ++ [check]).flatMap (fun b =>
            if 0xC1 ≤ b.toNat ∧ b.toNat ≤ 0xC5 then [0xC3, b ^^^ 0x80] else [b]) ++ [0xC2]))
    ∧ (∀ b : Byte, charLevels b =
      [false, b.getLsbD 0, b.getLsbD 1, b.getLsbD 2, b.getLsbD 3, b.getLsbD 4, b.getLsbD 5,
        b.getLsbD 6, b.getLsbD 7, decide ((List.range 8).countP b.getLsbD % 2 = 1), true])
    ∧ (let high (w : Word) : Byte := w.extractLsb' 8 8
      let low (w : Word) : Byte := w.extractLsb' 0 8
      ∀ (tag : Byte) (ref : Word),
        (Reply.accept tag ref).body = [0x41, tag, high ref, low ref]
          ∧ (∀ why : Reason,
            (Reply.refuse tag ref why).body = [0x42, tag, high ref, low ref, why.code])
          ∧ (Reply.ack tag ref true).body = [0x43, tag, high ref, low ref, 0x01]
          ∧ (Reply.ack tag ref false).body = [0x43, tag, high ref, low ref, 0x00]
          ∧ (∀ v : StatusValues, (Reply.status tag ref v).body =
            [0x44, tag, high ref, low ref, v.position.code,
              (if v.linkUp then 0x01 else 0x00) + (if v.resync then 0x02 else 0x00),
              BitVec.ofNat 8 v.live, BitVec.ofNat 8 v.queued, high v.headRef, low v.headRef,
              BitVec.ofNat 8 v.freeLoops, BitVec.ofNat 8 v.freeOrbits]))
    ∧ (∀ o : Order,
      (o.kind = .extend ∨ o.kind = .dial → o.tail =
          BitVec.ofNat 8 o.digits.length :: o.digits.map fun d => BitVec.ofNat 8 (0x30 + d.val))
        ∧ (o.kind = .park → ∀ x ∈ o.reservedOrbit, o.tail = [BitVec.ofNat 8 x.val])
        ∧ (o.kind = .divert → ∀ x ∈ o.tenant, o.tail = [BitVec.ofNat 8 x.val])
        ∧ (o.kind ∉ [.extend, .dial, .park, .divert] → o.tail = []))
    ∧ [OrderKind.connect, .hold, .clear, .extend, .dial, .join, .park, .recall, .divert].map
        OrderKind.code = [0x51, 0x52, 0x53, 0x54, 0x55, 0x56, 0x57, 0x58, 0x59]
    ∧ [Reason.full, .tenantFull, .duplicate, .closed, .busyOut, .resync, .malformed, .conflict,
        .bankBusy].map Reason.code = [0x01, 0x02, 0x03, 0x04, 0x05, 0x06, 0x07, 0x08, 0x09]
    ∧ [PosState.closed, .opened, .busyOut, .closing].map PosState.code = [0x00, 0x01, 0x02, 0x03]
    ∧ [LinkFault.parity, .check, .gap, .length, .overrun, .truncated, .unknownKind].map
        LinkFault.code = [0x01, 0x02, 0x03, 0x04, 0x05, 0x06, 0x07]
    ∧ [OrderFault.timeout, .late, .mismatch, .duplicateRef].map OrderFault.code =
        [0x01, 0x02, 0x03, 0x04]

/-- At the end of a transmission what was left of the frame has gone out and the transmitter is idle; an
order that is still ON THE LINE awaits its confirm with its timer at the confirm time, and any other
sending leaves the table alone (R18, R54, R112, R170). That the rest of the frame goes out in this step
is the model's choice (log entry 21). -/
def Obligations.TransmitEndStartsTheConfirmTimer : Prop :=
  ∀ (s : State) (m : Sending), s.sli.sending = some m → s.LeavesExact →
    let idle : State := { s with sli.sending := none, pins.txd := m.left.map charLevels }
    (∀ p ∈ m.owner, ∀ r ∈ s.record? p, ∀ o ∈ r.order, o.stage = .onTheLine →
        exec .transmitEnd s = .next { idle with
          ccc.table := s.ccc.table.set p (.live { r with order := some { o with
            stage := .awaitingConfirm, confirmTimer := some s.pos.settings.confirmTime } }) })
      ∧ ((∀ p ∈ m.owner, ∀ r ∈ s.record? p, ∀ o ∈ r.order, o.stage ≠ .onTheLine) →
        exec .transmitEnd s = .next idle)

/-! ### Calls offered and call events -/

/-- An OFFER body is well formed exactly when R30 says so, and is read as R10 and R30 say. -/
def Obligations.OfferBodyIsReadByItsRule : Prop :=
  ∀ b : List Byte,
    let n := (byteAt b 6).toNat
    let m := (byteAt b 7).toNat
    ((readOffer b).isSome ↔
        (byteAt b 4).toNat ≤ 15
          ∧ (byteAt b 5 = 0x01 ∨ byteAt b 5 = 0x02 ∨ byteAt b 5 = 0x03)
          ∧ n ≤ 16 ∧ m ≤ 16 ∧ b.length = 8 + n + m
          ∧ ∀ i : Nat, i < n → 0x30 ≤ (byteAt b (8 + i)).toNat ∧ (byteAt b (8 + i)).toNat ≤ 0x39)
      ∧ ∀ o ∈ readOffer b,
        o.tenant.val = (byteAt b 4).toNat
          ∧ (o.cls = .urgent ↔ byteAt b 5 = 0x01) ∧ (o.cls = .external ↔ byteAt b 5 = 0x02)
          ∧ o.number.length = n ∧ o.name.length = m
          ∧ (∀ i : Nat, i < n →
              (o.number[i]?.map fun d => 0x30 + d.val) = some (byteAt b (8 + i)).toNat)
          ∧ (∀ i : Nat, i < m →
              o.name[i]? = some
                (if 0x20 ≤ (byteAt b (8 + n + i)).toNat ∧ (byteAt b (8 + n + i)).toNat ≤ 0x7E
                  then byteAt b (8 + n + i) else 0x3F))

/-- An OFFER that passes every test of R29 creates its record QUEUED in the lowest FREE slot, entered in the
index, ranked with a wait of 0, the next seq and its base as key, and counted; an ACCEPT is placed
(R7, R31, R72, R75). -/
def Obligations.AcceptedOfferIsQueued : Prop :=
  ∀ (s : State) (b : List Byte) (rest : List (List Byte)) (o : OfferBody) (p : Slot),
    s.MessageWaits kindOffer b rest → s.TakesKeys → s.pos.state = .opened → readOffer b = some o →
    refOf b ≠ 0 → s.lookup (refOf b) = none → s.lowestFree = some p →
    s.psel.queued[o.tenant] < (s.profile o.tenant).queueLimit → s.LeavesExact →
      let q : QueueFields :=
        { seq := s.psel.seq, wait := 0, key := keyBase s.psel.working o.tenant o.cls 0 }
      HandsOn .offer s fun u => u =
        { s with
          sli.inbound := rest
          sli.replies := s.sli.replies ++ [.accept (tagOf b) (refOf b)]
          ccc.table := s.ccc.table.set p (.live
            { ref := refOf b, state := .queued, leg := .incoming, tenant := o.tenant, cls := o.cls
              recallCount := 0, number := o.number, name := o.name, queue := some q, loop := none
              destination := none, orbit := none, farEnd := none, partner := none
              recallAlert := false, order := none, lock := none, marked := false, auditPartner := 0 })
          ccc.index := insertRef (refOf b) p s.ccc.index
          psel.seq := s.psel.seq + 1
          psel.queued := s.psel.queued.set o.tenant (s.psel.queued[o.tenant] + 1)
          psel.leaves := s.psel.leaves.set p (some q)
          psel.nodes := replay (s.psel.leaves.set p (some q)) s.psel.nodes p
          tbt.timers := s.tbt.timers.set p Timer.stopped }

/-- A refused OFFER names the first test of R29 that it fails, in a REFUSE carrying its tag and ref, and
leaves the table, the index, the free pool, the sequence counter, the counts and the console as they were
(R29, R32). -/
def Obligations.RefusedOfferChangesNothing : Prop :=
  ∀ (s : State) (b : List Byte) (rest : List (List Byte)), s.MessageWaits kindOffer b rest →
    let refused (why : Reason) : Host.Outcome State Fault Refusal :=
      .next (State.compareFlow { s with
        sli.inbound := rest
        sli.replies := s.sli.replies ++ [.refuse (tagOf b) (refOf b) why] })
    let run := exec .offer s
    (s.pos.state = .busyOut → run = refused .busyOut)
    ∧ (s.pos.state = .closing ∨ s.pos.state = .closed → run = refused .closed)
    ∧ (s.pos.state = .opened →
      (s.sli.link = .down ∨ s.ccc.resync = true → run = refused .resync)
      ∧ (s.TakesKeys →
        (readOffer b = none → run = refused .malformed)
        ∧ (∀ o ∈ readOffer b,
          (refOf b = 0 ∨ (s.lookup (refOf b)).isSome → run = refused .duplicate)
          ∧ (refOf b ≠ 0 → s.lookup (refOf b) = none →
            ((∀ p : Slot, s.slot p ≠ .free) → run = refused .full)
            ∧ (∀ p : Slot, s.slot p = .free →
              (s.profile o.tenant).queueLimit ≤ s.psel.queued[o.tenant] →
                run = refused .tenantFull)))))

/-- CLEARED retires the known record it names in any state, and DELIVERED one that is EXTENDED, CAMPED or
PARKED; the last retirement at a CLOSING position closes it (R17, R33, R36, R127). -/
def Obligations.ClearedAndDeliveredRetire : Prop :=
  ∀ (s : State) (b : List Byte) (rest : List (List Byte)) (p : Slot) (r : Record),
    s.Lawful → s.lookup (refOf b) = some p → s.record? p = some r →
      (s.MessageWaits kindCleared b rest → HandsOn .cleared s fun u =>
          State.Retires { s with sli.inbound := rest } u p r ∧ s.Closes u)
        ∧ (s.MessageWaits kindDelivered b rest →
          r.state = .extended ∨ r.state = .camped ∨ r.state = .parked →
          HandsOn .delivered s fun u =>
            State.Retires { s with sli.inbound := rest } u p r ∧ s.Closes u)

/-- A CLEARED, DELIVERED, CAMP-FREE, FAR-END or CONFIRM naming an unknown reference is ignored silently
(R6, R28, R56). -/
def Obligations.EventsForUnknownReferencesAreIgnored : Prop :=
  ∀ (s : State) (b : List Byte) (rest : List (List Byte)), s.lookup (refOf b) = none →
    let ignored : Host.Outcome State Fault Refusal :=
      .next (State.compareFlow { s with sli.inbound := rest })
    (s.MessageWaits kindCleared b rest → exec .cleared s = ignored)
      ∧ (s.MessageWaits kindDelivered b rest → exec .delivered s = ignored)
      ∧ (s.MessageWaits kindCampFree b rest → exec .campFree s = ignored)
      ∧ (s.MessageWaits kindFarEnd b rest → exec .farEnd s = ignored)
      ∧ (s.MessageWaits kindConfirm b rest → exec .confirm s = ignored)

/-- A CAMP-FREE for a CAMPED record moves it to EXTENDED and arms its NOANSWER timer from its tenant's
reload; its destination, recall count, tenant and pending order stay (R37). -/
def Obligations.CampFreeMovesToExtended : Prop :=
  ∀ (s : State) (b : List Byte) (rest : List (List Byte)) (p : Slot) (r : Record),
    s.MessageWaits kindCampFree b rest → s.lookup (refOf b) = some p → s.record? p = some r →
    r.state = .camped → s.LeavesExact →
      HandsOn .campFree s fun u => u =
        { s with
          sli.inbound := rest
          ccc.table := s.ccc.table.set p (.live { r with state := .extended })
          tbt.timers := s.tbt.timers.set p (armed .noAnswer (s.profile r.tenant).noAnswerReload) }

/-- A FAR-END for a DIALLED leg in SETUP sets its far-end status, and ANSWERED moves it to ACTIVE; a pending
order, the loop, the destination and the partner stay (R38, R39). -/
def Obligations.FarEndMovesTheDialledLeg : Prop :=
  ∀ (s : State) (b : List Byte) (rest : List (List Byte)) (p : Slot) (r : Record),
    s.MessageWaits kindFarEnd b rest → s.lookup (refOf b) = some p → s.record? p = some r →
    r.state = .setup → r.leg = .dialled → s.LeavesExact → 5 ≤ b.length →
      (∀ st : FarEnd,
        (byteAt b 4 = 0x01 ∧ st = .proceeding) ∨ (byteAt b 4 = 0x02 ∧ st = .ringing)
            ∨ (byteAt b 4 = 0x04 ∧ st = .busy) →
          HandsOn .farEnd s fun u => u =
            { s with
              sli.inbound := rest
              ccc.table := s.ccc.table.set p (.live { r with farEnd := some st }) })
      ∧ (byteAt b 4 = 0x03 → HandsOn .farEnd s fun u => u =
          { s with
            sli.inbound := rest
            ccc.table :=
              s.ccc.table.set p (.live { r with state := .active, farEnd := some .answered })
            tbt.timers := s.tbt.timers.set p Timer.stopped })

/-- A DELIVERED for a record at the console or in the queue, a CAMP-FREE for one that is not CAMPED, a
FAR-END for one that is not a DIALLED leg in SETUP, and a FAR-END with none of the four status values or none
at all for any record, are mismatches: the record is left, ORDER-FAULT MISMATCH is raised, and a resync
starts unless one is under way (R36, R37, R40, R41, R42, R68, R176). -/
def Obligations.UnfittingEventsAreMismatches : Prop :=
  ∀ (s : State) (b : List Byte) (rest : List (List Byte)) (p : Slot) (r : Record),
    s.Lawful → s.lookup (refOf b) = some p → s.record? p = some r →
      let faulted (u : State) : Prop :=
        State.Faults { s with sli.inbound := rest } u .mismatch (refOf b)
      (s.MessageWaits kindDelivered b rest →
          r.state = .queued ∨ r.state = .active ∨ r.state = .held ∨ r.state = .setup →
          HandsOn .delivered s faulted)
        ∧ (s.MessageWaits kindCampFree b rest → r.state ≠ .camped → HandsOn .campFree s faulted)
        ∧ (s.MessageWaits kindFarEnd b rest →
          r.leg = .incoming ∨ r.state ≠ .setup ∨ b.length < 5
            ∨ (byteAt b 4).toNat < 1 ∨ 4 < (byteAt b 4).toNat →
          HandsOn .farEnd s faulted)

/-! ### Confirms -/

/-- A CONNECT DONE makes its primary ACTIVE on its own loop or the reserved one and holds a secondary still
present; the primary leaves the queue, its orbit and its timer, and it is the headset record (R59). -/
def Obligations.ConnectDoneTakesTheHeadset : Prop :=
  ∀ (s : State) (b : List Byte) (rest : List (List Byte)) (p : Slot) (r : Record) (o : Order),
    s.Lawful → s.ConfirmWaits b rest p r o → o.kind = .connect → byteAt b 5 = 0x01 →
      HandsOn .confirm s fun u =>
        u.slot p = .live { r with
            state := .active, loop := if r.loop.isSome then r.loop else o.reservedLoop
            queue := none, orbit := none, recallAlert := false
            farEnd := if r.leg = .dialled then some .answered else r.farEnd, order := none }
          ∧ u.headset = some p
          ∧ (∀ q ∈ o.secondary, ∀ v ∈ s.record? q,
              u.slot q = .live { v with state := .held, lock := none }
                ∧ u.timer q = armed .hold (s.profile v.tenant).holdReload)
          ∧ u.timer p = Timer.stopped
          ∧ (∀ x : Slot, x ≠ p → o.secondary ≠ some x → u.slot x = s.slot x ∧ u.timer x = s.timer x)
          ∧ u.psel.leaves = s.psel.leaves
          ∧ u = { s with
              sli.inbound := rest
              ccc.table := u.ccc.table, ccc.claim := none, ccc.note := none
              psel.nodes := u.psel.nodes
              psel.queued :=
                if r.state = .queued then s.psel.queued.set r.tenant (s.psel.queued[r.tenant] - 1)
                else s.psel.queued
              tbt.timers := u.tbt.timers }

/-- HOLD DONE holds the primary on its loop and PARK DONE parks it at the reserved orbit; EXTEND RINGING
sends it to EXTENDED, EXTEND BUSY to CAMPED where its tenant allows camp-on, each arming the timer of
the new state; EXTEND BUSY without camp-on and EXTEND INVALID leave it ACTIVE with the outcome note
(R60, R62). That a DIALLED primary's destination is replaced too is a reading of the model's (log entry
22). -/
def Obligations.HoldParkAndExtendConfirmsSettleThePrimary : Prop :=
  ∀ (s : State) (b : List Byte) (rest : List (List Byte)) (p : Slot) (r : Record) (o : Order),
    s.Lawful → s.ConfirmWaits b rest p r o →
      let becomes (r' : Record) (n : Option Note) (t : Timer) : Prop :=
        HandsOn .confirm s fun u => u =
          { s with
            sli.inbound := rest, ccc.table := s.ccc.table.set p (.live r'), ccc.note := n
            tbt.timers := s.tbt.timers.set p t }
      let f := s.profile r.tenant
      (o.kind = .hold → byteAt b 5 = 0x01 →
          becomes { r with state := .held, order := none } none (armed .hold f.holdReload))
        ∧ (o.kind = .park → byteAt b 5 = 0x01 →
          becomes { r with state := .parked, loop := none, orbit := o.reservedOrbit, order := none }
            none (armed .park f.parkReload))
        ∧ (o.kind = .extend → byteAt b 5 = 0x02 →
          becomes
            { r with state := .extended, loop := none, destination := some o.digits, order := none }
            none (armed .noAnswer f.noAnswerReload))
        ∧ (o.kind = .extend → byteAt b 5 = 0x03 → f.campOn = 1 →
          becomes
            { r with state := .camped, loop := none, destination := some o.digits, order := none }
            none (armed .camp f.campReload))
        ∧ (o.kind = .extend → byteAt b 5 = 0x03 → f.campOn = 0 →
          becomes { r with order := none } (some .busy) (s.timer p))
        ∧ (o.kind = .extend → byteAt b 5 = 0x04 →
          becomes { r with order := none } (some .invalid) (s.timer p))

/-- DIAL DONE with a new reference creates the DIALLED leg in SETUP in the reserved slot and holds the source,
each naming the other; BUSY and INVALID release what was reserved and set the note; and REFUSED of any
order but a RECALL or DIVERT only ends the order (R7, R44, R58, R63). -/
def Obligations.DialAndRefusedConfirmsSettleTheReservations : Prop :=
  ∀ (s : State) (b : List Byte) (rest : List (List Byte)) (p : Slot) (r : Record) (o : Order),
    s.Lawful → s.ConfirmWaits b rest p r o →
      let ref := wordAt b 6
      (o.kind = .dial → byteAt b 5 = 0x01 → ref ≠ 0 → s.lookup ref = none →
        ∀ f ∈ o.reservedSlot, HandsOn .confirm s fun u =>
          u.headset = some f ∧ u =
            { s with
              sli.inbound := rest
              ccc.table :=
                (s.ccc.table.set f (.live
                  { ref := ref, state := .setup, leg := .dialled, tenant := r.tenant, cls := .internal
                    recallCount := 0, number := [], name := [], queue := none, loop := o.reservedLoop
                    destination := some o.digits, orbit := none, farEnd := some .proceeding
                    partner := some p, recallAlert := false, order := none, lock := none
                    marked := false, auditPartner := 0 })).set p
                  (.live { r with state := .held, partner := some f, order := none })
              ccc.index := insertRef ref f s.ccc.index, ccc.claim := none, ccc.note := none
              tbt.timers := (s.tbt.timers.set f Timer.stopped).set p
                (armed .hold (s.profile r.tenant).holdReload) })
        ∧ (o.kind = .dial → byteAt b 5 = 0x03 → HandsOn .confirm s fun u =>
            State.EndsOrder { s with sli.inbound := rest, ccc.note := some .busy } u p r o)
        ∧ (o.kind = .dial → byteAt b 5 = 0x04 → HandsOn .confirm s fun u =>
            State.EndsOrder { s with sli.inbound := rest, ccc.note := some .invalid } u p r o)
        ∧ (o.kind ≠ .recall → o.kind ≠ .divert → byteAt b 5 = 0x05 → HandsOn .confirm s fun u =>
            State.EndsOrder { s with sli.inbound := rest } u p r o)

/-- CLEAR DONE retires the primary and makes a secondary still present ACTIVE on its own loop; JOIN DONE
retires both legs; the last retirement at a CLOSING position closes it (R17, R61, R127). -/
def Obligations.ClearAndJoinDoneRetire : Prop :=
  ∀ (s : State) (b : List Byte) (rest : List (List Byte)) (p : Slot) (r : Record) (o : Order),
    s.Lawful → s.ConfirmWaits b rest p r o → byteAt b 5 = 0x01 →
      (o.kind = .clear → HandsOn .confirm s fun u =>
        u.slot p = .free ∧ u.timer p = Timer.stopped ∧ s.Closes u
          ∧ (∀ x : Slot, x ≠ p → ∀ v ∈ s.record? x,
              (o.secondary = some x →
                u.slot x = .live { v with
                    state := .active, recallAlert := false, partner := none, lock := none }
                  ∧ u.timer x = Timer.stopped ∧ u.headset = some x)
              ∧ (o.secondary ≠ some x →
                u.slot x = .live (v.without p) ∧ u.timer x = s.timer x))
          ∧ (∀ x : Slot, s.record? x = none → u.slot x = s.slot x ∧ u.timer x = s.timer x)
          ∧ u.psel.leaves = s.psel.leaves
          ∧ u = { s with
              sli.inbound := rest, sli.posNotice := u.sli.posNotice, pos.state := u.pos.state
              ccc.table := u.ccc.table, ccc.index := s.ccc.index.filter (fun e => e.1 ≠ r.ref)
              ccc.claim := if s.ccc.claim = some p then none else s.ccc.claim, ccc.note := none
              psel.nodes := u.psel.nodes, tbt.timers := u.tbt.timers })
      ∧ (o.kind = .join → HandsOn .confirm s fun u =>
        u.slot p = .free ∧ u.timer p = Timer.stopped ∧ s.Closes u
          ∧ (∀ q ∈ o.secondary, u.slot q = .free ∧ u.timer q = Timer.stopped)
          ∧ (∀ x : Slot, x ≠ p → o.secondary ≠ some x →
              (∀ v ∈ s.record? x, u.slot x = .live (v.without p)) ∧ u.timer x = s.timer x
                ∧ (s.record? x = none → u.slot x = s.slot x))
          ∧ u.psel.leaves = s.psel.leaves
          ∧ u = { s with
              sli.inbound := rest, sli.posNotice := u.sli.posNotice, pos.state := u.pos.state
              ccc.table := u.ccc.table
              ccc.index := s.ccc.index.filter (fun e => e.1 ≠ r.ref ∧ o.secondary ≠ some e.2)
              ccc.note := none
              psel.nodes := u.psel.nodes, tbt.timers := u.tbt.timers })

/-- RECALL DONE returns the primary to the queue with a new seq, a wait of 0 and its base as key, and
requests the recall tone; RECALL REFUSED arms the timer again while the record is in the state of the
expiry kind, and in another state only where the timer is spent, for that state. DIVERT DONE retires the
primary; DIVERT REFUSED leaves a HELD one with its recall alert set, and for another issues a RECALL in
its place, or owes it where the order group is full (R64, R65, R122). That a timer whose expiry is
reported and not yet taken is not spent is a reading of the model's (log entry 32). -/
def Obligations.RecallAndDivertConfirmsSettleThePrimary : Prop :=
  ∀ (s : State) (b : List Byte) (rest : List (List Byte)) (p : Slot) (r : Record) (o : Order),
    s.Lawful → s.ConfirmWaits b rest p r o →
      let s0 : State := { s with sli.inbound := rest }
      let q : QueueFields :=
        { seq := s.psel.seq, wait := 0, key := keyBase s.psel.working r.tenant r.cls r.recallCount }
      let ended : SlotState := .live { r with order := none }
      (o.kind = .recall → byteAt b 5 = 0x01 → HandsOn .confirm s fun u => u =
          { s0 with
            ccc.table := s.ccc.table.set p (.live { r with
              state := .queued, loop := none, orbit := none, recallAlert := false
              destination := if r.leg = .dialled then r.destination else none
              queue := some q, order := none })
            psel.seq := s.psel.seq + 1
            psel.queued := s.psel.queued.set r.tenant (s.psel.queued[r.tenant] + 1)
            psel.leaves := s.psel.leaves.set p (some q)
            psel.nodes := replay (s.psel.leaves.set p (some q)) s.psel.nodes p
            tbt.timers := s.tbt.timers.set p Timer.stopped
            ind.recallReq := true })
        ∧ (o.kind = .recall → byteAt b 5 = 0x05 →
          (∀ k ∈ o.expiryKind, r.state.timerKind = some k → HandsOn .confirm s fun u => u =
            { s0 with
              ccc.table := s.ccc.table.set p ended
              tbt.timers := s.tbt.timers.set p (armed k ((s.profile r.tenant).reload k)) })
          ∧ (r.state.timerKind ≠ o.expiryKind → (s.timer p).kind.isSome →
            (s.timer p).remaining = 0 → (s.timer p).waiting = false → (s.timer p).reported = false →
            ∀ k ∈ r.state.timerKind, HandsOn .confirm s fun u => u =
              { s0 with
                ccc.table := s.ccc.table.set p ended
                tbt.timers := s.tbt.timers.set p (armed k ((s.profile r.tenant).reload k)) })
          ∧ (r.state.timerKind ≠ o.expiryKind → (s.timer p).isSpent = false →
            HandsOn .confirm s fun u => u = { s0 with ccc.table := s.ccc.table.set p ended }))
        ∧ (o.kind = .divert → byteAt b 5 = 0x01 →
          HandsOn .confirm s fun u => State.Retires s0 u p r ∧ s.Closes u)
        ∧ (o.kind = .divert → byteAt b 5 = 0x05 → r.state = .held → HandsOn .confirm s fun u => u =
            { s0 with
              ccc.table := s.ccc.table.set p (.live { r with order := none, recallAlert := true }) })
        ∧ (o.kind = .divert → byteAt b 5 = 0x05 → r.state ≠ .held → s.OrderRoom →
          HandsOn .confirm s fun u => u =
            { s0 with
              ccc.table := s.ccc.table.set p (.live { r with
                order := some { Order.new .recall with expiryKind := o.expiryKind } })
              sli.orders := s.sli.orders ++ [p] })
        ∧ (o.kind = .divert → byteAt b 5 = 0x05 → r.state ≠ .held → ¬ s.OrderRoom →
          HandsOn .confirm s fun u => u =
            { s0 with
              ccc.table := s.ccc.table.set p ended
              tbt.timers := s.tbt.timers.set p
                { kind := o.expiryKind, remaining := 0, waiting := true, owed := some .recall
                  reported := false } })

/-- A CONFIRM taken while frozen or in resync is ignored; one that matches no order awaiting it is LATE; a
DIAL DONE naming a reference in the index is DUPLICATE-REF; and an outcome not valid for its order is a
MISMATCH, the order of a RECALL or DIVERT ending as if it were REFUSED, but with the RECALL in a
DIVERT's place always owed: each fault ends every order and starts a resync (R56, R57, R63, R68, R122).
The reference in the MISMATCH of a DIAL DONE with reference 0, and that a timer whose expiry is reported
and not yet taken is not spent, are readings of the model's (log entries 23 and 32). -/
def Obligations.UnfittingConfirmsRaiseFaults : Prop :=
  ∀ (s : State) (b : List Byte) (rest : List (List Byte)) (p : Slot) (r : Record),
    s.Lawful → s.MessageWaits kindConfirm b rest → s.lookup (refOf b) = some p →
    s.record? p = some r →
      let faulted (k : OrderFault) (ref : Word) : Prop := HandsOn .confirm s fun u =>
        State.EntersResync { s with sli.inbound := rest, sli.orderNotice := some (k, ref) } u
      (s.sli.link = .down ∨ s.ccc.resync = true →
          HandsOn .confirm s fun u => u = { s with sli.inbound := rest })
        ∧ (s.sli.link = .up → s.ccc.resync = false →
          ((∀ o ∈ r.order, o.kind.code ≠ byteAt b 4 ∨ o.stage ≠ .awaitingConfirm) →
            faulted .late (refOf b))
          ∧ (∀ o ∈ r.order, o.kind.code = byteAt b 4 → o.stage = .awaitingConfirm →
            (o.kind = .dial → byteAt b 5 = 0x01 → wordAt b 6 ≠ 0 →
                (s.lookup (wordAt b 6)).isSome → faulted .duplicateRef (wordAt b 6))
            ∧ (o.kind = .dial → byteAt b 5 = 0x01 → wordAt b 6 = 0 → faulted .mismatch (refOf b))
            ∧ (o.kind ≠ .recall → o.kind ≠ .divert →
                (byteAt b 5).toNat < 1 ∨ 5 < (byteAt b 5).toNat
                  ∨ (o.kind = .extend ∧ byteAt b 5 = 0x01)
                  ∨ (o.kind ≠ .extend ∧ byteAt b 5 = 0x02)
                  ∨ (o.kind ≠ .extend ∧ o.kind ≠ .dial ∧ (byteAt b 5 = 0x03 ∨ byteAt b 5 = 0x04)) →
                faulted .mismatch (refOf b))
            ∧ (byteAt b 5 ≠ 0x01 → byteAt b 5 ≠ 0x05 →
              let m := s.timer p
              let spent :=
                m.kind.isSome ∧ m.remaining = 0 ∧ m.waiting = false ∧ m.reported = false
              let ends (r' : Record) (m' : Timer) : Prop := HandsOn .confirm s fun u =>
                State.EntersResync
                  { s with
                    sli.inbound := rest, sli.orderNotice := some (.mismatch, refOf b)
                    ccc.table := s.ccc.table.set p (.live { r' with order := none })
                    tbt.timers := s.tbt.timers.set p m' } u
              (o.kind = .recall →
                (r.state.timerKind = o.expiryKind ∨ spent →
                    ∀ k ∈ r.state.timerKind, ends r (armed k ((s.profile r.tenant).reload k)))
                  ∧ (r.state.timerKind ≠ o.expiryKind → ¬ spent → ends r m))
              ∧ (o.kind = .divert →
                (r.state = .held → ends { r with recallAlert := true } m)
                  ∧ (r.state ≠ .held → ends r
                    { kind := o.expiryKind, remaining := 0, waiting := true, owed := some .recall
                      reported := false })))))

/-! ### Requests -/

/-- A POLL is answered with a STATUS of the state as it stands, in every condition; a body of an unknown kind
is discarded with LINK-FAULT UNKNOWN-KIND and no reply (R166, R172). -/
def Obligations.PollAndUnknownKindAreHandedOn : Prop :=
  ∀ (s : State) (b : List Byte) (rest : List (List Byte)),
    (s.MessageWaits kindPoll b rest → HandsOn .poll s fun u => u =
        { s with
          sli.inbound := rest
          sli.replies := s.sli.replies ++ [.status (tagOf b) (refOf b)
            { position := s.pos.state, linkUp := decide (s.sli.link = .up), resync := s.ccc.resync
              live := slots.countP fun p => (s.record? p).isSome
              queued := (tenants.map fun t => s.psel.queued[t]).sum
              headRef := ((s.head.bind s.record?).map Record.ref).getD 0
              freeLoops := loops.countP fun k => slots.all fun p =>
                (s.record? p).all fun r => r.loop ≠ some k ∧ r.reservedLoop ≠ some k
              freeOrbits := orbits.countP fun k => slots.all fun p =>
                (s.record? p).all fun r => r.orbit ≠ some k ∧ r.reservedOrbit ≠ some k }] })
      ∧ (∀ k : Byte, s.MessageWaits k b rest →
          k ∉ [0x21, 0x22, 0x23, 0x24, 0x25, 0x26, 0x27, 0x28, 0x29, 0x31, 0x32, 0x33, 0x34, 0x35] →
          HandsOn .unknownKind s fun u => u =
            { s with sli.inbound := rest, sli.linkNotice := some (.unknownKind, refOf b) })

/-- SET stores the value of the item it names, brought into the item's range, keeps the low mark below the
high mark, and answers ACK with the clamped flag; a body that is not well formed is refused MALFORMED
(R130 to R134). -/
def Obligations.SetStoresTheItemInItsRange : Prop :=
  ∀ (s : State) (b : List Byte) (rest : List (List Byte)), s.MessageWaits kindSet b rest →
    let v := (wordAt b 6).toNat
    let st := s.pos.settings
    let put (ps : Pos) (flag : Bool) : Prop := HandsOn .set s fun u => u =
      { s with
        sli.inbound := rest, pos := ps
        sli.replies := s.sli.replies ++ [.ack (tagOf b) (refOf b) flag] }
    let pos (code : Byte) (x : Settings) (flag : Bool) : Prop :=
      byteAt b 4 = 0x80 → byteAt b 5 = code → b.length = 8 →
        put { s.pos with settings := x } flag
    let ten (code : Byte) (g : Profile → Profile) (flag : Bool) : Prop :=
      ∀ t : Tenant, (byteAt b 4).toNat = t.val → byteAt b 5 = code → b.length = 8 →
        put { s.pos with profiles := s.pos.profiles.set t (g s.pos.profiles[t]) } flag
    pos 0x01 { st with baseUrgent := min v 4095 } (decide (4095 < v))
      ∧ pos 0x02 { st with baseRecall := min v 4095 } (decide (4095 < v))
      ∧ pos 0x03 { st with baseExternal := min v 4095 } (decide (4095 < v))
      ∧ pos 0x04 { st with baseInternal := min v 4095 } (decide (4095 < v))
      ∧ pos 0x05 { st with ageRate := min v 15 } (decide (15 < v))
      ∧ pos 0x06 { st with ageCap := min v 4095 } (decide (4095 < v))
      ∧ pos 0x07 { st with autoAnswer := min v 1 } (decide (1 < v))
      ∧ pos 0x08 { st with confirmTime := max 5 (min v 50) } (decide (v < 5 ∨ 50 < v))
      ∧ pos 0x09 { st with supervision := max 1 (min v 30) } (decide (v < 1 ∨ 30 < v))
      ∧ (let h := max 2 (min v 15)
        pos 0x0A { st with highMark := h, lowMark := min st.lowMark (h - 1) }
          (decide (v < 2 ∨ 15 < v ∨ h ≤ st.lowMark)))
      ∧ pos 0x0B { st with lowMark := min v (st.highMark - 1) } (decide (st.highMark - 1 < v))
      ∧ pos 0x0C { st with burstCount := min v 15 } (decide (15 < v))
      ∧ pos 0x0D { st with burstGap := min v 15 } (decide (15 < v))
      ∧ ten 0x11 (fun f => { f with offset := min v 1023 }) (decide (1023 < v))
      ∧ ten 0x12 (fun f => { f with queueLimit := min v 64 }) (decide (64 < v))
      ∧ ten 0x13 (fun f => { f with flashThreshold := max 1 (min v 64) }) (decide (v < 1 ∨ 64 < v))
      ∧ ten 0x14 (fun f => { f with campOn := min v 1 }) (decide (1 < v))
      ∧ ten 0x15 (fun f => { f with holdReload := min v 255 }) (decide (255 < v))
      ∧ ten 0x16 (fun f => { f with parkReload := min v 255 }) (decide (255 < v))
      ∧ ten 0x17 (fun f => { f with campReload := min v 255 }) (decide (255 < v))
      ∧ ten 0x18 (fun f => { f with noAnswerReload := min v 255 }) (decide (255 < v))
      ∧ ten 0x19 (fun f => { f with recallLimit := max 1 (min v 3) }) (decide (v < 1 ∨ 3 < v))
      ∧ (∀ t : Tenant, (byteAt b 4).toNat = t.val → byteAt b 5 = 0x1A → b.length = 18 →
          put { s.pos with profiles := s.pos.profiles.set t { s.pos.profiles[t] with
              label := (b.drop 6).map fun c => if 0x20 ≤ c.toNat ∧ c.toNat ≤ 0x7E then c else 0x3F } }
            ((b.drop 6).any fun c => decide (c.toNat < 0x20 ∨ 0x7E < c.toNat)))
      ∧ ((byteAt b 4 ≠ 0x80 ∧ 16 ≤ (byteAt b 4).toNat)
            ∨ (byteAt b 4 = 0x80 ∧ ((byteAt b 5).toNat < 1 ∨ 0x0D < (byteAt b 5).toNat))
            ∨ (byteAt b 4 ≠ 0x80 ∧ ((byteAt b 5).toNat < 0x11 ∨ 0x1A < (byteAt b 5).toNat))
            ∨ (byteAt b 5 ≠ 0x1A ∧ b.length ≠ 8) ∨ (byteAt b 5 = 0x1A ∧ b.length ≠ 18) →
          HandsOn .set s fun u => u =
            { s with
              sli.inbound := rest
              sli.replies := s.sli.replies ++ [.refuse (tagOf b) (refOf b) .malformed] })

/-- CADENCE-LOAD writes one pattern or one map entry of the SHADOW bank, durations of 41..63 stored as 40,
and CADENCE-COMMIT sets the commit-pending flag; while that flag is set both are refused BANK-BUSY, and
a load with a number above 15, a mode other than REPEAT and ONCE, a step count of 0 or above 8, a
duration of 0 or a wrong length is refused MALFORMED; the ACTIVE bank stays (R148, R149). That the flag of
an ACK to a map entry or a commit is clear is the model's choice (log entry 31). -/
def Obligations.CadenceRequestsActOnTheShadowBank : Prop :=
  ∀ (s : State) (b : List Byte) (rest : List (List Byte)),
    let out (i : Ind) (r : Reply) (u : State) : Prop := u =
      { s with sli.inbound := rest, sli.replies := s.sli.replies ++ [r], ind := i }
    let refused (why : Reason) (u : State) : Prop := out s.ind (.refuse (tagOf b) (refOf b) why) u
    let dur (c : Byte) : Nat := c.toNat % 64
    (s.MessageWaits kindCadenceLoad b rest →
      (s.ind.commit = true → HandsOn .cadenceLoad s (refused .bankBusy))
      ∧ (s.ind.commit = false →
        (∀ (n : Fin 16) (m : Mode), byteAt b 4 = 0x01 → (byteAt b 5).toNat = n.val →
          (byteAt b 6 = 0x00 ∧ m = .repeat_) ∨ (byteAt b 6 = 0x01 ∧ m = .once) →
          1 ≤ (byteAt b 7).toNat → (byteAt b 7).toNat ≤ 8 → b.length = 8 + (byteAt b 7).toNat →
          ((∀ c ∈ b.drop 8, dur c ≠ 0) →
            HandsOn .cadenceLoad s (out
              { s.ind with
                shadow.patterns := s.ind.shadow.patterns.set n
                  { mode := m
                    steps := (b.drop 8).map fun c =>
                      { on := decide (128 ≤ c.toNat), duration := min (dur c) 40 } } }
              (.ack (tagOf b) (refOf b) ((b.drop 8).any fun c => decide (40 < dur c)))))
          ∧ ((∃ c ∈ b.drop 8, dur c = 0) → HandsOn .cadenceLoad s (refused .malformed)))
        ∧ (∀ i n : Fin 16, byteAt b 4 = 0x02 → b.length = 7 → (byteAt b 5).toNat = i.val →
          (byteAt b 6).toNat = n.val →
          HandsOn .cadenceLoad s
            (out { s.ind with shadow.map := s.ind.shadow.map.set i n } (.ack (tagOf b) (refOf b) false)))
        ∧ ((byteAt b 4 = 0x02 ∧ b.length ≠ 7) ∨ (byteAt b 4 = 0x01 ∧ b.length ≠ 8 + (byteAt b 7).toNat)
            ∨ (byteAt b 4 ≠ 0x01 ∧ byteAt b 4 ≠ 0x02) ∨ 16 ≤ (byteAt b 5).toNat
            ∨ (byteAt b 4 = 0x02 ∧ 16 ≤ (byteAt b 6).toNat)
            ∨ (byteAt b 4 = 0x01 ∧ ((byteAt b 6 ≠ 0x00 ∧ byteAt b 6 ≠ 0x01)
              ∨ (byteAt b 7).toNat = 0 ∨ 8 < (byteAt b 7).toNat)) →
          HandsOn .cadenceLoad s (refused .malformed))))
    ∧ (s.MessageWaits kindCadenceCommit b rest →
      (s.ind.commit = true → HandsOn .cadenceCommit s (refused .bankBusy))
      ∧ (s.ind.commit = false → HandsOn .cadenceCommit s
          (out { s.ind with commit := true } (.ack (tagOf b) (refOf b) false))))

/-- A POSITION request moves the position as R126's table gives and is acknowledged, raising a notice where
the state changes and none where it does not; a malformed one is refused and changes nothing (R126,
R128). That the ACK's flag is clear is the model's choice (log entry 31). -/
def Obligations.PositionRequestMovesThePosition : Prop :=
  ∀ (s : State) (b : List Byte) (rest : List (List Byte)), s.MessageWaits kindPosition b rest →
    let s0 : State := { s with sli.inbound := rest }
    let goes (x : PosState) : Prop := HandsOn .position s fun u => u =
      { s0 with
        pos.state := x
        sli.posNotice := if s.pos.state = x then s.sli.posNotice else some x
        sli.replies := s.sli.replies ++ [.ack (tagOf b) (refOf b) false] }
    (b.length = 5 →
      (byteAt b 4 = 0x01 → goes .opened)
        ∧ (byteAt b 4 = 0x02 → goes .busyOut)
        ∧ (byteAt b 4 = 0x03 →
          (s.pos.state = .closed → goes .closed)
            ∧ (s.pos.state = .closing → goes .closing)
            ∧ (s.pos.state = .opened ∨ s.pos.state = .busyOut →
              ((∀ p : Slot, s.record? p = none) → goes .closed)
                ∧ (∀ p : Slot, (s.record? p).isSome → goes .closing))))
      ∧ (b.length ≠ 5 ∨ (byteAt b 4).toNat < 1 ∨ 3 < (byteAt b 4).toNat →
        HandsOn .position s fun u => u =
          { s0 with sli.replies := s.sli.replies ++ [.refuse (tagOf b) (refOf b) .malformed] })

/-! ### Audit and restart -/

/-- An AUDIT-ENTRY body is well formed, but for the leg of a SETUP entry, exactly when R178 says so, and its
fields are read as R174 gives. A refused AUDIT-ENTRY names the first test of R178 that it fails and
changes nothing but the reply group and the inbound queue (R174, R178). That the orbit is read only for
PARKED in the test for a FREE slot is a reading of the model's (log entry 15). -/
def Obligations.RefusedAuditEntryChangesNothing : Prop :=
  (∀ (s : State) (b : List Byte) (rest : List (List Byte)), s.MessageWaits kindAuditEntry b rest →
      let refused (why : Reason) : Prop := HandsOn .auditEntry s fun u => u =
        { s with
          sli.inbound := rest
          sli.replies := s.sli.replies ++ [.refuse (tagOf b) (refOf b) why] }
      let own := s.lookup (refOf b)
      (s.pos.state = .closed → refused .closed)
      ∧ (s.pos.state ≠ .closed → s.ccc.resync = false → refused .resync)
      ∧ (s.pos.state ≠ .closed → s.ccc.resync = true →
        (readEntry b = none → refused .malformed)
        ∧ (∀ e ∈ readEntry b,
          let other (q : Slot) : Prop := own ≠ some q
          let setup := e.state = .setup ∧
            ((own.bind s.record?).map Record.leg).getD
              (if e.partnerRef ≠ 0 ∧ e.cls = .internal ∧ e.destination ≠ [] then .dialled
                else .incoming) = .incoming
          let headset := (e.state = .active ∨ e.state = .setup) ∧
            ∃ q : Slot, other q ∧ ∃ u ∈ s.record? q, u.marked = true ∧ u.onHeadset
          let orbit := e.state = .parked ∧
            ∃ q : Slot, other q ∧ ∃ u ∈ s.record? q,
              u.marked = true ∧ u.state = .parked ∧ u.orbit.isSome ∧ u.orbit = e.orbit
          let full := own = none ∧ (∀ q : Slot, s.slot q ≠ .free) ∧
            (e.state = .parked → ∀ q : Slot, ∀ u ∈ s.record? q,
              ¬ (u.marked = false ∧ u.state = .parked ∧ u.orbit.isSome ∧ u.orbit = e.orbit))
          let loopless := e.state.needsLoop ∧ (own.bind s.record?).bind Record.loop = none ∧
            ∀ k : Loop, s.loopFree k = false
          (setup → refused .malformed)
            ∧ (¬ setup → headset → refused .conflict)
            ∧ (¬ setup → ¬ headset → orbit → refused .conflict)
            ∧ (¬ setup → ¬ headset → ¬ orbit → full → refused .full)
            ∧ (¬ setup → ¬ headset → ¬ orbit → ¬ full → loopless → refused .conflict))))
    ∧ ∀ b : List Byte,
      let d := (byteAt b 11).toNat
      let k := (byteAt b (12 + d)).toNat
      let st := (byteAt b 4).toNat
      let isDigit (c : Byte) : Prop := 0x30 ≤ c.toNat ∧ c.toNat ≤ 0x39
      let reads (l : List Digit) (start n : Nat) : Prop :=
        l.length = n ∧ ∀ i : Nat, i < n →
          (l[i]?.map fun x => 0x30 + x.val) = some (byteAt b (start + i)).toNat
      ((readEntry b).isSome ↔
          (byteAt b 2 ≠ 0 ∨ byteAt b 3 ≠ 0) ∧ 1 ≤ st ∧ st ≤ 7 ∧ (byteAt b 5).toNat ≤ 15
            ∧ 1 ≤ (byteAt b 6).toNat ∧ (byteAt b 6).toNat ≤ 3
            ∧ (st = 7 → (byteAt b 8).toNat ≤ 9) ∧ d ≤ 6 ∧ k ≤ 16 ∧ b.length = 13 + d + k
            ∧ (∀ i : Nat, i < d → isDigit (byteAt b (12 + i)))
            ∧ (∀ i : Nat, i < k → isDigit (byteAt b (13 + d + i)))
            ∧ (st = 5 ∨ st = 6 → 1 ≤ d))
        ∧ ∀ e ∈ readEntry b,
          (e.state = .queued ↔ st = 1) ∧ (e.state = .active ↔ st = 2) ∧ (e.state = .held ↔ st = 3)
            ∧ (e.state = .setup ↔ st = 4) ∧ (e.state = .extended ↔ st = 5)
            ∧ (e.state = .camped ↔ st = 6) ∧ (e.state = .parked ↔ st = 7)
            ∧ e.tenant.val = (byteAt b 5).toNat
            ∧ (e.cls = .urgent ↔ byteAt b 6 = 0x01) ∧ (e.cls = .external ↔ byteAt b 6 = 0x02)
            ∧ e.recallCount = (byteAt b 7).toNat
            ∧ (st = 7 → e.orbit.map Fin.val = some (byteAt b 8).toNat) ∧ (st ≠ 7 → e.orbit = none)
            ∧ e.partnerRef.toNat = 256 * (byteAt b 9).toNat + (byteAt b 10).toNat
            ∧ reads e.destination 12 d ∧ reads e.number (13 + d) k

/-- An accepted AUDIT-ENTRY first settles the other, unmarked record that it meets, if any: one on the
headset where it puts its own there becomes HELD with its HOLD timer armed and the outcome note cleared,
one PARKED at its orbit is retired. For a new reference it then creates the marked record in the lowest
FREE slot by R7; for a known one it restates the record, keeping its timer and queue fields where the
state does not change and entering the new state where it does, and clears both partner fields of its
pair; the outcome note goes when the headset record or its state changes (R7, R9, R62, R74, R178, R179).
That a displaced leg keeps its far-end status and partner, that an entry which retires the last record of
a CLOSING position and creates another closes nothing, and when the note goes, are readings of the
model's (log entries 14, 16 and 26). -/
def Obligations.AcceptedAuditEntryStatesTheRecord : Prop :=
  ∀ (s : State) (b : List Byte) (rest : List (List Byte)) (e : EntryBody),
    s.Lawful → s.MessageWaits kindAuditEntry b rest → s.pos.state ≠ .closed → s.ccc.resync = true →
    readEntry b = some e →
    ∀ v : State, s.Settles v (refOf b) e →
    let ref := refOf b
    let count := min e.recallCount 3
    let leg : Leg :=
      if e.partnerRef ≠ 0 ∧ e.cls = .internal ∧ e.destination ≠ [] then .dialled else .incoming
    let entered (t : Custody) : Timer := match t.timerKind with
      | some k => armed k ((v.profile e.tenant).reload k)
      | none => Timer.stopped
    let fresh : QueueFields :=
      { seq := v.psel.seq, wait := 0, key := keyBase v.psel.working e.tenant e.cls count }
    let frame (u : State) : Prop := u.LeavesExact ∧ u.CountsExact ∧ u =
      { v with
        sli.inbound := rest
        sli.replies := v.sli.replies ++ [.ack (tagOf b) ref (decide (3 < e.recallCount))]
        ccc := { u.ccc with claim := v.ccc.claim, resync := v.ccc.resync }
        psel := { u.psel with working := v.psel.working }
        tbt.timers := u.tbt.timers }
    (∀ p : Slot, v.lookup ref = none → v.lowestFree = some p →
        (e.state = .setup → leg = .dialled) → (e.state.needsLoop → v.lowestLoop.isSome) →
        HandsOn .auditEntry s fun u =>
          frame u ∧ u.timer p = entered e.state
            ∧ u.ccc.note = (if e.state = .active ∨ e.state = .setup then none else v.ccc.note)
            ∧ u.ccc.index = insertRef ref p v.ccc.index
            ∧ u.psel.seq = (if e.state = .queued then v.psel.seq + 1 else v.psel.seq)
            ∧ (∀ x : Slot, x ≠ p → u.slot x = v.slot x ∧ u.timer x = v.timer x)
            ∧ u.slot p = .live
              { ref := ref, state := e.state, leg := leg, tenant := e.tenant, cls := e.cls
                recallCount := count, number := e.number, name := []
                queue := if e.state = .queued then some fresh else none
                loop := if e.state.needsLoop then v.lowestLoop else none
                destination :=
                  if e.state = .extended ∨ e.state = .camped ∨ leg = .dialled then some e.destination
                  else none
                orbit := e.orbit
                farEnd :=
                  if leg = .dialled then some (if e.state = .setup then .proceeding else .answered)
                  else none
                partner := none, recallAlert := false, order := none, lock := none
                marked := true, auditPartner := e.partnerRef })
      ∧ (∀ p : Slot, ∀ r ∈ v.record? p, v.lookup ref = some p →
        (e.state = .setup → r.leg = .dialled) →
        (e.state.needsLoop → r.loop.isSome ∨ v.lowestLoop.isSome) →
        HandsOn .auditEntry s fun u =>
          frame u ∧ u.ccc.index = v.ccc.index
            ∧ u.ccc.note =
              (if e.state ≠ r.state ∧ (r.onHeadset ∨ e.state = .active ∨ e.state = .setup) then none
                else v.ccc.note)
            ∧ u.timer p = (if e.state = r.state then v.timer p else entered e.state)
            ∧ u.psel.seq =
              (if e.state = .queued ∧ r.state ≠ .queued then v.psel.seq + 1 else v.psel.seq)
            ∧ (∀ x : Slot, x ≠ p → u.timer x = v.timer x
                ∧ (r.partner ≠ some x → u.slot x = v.slot x)
                ∧ (∀ w ∈ v.record? x, r.partner = some x → u.slot x = .live { w with partner := none }))
            ∧ u.slot p = .live
              { r with
                state := e.state, tenant := e.tenant, cls := e.cls, recallCount := count
                number := e.number
                queue :=
                  if e.state = .queued then (if r.state = .queued then r.queue else some fresh) else none
                loop :=
                  if e.state.needsLoop then (if r.loop.isSome then r.loop else v.lowestLoop) else none
                destination :=
                  if r.leg = .dialled then
                    (if e.destination = [] then r.destination else some e.destination)
                  else if e.state = .extended ∨ e.state = .camped then some e.destination
                  else none
                orbit := e.orbit
                farEnd :=
                  if r.leg = .incoming then none
                  else if e.state ≠ .setup then some .answered
                  else if r.state = .setup then r.farEnd
                  else some .proceeding
                partner := none
                recallAlert := r.recallAlert && decide (e.state = .held)
                marked := true, auditPartner := e.partnerRef })

/-- An AUDIT-END during a resync retires every unmarked record, links the marked ones that name each other,
clears every mark and ends the resync; the outcome note goes where the headset record is retired (R62), and
outside a resync it is only acknowledged (R180). That the ACK's flag is clear is the model's choice (log
entry 31). -/
def Obligations.AuditEndRetiresAndLinks : Prop :=
  ∀ (s : State) (b : List Byte) (rest : List (List Byte)),
    s.MessageWaits kindAuditEnd b rest →
    let s0 : State :=
      { s with
        sli.inbound := rest
        sli.replies := s.sli.replies ++ [.ack (tagOf b) (refOf b) false] }
    (s.ccc.resync = false → HandsOn .auditEnd s fun u => u = s0)
      ∧ (s.ccc.resync = true → s.Lawful → HandsOn .auditEnd s fun u =>
        (∀ p : Slot, ∀ r ∈ s.record? p,
          (r.marked = false → u.slot p = .free ∧ u.timer p = Timer.stopped)
            ∧ (r.marked = true →
              u.timer p = s.timer p
                ∧ ∃ r' ∈ u.record? p,
                  r' = { r with partner := r'.partner, marked := false, auditPartner := 0 }
                    ∧ ∀ q : Slot, r'.partner = some q ↔
                      ∃ v ∈ s.record? q, v.marked = true
                        ∧ r.auditPartner = v.ref ∧ v.auditPartner = r.ref ∧ r.leg ≠ v.leg
                        ∧ ((r.state = .held ∧ (v.state = .held ∨ v.onHeadset))
                          ∨ (r.onHeadset ∧ v.state = .held))))
          ∧ (∀ p : Slot, s.record? p = none → u.slot p = .free ∧ u.timer p = s.timer p)
          ∧ u.ccc.resync = false ∧ u.ccc.claim = none
          ∧ u.ccc.note =
            (if ∃ p ∈ s.headset, ∃ r ∈ s.record? p, r.marked = false then none else s.ccc.note)
          ∧ u.IndexExact ∧ u.LeavesExact ∧ u.CountsExact
          ∧ s.Closes u
          ∧ u = { s0 with
              ccc := u.ccc, tbt.timers := u.tbt.timers, pos.state := u.pos.state
              psel := { s.psel with
                leaves := u.psel.leaves, nodes := u.psel.nodes, queued := u.psel.queued }
              sli.posNotice := u.sli.posNotice })

/-- RESTART empties the table, PSEL, the timers, the key queue, the dial buffer, the tones, the order group
and the notice slots, ends a resync, closes a CLOSING position with its notice, and is acknowledged; the
settings, banks, receiver, inbound queue, replies, flow control, link and cascade are kept (R21, R86,
R113, R127, R136, R145, R160, R173, R181). That the latched burst count is kept, and the ACK's flag clear,
is the model's choice (log entries 13 and 31). -/
def Obligations.RestartEmptiesThePosition : Prop :=
  ∀ (s : State) (b : List Byte) (rest : List (List Byte)), s.MessageWaits kindRestart b rest →
    HandsOn .restart s fun u =>
      (∀ p : Slot, u.slot p = .free ∧ u.timer p = Timer.stopped ∧ u.psel.leaves[p] = none)
        ∧ (∀ i : Fin 63, u.psel.nodes[i] = none) ∧ (∀ t : Tenant, u.psel.queued[t] = 0)
        ∧ (s.pos.state = .closing → u.pos.state = .closed ∧ u.sli.posNotice = some .closed)
        ∧ (s.pos.state ≠ .closing → u.pos.state = s.pos.state ∧ u.sli.posNotice = none)
        ∧ u = { s with
            ccc := { table := u.ccc.table, index := [], claim := none, note := none, resync := false }
            psel := { u.psel with working := s.psel.working, seq := 0 }
            tbt.timers := u.tbt.timers
            pos.state := u.pos.state
            ksc.queue := [], ksc.dial := []
            ind := { s.ind with
              chirpReq := false, chirp := none, recallReq := false, recallEpoch := false
              burst := { running := false, position := 0, assigned := false, count := s.ind.burst.count } }
            sli := { s.sli with
              inbound := rest, replies := s.sli.replies ++ [.ack (tagOf b) (refOf b) false]
              orders := [], auditNotice := false, posNotice := u.sli.posNotice, orderNotice := none
              linkNotice := none } }

/-! ### Beats and timers -/

/-- A confirm beat takes one from every running confirm timer, and nothing while the link is DOWN; the step of
one timer from 1 to 0, by the beat or as CONFIRM_TIMEOUT, cancels its order with every other, raises
ORDER-FAULT TIMEOUT with the primary's reference and starts a resync, and where several step to 0 at one
beat the notice names one of them (R55, R66, R112). That the beat takes the timeout with it, that
CONFIRM_TIMEOUT is that timer's last step alone, and that the one named is a free value, are the model's
choice (log entries 5 and 6). -/
def Obligations.ConfirmTimersCountDownAndTimeOut : Prop :=
  ∀ s : State, s.Lawful →
    (s.sli.link = .down → exec .confirmBeat s = .next s)
      ∧ (s.sli.link = .up →
        (∀ p : Slot, ∀ r ∈ s.record? p, ∀ o ∈ r.order, ∀ n ∈ o.confirmTimer, 2 ≤ n) →
        Runs .confirmBeat s fun t =>
          (∀ p : Slot, ∀ r ∈ s.record? p, t.slot p = .live { r with
              order := r.order.map fun o =>
                { o with confirmTimer := o.confirmTimer.map fun n => n - 1 } })
            ∧ (∀ p : Slot, s.record? p = none → t.slot p = s.slot p)
            ∧ t = { s with ccc.table := t.ccc.table })
      ∧ (∀ p : Slot, ∀ r ∈ s.record? p, ∀ o ∈ r.order, o.confirmTimer = some 1 →
        let faulted (t : State) : Prop :=
          State.EntersResync { s with sli.orderNotice := some (.timeout, r.ref) } t
        Runs (.confirmTimeout p) s faulted
          ∧ ((∀ q : Slot, q ≠ p → ∀ v ∈ s.record? q, ∀ w ∈ v.order, w.confirmTimer ≠ some 1) →
            Runs .confirmBeat s faulted)
          ∧ (∀ q : Slot, q ≠ p → ∀ v ∈ s.record? q, ∀ w ∈ v.order, w.confirmTimer = some 1 →
            ∃ x : Slot, ∃ u ∈ s.record? x, (∃ y ∈ u.order, y.confirmTimer = some 1)
              ∧ Runs .confirmBeat s fun t => State.EntersResync
                  { s with
                    sli.orderNotice := some (.timeout, u.ref), freeCount := s.freeCount + 1 } t))

/-- A second tick's aging copies the working settings from POS first; while aging is held nothing else
changes, and otherwise every QUEUED record's wait rises by one, 65535 left as it is, and its key becomes its
base less the capped credit, or 0; leaves and tree follow (R69 to R71, R73, R79, R80). -/
def Obligations.AgingRaisesWaitsAndRecomputesKeys : Prop :=
  ∀ s : State, s.LeavesExact → s.psel.Decided → Runs .agingTick s fun t =>
    let st := s.pos.settings
    let w := t.psel.working
    w.baseUrgent = st.baseUrgent ∧ w.baseRecall = st.baseRecall ∧ w.baseExternal = st.baseExternal
      ∧ w.baseInternal = st.baseInternal ∧ w.ageRate = st.ageRate ∧ w.ageCap = st.ageCap
      ∧ (∀ n : Tenant, w.offsets[n] = (s.profile n).offset)
      ∧ (s.sli.link = .down ∨ s.ccc.resync = true → t = { s with psel.working := w })
      ∧ (s.sli.link = .up → s.ccc.resync = false →
        (∀ p : Slot, ∀ r ∈ s.record? p, r.state = .queued → ∀ q ∈ r.queue,
          let wait := if q.wait < 65535 then q.wait + 1 else 65535
          let base := (if 0 < r.recallCount then w.baseRecall
            else if r.cls = .urgent then w.baseUrgent
            else if r.cls = .external then w.baseExternal
            else w.baseInternal) + w.offsets[r.tenant]
          let capped := min (wait * w.ageRate / 8) w.ageCap
          (q.wait ≤ 65535 → t.slot p = .live { r with queue := some { q with
            wait := wait, key := if capped < base then base - capped else 0 } }))
        ∧ (∀ p : Slot, (s.slot p).queuedTenant = none → t.slot p = s.slot p)
        ∧ t.LeavesExact ∧ t.psel.Decided
        ∧ t = { s with
            ccc.table := t.ccc.table
            psel.working := w, psel.leaves := t.psel.leaves, psel.nodes := t.psel.nodes })

/-- A counting second tick takes one from every custody timer that is counting and from no other, the step
from 1 to 0 being reported; while the position is frozen or in resync every timer holds (R116). That a
report in flight is a field of the timer is the model's choice (log entry 8). -/
def Obligations.CustodyTimersCountOnlyWhenNotHeld : Prop :=
  ∀ s : State,
    (s.sli.link = .down ∨ s.ccc.resync = true → exec .custodyCountTick s = .next s)
      ∧ (s.sli.link = .up → s.ccc.resync = false → Runs .custodyCountTick s fun t =>
        (∀ p : Slot,
          let m := s.timer p
          (m.kind.isSome → 0 < m.remaining → m.waiting = false →
              t.timer p = { m with
                remaining := m.remaining - 1, reported := m.reported || decide (m.remaining = 1) })
            ∧ (m.kind = none ∨ m.remaining = 0 ∨ m.waiting = true → t.timer p = m))
        ∧ t = { s with tbt.timers := t.tbt.timers })

/-- An expiry that is void does nothing, be it that the timer has since been stopped; one of a record with
an order or a lock waits; one that acts raises the recall count, and below the limit a HOLD sets the
recall alert, requests the tone and arms the timer again, and another issues a RECALL; at the limit a
DIVERT is issued; what cannot be issued waits (R117 to R119). A waiting expiry is retried in the same
way, and an owed order is issued without raising the count, or stays owed where R50 does not allow it,
unless retries are held (R121). That a report in flight is a field of the timer, and that a HOLD expiry
which issues no order acts in every condition, are readings of the model's (log entries 8 and 19). -/
def Obligations.ExpiriesActWaitOrAreRetried : Prop :=
  (∀ (s : State) (p : Slot) (r : Record) (k : TimerKind), s.Lawful → s.record? p = some r →
      (s.timer p).kind = some k →
      let m := s.timer p
      let may := s.sli.link = .up ∧ s.ccc.resync = false ∧ s.OrderRoom
      let count := min (r.recallCount + 1) 3
      let limit := (s.profile r.tenant).recallLimit
      let raised : Record := { r with recallCount := count }
      let timer (x : Timer) : State := { s with tbt.timers := s.tbt.timers.set p x }
      let spent : Timer := { m with remaining := 0, waiting := false, owed := none, reported := false }
      let waits : Timer := { m with remaining := 0, waiting := true, owed := none, reported := false }
      let issued (x : Record) (o : Order) (t : State) : Prop :=
        State.Issues
          { timer spent with ccc.table := s.ccc.table.set p (.live x) } t p x o
      let acts (c : Instr) : Prop :=
        (¬ r.unfenced → exec c s = .next (timer waits))
          ∧ (r.unfenced → count < limit → k = .hold → exec c s = .next
            { timer (armed .hold (s.profile r.tenant).holdReload) with
              ccc.table := s.ccc.table.set p (.live { raised with recallAlert := true })
              ind.recallReq := true })
          ∧ (r.unfenced → count < limit → k ≠ .hold → may →
            Runs c s (issued raised { Order.new .recall with expiryKind := some k }))
          ∧ (r.unfenced → limit ≤ count → may →
            Runs c s (issued raised
              { Order.new .divert with expiryKind := some k, tenant := some r.tenant }))
          ∧ (r.unfenced → k ≠ .hold ∨ limit ≤ count → ¬ may → exec c s = .next (timer waits))
      (m.reported = false → exec (.custodyTimerExpiry p) s = .next s)
        ∧ (m.reported = true → acts (.custodyTimerExpiry p))
        ∧ (s.sli.link = .up → s.ccc.resync = false →
          (m.waiting = true → m.owed = none → acts (.expiryRetry p))
            ∧ (m.waiting = true → m.owed = some .divert → r.unfenced → s.OrderRoom →
              Runs (.expiryRetry p) s (issued r
                { Order.new .divert with expiryKind := some k, tenant := some r.tenant }))
            ∧ (m.waiting = true → m.owed = some .recall → r.unfenced → s.OrderRoom → r.away →
              Runs (.expiryRetry p) s (issued r { Order.new .recall with expiryKind := some k })))
        ∧ (s.sli.link = .down ∨ s.ccc.resync = true ∨ m.waiting = false →
          exec (.expiryRetry p) s = .next s)
        ∧ (m.waiting = true → m.owed.isSome → ¬ r.unfenced ∨ ¬ s.OrderRoom →
          exec (.expiryRetry p) s = .next s))
    ∧ ∀ (s : State) (p : Slot), s.Lawful → (s.timer p).kind = none →
      exec (.custodyTimerExpiry p) s = .next s ∧ exec (.expiryRetry p) s = .next s

/-! ### Lamps, buzzer and display -/

/-- A cadence step shifts out 25 levels, one on each of 25 pulses of LSC, and asserts LLT: loop lamps 0..7,
tenant lamps 0..15 and the position lamp, each the level by R146, at the phase the step reads, of the
ACTIVE bank's pattern for the lamp's indication (R146, R150, R151, R152). The chirp moves on or starts,
and BUZ takes the level of the chirp, else of the recall tone in a recall epoch, else of the sounding
alert burst, else none (R153, R154, R156, R157). That the step counts itself before it reads the phase,
that LSD is kept as what the step shifts out, the burst count as latched at the boundary, and that a
gate closed again lets an assigned epoch sound, are the model's (log entries 4, 11, 13 and 29). So is that
a step whose count wraps to phase 0 swaps no bank and settles no recall epoch and no burst by itself,
where R149 makes the epoch boundary part of that step, and that one whose count brings a confirm beat or a
second tick does not hand these out: they are the commands of those beats (R110; log entry 28). -/
def Obligations.CadenceStepShiftsOutTheLamps : Prop :=
  ∀ s : State, s.Lawful → Runs .cadenceStep s fun t =>
    let phase := (s.tbt.epochPhase * 20 + s.tbt.secondDivider + 1) % 40
    let pattern (i : Indication) : Pattern := s.ind.active.patterns[s.ind.active.map[i.number]]
    let sounds := s.ind.burst.running = true ∧ s.ind.burst.assigned = true ∧ s.headset = none
      ∧ (s.ind.burst.count = 0 ∨ s.ind.burst.position < s.ind.burst.count)
    let shows (n : Nat) (i : Indication) : Prop :=
      ∃ b ∈ t.pins.lsd[n]?, (pattern i).Shows phase b
    t.pins.lsd.length = 25 ∧ t.pins.lsc = 25 ∧ t.pins.llt = true
      ∧ t.tbt.epochPhase * 20 + t.tbt.secondDivider = phase
      ∧ (∀ k : Loop,
        let reserved := ∃ p : Slot, ∃ r ∈ s.record? p, r.reservedLoop = some k
        ((∀ p : Slot, ∀ r ∈ s.record? p, r.loop ≠ some k) → ¬ reserved → shows k.val .dark)
          ∧ (reserved → shows k.val .pending)
          ∧ (∀ p : Slot, ∀ r ∈ s.record? p, r.loop = some k →
            (r.order.isSome → shows k.val .pending)
              ∧ (r.order = none → s.sli.link = .down → shows k.val .fault)
              ∧ (r.order = none → s.sli.link = .up →
                (r.state = .active → shows k.val .active)
                  ∧ (r.state = .setup → shows k.val .setup)
                  ∧ (r.state = .held → r.recallAlert = true → shows k.val .heldRecall)
                  ∧ (r.state = .held → r.recallAlert = false → shows k.val .held))))
      ∧ (∀ n : Tenant,
        let q := s.psel.queued[n]
        (q = 0 → shows (8 + n.val) .dark)
          ∧ (0 < q → q < (s.profile n).flashThreshold → shows (8 + n.val) .queueLow)
          ∧ (0 < q → (s.profile n).flashThreshold ≤ q → shows (8 + n.val) .queueHigh))
      ∧ (s.sli.link = .down → shows 24 .fault)
      ∧ (s.sli.link = .up →
        (s.pos.state = .opened → shows 24 .posOpen) ∧ (s.pos.state = .busyOut → shows 24 .posBusyOut)
          ∧ (s.pos.state = .closing → shows 24 .posClosing)
          ∧ (s.pos.state = .closed → shows 24 .posClosed))
      ∧ (∀ n ∈ s.ind.chirp, n < 39 → t.ind.chirp = some (n + 1) ∧ t.ind.chirpReq = s.ind.chirpReq)
      ∧ (s.ind.chirp = none ∨ s.ind.chirp = some 39 →
        t.ind.chirpReq = false ∧ t.ind.chirp = if s.ind.chirpReq then some 0 else none)
      ∧ (∀ n ∈ t.ind.chirp, (pattern .toneChirp).Shows n t.pins.buz)
      ∧ (t.ind.chirp = none → s.ind.recallEpoch = true → (pattern .toneRecall).Shows phase t.pins.buz)
      ∧ (t.ind.chirp = none → s.ind.recallEpoch = false →
        (sounds → (pattern .toneAlert).Shows phase t.pins.buz) ∧ (¬ sounds → t.pins.buz = false))
      ∧ t = { s with
          tbt.secondDivider := t.tbt.secondDivider, tbt.epochPhase := t.tbt.epochPhase
          ind := { s.ind with
            chirpReq := t.ind.chirpReq, chirp := t.ind.chirp, image := t.ind.image
            written := t.ind.written }
          pins := { t.pins with kcol := s.pins.kcol, txd := s.pins.txd } }

/-- At a cadence step the display is written whole, line 1 and then line 2, when its image differs from the
one last written, and not otherwise (R159). Line 1 reads LINK DOWN while frozen, RESYNC in a resync,
else the headset record's label and state word (R158), else in every position state the queue view: the
total queued count and the head's label (R159). Line 2 reads DIAL and the dial buffer's digits where it
holds any, else for a headset record its name, number or destination, or NO NUMBER, else nothing; frozen
and resync do not change it (R158, R159). That each line's selection is a strobe of its own, and that
the strobes are kept as a sequence, are the model's choice (log entries 11 and 30). -/
def Obligations.CadenceStepWritesTheDisplay : Prop :=
  ∀ s : State, s.Lawful → Runs .cadenceStep s fun t =>
    let waiting := s.psel.queued.toList.sum
    let padded (n : Nat) (l : List Byte) : List Byte := l ++ List.replicate (n - l.length) 0x20
    let written (l : List Digit) : List Byte := l.map fun d => BitVec.ofNat 8 (0x30 + d.val)
    let queueView := bytesOf "QUEUED " ++
      [BitVec.ofNat 8 (0x30 + waiting / 10), BitVec.ofNat 8 (0x30 + waiting % 10), 0x20]
    t.ind.written = t.ind.image
      ∧ ∃ i ∈ t.ind.image,
        i.line1.length = 20 ∧ i.line2.length = 20
          ∧ (s.ind.written = some i → t.pins.display = [])
          ∧ (s.ind.written ≠ some i → t.pins.display =
            .selectLine 0 :: i.line1.map .char ++ .selectLine 1 :: i.line2.map .char)
          ∧ (s.sli.link = .down → i.line1 = bytesOf "LINK DOWN           ")
          ∧ (s.sli.link = .up → s.ccc.resync = true → i.line1 = bytesOf "RESYNC              ")
          ∧ (s.sli.link = .up → s.ccc.resync = false →
            (s.headset = none →
              (s.head = none → i.line1 = queueView ++ bytesOf "          ")
                ∧ (∀ h ∈ s.head, ∀ r ∈ s.record? h,
                  i.line1 = queueView ++ (s.profile r.tenant).label.take 10))
            ∧ (∀ p ∈ s.headset, ∀ r ∈ s.record? p,
              let reads (word : List Byte) : Prop :=
                i.line1 = (s.profile r.tenant).label ++ [0x20] ++ word
              let fault := ∃ n ∈ s.sli.orderNotice, n.2 = r.ref
              (fault → reads (bytesOf "FAULT  "))
                ∧ (¬ fault → r.state = .active →
                  (s.ccc.note = some .busy → reads (bytesOf "BUSY   "))
                    ∧ (s.ccc.note = some .invalid → reads (bytesOf "INVALID"))
                    ∧ (s.ccc.note = none → reads (bytesOf "ACTIVE ")))
                ∧ (¬ fault → r.state = .setup →
                  (r.farEnd = some .proceeding → reads (bytesOf "CALLING"))
                    ∧ (r.farEnd = some .ringing → reads (bytesOf "RINGING"))
                    ∧ (r.farEnd = some .busy → reads (bytesOf "BUSY   ")))))
          ∧ (s.ksc.dial ≠ [] → i.line2 = padded 20 (bytesOf "DIAL " ++ written s.ksc.dial))
          ∧ (s.ksc.dial = [] →
            (s.headset = none → i.line2 = bytesOf "                    ")
              ∧ (∀ p ∈ s.headset, ∀ r ∈ s.record? p,
                (r.name ≠ [] → i.line2 = padded 20 r.name)
                  ∧ (r.name = [] → r.number ≠ [] → i.line2 = padded 20 (written r.number))
                  ∧ (r.name = [] → r.number = [] →
                    (∀ d ∈ r.destination, i.line2 = padded 20 (written d))
                      ∧ (r.destination = none → i.line2 = bytesOf "NO NUMBER           "))))

/-- At an epoch boundary a pending commit makes SHADOW the ACTIVE bank and SHADOW its copy; a set recall
flag is cleared and the epoch is a recall epoch; and the alert burst is stopped, started, or moved on by
one epoch of its cycle, the new epoch assigned while the gate is closed (R149, R155, R156, R157). That
the burst count is latched here, and that the command acts at whatever phase the cascade stands, are the
model's (log entries 13 and 28). -/
def Obligations.EpochBoundarySettlesBanksAndTones : Prop :=
  ∀ s : State, Runs .epochBoundary s fun t =>
    let n := s.pos.settings.burstCount
    let cycle := if n = 0 then 1 else n + s.pos.settings.burstGap
    let alert := 0 < s.psel.queued.toList.sum ∧ s.sli.link = .up ∧ s.ccc.resync = false
    let b := s.ind.burst
    (s.ind.commit = true → t.ind.active = s.ind.shadow)
      ∧ (s.ind.commit = false → t.ind.active = s.ind.active)
      ∧ t.ind.recallEpoch = s.ind.recallReq
      ∧ (¬ alert → t.ind.burst = { running := false, position := 0, assigned := false, count := n })
      ∧ (alert → b.running = false →
        t.ind.burst = { running := true, position := 0, assigned := s.headset.isNone, count := n })
      ∧ (alert → b.running = true →
        t.ind.burst =
          { running := true
            position :=
              if b.assigned then (if b.position + 1 < cycle then b.position + 1 else 0) else b.position
            assigned := s.headset.isNone, count := n })
      ∧ t = { s with ind := { s.ind with
          active := t.ind.active, commit := false, recallReq := false
          recallEpoch := t.ind.recallEpoch, burst := t.ind.burst } }
end

