-- ==== Sys2Proof/Laws/State.lean ====
section
/-! SUPPORT. What each plain update of `State` leaves in each field: one lemma for each field and update, true
by `rfl`, so that no later proof unfolds a record update. -/

namespace Sys2Proof.Machine

/-! ### `State.put` -/

@[simp] theorem State.put_ccc_table (s : State) (p : Slot) (c : SlotState) :
    (s.put p c).ccc.table = s.ccc.table.set p c := rfl

@[simp] theorem State.put_ccc_index (s : State) (p : Slot) (c : SlotState) :
    (s.put p c).ccc.index = reindex s.ccc.index p (s.slot p).ref? c.ref? := rfl

@[simp] theorem State.put_ccc_claim (s : State) (p : Slot) (c : SlotState) :
    (s.put p c).ccc.claim = s.ccc.claim := rfl

@[simp] theorem State.put_ccc_note (s : State) (p : Slot) (c : SlotState) :
    (s.put p c).ccc.note = s.ccc.note := rfl

@[simp] theorem State.put_ccc_resync (s : State) (p : Slot) (c : SlotState) :
    (s.put p c).ccc.resync = s.ccc.resync := rfl

theorem State.put_psel (s : State) (p : Slot) (c : SlotState) :
    (s.put p c).psel = ((s.psel.countUp c.queuedTenant).countDown (s.slot p).queuedTenant).setLeaf p c.leaf := rfl

@[simp] theorem State.put_tbt (s : State) (p : Slot) (c : SlotState) :
    (s.put p c).tbt = s.tbt := rfl

@[simp] theorem State.put_pos (s : State) (p : Slot) (c : SlotState) :
    (s.put p c).pos = s.pos := rfl

@[simp] theorem State.put_ksc (s : State) (p : Slot) (c : SlotState) :
    (s.put p c).ksc = s.ksc := rfl

@[simp] theorem State.put_ind (s : State) (p : Slot) (c : SlotState) :
    (s.put p c).ind = s.ind := rfl

@[simp] theorem State.put_sli (s : State) (p : Slot) (c : SlotState) :
    (s.put p c).sli = s.sli := rfl

@[simp] theorem State.put_pins (s : State) (p : Slot) (c : SlotState) :
    (s.put p c).pins = s.pins := rfl

@[simp] theorem State.put_freeCount (s : State) (p : Slot) (c : SlotState) :
    (s.put p c).freeCount = s.freeCount := rfl

@[simp] theorem State.put_pending (s : State) (p : Slot) (c : SlotState) :
    (s.put p c).pending = s.pending := rfl

/-! ### `State.setTimer` -/

@[simp] theorem State.setTimer_ccc (s : State) (p : Slot) (t : Timer) :
    (s.setTimer p t).ccc = s.ccc := rfl

@[simp] theorem State.setTimer_psel (s : State) (p : Slot) (t : Timer) :
    (s.setTimer p t).psel = s.psel := rfl

@[simp] theorem State.setTimer_tbt_prescaler (s : State) (p : Slot) (t : Timer) :
    (s.setTimer p t).tbt.prescaler = s.tbt.prescaler := rfl

@[simp] theorem State.setTimer_tbt_stepDivider (s : State) (p : Slot) (t : Timer) :
    (s.setTimer p t).tbt.stepDivider = s.tbt.stepDivider := rfl

@[simp] theorem State.setTimer_tbt_secondDivider (s : State) (p : Slot) (t : Timer) :
    (s.setTimer p t).tbt.secondDivider = s.tbt.secondDivider := rfl

@[simp] theorem State.setTimer_tbt_epochPhase (s : State) (p : Slot) (t : Timer) :
    (s.setTimer p t).tbt.epochPhase = s.tbt.epochPhase := rfl

@[simp] theorem State.setTimer_tbt_timers (s : State) (p : Slot) (t : Timer) :
    (s.setTimer p t).tbt.timers = s.tbt.timers.set p t := rfl

@[simp] theorem State.setTimer_pos (s : State) (p : Slot) (t : Timer) :
    (s.setTimer p t).pos = s.pos := rfl

@[simp] theorem State.setTimer_ksc (s : State) (p : Slot) (t : Timer) :
    (s.setTimer p t).ksc = s.ksc := rfl

@[simp] theorem State.setTimer_ind (s : State) (p : Slot) (t : Timer) :
    (s.setTimer p t).ind = s.ind := rfl

@[simp] theorem State.setTimer_sli (s : State) (p : Slot) (t : Timer) :
    (s.setTimer p t).sli = s.sli := rfl

@[simp] theorem State.setTimer_pins (s : State) (p : Slot) (t : Timer) :
    (s.setTimer p t).pins = s.pins := rfl

@[simp] theorem State.setTimer_freeCount (s : State) (p : Slot) (t : Timer) :
    (s.setTimer p t).freeCount = s.freeCount := rfl

@[simp] theorem State.setTimer_pending (s : State) (p : Slot) (t : Timer) :
    (s.setTimer p t).pending = s.pending := rfl

/-! ### `State.requestRecallTone` -/

@[simp] theorem State.requestRecallTone_ccc (s : State) :
    (s.requestRecallTone).ccc = s.ccc := rfl

@[simp] theorem State.requestRecallTone_psel (s : State) :
    (s.requestRecallTone).psel = s.psel := rfl

@[simp] theorem State.requestRecallTone_tbt (s : State) :
    (s.requestRecallTone).tbt = s.tbt := rfl

@[simp] theorem State.requestRecallTone_pos (s : State) :
    (s.requestRecallTone).pos = s.pos := rfl

@[simp] theorem State.requestRecallTone_ksc (s : State) :
    (s.requestRecallTone).ksc = s.ksc := rfl

@[simp] theorem State.requestRecallTone_ind_active (s : State) :
    (s.requestRecallTone).ind.active = s.ind.active := rfl

@[simp] theorem State.requestRecallTone_ind_shadow (s : State) :
    (s.requestRecallTone).ind.shadow = s.ind.shadow := rfl

@[simp] theorem State.requestRecallTone_ind_commit (s : State) :
    (s.requestRecallTone).ind.commit = s.ind.commit := rfl

@[simp] theorem State.requestRecallTone_ind_chirpReq (s : State) :
    (s.requestRecallTone).ind.chirpReq = s.ind.chirpReq := rfl

@[simp] theorem State.requestRecallTone_ind_chirp (s : State) :
    (s.requestRecallTone).ind.chirp = s.ind.chirp := rfl

@[simp] theorem State.requestRecallTone_ind_recallReq (s : State) :
    (s.requestRecallTone).ind.recallReq = true := rfl

@[simp] theorem State.requestRecallTone_ind_recallEpoch (s : State) :
    (s.requestRecallTone).ind.recallEpoch = s.ind.recallEpoch := rfl

@[simp] theorem State.requestRecallTone_ind_burst (s : State) :
    (s.requestRecallTone).ind.burst = s.ind.burst := rfl

@[simp] theorem State.requestRecallTone_ind_image (s : State) :
    (s.requestRecallTone).ind.image = s.ind.image := rfl

@[simp] theorem State.requestRecallTone_ind_written (s : State) :
    (s.requestRecallTone).ind.written = s.ind.written := rfl

@[simp] theorem State.requestRecallTone_sli (s : State) :
    (s.requestRecallTone).sli = s.sli := rfl

@[simp] theorem State.requestRecallTone_pins (s : State) :
    (s.requestRecallTone).pins = s.pins := rfl

@[simp] theorem State.requestRecallTone_freeCount (s : State) :
    (s.requestRecallTone).freeCount = s.freeCount := rfl

@[simp] theorem State.requestRecallTone_pending (s : State) :
    (s.requestRecallTone).pending = s.pending := rfl

/-! ### `State.reply` -/

@[simp] theorem State.reply_ccc (s : State) (r : Reply) :
    (s.reply r).ccc = s.ccc := rfl

@[simp] theorem State.reply_psel (s : State) (r : Reply) :
    (s.reply r).psel = s.psel := rfl

@[simp] theorem State.reply_tbt (s : State) (r : Reply) :
    (s.reply r).tbt = s.tbt := rfl

@[simp] theorem State.reply_pos (s : State) (r : Reply) :
    (s.reply r).pos = s.pos := rfl

@[simp] theorem State.reply_ksc (s : State) (r : Reply) :
    (s.reply r).ksc = s.ksc := rfl

@[simp] theorem State.reply_ind (s : State) (r : Reply) :
    (s.reply r).ind = s.ind := rfl

@[simp] theorem State.reply_sli_rate (s : State) (r : Reply) :
    (s.reply r).sli.rate = s.sli.rate := rfl

@[simp] theorem State.reply_sli_rx (s : State) (r : Reply) :
    (s.reply r).sli.rx = s.sli.rx := rfl

@[simp] theorem State.reply_sli_assembly (s : State) (r : Reply) :
    (s.reply r).sli.assembly = s.sli.assembly := rfl

@[simp] theorem State.reply_sli_damaged (s : State) (r : Reply) :
    (s.reply r).sli.damaged = s.sli.damaged := rfl

@[simp] theorem State.reply_sli_gap (s : State) (r : Reply) :
    (s.reply r).sli.gap = s.sli.gap := rfl

@[simp] theorem State.reply_sli_inbound (s : State) (r : Reply) :
    (s.reply r).sli.inbound = s.sli.inbound := rfl

@[simp] theorem State.reply_sli_replies (s : State) (r : Reply) :
    (s.reply r).sli.replies = s.sli.replies ++ [r] := rfl

@[simp] theorem State.reply_sli_orders (s : State) (r : Reply) :
    (s.reply r).sli.orders = s.sli.orders := rfl

@[simp] theorem State.reply_sli_auditNotice (s : State) (r : Reply) :
    (s.reply r).sli.auditNotice = s.sli.auditNotice := rfl

@[simp] theorem State.reply_sli_posNotice (s : State) (r : Reply) :
    (s.reply r).sli.posNotice = s.sli.posNotice := rfl

@[simp] theorem State.reply_sli_orderNotice (s : State) (r : Reply) :
    (s.reply r).sli.orderNotice = s.sli.orderNotice := rfl

@[simp] theorem State.reply_sli_linkNotice (s : State) (r : Reply) :
    (s.reply r).sli.linkNotice = s.sli.linkNotice := rfl

@[simp] theorem State.reply_sli_haltedSent (s : State) (r : Reply) :
    (s.reply r).sli.haltedSent = s.sli.haltedSent := rfl

@[simp] theorem State.reply_sli_control (s : State) (r : Reply) :
    (s.reply r).sli.control = s.sli.control := rfl

@[simp] theorem State.reply_sli_haltedBy (s : State) (r : Reply) :
    (s.reply r).sli.haltedBy = s.sli.haltedBy := rfl

@[simp] theorem State.reply_sli_sending (s : State) (r : Reply) :
    (s.reply r).sli.sending = s.sli.sending := rfl

@[simp] theorem State.reply_sli_link (s : State) (r : Reply) :
    (s.reply r).sli.link = s.sli.link := rfl

@[simp] theorem State.reply_sli_supCount (s : State) (r : Reply) :
    (s.reply r).sli.supCount = s.sli.supCount := rfl

@[simp] theorem State.reply_pins (s : State) (r : Reply) :
    (s.reply r).pins = s.pins := rfl

@[simp] theorem State.reply_freeCount (s : State) (r : Reply) :
    (s.reply r).freeCount = s.freeCount := rfl

@[simp] theorem State.reply_pending (s : State) (r : Reply) :
    (s.reply r).pending = s.pending := rfl

/-! ### `State.linkFault` -/

@[simp] theorem State.linkFault_ccc (s : State) (k : LinkFault) (ref : Word) :
    (s.linkFault k ref).ccc = s.ccc := rfl

@[simp] theorem State.linkFault_psel (s : State) (k : LinkFault) (ref : Word) :
    (s.linkFault k ref).psel = s.psel := rfl

@[simp] theorem State.linkFault_tbt (s : State) (k : LinkFault) (ref : Word) :
    (s.linkFault k ref).tbt = s.tbt := rfl

@[simp] theorem State.linkFault_pos (s : State) (k : LinkFault) (ref : Word) :
    (s.linkFault k ref).pos = s.pos := rfl

@[simp] theorem State.linkFault_ksc (s : State) (k : LinkFault) (ref : Word) :
    (s.linkFault k ref).ksc = s.ksc := rfl

@[simp] theorem State.linkFault_ind (s : State) (k : LinkFault) (ref : Word) :
    (s.linkFault k ref).ind = s.ind := rfl

@[simp] theorem State.linkFault_sli_rate (s : State) (k : LinkFault) (ref : Word) :
    (s.linkFault k ref).sli.rate = s.sli.rate := rfl

@[simp] theorem State.linkFault_sli_rx (s : State) (k : LinkFault) (ref : Word) :
    (s.linkFault k ref).sli.rx = s.sli.rx := rfl

@[simp] theorem State.linkFault_sli_assembly (s : State) (k : LinkFault) (ref : Word) :
    (s.linkFault k ref).sli.assembly = s.sli.assembly := rfl

@[simp] theorem State.linkFault_sli_damaged (s : State) (k : LinkFault) (ref : Word) :
    (s.linkFault k ref).sli.damaged = s.sli.damaged := rfl

@[simp] theorem State.linkFault_sli_gap (s : State) (k : LinkFault) (ref : Word) :
    (s.linkFault k ref).sli.gap = s.sli.gap := rfl

@[simp] theorem State.linkFault_sli_inbound (s : State) (k : LinkFault) (ref : Word) :
    (s.linkFault k ref).sli.inbound = s.sli.inbound := rfl

@[simp] theorem State.linkFault_sli_replies (s : State) (k : LinkFault) (ref : Word) :
    (s.linkFault k ref).sli.replies = s.sli.replies := rfl

@[simp] theorem State.linkFault_sli_orders (s : State) (k : LinkFault) (ref : Word) :
    (s.linkFault k ref).sli.orders = s.sli.orders := rfl

@[simp] theorem State.linkFault_sli_auditNotice (s : State) (k : LinkFault) (ref : Word) :
    (s.linkFault k ref).sli.auditNotice = s.sli.auditNotice := rfl

@[simp] theorem State.linkFault_sli_posNotice (s : State) (k : LinkFault) (ref : Word) :
    (s.linkFault k ref).sli.posNotice = s.sli.posNotice := rfl

@[simp] theorem State.linkFault_sli_orderNotice (s : State) (k : LinkFault) (ref : Word) :
    (s.linkFault k ref).sli.orderNotice = s.sli.orderNotice := rfl

@[simp] theorem State.linkFault_sli_linkNotice (s : State) (k : LinkFault) (ref : Word) :
    (s.linkFault k ref).sli.linkNotice = some (k, ref) := rfl

@[simp] theorem State.linkFault_sli_haltedSent (s : State) (k : LinkFault) (ref : Word) :
    (s.linkFault k ref).sli.haltedSent = s.sli.haltedSent := rfl

@[simp] theorem State.linkFault_sli_control (s : State) (k : LinkFault) (ref : Word) :
    (s.linkFault k ref).sli.control = s.sli.control := rfl

@[simp] theorem State.linkFault_sli_haltedBy (s : State) (k : LinkFault) (ref : Word) :
    (s.linkFault k ref).sli.haltedBy = s.sli.haltedBy := rfl

@[simp] theorem State.linkFault_sli_sending (s : State) (k : LinkFault) (ref : Word) :
    (s.linkFault k ref).sli.sending = s.sli.sending := rfl

@[simp] theorem State.linkFault_sli_link (s : State) (k : LinkFault) (ref : Word) :
    (s.linkFault k ref).sli.link = s.sli.link := rfl

@[simp] theorem State.linkFault_sli_supCount (s : State) (k : LinkFault) (ref : Word) :
    (s.linkFault k ref).sli.supCount = s.sli.supCount := rfl

@[simp] theorem State.linkFault_pins (s : State) (k : LinkFault) (ref : Word) :
    (s.linkFault k ref).pins = s.pins := rfl

@[simp] theorem State.linkFault_freeCount (s : State) (k : LinkFault) (ref : Word) :
    (s.linkFault k ref).freeCount = s.freeCount := rfl

@[simp] theorem State.linkFault_pending (s : State) (k : LinkFault) (ref : Word) :
    (s.linkFault k ref).pending = s.pending := rfl

/-! ### `State.orderNotice` -/

@[simp] theorem State.orderNotice_ccc (s : State) (k : OrderFault) (ref : Word) :
    (s.orderNotice k ref).ccc = s.ccc := rfl

@[simp] theorem State.orderNotice_psel (s : State) (k : OrderFault) (ref : Word) :
    (s.orderNotice k ref).psel = s.psel := rfl

@[simp] theorem State.orderNotice_tbt (s : State) (k : OrderFault) (ref : Word) :
    (s.orderNotice k ref).tbt = s.tbt := rfl

@[simp] theorem State.orderNotice_pos (s : State) (k : OrderFault) (ref : Word) :
    (s.orderNotice k ref).pos = s.pos := rfl

@[simp] theorem State.orderNotice_ksc (s : State) (k : OrderFault) (ref : Word) :
    (s.orderNotice k ref).ksc = s.ksc := rfl

@[simp] theorem State.orderNotice_ind (s : State) (k : OrderFault) (ref : Word) :
    (s.orderNotice k ref).ind = s.ind := rfl

@[simp] theorem State.orderNotice_sli_rate (s : State) (k : OrderFault) (ref : Word) :
    (s.orderNotice k ref).sli.rate = s.sli.rate := rfl

@[simp] theorem State.orderNotice_sli_rx (s : State) (k : OrderFault) (ref : Word) :
    (s.orderNotice k ref).sli.rx = s.sli.rx := rfl

@[simp] theorem State.orderNotice_sli_assembly (s : State) (k : OrderFault) (ref : Word) :
    (s.orderNotice k ref).sli.assembly = s.sli.assembly := rfl

@[simp] theorem State.orderNotice_sli_damaged (s : State) (k : OrderFault) (ref : Word) :
    (s.orderNotice k ref).sli.damaged = s.sli.damaged := rfl

@[simp] theorem State.orderNotice_sli_gap (s : State) (k : OrderFault) (ref : Word) :
    (s.orderNotice k ref).sli.gap = s.sli.gap := rfl

@[simp] theorem State.orderNotice_sli_inbound (s : State) (k : OrderFault) (ref : Word) :
    (s.orderNotice k ref).sli.inbound = s.sli.inbound := rfl

@[simp] theorem State.orderNotice_sli_replies (s : State) (k : OrderFault) (ref : Word) :
    (s.orderNotice k ref).sli.replies = s.sli.replies := rfl

@[simp] theorem State.orderNotice_sli_orders (s : State) (k : OrderFault) (ref : Word) :
    (s.orderNotice k ref).sli.orders = s.sli.orders := rfl

@[simp] theorem State.orderNotice_sli_auditNotice (s : State) (k : OrderFault) (ref : Word) :
    (s.orderNotice k ref).sli.auditNotice = s.sli.auditNotice := rfl

@[simp] theorem State.orderNotice_sli_posNotice (s : State) (k : OrderFault) (ref : Word) :
    (s.orderNotice k ref).sli.posNotice = s.sli.posNotice := rfl

@[simp] theorem State.orderNotice_sli_orderNotice (s : State) (k : OrderFault) (ref : Word) :
    (s.orderNotice k ref).sli.orderNotice = some (k, ref) := rfl

@[simp] theorem State.orderNotice_sli_linkNotice (s : State) (k : OrderFault) (ref : Word) :
    (s.orderNotice k ref).sli.linkNotice = s.sli.linkNotice := rfl

@[simp] theorem State.orderNotice_sli_haltedSent (s : State) (k : OrderFault) (ref : Word) :
    (s.orderNotice k ref).sli.haltedSent = s.sli.haltedSent := rfl

@[simp] theorem State.orderNotice_sli_control (s : State) (k : OrderFault) (ref : Word) :
    (s.orderNotice k ref).sli.control = s.sli.control := rfl

@[simp] theorem State.orderNotice_sli_haltedBy (s : State) (k : OrderFault) (ref : Word) :
    (s.orderNotice k ref).sli.haltedBy = s.sli.haltedBy := rfl

@[simp] theorem State.orderNotice_sli_sending (s : State) (k : OrderFault) (ref : Word) :
    (s.orderNotice k ref).sli.sending = s.sli.sending := rfl

@[simp] theorem State.orderNotice_sli_link (s : State) (k : OrderFault) (ref : Word) :
    (s.orderNotice k ref).sli.link = s.sli.link := rfl

@[simp] theorem State.orderNotice_sli_supCount (s : State) (k : OrderFault) (ref : Word) :
    (s.orderNotice k ref).sli.supCount = s.sli.supCount := rfl

@[simp] theorem State.orderNotice_pins (s : State) (k : OrderFault) (ref : Word) :
    (s.orderNotice k ref).pins = s.pins := rfl

@[simp] theorem State.orderNotice_freeCount (s : State) (k : OrderFault) (ref : Word) :
    (s.orderNotice k ref).freeCount = s.freeCount := rfl

@[simp] theorem State.orderNotice_pending (s : State) (k : OrderFault) (ref : Word) :
    (s.orderNotice k ref).pending = s.pending := rfl

/-! ### `State.clearNote` -/

@[simp] theorem State.clearNote_ccc_table (s : State) :
    (s.clearNote).ccc.table = s.ccc.table := rfl

@[simp] theorem State.clearNote_ccc_index (s : State) :
    (s.clearNote).ccc.index = s.ccc.index := rfl

@[simp] theorem State.clearNote_ccc_claim (s : State) :
    (s.clearNote).ccc.claim = s.ccc.claim := rfl

@[simp] theorem State.clearNote_ccc_note (s : State) :
    (s.clearNote).ccc.note = none := rfl

@[simp] theorem State.clearNote_ccc_resync (s : State) :
    (s.clearNote).ccc.resync = s.ccc.resync := rfl

@[simp] theorem State.clearNote_psel (s : State) :
    (s.clearNote).psel = s.psel := rfl

@[simp] theorem State.clearNote_tbt (s : State) :
    (s.clearNote).tbt = s.tbt := rfl

@[simp] theorem State.clearNote_pos (s : State) :
    (s.clearNote).pos = s.pos := rfl

@[simp] theorem State.clearNote_ksc (s : State) :
    (s.clearNote).ksc = s.ksc := rfl

@[simp] theorem State.clearNote_ind (s : State) :
    (s.clearNote).ind = s.ind := rfl

@[simp] theorem State.clearNote_sli (s : State) :
    (s.clearNote).sli = s.sli := rfl

@[simp] theorem State.clearNote_pins (s : State) :
    (s.clearNote).pins = s.pins := rfl

@[simp] theorem State.clearNote_freeCount (s : State) :
    (s.clearNote).freeCount = s.freeCount := rfl

@[simp] theorem State.clearNote_pending (s : State) :
    (s.clearNote).pending = s.pending := rfl

/-! ### `State.setNote` -/

@[simp] theorem State.setNote_ccc_table (s : State) (n : Note) :
    (s.setNote n).ccc.table = s.ccc.table := rfl

@[simp] theorem State.setNote_ccc_index (s : State) (n : Note) :
    (s.setNote n).ccc.index = s.ccc.index := rfl

@[simp] theorem State.setNote_ccc_claim (s : State) (n : Note) :
    (s.setNote n).ccc.claim = s.ccc.claim := rfl

@[simp] theorem State.setNote_ccc_note (s : State) (n : Note) :
    (s.setNote n).ccc.note = some n := rfl

@[simp] theorem State.setNote_ccc_resync (s : State) (n : Note) :
    (s.setNote n).ccc.resync = s.ccc.resync := rfl

@[simp] theorem State.setNote_psel (s : State) (n : Note) :
    (s.setNote n).psel = s.psel := rfl

@[simp] theorem State.setNote_tbt (s : State) (n : Note) :
    (s.setNote n).tbt = s.tbt := rfl

@[simp] theorem State.setNote_pos (s : State) (n : Note) :
    (s.setNote n).pos = s.pos := rfl

@[simp] theorem State.setNote_ksc (s : State) (n : Note) :
    (s.setNote n).ksc = s.ksc := rfl

@[simp] theorem State.setNote_ind (s : State) (n : Note) :
    (s.setNote n).ind = s.ind := rfl

@[simp] theorem State.setNote_sli (s : State) (n : Note) :
    (s.setNote n).sli = s.sli := rfl

@[simp] theorem State.setNote_pins (s : State) (n : Note) :
    (s.setNote n).pins = s.pins := rfl

@[simp] theorem State.setNote_freeCount (s : State) (n : Note) :
    (s.setNote n).freeCount = s.freeCount := rfl

@[simp] theorem State.setNote_pending (s : State) (n : Note) :
    (s.setNote n).pending = s.pending := rfl

/-! ### `State.clearGap` -/

@[simp] theorem State.clearGap_ccc (s : State) :
    (s.clearGap).ccc = s.ccc := rfl

@[simp] theorem State.clearGap_psel (s : State) :
    (s.clearGap).psel = s.psel := rfl

@[simp] theorem State.clearGap_tbt (s : State) :
    (s.clearGap).tbt = s.tbt := rfl

@[simp] theorem State.clearGap_pos (s : State) :
    (s.clearGap).pos = s.pos := rfl

@[simp] theorem State.clearGap_ksc (s : State) :
    (s.clearGap).ksc = s.ksc := rfl

@[simp] theorem State.clearGap_ind (s : State) :
    (s.clearGap).ind = s.ind := rfl

@[simp] theorem State.clearGap_sli_rate (s : State) :
    (s.clearGap).sli.rate = s.sli.rate := rfl

@[simp] theorem State.clearGap_sli_rx (s : State) :
    (s.clearGap).sli.rx = s.sli.rx := rfl

@[simp] theorem State.clearGap_sli_assembly (s : State) :
    (s.clearGap).sli.assembly = s.sli.assembly := rfl

@[simp] theorem State.clearGap_sli_damaged (s : State) :
    (s.clearGap).sli.damaged = s.sli.damaged := rfl

@[simp] theorem State.clearGap_sli_gap (s : State) :
    (s.clearGap).sli.gap = 0 := rfl

@[simp] theorem State.clearGap_sli_inbound (s : State) :
    (s.clearGap).sli.inbound = s.sli.inbound := rfl

@[simp] theorem State.clearGap_sli_replies (s : State) :
    (s.clearGap).sli.replies = s.sli.replies := rfl

@[simp] theorem State.clearGap_sli_orders (s : State) :
    (s.clearGap).sli.orders = s.sli.orders := rfl

@[simp] theorem State.clearGap_sli_auditNotice (s : State) :
    (s.clearGap).sli.auditNotice = s.sli.auditNotice := rfl

@[simp] theorem State.clearGap_sli_posNotice (s : State) :
    (s.clearGap).sli.posNotice = s.sli.posNotice := rfl

@[simp] theorem State.clearGap_sli_orderNotice (s : State) :
    (s.clearGap).sli.orderNotice = s.sli.orderNotice := rfl

@[simp] theorem State.clearGap_sli_linkNotice (s : State) :
    (s.clearGap).sli.linkNotice = s.sli.linkNotice := rfl

@[simp] theorem State.clearGap_sli_haltedSent (s : State) :
    (s.clearGap).sli.haltedSent = s.sli.haltedSent := rfl

@[simp] theorem State.clearGap_sli_control (s : State) :
    (s.clearGap).sli.control = s.sli.control := rfl

@[simp] theorem State.clearGap_sli_haltedBy (s : State) :
    (s.clearGap).sli.haltedBy = s.sli.haltedBy := rfl

@[simp] theorem State.clearGap_sli_sending (s : State) :
    (s.clearGap).sli.sending = s.sli.sending := rfl

@[simp] theorem State.clearGap_sli_link (s : State) :
    (s.clearGap).sli.link = s.sli.link := rfl

@[simp] theorem State.clearGap_sli_supCount (s : State) :
    (s.clearGap).sli.supCount = s.sli.supCount := rfl

@[simp] theorem State.clearGap_pins (s : State) :
    (s.clearGap).pins = s.pins := rfl

@[simp] theorem State.clearGap_freeCount (s : State) :
    (s.clearGap).freeCount = s.freeCount := rfl

@[simp] theorem State.clearGap_pending (s : State) :
    (s.clearGap).pending = s.pending := rfl

/-! ### `State.damage` -/

@[simp] theorem State.damage_ccc (s : State) (r : RxState) :
    (s.damage r).ccc = s.ccc := rfl

@[simp] theorem State.damage_psel (s : State) (r : RxState) :
    (s.damage r).psel = s.psel := rfl

@[simp] theorem State.damage_tbt (s : State) (r : RxState) :
    (s.damage r).tbt = s.tbt := rfl

@[simp] theorem State.damage_pos (s : State) (r : RxState) :
    (s.damage r).pos = s.pos := rfl

@[simp] theorem State.damage_ksc (s : State) (r : RxState) :
    (s.damage r).ksc = s.ksc := rfl

@[simp] theorem State.damage_ind (s : State) (r : RxState) :
    (s.damage r).ind = s.ind := rfl

@[simp] theorem State.damage_sli_rate (s : State) (r : RxState) :
    (s.damage r).sli.rate = s.sli.rate := rfl

@[simp] theorem State.damage_sli_rx (s : State) (r : RxState) :
    (s.damage r).sli.rx = r := rfl

@[simp] theorem State.damage_sli_assembly (s : State) (r : RxState) :
    (s.damage r).sli.assembly = s.sli.assembly := rfl

@[simp] theorem State.damage_sli_damaged (s : State) (r : RxState) :
    (s.damage r).sli.damaged = true := rfl

@[simp] theorem State.damage_sli_gap (s : State) (r : RxState) :
    (s.damage r).sli.gap = s.sli.gap := rfl

@[simp] theorem State.damage_sli_inbound (s : State) (r : RxState) :
    (s.damage r).sli.inbound = s.sli.inbound := rfl

@[simp] theorem State.damage_sli_replies (s : State) (r : RxState) :
    (s.damage r).sli.replies = s.sli.replies := rfl

@[simp] theorem State.damage_sli_orders (s : State) (r : RxState) :
    (s.damage r).sli.orders = s.sli.orders := rfl

@[simp] theorem State.damage_sli_auditNotice (s : State) (r : RxState) :
    (s.damage r).sli.auditNotice = s.sli.auditNotice := rfl

@[simp] theorem State.damage_sli_posNotice (s : State) (r : RxState) :
    (s.damage r).sli.posNotice = s.sli.posNotice := rfl

@[simp] theorem State.damage_sli_orderNotice (s : State) (r : RxState) :
    (s.damage r).sli.orderNotice = s.sli.orderNotice := rfl

@[simp] theorem State.damage_sli_linkNotice (s : State) (r : RxState) :
    (s.damage r).sli.linkNotice = s.sli.linkNotice := rfl

@[simp] theorem State.damage_sli_haltedSent (s : State) (r : RxState) :
    (s.damage r).sli.haltedSent = s.sli.haltedSent := rfl

@[simp] theorem State.damage_sli_control (s : State) (r : RxState) :
    (s.damage r).sli.control = s.sli.control := rfl

@[simp] theorem State.damage_sli_haltedBy (s : State) (r : RxState) :
    (s.damage r).sli.haltedBy = s.sli.haltedBy := rfl

@[simp] theorem State.damage_sli_sending (s : State) (r : RxState) :
    (s.damage r).sli.sending = s.sli.sending := rfl

@[simp] theorem State.damage_sli_link (s : State) (r : RxState) :
    (s.damage r).sli.link = s.sli.link := rfl

@[simp] theorem State.damage_sli_supCount (s : State) (r : RxState) :
    (s.damage r).sli.supCount = s.sli.supCount := rfl

@[simp] theorem State.damage_pins (s : State) (r : RxState) :
    (s.damage r).pins = s.pins := rfl

@[simp] theorem State.damage_freeCount (s : State) (r : RxState) :
    (s.damage r).freeCount = s.freeCount := rfl

@[simp] theorem State.damage_pending (s : State) (r : RxState) :
    (s.damage r).pending = s.pending := rfl

/-! ### `State.abandon` -/

@[simp] theorem State.abandon_ccc (s : State) (k : LinkFault) :
    (s.abandon k).ccc = s.ccc := rfl

@[simp] theorem State.abandon_psel (s : State) (k : LinkFault) :
    (s.abandon k).psel = s.psel := rfl

@[simp] theorem State.abandon_tbt (s : State) (k : LinkFault) :
    (s.abandon k).tbt = s.tbt := rfl

@[simp] theorem State.abandon_pos (s : State) (k : LinkFault) :
    (s.abandon k).pos = s.pos := rfl

@[simp] theorem State.abandon_ksc (s : State) (k : LinkFault) :
    (s.abandon k).ksc = s.ksc := rfl

@[simp] theorem State.abandon_ind (s : State) (k : LinkFault) :
    (s.abandon k).ind = s.ind := rfl

@[simp] theorem State.abandon_sli_rate (s : State) (k : LinkFault) :
    (s.abandon k).sli.rate = s.sli.rate := rfl

@[simp] theorem State.abandon_sli_rx (s : State) (k : LinkFault) :
    (s.abandon k).sli.rx = .hunt := rfl

@[simp] theorem State.abandon_sli_assembly (s : State) (k : LinkFault) :
    (s.abandon k).sli.assembly = [] := rfl

@[simp] theorem State.abandon_sli_damaged (s : State) (k : LinkFault) :
    (s.abandon k).sli.damaged = false := rfl

@[simp] theorem State.abandon_sli_gap (s : State) (k : LinkFault) :
    (s.abandon k).sli.gap = s.sli.gap := rfl

@[simp] theorem State.abandon_sli_inbound (s : State) (k : LinkFault) :
    (s.abandon k).sli.inbound = s.sli.inbound := rfl

@[simp] theorem State.abandon_sli_replies (s : State) (k : LinkFault) :
    (s.abandon k).sli.replies = s.sli.replies := rfl

@[simp] theorem State.abandon_sli_orders (s : State) (k : LinkFault) :
    (s.abandon k).sli.orders = s.sli.orders := rfl

@[simp] theorem State.abandon_sli_auditNotice (s : State) (k : LinkFault) :
    (s.abandon k).sli.auditNotice = s.sli.auditNotice := rfl

@[simp] theorem State.abandon_sli_posNotice (s : State) (k : LinkFault) :
    (s.abandon k).sli.posNotice = s.sli.posNotice := rfl

@[simp] theorem State.abandon_sli_orderNotice (s : State) (k : LinkFault) :
    (s.abandon k).sli.orderNotice = s.sli.orderNotice := rfl

@[simp] theorem State.abandon_sli_linkNotice (s : State) (k : LinkFault) :
    (s.abandon k).sli.linkNotice = some (k, 0) := rfl

@[simp] theorem State.abandon_sli_haltedSent (s : State) (k : LinkFault) :
    (s.abandon k).sli.haltedSent = s.sli.haltedSent := rfl

@[simp] theorem State.abandon_sli_control (s : State) (k : LinkFault) :
    (s.abandon k).sli.control = s.sli.control := rfl

@[simp] theorem State.abandon_sli_haltedBy (s : State) (k : LinkFault) :
    (s.abandon k).sli.haltedBy = s.sli.haltedBy := rfl

@[simp] theorem State.abandon_sli_sending (s : State) (k : LinkFault) :
    (s.abandon k).sli.sending = s.sli.sending := rfl

@[simp] theorem State.abandon_sli_link (s : State) (k : LinkFault) :
    (s.abandon k).sli.link = s.sli.link := rfl

@[simp] theorem State.abandon_sli_supCount (s : State) (k : LinkFault) :
    (s.abandon k).sli.supCount = s.sli.supCount := rfl

@[simp] theorem State.abandon_pins (s : State) (k : LinkFault) :
    (s.abandon k).pins = s.pins := rfl

@[simp] theorem State.abandon_freeCount (s : State) (k : LinkFault) :
    (s.abandon k).freeCount = s.freeCount := rfl

@[simp] theorem State.abandon_pending (s : State) (k : LinkFault) :
    (s.abandon k).pending = s.pending := rfl

/-! ### `State.send` -/

@[simp] theorem State.send_ccc (s : State) (body : List Byte) (owner : Option Slot) :
    (s.send body owner).ccc = s.ccc := rfl

@[simp] theorem State.send_psel (s : State) (body : List Byte) (owner : Option Slot) :
    (s.send body owner).psel = s.psel := rfl

@[simp] theorem State.send_tbt (s : State) (body : List Byte) (owner : Option Slot) :
    (s.send body owner).tbt = s.tbt := rfl

@[simp] theorem State.send_pos (s : State) (body : List Byte) (owner : Option Slot) :
    (s.send body owner).pos = s.pos := rfl

@[simp] theorem State.send_ksc (s : State) (body : List Byte) (owner : Option Slot) :
    (s.send body owner).ksc = s.ksc := rfl

@[simp] theorem State.send_ind (s : State) (body : List Byte) (owner : Option Slot) :
    (s.send body owner).ind = s.ind := rfl

@[simp] theorem State.send_sli_rate (s : State) (body : List Byte) (owner : Option Slot) :
    (s.send body owner).sli.rate = s.sli.rate := rfl

@[simp] theorem State.send_sli_rx (s : State) (body : List Byte) (owner : Option Slot) :
    (s.send body owner).sli.rx = s.sli.rx := rfl

@[simp] theorem State.send_sli_assembly (s : State) (body : List Byte) (owner : Option Slot) :
    (s.send body owner).sli.assembly = s.sli.assembly := rfl

@[simp] theorem State.send_sli_damaged (s : State) (body : List Byte) (owner : Option Slot) :
    (s.send body owner).sli.damaged = s.sli.damaged := rfl

@[simp] theorem State.send_sli_gap (s : State) (body : List Byte) (owner : Option Slot) :
    (s.send body owner).sli.gap = s.sli.gap := rfl

@[simp] theorem State.send_sli_inbound (s : State) (body : List Byte) (owner : Option Slot) :
    (s.send body owner).sli.inbound = s.sli.inbound := rfl

@[simp] theorem State.send_sli_replies (s : State) (body : List Byte) (owner : Option Slot) :
    (s.send body owner).sli.replies = s.sli.replies := rfl

@[simp] theorem State.send_sli_orders (s : State) (body : List Byte) (owner : Option Slot) :
    (s.send body owner).sli.orders = s.sli.orders := rfl

@[simp] theorem State.send_sli_auditNotice (s : State) (body : List Byte) (owner : Option Slot) :
    (s.send body owner).sli.auditNotice = s.sli.auditNotice := rfl

@[simp] theorem State.send_sli_posNotice (s : State) (body : List Byte) (owner : Option Slot) :
    (s.send body owner).sli.posNotice = s.sli.posNotice := rfl

@[simp] theorem State.send_sli_orderNotice (s : State) (body : List Byte) (owner : Option Slot) :
    (s.send body owner).sli.orderNotice = s.sli.orderNotice := rfl

@[simp] theorem State.send_sli_linkNotice (s : State) (body : List Byte) (owner : Option Slot) :
    (s.send body owner).sli.linkNotice = s.sli.linkNotice := rfl

@[simp] theorem State.send_sli_haltedSent (s : State) (body : List Byte) (owner : Option Slot) :
    (s.send body owner).sli.haltedSent = s.sli.haltedSent := rfl

@[simp] theorem State.send_sli_control (s : State) (body : List Byte) (owner : Option Slot) :
    (s.send body owner).sli.control = s.sli.control := rfl

@[simp] theorem State.send_sli_haltedBy (s : State) (body : List Byte) (owner : Option Slot) :
    (s.send body owner).sli.haltedBy = s.sli.haltedBy := rfl

@[simp] theorem State.send_sli_sending (s : State) (body : List Byte) (owner : Option Slot) :
    (s.send body owner).sli.sending
      = some { body := body, owner := owner, left := frameTail body } := rfl

@[simp] theorem State.send_sli_link (s : State) (body : List Byte) (owner : Option Slot) :
    (s.send body owner).sli.link = s.sli.link := rfl

@[simp] theorem State.send_sli_supCount (s : State) (body : List Byte) (owner : Option Slot) :
    (s.send body owner).sli.supCount = s.sli.supCount := rfl

@[simp] theorem State.send_pins_kcol (s : State) (body : List Byte) (owner : Option Slot) :
    (s.send body owner).pins.kcol = s.pins.kcol := rfl

@[simp] theorem State.send_pins_lsd (s : State) (body : List Byte) (owner : Option Slot) :
    (s.send body owner).pins.lsd = s.pins.lsd := rfl

@[simp] theorem State.send_pins_lsc (s : State) (body : List Byte) (owner : Option Slot) :
    (s.send body owner).pins.lsc = s.pins.lsc := rfl

@[simp] theorem State.send_pins_llt (s : State) (body : List Byte) (owner : Option Slot) :
    (s.send body owner).pins.llt = s.pins.llt := rfl

@[simp] theorem State.send_pins_buz (s : State) (body : List Byte) (owner : Option Slot) :
    (s.send body owner).pins.buz = s.pins.buz := rfl

@[simp] theorem State.send_pins_display (s : State) (body : List Byte) (owner : Option Slot) :
    (s.send body owner).pins.display = s.pins.display := rfl

@[simp] theorem State.send_pins_txd (s : State) (body : List Byte) (owner : Option Slot) :
    (s.send body owner).pins.txd = [charLevels som] := rfl

@[simp] theorem State.send_freeCount (s : State) (body : List Byte) (owner : Option Slot) :
    (s.send body owner).freeCount = s.freeCount := rfl

@[simp] theorem State.send_pending (s : State) (body : List Byte) (owner : Option Slot) :
    (s.send body owner).pending = s.pending := rfl

end Sys2Proof.Machine
end

