-- ==== Sys2Proof/Laws/Frames.lean ====
section
/-! SUPPORT. What each shared operation leaves alone: one lemma for every field (or whole block) that the
operation never writes. Together they are the operation's frame. -/

namespace Sys2Proof.Machine

/-- A fold of a function that keeps `g` keeps `g`. -/
theorem foldl_keeps {α β γ : Type} (g : α → γ) (f : α → β → α) (h : ∀ a b, g (f a b) = g a)
    (l : List β) (a : α) : g (l.foldl f a) = g a := by
  induction l generalizing a with
  | nil => rfl
  | cons b l ih => rw [List.foldl_cons, ih, h]

/-! ### PSEL under a write to a slot -/

@[simp] theorem Psel.countUp_working (ps : Psel) (t : Option Tenant) : (ps.countUp t).working = ps.working := by
  cases t <;> rfl

@[simp] theorem Psel.countUp_seq (ps : Psel) (t : Option Tenant) : (ps.countUp t).seq = ps.seq := by
  cases t <;> rfl

@[simp] theorem Psel.countUp_leaves (ps : Psel) (t : Option Tenant) : (ps.countUp t).leaves = ps.leaves := by
  cases t <;> rfl

@[simp] theorem Psel.countUp_nodes (ps : Psel) (t : Option Tenant) : (ps.countUp t).nodes = ps.nodes := by
  cases t <;> rfl

@[simp] theorem Psel.countDown_working (ps : Psel) (t : Option Tenant) :
    (ps.countDown t).working = ps.working := by cases t <;> rfl

@[simp] theorem Psel.countDown_seq (ps : Psel) (t : Option Tenant) : (ps.countDown t).seq = ps.seq := by
  cases t <;> rfl

@[simp] theorem Psel.countDown_leaves (ps : Psel) (t : Option Tenant) :
    (ps.countDown t).leaves = ps.leaves := by cases t <;> rfl

@[simp] theorem Psel.countDown_nodes (ps : Psel) (t : Option Tenant) : (ps.countDown t).nodes = ps.nodes := by
  cases t <;> rfl

@[simp] theorem Psel.setLeaf_working (ps : Psel) (p : Slot) (l : Option QueueFields) :
    (ps.setLeaf p l).working = ps.working := by unfold Psel.setLeaf; split <;> rfl

@[simp] theorem Psel.setLeaf_seq (ps : Psel) (p : Slot) (l : Option QueueFields) :
    (ps.setLeaf p l).seq = ps.seq := by unfold Psel.setLeaf; split <;> rfl

@[simp] theorem Psel.setLeaf_queued (ps : Psel) (p : Slot) (l : Option QueueFields) :
    (ps.setLeaf p l).queued = ps.queued := by unfold Psel.setLeaf; split <;> rfl

@[simp] theorem State.put_psel_working (s : State) (p : Slot) (c : SlotState) :
    (s.put p c).psel.working = s.psel.working := by simp [State.put_psel]

@[simp] theorem State.put_psel_seq (s : State) (p : Slot) (c : SlotState) :
    (s.put p c).psel.seq = s.psel.seq := by simp [State.put_psel]

/-! ### `State.requestChirp` -/

@[simp] theorem State.requestChirp_ccc (s : State) :
    (s.requestChirp).ccc = s.ccc := by
  unfold State.requestChirp; split <;> rfl

@[simp] theorem State.requestChirp_psel (s : State) :
    (s.requestChirp).psel = s.psel := by
  unfold State.requestChirp; split <;> rfl

@[simp] theorem State.requestChirp_tbt (s : State) :
    (s.requestChirp).tbt = s.tbt := by
  unfold State.requestChirp; split <;> rfl

@[simp] theorem State.requestChirp_pos (s : State) :
    (s.requestChirp).pos = s.pos := by
  unfold State.requestChirp; split <;> rfl

@[simp] theorem State.requestChirp_ksc (s : State) :
    (s.requestChirp).ksc = s.ksc := by
  unfold State.requestChirp; split <;> rfl

@[simp] theorem State.requestChirp_ind_active (s : State) :
    (s.requestChirp).ind.active = s.ind.active := by
  unfold State.requestChirp; split <;> rfl

@[simp] theorem State.requestChirp_ind_shadow (s : State) :
    (s.requestChirp).ind.shadow = s.ind.shadow := by
  unfold State.requestChirp; split <;> rfl

@[simp] theorem State.requestChirp_ind_commit (s : State) :
    (s.requestChirp).ind.commit = s.ind.commit := by
  unfold State.requestChirp; split <;> rfl

@[simp] theorem State.requestChirp_ind_chirp (s : State) :
    (s.requestChirp).ind.chirp = s.ind.chirp := by
  unfold State.requestChirp; split <;> rfl

@[simp] theorem State.requestChirp_ind_recallReq (s : State) :
    (s.requestChirp).ind.recallReq = s.ind.recallReq := by
  unfold State.requestChirp; split <;> rfl

@[simp] theorem State.requestChirp_ind_recallEpoch (s : State) :
    (s.requestChirp).ind.recallEpoch = s.ind.recallEpoch := by
  unfold State.requestChirp; split <;> rfl

@[simp] theorem State.requestChirp_ind_burst (s : State) :
    (s.requestChirp).ind.burst = s.ind.burst := by
  unfold State.requestChirp; split <;> rfl

@[simp] theorem State.requestChirp_ind_image (s : State) :
    (s.requestChirp).ind.image = s.ind.image := by
  unfold State.requestChirp; split <;> rfl

@[simp] theorem State.requestChirp_ind_written (s : State) :
    (s.requestChirp).ind.written = s.ind.written := by
  unfold State.requestChirp; split <;> rfl

@[simp] theorem State.requestChirp_sli (s : State) :
    (s.requestChirp).sli = s.sli := by
  unfold State.requestChirp; split <;> rfl

@[simp] theorem State.requestChirp_pins (s : State) :
    (s.requestChirp).pins = s.pins := by
  unfold State.requestChirp; split <;> rfl

@[simp] theorem State.requestChirp_freeCount (s : State) :
    (s.requestChirp).freeCount = s.freeCount := by
  unfold State.requestChirp; split <;> rfl

@[simp] theorem State.requestChirp_pending (s : State) :
    (s.requestChirp).pending = s.pending := by
  unfold State.requestChirp; split <;> rfl

/-! ### `State.setPosition` -/

@[simp] theorem State.setPosition_ccc (s : State) (x : PosState) :
    (s.setPosition x).ccc = s.ccc := by
  unfold State.setPosition; split <;> rfl

@[simp] theorem State.setPosition_psel (s : State) (x : PosState) :
    (s.setPosition x).psel = s.psel := by
  unfold State.setPosition; split <;> rfl

@[simp] theorem State.setPosition_tbt (s : State) (x : PosState) :
    (s.setPosition x).tbt = s.tbt := by
  unfold State.setPosition; split <;> rfl

@[simp] theorem State.setPosition_pos_settings (s : State) (x : PosState) :
    (s.setPosition x).pos.settings = s.pos.settings := by
  unfold State.setPosition; split <;> rfl

@[simp] theorem State.setPosition_pos_profiles (s : State) (x : PosState) :
    (s.setPosition x).pos.profiles = s.pos.profiles := by
  unfold State.setPosition; split <;> rfl

@[simp] theorem State.setPosition_ksc (s : State) (x : PosState) :
    (s.setPosition x).ksc = s.ksc := by
  unfold State.setPosition; split <;> rfl

@[simp] theorem State.setPosition_ind (s : State) (x : PosState) :
    (s.setPosition x).ind = s.ind := by
  unfold State.setPosition; split <;> rfl

@[simp] theorem State.setPosition_sli_rate (s : State) (x : PosState) :
    (s.setPosition x).sli.rate = s.sli.rate := by
  unfold State.setPosition; split <;> rfl

@[simp] theorem State.setPosition_sli_rx (s : State) (x : PosState) :
    (s.setPosition x).sli.rx = s.sli.rx := by
  unfold State.setPosition; split <;> rfl

@[simp] theorem State.setPosition_sli_assembly (s : State) (x : PosState) :
    (s.setPosition x).sli.assembly = s.sli.assembly := by
  unfold State.setPosition; split <;> rfl

@[simp] theorem State.setPosition_sli_damaged (s : State) (x : PosState) :
    (s.setPosition x).sli.damaged = s.sli.damaged := by
  unfold State.setPosition; split <;> rfl

@[simp] theorem State.setPosition_sli_gap (s : State) (x : PosState) :
    (s.setPosition x).sli.gap = s.sli.gap := by
  unfold State.setPosition; split <;> rfl

@[simp] theorem State.setPosition_sli_inbound (s : State) (x : PosState) :
    (s.setPosition x).sli.inbound = s.sli.inbound := by
  unfold State.setPosition; split <;> rfl

@[simp] theorem State.setPosition_sli_replies (s : State) (x : PosState) :
    (s.setPosition x).sli.replies = s.sli.replies := by
  unfold State.setPosition; split <;> rfl

@[simp] theorem State.setPosition_sli_orders (s : State) (x : PosState) :
    (s.setPosition x).sli.orders = s.sli.orders := by
  unfold State.setPosition; split <;> rfl

@[simp] theorem State.setPosition_sli_auditNotice (s : State) (x : PosState) :
    (s.setPosition x).sli.auditNotice = s.sli.auditNotice := by
  unfold State.setPosition; split <;> rfl

@[simp] theorem State.setPosition_sli_orderNotice (s : State) (x : PosState) :
    (s.setPosition x).sli.orderNotice = s.sli.orderNotice := by
  unfold State.setPosition; split <;> rfl

@[simp] theorem State.setPosition_sli_linkNotice (s : State) (x : PosState) :
    (s.setPosition x).sli.linkNotice = s.sli.linkNotice := by
  unfold State.setPosition; split <;> rfl

@[simp] theorem State.setPosition_sli_haltedSent (s : State) (x : PosState) :
    (s.setPosition x).sli.haltedSent = s.sli.haltedSent := by
  unfold State.setPosition; split <;> rfl

@[simp] theorem State.setPosition_sli_control (s : State) (x : PosState) :
    (s.setPosition x).sli.control = s.sli.control := by
  unfold State.setPosition; split <;> rfl

@[simp] theorem State.setPosition_sli_haltedBy (s : State) (x : PosState) :
    (s.setPosition x).sli.haltedBy = s.sli.haltedBy := by
  unfold State.setPosition; split <;> rfl

@[simp] theorem State.setPosition_sli_sending (s : State) (x : PosState) :
    (s.setPosition x).sli.sending = s.sli.sending := by
  unfold State.setPosition; split <;> rfl

@[simp] theorem State.setPosition_sli_link (s : State) (x : PosState) :
    (s.setPosition x).sli.link = s.sli.link := by
  unfold State.setPosition; split <;> rfl

@[simp] theorem State.setPosition_sli_supCount (s : State) (x : PosState) :
    (s.setPosition x).sli.supCount = s.sli.supCount := by
  unfold State.setPosition; split <;> rfl

@[simp] theorem State.setPosition_pins (s : State) (x : PosState) :
    (s.setPosition x).pins = s.pins := by
  unfold State.setPosition; split <;> rfl

@[simp] theorem State.setPosition_freeCount (s : State) (x : PosState) :
    (s.setPosition x).freeCount = s.freeCount := by
  unfold State.setPosition; split <;> rfl

@[simp] theorem State.setPosition_pending (s : State) (x : PosState) :
    (s.setPosition x).pending = s.pending := by
  unfold State.setPosition; split <;> rfl

/-! ### `State.compareFlow` -/

@[simp] theorem State.compareFlow_ccc (s : State) :
    (s.compareFlow).ccc = s.ccc := by
  unfold State.compareFlow; simp only [Sli.askHalt, Sli.askGo]; split <;> [rfl; split <;> rfl]

@[simp] theorem State.compareFlow_psel (s : State) :
    (s.compareFlow).psel = s.psel := by
  unfold State.compareFlow; simp only [Sli.askHalt, Sli.askGo]; split <;> [rfl; split <;> rfl]

@[simp] theorem State.compareFlow_tbt (s : State) :
    (s.compareFlow).tbt = s.tbt := by
  unfold State.compareFlow; simp only [Sli.askHalt, Sli.askGo]; split <;> [rfl; split <;> rfl]

@[simp] theorem State.compareFlow_pos (s : State) :
    (s.compareFlow).pos = s.pos := by
  unfold State.compareFlow; simp only [Sli.askHalt, Sli.askGo]; split <;> [rfl; split <;> rfl]

@[simp] theorem State.compareFlow_ksc (s : State) :
    (s.compareFlow).ksc = s.ksc := by
  unfold State.compareFlow; simp only [Sli.askHalt, Sli.askGo]; split <;> [rfl; split <;> rfl]

@[simp] theorem State.compareFlow_ind (s : State) :
    (s.compareFlow).ind = s.ind := by
  unfold State.compareFlow; simp only [Sli.askHalt, Sli.askGo]; split <;> [rfl; split <;> rfl]

@[simp] theorem State.compareFlow_sli_rate (s : State) :
    (s.compareFlow).sli.rate = s.sli.rate := by
  unfold State.compareFlow; simp only [Sli.askHalt, Sli.askGo]; split <;> [rfl; split <;> rfl]

@[simp] theorem State.compareFlow_sli_rx (s : State) :
    (s.compareFlow).sli.rx = s.sli.rx := by
  unfold State.compareFlow; simp only [Sli.askHalt, Sli.askGo]; split <;> [rfl; split <;> rfl]

@[simp] theorem State.compareFlow_sli_assembly (s : State) :
    (s.compareFlow).sli.assembly = s.sli.assembly := by
  unfold State.compareFlow; simp only [Sli.askHalt, Sli.askGo]; split <;> [rfl; split <;> rfl]

@[simp] theorem State.compareFlow_sli_damaged (s : State) :
    (s.compareFlow).sli.damaged = s.sli.damaged := by
  unfold State.compareFlow; simp only [Sli.askHalt, Sli.askGo]; split <;> [rfl; split <;> rfl]

@[simp] theorem State.compareFlow_sli_gap (s : State) :
    (s.compareFlow).sli.gap = s.sli.gap := by
  unfold State.compareFlow; simp only [Sli.askHalt, Sli.askGo]; split <;> [rfl; split <;> rfl]

@[simp] theorem State.compareFlow_sli_inbound (s : State) :
    (s.compareFlow).sli.inbound = s.sli.inbound := by
  unfold State.compareFlow; simp only [Sli.askHalt, Sli.askGo]; split <;> [rfl; split <;> rfl]

@[simp] theorem State.compareFlow_sli_replies (s : State) :
    (s.compareFlow).sli.replies = s.sli.replies := by
  unfold State.compareFlow; simp only [Sli.askHalt, Sli.askGo]; split <;> [rfl; split <;> rfl]

@[simp] theorem State.compareFlow_sli_orders (s : State) :
    (s.compareFlow).sli.orders = s.sli.orders := by
  unfold State.compareFlow; simp only [Sli.askHalt, Sli.askGo]; split <;> [rfl; split <;> rfl]

@[simp] theorem State.compareFlow_sli_auditNotice (s : State) :
    (s.compareFlow).sli.auditNotice = s.sli.auditNotice := by
  unfold State.compareFlow; simp only [Sli.askHalt, Sli.askGo]; split <;> [rfl; split <;> rfl]

@[simp] theorem State.compareFlow_sli_posNotice (s : State) :
    (s.compareFlow).sli.posNotice = s.sli.posNotice := by
  unfold State.compareFlow; simp only [Sli.askHalt, Sli.askGo]; split <;> [rfl; split <;> rfl]

@[simp] theorem State.compareFlow_sli_orderNotice (s : State) :
    (s.compareFlow).sli.orderNotice = s.sli.orderNotice := by
  unfold State.compareFlow; simp only [Sli.askHalt, Sli.askGo]; split <;> [rfl; split <;> rfl]

@[simp] theorem State.compareFlow_sli_linkNotice (s : State) :
    (s.compareFlow).sli.linkNotice = s.sli.linkNotice := by
  unfold State.compareFlow; simp only [Sli.askHalt, Sli.askGo]; split <;> [rfl; split <;> rfl]

@[simp] theorem State.compareFlow_sli_haltedBy (s : State) :
    (s.compareFlow).sli.haltedBy = s.sli.haltedBy := by
  unfold State.compareFlow; simp only [Sli.askHalt, Sli.askGo]; split <;> [rfl; split <;> rfl]

@[simp] theorem State.compareFlow_sli_sending (s : State) :
    (s.compareFlow).sli.sending = s.sli.sending := by
  unfold State.compareFlow; simp only [Sli.askHalt, Sli.askGo]; split <;> [rfl; split <;> rfl]

@[simp] theorem State.compareFlow_sli_link (s : State) :
    (s.compareFlow).sli.link = s.sli.link := by
  unfold State.compareFlow; simp only [Sli.askHalt, Sli.askGo]; split <;> [rfl; split <;> rfl]

@[simp] theorem State.compareFlow_sli_supCount (s : State) :
    (s.compareFlow).sli.supCount = s.sli.supCount := by
  unfold State.compareFlow; simp only [Sli.askHalt, Sli.askGo]; split <;> [rfl; split <;> rfl]

@[simp] theorem State.compareFlow_pins (s : State) :
    (s.compareFlow).pins = s.pins := by
  unfold State.compareFlow; simp only [Sli.askHalt, Sli.askGo]; split <;> [rfl; split <;> rfl]

@[simp] theorem State.compareFlow_freeCount (s : State) :
    (s.compareFlow).freeCount = s.freeCount := by
  unfold State.compareFlow; simp only [Sli.askHalt, Sli.askGo]; split <;> [rfl; split <;> rfl]

@[simp] theorem State.compareFlow_pending (s : State) :
    (s.compareFlow).pending = s.pending := by
  unfold State.compareFlow; simp only [Sli.askHalt, Sli.askGo]; split <;> [rfl; split <;> rfl]

/-! ### `State.closeIfEmpty` -/

@[simp] theorem State.closeIfEmpty_ccc (s : State) :
    (s.closeIfEmpty).ccc = s.ccc := by
  unfold State.closeIfEmpty; split <;> simp

@[simp] theorem State.closeIfEmpty_psel (s : State) :
    (s.closeIfEmpty).psel = s.psel := by
  unfold State.closeIfEmpty; split <;> simp

@[simp] theorem State.closeIfEmpty_tbt (s : State) :
    (s.closeIfEmpty).tbt = s.tbt := by
  unfold State.closeIfEmpty; split <;> simp

@[simp] theorem State.closeIfEmpty_pos_settings (s : State) :
    (s.closeIfEmpty).pos.settings = s.pos.settings := by
  unfold State.closeIfEmpty; split <;> simp

@[simp] theorem State.closeIfEmpty_pos_profiles (s : State) :
    (s.closeIfEmpty).pos.profiles = s.pos.profiles := by
  unfold State.closeIfEmpty; split <;> simp

@[simp] theorem State.closeIfEmpty_ksc (s : State) :
    (s.closeIfEmpty).ksc = s.ksc := by
  unfold State.closeIfEmpty; split <;> simp

@[simp] theorem State.closeIfEmpty_ind (s : State) :
    (s.closeIfEmpty).ind = s.ind := by
  unfold State.closeIfEmpty; split <;> simp

@[simp] theorem State.closeIfEmpty_sli_rate (s : State) :
    (s.closeIfEmpty).sli.rate = s.sli.rate := by
  unfold State.closeIfEmpty; split <;> simp

@[simp] theorem State.closeIfEmpty_sli_rx (s : State) :
    (s.closeIfEmpty).sli.rx = s.sli.rx := by
  unfold State.closeIfEmpty; split <;> simp

@[simp] theorem State.closeIfEmpty_sli_assembly (s : State) :
    (s.closeIfEmpty).sli.assembly = s.sli.assembly := by
  unfold State.closeIfEmpty; split <;> simp

@[simp] theorem State.closeIfEmpty_sli_damaged (s : State) :
    (s.closeIfEmpty).sli.damaged = s.sli.damaged := by
  unfold State.closeIfEmpty; split <;> simp

@[simp] theorem State.closeIfEmpty_sli_gap (s : State) :
    (s.closeIfEmpty).sli.gap = s.sli.gap := by
  unfold State.closeIfEmpty; split <;> simp

@[simp] theorem State.closeIfEmpty_sli_inbound (s : State) :
    (s.closeIfEmpty).sli.inbound = s.sli.inbound := by
  unfold State.closeIfEmpty; split <;> simp

@[simp] theorem State.closeIfEmpty_sli_replies (s : State) :
    (s.closeIfEmpty).sli.replies = s.sli.replies := by
  unfold State.closeIfEmpty; split <;> simp

@[simp] theorem State.closeIfEmpty_sli_orders (s : State) :
    (s.closeIfEmpty).sli.orders = s.sli.orders := by
  unfold State.closeIfEmpty; split <;> simp

@[simp] theorem State.closeIfEmpty_sli_auditNotice (s : State) :
    (s.closeIfEmpty).sli.auditNotice = s.sli.auditNotice := by
  unfold State.closeIfEmpty; split <;> simp

@[simp] theorem State.closeIfEmpty_sli_orderNotice (s : State) :
    (s.closeIfEmpty).sli.orderNotice = s.sli.orderNotice := by
  unfold State.closeIfEmpty; split <;> simp

@[simp] theorem State.closeIfEmpty_sli_linkNotice (s : State) :
    (s.closeIfEmpty).sli.linkNotice = s.sli.linkNotice := by
  unfold State.closeIfEmpty; split <;> simp

@[simp] theorem State.closeIfEmpty_sli_haltedSent (s : State) :
    (s.closeIfEmpty).sli.haltedSent = s.sli.haltedSent := by
  unfold State.closeIfEmpty; split <;> simp

@[simp] theorem State.closeIfEmpty_sli_control (s : State) :
    (s.closeIfEmpty).sli.control = s.sli.control := by
  unfold State.closeIfEmpty; split <;> simp

@[simp] theorem State.closeIfEmpty_sli_haltedBy (s : State) :
    (s.closeIfEmpty).sli.haltedBy = s.sli.haltedBy := by
  unfold State.closeIfEmpty; split <;> simp

@[simp] theorem State.closeIfEmpty_sli_sending (s : State) :
    (s.closeIfEmpty).sli.sending = s.sli.sending := by
  unfold State.closeIfEmpty; split <;> simp

@[simp] theorem State.closeIfEmpty_sli_link (s : State) :
    (s.closeIfEmpty).sli.link = s.sli.link := by
  unfold State.closeIfEmpty; split <;> simp

@[simp] theorem State.closeIfEmpty_sli_supCount (s : State) :
    (s.closeIfEmpty).sli.supCount = s.sli.supCount := by
  unfold State.closeIfEmpty; split <;> simp

@[simp] theorem State.closeIfEmpty_pins (s : State) :
    (s.closeIfEmpty).pins = s.pins := by
  unfold State.closeIfEmpty; split <;> simp

@[simp] theorem State.closeIfEmpty_freeCount (s : State) :
    (s.closeIfEmpty).freeCount = s.freeCount := by
  unfold State.closeIfEmpty; split <;> simp

@[simp] theorem State.closeIfEmpty_pending (s : State) :
    (s.closeIfEmpty).pending = s.pending := by
  unfold State.closeIfEmpty; split <;> simp

/-! ### `State.update` -/

@[simp] theorem State.update_ccc_claim (s : State) (p : Slot) (f : Record → Record) :
    (s.update p f).ccc.claim = s.ccc.claim := by
  unfold State.update; split <;> simp

@[simp] theorem State.update_ccc_note (s : State) (p : Slot) (f : Record → Record) :
    (s.update p f).ccc.note = s.ccc.note := by
  unfold State.update; split <;> simp

@[simp] theorem State.update_ccc_resync (s : State) (p : Slot) (f : Record → Record) :
    (s.update p f).ccc.resync = s.ccc.resync := by
  unfold State.update; split <;> simp

@[simp] theorem State.update_psel_working (s : State) (p : Slot) (f : Record → Record) :
    (s.update p f).psel.working = s.psel.working := by
  unfold State.update; split <;> simp

@[simp] theorem State.update_psel_seq (s : State) (p : Slot) (f : Record → Record) :
    (s.update p f).psel.seq = s.psel.seq := by
  unfold State.update; split <;> simp

@[simp] theorem State.update_tbt (s : State) (p : Slot) (f : Record → Record) :
    (s.update p f).tbt = s.tbt := by
  unfold State.update; split <;> simp

@[simp] theorem State.update_pos (s : State) (p : Slot) (f : Record → Record) :
    (s.update p f).pos = s.pos := by
  unfold State.update; split <;> simp

@[simp] theorem State.update_ksc (s : State) (p : Slot) (f : Record → Record) :
    (s.update p f).ksc = s.ksc := by
  unfold State.update; split <;> simp

@[simp] theorem State.update_ind (s : State) (p : Slot) (f : Record → Record) :
    (s.update p f).ind = s.ind := by
  unfold State.update; split <;> simp

@[simp] theorem State.update_sli (s : State) (p : Slot) (f : Record → Record) :
    (s.update p f).sli = s.sli := by
  unfold State.update; split <;> simp

@[simp] theorem State.update_pins (s : State) (p : Slot) (f : Record → Record) :
    (s.update p f).pins = s.pins := by
  unfold State.update; split <;> simp

@[simp] theorem State.update_freeCount (s : State) (p : Slot) (f : Record → Record) :
    (s.update p f).freeCount = s.freeCount := by
  unfold State.update; split <;> simp

@[simp] theorem State.update_pending (s : State) (p : Slot) (f : Record → Record) :
    (s.update p f).pending = s.pending := by
  unfold State.update; split <;> simp

/-! ### `State.armTimer` -/

@[simp] theorem State.armTimer_ccc (s : State) (p : Slot) :
    (s.armTimer p).ccc = s.ccc := by
  unfold State.armTimer; split <;> simp

@[simp] theorem State.armTimer_psel (s : State) (p : Slot) :
    (s.armTimer p).psel = s.psel := by
  unfold State.armTimer; split <;> simp

@[simp] theorem State.armTimer_tbt_prescaler (s : State) (p : Slot) :
    (s.armTimer p).tbt.prescaler = s.tbt.prescaler := by
  unfold State.armTimer; split <;> simp

@[simp] theorem State.armTimer_tbt_stepDivider (s : State) (p : Slot) :
    (s.armTimer p).tbt.stepDivider = s.tbt.stepDivider := by
  unfold State.armTimer; split <;> simp

@[simp] theorem State.armTimer_tbt_secondDivider (s : State) (p : Slot) :
    (s.armTimer p).tbt.secondDivider = s.tbt.secondDivider := by
  unfold State.armTimer; split <;> simp

@[simp] theorem State.armTimer_tbt_epochPhase (s : State) (p : Slot) :
    (s.armTimer p).tbt.epochPhase = s.tbt.epochPhase := by
  unfold State.armTimer; split <;> simp

@[simp] theorem State.armTimer_pos (s : State) (p : Slot) :
    (s.armTimer p).pos = s.pos := by
  unfold State.armTimer; split <;> simp

@[simp] theorem State.armTimer_ksc (s : State) (p : Slot) :
    (s.armTimer p).ksc = s.ksc := by
  unfold State.armTimer; split <;> simp

@[simp] theorem State.armTimer_ind (s : State) (p : Slot) :
    (s.armTimer p).ind = s.ind := by
  unfold State.armTimer; split <;> simp

@[simp] theorem State.armTimer_sli (s : State) (p : Slot) :
    (s.armTimer p).sli = s.sli := by
  unfold State.armTimer; split <;> simp

@[simp] theorem State.armTimer_pins (s : State) (p : Slot) :
    (s.armTimer p).pins = s.pins := by
  unfold State.armTimer; split <;> simp

@[simp] theorem State.armTimer_freeCount (s : State) (p : Slot) :
    (s.armTimer p).freeCount = s.freeCount := by
  unfold State.armTimer; split <;> simp

@[simp] theorem State.armTimer_pending (s : State) (p : Slot) :
    (s.armTimer p).pending = s.pending := by
  unfold State.armTimer; split <;> simp

/-! ### `State.enter` -/

@[simp] theorem State.enter_ccc_claim (s : State) (p : Slot) (r : Record) :
    (s.enter p r).ccc.claim = s.ccc.claim := by
  unfold State.enter; simp

@[simp] theorem State.enter_ccc_note (s : State) (p : Slot) (r : Record) :
    (s.enter p r).ccc.note = s.ccc.note := by
  unfold State.enter; simp

@[simp] theorem State.enter_ccc_resync (s : State) (p : Slot) (r : Record) :
    (s.enter p r).ccc.resync = s.ccc.resync := by
  unfold State.enter; simp

@[simp] theorem State.enter_psel_working (s : State) (p : Slot) (r : Record) :
    (s.enter p r).psel.working = s.psel.working := by
  unfold State.enter; simp

@[simp] theorem State.enter_psel_seq (s : State) (p : Slot) (r : Record) :
    (s.enter p r).psel.seq = s.psel.seq := by
  unfold State.enter; simp

@[simp] theorem State.enter_tbt_prescaler (s : State) (p : Slot) (r : Record) :
    (s.enter p r).tbt.prescaler = s.tbt.prescaler := by
  unfold State.enter; simp

@[simp] theorem State.enter_tbt_stepDivider (s : State) (p : Slot) (r : Record) :
    (s.enter p r).tbt.stepDivider = s.tbt.stepDivider := by
  unfold State.enter; simp

@[simp] theorem State.enter_tbt_secondDivider (s : State) (p : Slot) (r : Record) :
    (s.enter p r).tbt.secondDivider = s.tbt.secondDivider := by
  unfold State.enter; simp

@[simp] theorem State.enter_tbt_epochPhase (s : State) (p : Slot) (r : Record) :
    (s.enter p r).tbt.epochPhase = s.tbt.epochPhase := by
  unfold State.enter; simp

@[simp] theorem State.enter_pos (s : State) (p : Slot) (r : Record) :
    (s.enter p r).pos = s.pos := by
  unfold State.enter; simp

@[simp] theorem State.enter_ksc (s : State) (p : Slot) (r : Record) :
    (s.enter p r).ksc = s.ksc := by
  unfold State.enter; simp

@[simp] theorem State.enter_ind (s : State) (p : Slot) (r : Record) :
    (s.enter p r).ind = s.ind := by
  unfold State.enter; simp

@[simp] theorem State.enter_sli (s : State) (p : Slot) (r : Record) :
    (s.enter p r).sli = s.sli := by
  unfold State.enter; simp

@[simp] theorem State.enter_pins (s : State) (p : Slot) (r : Record) :
    (s.enter p r).pins = s.pins := by
  unfold State.enter; simp

@[simp] theorem State.enter_freeCount (s : State) (p : Slot) (r : Record) :
    (s.enter p r).freeCount = s.freeCount := by
  unfold State.enter; simp

@[simp] theorem State.enter_pending (s : State) (p : Slot) (r : Record) :
    (s.enter p r).pending = s.pending := by
  unfold State.enter; simp

/-! ### `State.enterQueued` -/

@[simp] theorem State.enterQueued_ccc_claim (s : State) (p : Slot) (r : Record) :
    (s.enterQueued p r).ccc.claim = s.ccc.claim := by
  unfold State.enterQueued; simp

@[simp] theorem State.enterQueued_ccc_note (s : State) (p : Slot) (r : Record) :
    (s.enterQueued p r).ccc.note = s.ccc.note := by
  unfold State.enterQueued; simp

@[simp] theorem State.enterQueued_ccc_resync (s : State) (p : Slot) (r : Record) :
    (s.enterQueued p r).ccc.resync = s.ccc.resync := by
  unfold State.enterQueued; simp

@[simp] theorem State.enterQueued_psel_working (s : State) (p : Slot) (r : Record) :
    (s.enterQueued p r).psel.working = s.psel.working := by
  unfold State.enterQueued; simp

@[simp] theorem State.enterQueued_tbt_prescaler (s : State) (p : Slot) (r : Record) :
    (s.enterQueued p r).tbt.prescaler = s.tbt.prescaler := by
  unfold State.enterQueued; simp

@[simp] theorem State.enterQueued_tbt_stepDivider (s : State) (p : Slot) (r : Record) :
    (s.enterQueued p r).tbt.stepDivider = s.tbt.stepDivider := by
  unfold State.enterQueued; simp

@[simp] theorem State.enterQueued_tbt_secondDivider (s : State) (p : Slot) (r : Record) :
    (s.enterQueued p r).tbt.secondDivider = s.tbt.secondDivider := by
  unfold State.enterQueued; simp

@[simp] theorem State.enterQueued_tbt_epochPhase (s : State) (p : Slot) (r : Record) :
    (s.enterQueued p r).tbt.epochPhase = s.tbt.epochPhase := by
  unfold State.enterQueued; simp

@[simp] theorem State.enterQueued_pos (s : State) (p : Slot) (r : Record) :
    (s.enterQueued p r).pos = s.pos := by
  unfold State.enterQueued; simp

@[simp] theorem State.enterQueued_ksc (s : State) (p : Slot) (r : Record) :
    (s.enterQueued p r).ksc = s.ksc := by
  unfold State.enterQueued; simp

@[simp] theorem State.enterQueued_ind (s : State) (p : Slot) (r : Record) :
    (s.enterQueued p r).ind = s.ind := by
  unfold State.enterQueued; simp

@[simp] theorem State.enterQueued_sli (s : State) (p : Slot) (r : Record) :
    (s.enterQueued p r).sli = s.sli := by
  unfold State.enterQueued; simp

@[simp] theorem State.enterQueued_pins (s : State) (p : Slot) (r : Record) :
    (s.enterQueued p r).pins = s.pins := by
  unfold State.enterQueued; simp

@[simp] theorem State.enterQueued_freeCount (s : State) (p : Slot) (r : Record) :
    (s.enterQueued p r).freeCount = s.freeCount := by
  unfold State.enterQueued; simp

@[simp] theorem State.enterQueued_pending (s : State) (p : Slot) (r : Record) :
    (s.enterQueued p r).pending = s.pending := by
  unfold State.enterQueued; simp

/-! ### `State.reserveSlot` -/

@[simp] theorem State.reserveSlot_ccc_claim (s : State) (p : Slot) (o : Order) :
    (s.reserveSlot p o).ccc.claim = s.ccc.claim := by
  unfold State.reserveSlot; split <;> simp

@[simp] theorem State.reserveSlot_ccc_note (s : State) (p : Slot) (o : Order) :
    (s.reserveSlot p o).ccc.note = s.ccc.note := by
  unfold State.reserveSlot; split <;> simp

@[simp] theorem State.reserveSlot_ccc_resync (s : State) (p : Slot) (o : Order) :
    (s.reserveSlot p o).ccc.resync = s.ccc.resync := by
  unfold State.reserveSlot; split <;> simp

@[simp] theorem State.reserveSlot_psel_working (s : State) (p : Slot) (o : Order) :
    (s.reserveSlot p o).psel.working = s.psel.working := by
  unfold State.reserveSlot; split <;> simp

@[simp] theorem State.reserveSlot_psel_seq (s : State) (p : Slot) (o : Order) :
    (s.reserveSlot p o).psel.seq = s.psel.seq := by
  unfold State.reserveSlot; split <;> simp

@[simp] theorem State.reserveSlot_tbt (s : State) (p : Slot) (o : Order) :
    (s.reserveSlot p o).tbt = s.tbt := by
  unfold State.reserveSlot; split <;> simp

@[simp] theorem State.reserveSlot_pos (s : State) (p : Slot) (o : Order) :
    (s.reserveSlot p o).pos = s.pos := by
  unfold State.reserveSlot; split <;> simp

@[simp] theorem State.reserveSlot_ksc (s : State) (p : Slot) (o : Order) :
    (s.reserveSlot p o).ksc = s.ksc := by
  unfold State.reserveSlot; split <;> simp

@[simp] theorem State.reserveSlot_ind (s : State) (p : Slot) (o : Order) :
    (s.reserveSlot p o).ind = s.ind := by
  unfold State.reserveSlot; split <;> simp

@[simp] theorem State.reserveSlot_sli (s : State) (p : Slot) (o : Order) :
    (s.reserveSlot p o).sli = s.sli := by
  unfold State.reserveSlot; split <;> simp

@[simp] theorem State.reserveSlot_pins (s : State) (p : Slot) (o : Order) :
    (s.reserveSlot p o).pins = s.pins := by
  unfold State.reserveSlot; split <;> simp

@[simp] theorem State.reserveSlot_freeCount (s : State) (p : Slot) (o : Order) :
    (s.reserveSlot p o).freeCount = s.freeCount := by
  unfold State.reserveSlot; split <;> simp

@[simp] theorem State.reserveSlot_pending (s : State) (p : Slot) (o : Order) :
    (s.reserveSlot p o).pending = s.pending := by
  unfold State.reserveSlot; split <;> simp

/-! ### `State.setLock` -/

@[simp] theorem State.setLock_ccc_claim (s : State) (q l : Option Slot) :
    (s.setLock q l).ccc.claim = s.ccc.claim := by
  unfold State.setLock; split <;> simp

@[simp] theorem State.setLock_ccc_note (s : State) (q l : Option Slot) :
    (s.setLock q l).ccc.note = s.ccc.note := by
  unfold State.setLock; split <;> simp

@[simp] theorem State.setLock_ccc_resync (s : State) (q l : Option Slot) :
    (s.setLock q l).ccc.resync = s.ccc.resync := by
  unfold State.setLock; split <;> simp

@[simp] theorem State.setLock_psel_working (s : State) (q l : Option Slot) :
    (s.setLock q l).psel.working = s.psel.working := by
  unfold State.setLock; split <;> simp

@[simp] theorem State.setLock_psel_seq (s : State) (q l : Option Slot) :
    (s.setLock q l).psel.seq = s.psel.seq := by
  unfold State.setLock; split <;> simp

@[simp] theorem State.setLock_tbt (s : State) (q l : Option Slot) :
    (s.setLock q l).tbt = s.tbt := by
  unfold State.setLock; split <;> simp

@[simp] theorem State.setLock_pos (s : State) (q l : Option Slot) :
    (s.setLock q l).pos = s.pos := by
  unfold State.setLock; split <;> simp

@[simp] theorem State.setLock_ksc (s : State) (q l : Option Slot) :
    (s.setLock q l).ksc = s.ksc := by
  unfold State.setLock; split <;> simp

@[simp] theorem State.setLock_ind (s : State) (q l : Option Slot) :
    (s.setLock q l).ind = s.ind := by
  unfold State.setLock; split <;> simp

@[simp] theorem State.setLock_sli (s : State) (q l : Option Slot) :
    (s.setLock q l).sli = s.sli := by
  unfold State.setLock; split <;> simp

@[simp] theorem State.setLock_pins (s : State) (q l : Option Slot) :
    (s.setLock q l).pins = s.pins := by
  unfold State.setLock; split <;> simp

@[simp] theorem State.setLock_freeCount (s : State) (q l : Option Slot) :
    (s.setLock q l).freeCount = s.freeCount := by
  unfold State.setLock; split <;> simp

@[simp] theorem State.setLock_pending (s : State) (q l : Option Slot) :
    (s.setLock q l).pending = s.pending := by
  unfold State.setLock; split <;> simp

/-! ### `State.releaseSlot` -/

@[simp] theorem State.releaseSlot_ccc_claim (s : State) (p : Slot) (o : Order) :
    (s.releaseSlot p o).ccc.claim = s.ccc.claim := by
  unfold State.releaseSlot; split <;> [split <;> simp; rfl]

@[simp] theorem State.releaseSlot_ccc_note (s : State) (p : Slot) (o : Order) :
    (s.releaseSlot p o).ccc.note = s.ccc.note := by
  unfold State.releaseSlot; split <;> [split <;> simp; rfl]

@[simp] theorem State.releaseSlot_ccc_resync (s : State) (p : Slot) (o : Order) :
    (s.releaseSlot p o).ccc.resync = s.ccc.resync := by
  unfold State.releaseSlot; split <;> [split <;> simp; rfl]

@[simp] theorem State.releaseSlot_psel_working (s : State) (p : Slot) (o : Order) :
    (s.releaseSlot p o).psel.working = s.psel.working := by
  unfold State.releaseSlot; split <;> [split <;> simp; rfl]

@[simp] theorem State.releaseSlot_psel_seq (s : State) (p : Slot) (o : Order) :
    (s.releaseSlot p o).psel.seq = s.psel.seq := by
  unfold State.releaseSlot; split <;> [split <;> simp; rfl]

@[simp] theorem State.releaseSlot_tbt (s : State) (p : Slot) (o : Order) :
    (s.releaseSlot p o).tbt = s.tbt := by
  unfold State.releaseSlot; split <;> [split <;> simp; rfl]

@[simp] theorem State.releaseSlot_pos (s : State) (p : Slot) (o : Order) :
    (s.releaseSlot p o).pos = s.pos := by
  unfold State.releaseSlot; split <;> [split <;> simp; rfl]

@[simp] theorem State.releaseSlot_ksc (s : State) (p : Slot) (o : Order) :
    (s.releaseSlot p o).ksc = s.ksc := by
  unfold State.releaseSlot; split <;> [split <;> simp; rfl]

@[simp] theorem State.releaseSlot_ind (s : State) (p : Slot) (o : Order) :
    (s.releaseSlot p o).ind = s.ind := by
  unfold State.releaseSlot; split <;> [split <;> simp; rfl]

@[simp] theorem State.releaseSlot_sli (s : State) (p : Slot) (o : Order) :
    (s.releaseSlot p o).sli = s.sli := by
  unfold State.releaseSlot; split <;> [split <;> simp; rfl]

@[simp] theorem State.releaseSlot_pins (s : State) (p : Slot) (o : Order) :
    (s.releaseSlot p o).pins = s.pins := by
  unfold State.releaseSlot; split <;> [split <;> simp; rfl]

@[simp] theorem State.releaseSlot_freeCount (s : State) (p : Slot) (o : Order) :
    (s.releaseSlot p o).freeCount = s.freeCount := by
  unfold State.releaseSlot; split <;> [split <;> simp; rfl]

@[simp] theorem State.releaseSlot_pending (s : State) (p : Slot) (o : Order) :
    (s.releaseSlot p o).pending = s.pending := by
  unfold State.releaseSlot; split <;> [split <;> simp; rfl]

/-! ### `State.dropClaim` -/

@[simp] theorem State.dropClaim_ccc_table (s : State) (p : Slot) :
    (s.dropClaim p).ccc.table = s.ccc.table := by
  unfold State.dropClaim; split <;> rfl

@[simp] theorem State.dropClaim_ccc_index (s : State) (p : Slot) :
    (s.dropClaim p).ccc.index = s.ccc.index := by
  unfold State.dropClaim; split <;> rfl

@[simp] theorem State.dropClaim_ccc_note (s : State) (p : Slot) :
    (s.dropClaim p).ccc.note = s.ccc.note := by
  unfold State.dropClaim; split <;> rfl

@[simp] theorem State.dropClaim_ccc_resync (s : State) (p : Slot) :
    (s.dropClaim p).ccc.resync = s.ccc.resync := by
  unfold State.dropClaim; split <;> rfl

@[simp] theorem State.dropClaim_psel (s : State) (p : Slot) :
    (s.dropClaim p).psel = s.psel := by
  unfold State.dropClaim; split <;> rfl

@[simp] theorem State.dropClaim_tbt (s : State) (p : Slot) :
    (s.dropClaim p).tbt = s.tbt := by
  unfold State.dropClaim; split <;> rfl

@[simp] theorem State.dropClaim_pos (s : State) (p : Slot) :
    (s.dropClaim p).pos = s.pos := by
  unfold State.dropClaim; split <;> rfl

@[simp] theorem State.dropClaim_ksc (s : State) (p : Slot) :
    (s.dropClaim p).ksc = s.ksc := by
  unfold State.dropClaim; split <;> rfl

@[simp] theorem State.dropClaim_ind (s : State) (p : Slot) :
    (s.dropClaim p).ind = s.ind := by
  unfold State.dropClaim; split <;> rfl

@[simp] theorem State.dropClaim_sli (s : State) (p : Slot) :
    (s.dropClaim p).sli = s.sli := by
  unfold State.dropClaim; split <;> rfl

@[simp] theorem State.dropClaim_pins (s : State) (p : Slot) :
    (s.dropClaim p).pins = s.pins := by
  unfold State.dropClaim; split <;> rfl

@[simp] theorem State.dropClaim_freeCount (s : State) (p : Slot) :
    (s.dropClaim p).freeCount = s.freeCount := by
  unfold State.dropClaim; split <;> rfl

@[simp] theorem State.dropClaim_pending (s : State) (p : Slot) :
    (s.dropClaim p).pending = s.pending := by
  unfold State.dropClaim; split <;> rfl

/-! ### `State.withdraw` -/

@[simp] theorem State.withdraw_ccc (s : State) (p : Slot) (o : Order) :
    (s.withdraw p o).ccc = s.ccc := by
  unfold State.withdraw; split <;> rfl

@[simp] theorem State.withdraw_psel (s : State) (p : Slot) (o : Order) :
    (s.withdraw p o).psel = s.psel := by
  unfold State.withdraw; split <;> rfl

@[simp] theorem State.withdraw_tbt (s : State) (p : Slot) (o : Order) :
    (s.withdraw p o).tbt = s.tbt := by
  unfold State.withdraw; split <;> rfl

@[simp] theorem State.withdraw_pos (s : State) (p : Slot) (o : Order) :
    (s.withdraw p o).pos = s.pos := by
  unfold State.withdraw; split <;> rfl

@[simp] theorem State.withdraw_ksc (s : State) (p : Slot) (o : Order) :
    (s.withdraw p o).ksc = s.ksc := by
  unfold State.withdraw; split <;> rfl

@[simp] theorem State.withdraw_ind (s : State) (p : Slot) (o : Order) :
    (s.withdraw p o).ind = s.ind := by
  unfold State.withdraw; split <;> rfl

@[simp] theorem State.withdraw_sli_rate (s : State) (p : Slot) (o : Order) :
    (s.withdraw p o).sli.rate = s.sli.rate := by
  unfold State.withdraw; split <;> rfl

@[simp] theorem State.withdraw_sli_rx (s : State) (p : Slot) (o : Order) :
    (s.withdraw p o).sli.rx = s.sli.rx := by
  unfold State.withdraw; split <;> rfl

@[simp] theorem State.withdraw_sli_assembly (s : State) (p : Slot) (o : Order) :
    (s.withdraw p o).sli.assembly = s.sli.assembly := by
  unfold State.withdraw; split <;> rfl

@[simp] theorem State.withdraw_sli_damaged (s : State) (p : Slot) (o : Order) :
    (s.withdraw p o).sli.damaged = s.sli.damaged := by
  unfold State.withdraw; split <;> rfl

@[simp] theorem State.withdraw_sli_gap (s : State) (p : Slot) (o : Order) :
    (s.withdraw p o).sli.gap = s.sli.gap := by
  unfold State.withdraw; split <;> rfl

@[simp] theorem State.withdraw_sli_inbound (s : State) (p : Slot) (o : Order) :
    (s.withdraw p o).sli.inbound = s.sli.inbound := by
  unfold State.withdraw; split <;> rfl

@[simp] theorem State.withdraw_sli_replies (s : State) (p : Slot) (o : Order) :
    (s.withdraw p o).sli.replies = s.sli.replies := by
  unfold State.withdraw; split <;> rfl

@[simp] theorem State.withdraw_sli_auditNotice (s : State) (p : Slot) (o : Order) :
    (s.withdraw p o).sli.auditNotice = s.sli.auditNotice := by
  unfold State.withdraw; split <;> rfl

@[simp] theorem State.withdraw_sli_posNotice (s : State) (p : Slot) (o : Order) :
    (s.withdraw p o).sli.posNotice = s.sli.posNotice := by
  unfold State.withdraw; split <;> rfl

@[simp] theorem State.withdraw_sli_orderNotice (s : State) (p : Slot) (o : Order) :
    (s.withdraw p o).sli.orderNotice = s.sli.orderNotice := by
  unfold State.withdraw; split <;> rfl

@[simp] theorem State.withdraw_sli_linkNotice (s : State) (p : Slot) (o : Order) :
    (s.withdraw p o).sli.linkNotice = s.sli.linkNotice := by
  unfold State.withdraw; split <;> rfl

@[simp] theorem State.withdraw_sli_haltedSent (s : State) (p : Slot) (o : Order) :
    (s.withdraw p o).sli.haltedSent = s.sli.haltedSent := by
  unfold State.withdraw; split <;> rfl

@[simp] theorem State.withdraw_sli_control (s : State) (p : Slot) (o : Order) :
    (s.withdraw p o).sli.control = s.sli.control := by
  unfold State.withdraw; split <;> rfl

@[simp] theorem State.withdraw_sli_haltedBy (s : State) (p : Slot) (o : Order) :
    (s.withdraw p o).sli.haltedBy = s.sli.haltedBy := by
  unfold State.withdraw; split <;> rfl

@[simp] theorem State.withdraw_sli_sending (s : State) (p : Slot) (o : Order) :
    (s.withdraw p o).sli.sending = s.sli.sending := by
  unfold State.withdraw; split <;> rfl

@[simp] theorem State.withdraw_sli_link (s : State) (p : Slot) (o : Order) :
    (s.withdraw p o).sli.link = s.sli.link := by
  unfold State.withdraw; split <;> rfl

@[simp] theorem State.withdraw_sli_supCount (s : State) (p : Slot) (o : Order) :
    (s.withdraw p o).sli.supCount = s.sli.supCount := by
  unfold State.withdraw; split <;> rfl

@[simp] theorem State.withdraw_pins (s : State) (p : Slot) (o : Order) :
    (s.withdraw p o).pins = s.pins := by
  unfold State.withdraw; split <;> rfl

@[simp] theorem State.withdraw_freeCount (s : State) (p : Slot) (o : Order) :
    (s.withdraw p o).freeCount = s.freeCount := by
  unfold State.withdraw; split <;> rfl

@[simp] theorem State.withdraw_pending (s : State) (p : Slot) (o : Order) :
    (s.withdraw p o).pending = s.pending := by
  unfold State.withdraw; split <;> rfl

/-! ### `State.issueOrder` -/

@[simp] theorem State.issueOrder_ccc_resync (s : State) (p : Slot) (o : Order) :
    (s.issueOrder p o).ccc.resync = s.ccc.resync := by
  unfold State.issueOrder; simp

@[simp] theorem State.issueOrder_psel_working (s : State) (p : Slot) (o : Order) :
    (s.issueOrder p o).psel.working = s.psel.working := by
  unfold State.issueOrder; simp

@[simp] theorem State.issueOrder_psel_seq (s : State) (p : Slot) (o : Order) :
    (s.issueOrder p o).psel.seq = s.psel.seq := by
  unfold State.issueOrder; simp

@[simp] theorem State.issueOrder_tbt (s : State) (p : Slot) (o : Order) :
    (s.issueOrder p o).tbt = s.tbt := by
  unfold State.issueOrder; simp

@[simp] theorem State.issueOrder_pos (s : State) (p : Slot) (o : Order) :
    (s.issueOrder p o).pos = s.pos := by
  unfold State.issueOrder; simp

@[simp] theorem State.issueOrder_ksc_scan (s : State) (p : Slot) (o : Order) :
    (s.issueOrder p o).ksc.scan = s.ksc.scan := by
  unfold State.issueOrder; simp

@[simp] theorem State.issueOrder_ksc_keys (s : State) (p : Slot) (o : Order) :
    (s.issueOrder p o).ksc.keys = s.ksc.keys := by
  unfold State.issueOrder; simp

@[simp] theorem State.issueOrder_ksc_queue (s : State) (p : Slot) (o : Order) :
    (s.issueOrder p o).ksc.queue = s.ksc.queue := by
  unfold State.issueOrder; simp

@[simp] theorem State.issueOrder_ind (s : State) (p : Slot) (o : Order) :
    (s.issueOrder p o).ind = s.ind := by
  unfold State.issueOrder; simp

@[simp] theorem State.issueOrder_sli_rate (s : State) (p : Slot) (o : Order) :
    (s.issueOrder p o).sli.rate = s.sli.rate := by
  unfold State.issueOrder; simp

@[simp] theorem State.issueOrder_sli_rx (s : State) (p : Slot) (o : Order) :
    (s.issueOrder p o).sli.rx = s.sli.rx := by
  unfold State.issueOrder; simp

@[simp] theorem State.issueOrder_sli_assembly (s : State) (p : Slot) (o : Order) :
    (s.issueOrder p o).sli.assembly = s.sli.assembly := by
  unfold State.issueOrder; simp

@[simp] theorem State.issueOrder_sli_damaged (s : State) (p : Slot) (o : Order) :
    (s.issueOrder p o).sli.damaged = s.sli.damaged := by
  unfold State.issueOrder; simp

@[simp] theorem State.issueOrder_sli_gap (s : State) (p : Slot) (o : Order) :
    (s.issueOrder p o).sli.gap = s.sli.gap := by
  unfold State.issueOrder; simp

@[simp] theorem State.issueOrder_sli_inbound (s : State) (p : Slot) (o : Order) :
    (s.issueOrder p o).sli.inbound = s.sli.inbound := by
  unfold State.issueOrder; simp

@[simp] theorem State.issueOrder_sli_replies (s : State) (p : Slot) (o : Order) :
    (s.issueOrder p o).sli.replies = s.sli.replies := by
  unfold State.issueOrder; simp

@[simp] theorem State.issueOrder_sli_auditNotice (s : State) (p : Slot) (o : Order) :
    (s.issueOrder p o).sli.auditNotice = s.sli.auditNotice := by
  unfold State.issueOrder; simp

@[simp] theorem State.issueOrder_sli_posNotice (s : State) (p : Slot) (o : Order) :
    (s.issueOrder p o).sli.posNotice = s.sli.posNotice := by
  unfold State.issueOrder; simp

@[simp] theorem State.issueOrder_sli_orderNotice (s : State) (p : Slot) (o : Order) :
    (s.issueOrder p o).sli.orderNotice = s.sli.orderNotice := by
  unfold State.issueOrder; simp

@[simp] theorem State.issueOrder_sli_linkNotice (s : State) (p : Slot) (o : Order) :
    (s.issueOrder p o).sli.linkNotice = s.sli.linkNotice := by
  unfold State.issueOrder; simp

@[simp] theorem State.issueOrder_sli_haltedSent (s : State) (p : Slot) (o : Order) :
    (s.issueOrder p o).sli.haltedSent = s.sli.haltedSent := by
  unfold State.issueOrder; simp

@[simp] theorem State.issueOrder_sli_control (s : State) (p : Slot) (o : Order) :
    (s.issueOrder p o).sli.control = s.sli.control := by
  unfold State.issueOrder; simp

@[simp] theorem State.issueOrder_sli_haltedBy (s : State) (p : Slot) (o : Order) :
    (s.issueOrder p o).sli.haltedBy = s.sli.haltedBy := by
  unfold State.issueOrder; simp

@[simp] theorem State.issueOrder_sli_sending (s : State) (p : Slot) (o : Order) :
    (s.issueOrder p o).sli.sending = s.sli.sending := by
  unfold State.issueOrder; simp

@[simp] theorem State.issueOrder_sli_link (s : State) (p : Slot) (o : Order) :
    (s.issueOrder p o).sli.link = s.sli.link := by
  unfold State.issueOrder; simp

@[simp] theorem State.issueOrder_sli_supCount (s : State) (p : Slot) (o : Order) :
    (s.issueOrder p o).sli.supCount = s.sli.supCount := by
  unfold State.issueOrder; simp

@[simp] theorem State.issueOrder_pins (s : State) (p : Slot) (o : Order) :
    (s.issueOrder p o).pins = s.pins := by
  unfold State.issueOrder; simp

@[simp] theorem State.issueOrder_freeCount (s : State) (p : Slot) (o : Order) :
    (s.issueOrder p o).freeCount = s.freeCount := by
  unfold State.issueOrder; simp

@[simp] theorem State.issueOrder_pending (s : State) (p : Slot) (o : Order) :
    (s.issueOrder p o).pending = s.pending := by
  unfold State.issueOrder; simp

/-! ### `State.endOrder` -/

@[simp] theorem State.endOrder_ccc_note (s : State) (p : Slot) :
    (s.endOrder p).ccc.note = s.ccc.note := by
  unfold State.endOrder; split <;> simp

@[simp] theorem State.endOrder_ccc_resync (s : State) (p : Slot) :
    (s.endOrder p).ccc.resync = s.ccc.resync := by
  unfold State.endOrder; split <;> simp

@[simp] theorem State.endOrder_psel_working (s : State) (p : Slot) :
    (s.endOrder p).psel.working = s.psel.working := by
  unfold State.endOrder; split <;> simp

@[simp] theorem State.endOrder_psel_seq (s : State) (p : Slot) :
    (s.endOrder p).psel.seq = s.psel.seq := by
  unfold State.endOrder; split <;> simp

@[simp] theorem State.endOrder_tbt (s : State) (p : Slot) :
    (s.endOrder p).tbt = s.tbt := by
  unfold State.endOrder; split <;> simp

@[simp] theorem State.endOrder_pos (s : State) (p : Slot) :
    (s.endOrder p).pos = s.pos := by
  unfold State.endOrder; split <;> simp

@[simp] theorem State.endOrder_ksc (s : State) (p : Slot) :
    (s.endOrder p).ksc = s.ksc := by
  unfold State.endOrder; split <;> simp

@[simp] theorem State.endOrder_ind (s : State) (p : Slot) :
    (s.endOrder p).ind = s.ind := by
  unfold State.endOrder; split <;> simp

@[simp] theorem State.endOrder_sli_rate (s : State) (p : Slot) :
    (s.endOrder p).sli.rate = s.sli.rate := by
  unfold State.endOrder; split <;> simp

@[simp] theorem State.endOrder_sli_rx (s : State) (p : Slot) :
    (s.endOrder p).sli.rx = s.sli.rx := by
  unfold State.endOrder; split <;> simp

@[simp] theorem State.endOrder_sli_assembly (s : State) (p : Slot) :
    (s.endOrder p).sli.assembly = s.sli.assembly := by
  unfold State.endOrder; split <;> simp

@[simp] theorem State.endOrder_sli_damaged (s : State) (p : Slot) :
    (s.endOrder p).sli.damaged = s.sli.damaged := by
  unfold State.endOrder; split <;> simp

@[simp] theorem State.endOrder_sli_gap (s : State) (p : Slot) :
    (s.endOrder p).sli.gap = s.sli.gap := by
  unfold State.endOrder; split <;> simp

@[simp] theorem State.endOrder_sli_inbound (s : State) (p : Slot) :
    (s.endOrder p).sli.inbound = s.sli.inbound := by
  unfold State.endOrder; split <;> simp

@[simp] theorem State.endOrder_sli_replies (s : State) (p : Slot) :
    (s.endOrder p).sli.replies = s.sli.replies := by
  unfold State.endOrder; split <;> simp

@[simp] theorem State.endOrder_sli_auditNotice (s : State) (p : Slot) :
    (s.endOrder p).sli.auditNotice = s.sli.auditNotice := by
  unfold State.endOrder; split <;> simp

@[simp] theorem State.endOrder_sli_posNotice (s : State) (p : Slot) :
    (s.endOrder p).sli.posNotice = s.sli.posNotice := by
  unfold State.endOrder; split <;> simp

@[simp] theorem State.endOrder_sli_orderNotice (s : State) (p : Slot) :
    (s.endOrder p).sli.orderNotice = s.sli.orderNotice := by
  unfold State.endOrder; split <;> simp

@[simp] theorem State.endOrder_sli_linkNotice (s : State) (p : Slot) :
    (s.endOrder p).sli.linkNotice = s.sli.linkNotice := by
  unfold State.endOrder; split <;> simp

@[simp] theorem State.endOrder_sli_haltedSent (s : State) (p : Slot) :
    (s.endOrder p).sli.haltedSent = s.sli.haltedSent := by
  unfold State.endOrder; split <;> simp

@[simp] theorem State.endOrder_sli_control (s : State) (p : Slot) :
    (s.endOrder p).sli.control = s.sli.control := by
  unfold State.endOrder; split <;> simp

@[simp] theorem State.endOrder_sli_haltedBy (s : State) (p : Slot) :
    (s.endOrder p).sli.haltedBy = s.sli.haltedBy := by
  unfold State.endOrder; split <;> simp

@[simp] theorem State.endOrder_sli_sending (s : State) (p : Slot) :
    (s.endOrder p).sli.sending = s.sli.sending := by
  unfold State.endOrder; split <;> simp

@[simp] theorem State.endOrder_sli_link (s : State) (p : Slot) :
    (s.endOrder p).sli.link = s.sli.link := by
  unfold State.endOrder; split <;> simp

@[simp] theorem State.endOrder_sli_supCount (s : State) (p : Slot) :
    (s.endOrder p).sli.supCount = s.sli.supCount := by
  unfold State.endOrder; split <;> simp

@[simp] theorem State.endOrder_pins (s : State) (p : Slot) :
    (s.endOrder p).pins = s.pins := by
  unfold State.endOrder; split <;> simp

@[simp] theorem State.endOrder_freeCount (s : State) (p : Slot) :
    (s.endOrder p).freeCount = s.freeCount := by
  unfold State.endOrder; split <;> simp

@[simp] theorem State.endOrder_pending (s : State) (p : Slot) :
    (s.endOrder p).pending = s.pending := by
  unfold State.endOrder; split <;> simp

/-! ### `State.cancelOrder` -/

@[simp] theorem State.cancelOrder_ccc_note (s : State) (p : Slot) :
    (s.cancelOrder p).ccc.note = s.ccc.note := by
  unfold State.cancelOrder; split <;> [rfl; (dsimp only; split <;> simp)]

@[simp] theorem State.cancelOrder_ccc_resync (s : State) (p : Slot) :
    (s.cancelOrder p).ccc.resync = s.ccc.resync := by
  unfold State.cancelOrder; split <;> [rfl; (dsimp only; split <;> simp)]

@[simp] theorem State.cancelOrder_psel_working (s : State) (p : Slot) :
    (s.cancelOrder p).psel.working = s.psel.working := by
  unfold State.cancelOrder; split <;> [rfl; (dsimp only; split <;> simp)]

@[simp] theorem State.cancelOrder_psel_seq (s : State) (p : Slot) :
    (s.cancelOrder p).psel.seq = s.psel.seq := by
  unfold State.cancelOrder; split <;> [rfl; (dsimp only; split <;> simp)]

@[simp] theorem State.cancelOrder_tbt_prescaler (s : State) (p : Slot) :
    (s.cancelOrder p).tbt.prescaler = s.tbt.prescaler := by
  unfold State.cancelOrder; split <;> [rfl; (dsimp only; split <;> simp)]

@[simp] theorem State.cancelOrder_tbt_stepDivider (s : State) (p : Slot) :
    (s.cancelOrder p).tbt.stepDivider = s.tbt.stepDivider := by
  unfold State.cancelOrder; split <;> [rfl; (dsimp only; split <;> simp)]

@[simp] theorem State.cancelOrder_tbt_secondDivider (s : State) (p : Slot) :
    (s.cancelOrder p).tbt.secondDivider = s.tbt.secondDivider := by
  unfold State.cancelOrder; split <;> [rfl; (dsimp only; split <;> simp)]

@[simp] theorem State.cancelOrder_tbt_epochPhase (s : State) (p : Slot) :
    (s.cancelOrder p).tbt.epochPhase = s.tbt.epochPhase := by
  unfold State.cancelOrder; split <;> [rfl; (dsimp only; split <;> simp)]

@[simp] theorem State.cancelOrder_pos (s : State) (p : Slot) :
    (s.cancelOrder p).pos = s.pos := by
  unfold State.cancelOrder; split <;> [rfl; (dsimp only; split <;> simp)]

@[simp] theorem State.cancelOrder_ksc (s : State) (p : Slot) :
    (s.cancelOrder p).ksc = s.ksc := by
  unfold State.cancelOrder; split <;> [rfl; (dsimp only; split <;> simp)]

@[simp] theorem State.cancelOrder_ind (s : State) (p : Slot) :
    (s.cancelOrder p).ind = s.ind := by
  unfold State.cancelOrder; split <;> [rfl; (dsimp only; split <;> simp)]

@[simp] theorem State.cancelOrder_sli_rate (s : State) (p : Slot) :
    (s.cancelOrder p).sli.rate = s.sli.rate := by
  unfold State.cancelOrder; split <;> [rfl; (dsimp only; split <;> simp)]

@[simp] theorem State.cancelOrder_sli_rx (s : State) (p : Slot) :
    (s.cancelOrder p).sli.rx = s.sli.rx := by
  unfold State.cancelOrder; split <;> [rfl; (dsimp only; split <;> simp)]

@[simp] theorem State.cancelOrder_sli_assembly (s : State) (p : Slot) :
    (s.cancelOrder p).sli.assembly = s.sli.assembly := by
  unfold State.cancelOrder; split <;> [rfl; (dsimp only; split <;> simp)]

@[simp] theorem State.cancelOrder_sli_damaged (s : State) (p : Slot) :
    (s.cancelOrder p).sli.damaged = s.sli.damaged := by
  unfold State.cancelOrder; split <;> [rfl; (dsimp only; split <;> simp)]

@[simp] theorem State.cancelOrder_sli_gap (s : State) (p : Slot) :
    (s.cancelOrder p).sli.gap = s.sli.gap := by
  unfold State.cancelOrder; split <;> [rfl; (dsimp only; split <;> simp)]

@[simp] theorem State.cancelOrder_sli_inbound (s : State) (p : Slot) :
    (s.cancelOrder p).sli.inbound = s.sli.inbound := by
  unfold State.cancelOrder; split <;> [rfl; (dsimp only; split <;> simp)]

@[simp] theorem State.cancelOrder_sli_replies (s : State) (p : Slot) :
    (s.cancelOrder p).sli.replies = s.sli.replies := by
  unfold State.cancelOrder; split <;> [rfl; (dsimp only; split <;> simp)]

@[simp] theorem State.cancelOrder_sli_auditNotice (s : State) (p : Slot) :
    (s.cancelOrder p).sli.auditNotice = s.sli.auditNotice := by
  unfold State.cancelOrder; split <;> [rfl; (dsimp only; split <;> simp)]

@[simp] theorem State.cancelOrder_sli_posNotice (s : State) (p : Slot) :
    (s.cancelOrder p).sli.posNotice = s.sli.posNotice := by
  unfold State.cancelOrder; split <;> [rfl; (dsimp only; split <;> simp)]

@[simp] theorem State.cancelOrder_sli_orderNotice (s : State) (p : Slot) :
    (s.cancelOrder p).sli.orderNotice = s.sli.orderNotice := by
  unfold State.cancelOrder; split <;> [rfl; (dsimp only; split <;> simp)]

@[simp] theorem State.cancelOrder_sli_linkNotice (s : State) (p : Slot) :
    (s.cancelOrder p).sli.linkNotice = s.sli.linkNotice := by
  unfold State.cancelOrder; split <;> [rfl; (dsimp only; split <;> simp)]

@[simp] theorem State.cancelOrder_sli_haltedSent (s : State) (p : Slot) :
    (s.cancelOrder p).sli.haltedSent = s.sli.haltedSent := by
  unfold State.cancelOrder; split <;> [rfl; (dsimp only; split <;> simp)]

@[simp] theorem State.cancelOrder_sli_control (s : State) (p : Slot) :
    (s.cancelOrder p).sli.control = s.sli.control := by
  unfold State.cancelOrder; split <;> [rfl; (dsimp only; split <;> simp)]

@[simp] theorem State.cancelOrder_sli_haltedBy (s : State) (p : Slot) :
    (s.cancelOrder p).sli.haltedBy = s.sli.haltedBy := by
  unfold State.cancelOrder; split <;> [rfl; (dsimp only; split <;> simp)]

@[simp] theorem State.cancelOrder_sli_sending (s : State) (p : Slot) :
    (s.cancelOrder p).sli.sending = s.sli.sending := by
  unfold State.cancelOrder; split <;> [rfl; (dsimp only; split <;> simp)]

@[simp] theorem State.cancelOrder_sli_link (s : State) (p : Slot) :
    (s.cancelOrder p).sli.link = s.sli.link := by
  unfold State.cancelOrder; split <;> [rfl; (dsimp only; split <;> simp)]

@[simp] theorem State.cancelOrder_sli_supCount (s : State) (p : Slot) :
    (s.cancelOrder p).sli.supCount = s.sli.supCount := by
  unfold State.cancelOrder; split <;> [rfl; (dsimp only; split <;> simp)]

@[simp] theorem State.cancelOrder_pins (s : State) (p : Slot) :
    (s.cancelOrder p).pins = s.pins := by
  unfold State.cancelOrder; split <;> [rfl; (dsimp only; split <;> simp)]

@[simp] theorem State.cancelOrder_freeCount (s : State) (p : Slot) :
    (s.cancelOrder p).freeCount = s.freeCount := by
  unfold State.cancelOrder; split <;> [rfl; (dsimp only; split <;> simp)]

@[simp] theorem State.cancelOrder_pending (s : State) (p : Slot) :
    (s.cancelOrder p).pending = s.pending := by
  unfold State.cancelOrder; split <;> [rfl; (dsimp only; split <;> simp)]

/-! ### `State.cancelAll` -/

theorem State.cancelAll_eq (s : State) :
    s.cancelAll = { slots.foldl State.cancelOrder s with ccc.claim := none } := by
  unfold State.cancelAll; with_reducible rfl

@[simp] theorem State.cancelAll_ccc_note (s : State) :
    (s.cancelAll).ccc.note = s.ccc.note := by
  have h := foldl_keeps (fun s : State => s.ccc.note) _ State.cancelOrder_ccc_note slots s
  rw [State.cancelAll_eq]; generalize slots.foldl State.cancelOrder s = t at h ⊢; exact h

@[simp] theorem State.cancelAll_ccc_resync (s : State) :
    (s.cancelAll).ccc.resync = s.ccc.resync := by
  have h := foldl_keeps (fun s : State => s.ccc.resync) _ State.cancelOrder_ccc_resync slots s
  rw [State.cancelAll_eq]; generalize slots.foldl State.cancelOrder s = t at h ⊢; exact h

@[simp] theorem State.cancelAll_psel_working (s : State) :
    (s.cancelAll).psel.working = s.psel.working := by
  have h := foldl_keeps (fun s : State => s.psel.working) _ State.cancelOrder_psel_working slots s
  rw [State.cancelAll_eq]; generalize slots.foldl State.cancelOrder s = t at h ⊢; exact h

@[simp] theorem State.cancelAll_psel_seq (s : State) :
    (s.cancelAll).psel.seq = s.psel.seq := by
  have h := foldl_keeps (fun s : State => s.psel.seq) _ State.cancelOrder_psel_seq slots s
  rw [State.cancelAll_eq]; generalize slots.foldl State.cancelOrder s = t at h ⊢; exact h

@[simp] theorem State.cancelAll_tbt_prescaler (s : State) :
    (s.cancelAll).tbt.prescaler = s.tbt.prescaler := by
  have h := foldl_keeps (fun s : State => s.tbt.prescaler) _ State.cancelOrder_tbt_prescaler slots s
  rw [State.cancelAll_eq]; generalize slots.foldl State.cancelOrder s = t at h ⊢; exact h

@[simp] theorem State.cancelAll_tbt_stepDivider (s : State) :
    (s.cancelAll).tbt.stepDivider = s.tbt.stepDivider := by
  have h := foldl_keeps (fun s : State => s.tbt.stepDivider) _ State.cancelOrder_tbt_stepDivider slots s
  rw [State.cancelAll_eq]; generalize slots.foldl State.cancelOrder s = t at h ⊢; exact h

@[simp] theorem State.cancelAll_tbt_secondDivider (s : State) :
    (s.cancelAll).tbt.secondDivider = s.tbt.secondDivider := by
  have h := foldl_keeps (fun s : State => s.tbt.secondDivider) _ State.cancelOrder_tbt_secondDivider slots s
  rw [State.cancelAll_eq]; generalize slots.foldl State.cancelOrder s = t at h ⊢; exact h

@[simp] theorem State.cancelAll_tbt_epochPhase (s : State) :
    (s.cancelAll).tbt.epochPhase = s.tbt.epochPhase := by
  have h := foldl_keeps (fun s : State => s.tbt.epochPhase) _ State.cancelOrder_tbt_epochPhase slots s
  rw [State.cancelAll_eq]; generalize slots.foldl State.cancelOrder s = t at h ⊢; exact h

@[simp] theorem State.cancelAll_pos (s : State) :
    (s.cancelAll).pos = s.pos := by
  have h := foldl_keeps (fun s : State => s.pos) _ State.cancelOrder_pos slots s
  rw [State.cancelAll_eq]; generalize slots.foldl State.cancelOrder s = t at h ⊢; exact h

@[simp] theorem State.cancelAll_ksc (s : State) :
    (s.cancelAll).ksc = s.ksc := by
  have h := foldl_keeps (fun s : State => s.ksc) _ State.cancelOrder_ksc slots s
  rw [State.cancelAll_eq]; generalize slots.foldl State.cancelOrder s = t at h ⊢; exact h

@[simp] theorem State.cancelAll_ind (s : State) :
    (s.cancelAll).ind = s.ind := by
  have h := foldl_keeps (fun s : State => s.ind) _ State.cancelOrder_ind slots s
  rw [State.cancelAll_eq]; generalize slots.foldl State.cancelOrder s = t at h ⊢; exact h

@[simp] theorem State.cancelAll_sli_rate (s : State) :
    (s.cancelAll).sli.rate = s.sli.rate := by
  have h := foldl_keeps (fun s : State => s.sli.rate) _ State.cancelOrder_sli_rate slots s
  rw [State.cancelAll_eq]; generalize slots.foldl State.cancelOrder s = t at h ⊢; exact h

@[simp] theorem State.cancelAll_sli_rx (s : State) :
    (s.cancelAll).sli.rx = s.sli.rx := by
  have h := foldl_keeps (fun s : State => s.sli.rx) _ State.cancelOrder_sli_rx slots s
  rw [State.cancelAll_eq]; generalize slots.foldl State.cancelOrder s = t at h ⊢; exact h

@[simp] theorem State.cancelAll_sli_assembly (s : State) :
    (s.cancelAll).sli.assembly = s.sli.assembly := by
  have h := foldl_keeps (fun s : State => s.sli.assembly) _ State.cancelOrder_sli_assembly slots s
  rw [State.cancelAll_eq]; generalize slots.foldl State.cancelOrder s = t at h ⊢; exact h

@[simp] theorem State.cancelAll_sli_damaged (s : State) :
    (s.cancelAll).sli.damaged = s.sli.damaged := by
  have h := foldl_keeps (fun s : State => s.sli.damaged) _ State.cancelOrder_sli_damaged slots s
  rw [State.cancelAll_eq]; generalize slots.foldl State.cancelOrder s = t at h ⊢; exact h

@[simp] theorem State.cancelAll_sli_gap (s : State) :
    (s.cancelAll).sli.gap = s.sli.gap := by
  have h := foldl_keeps (fun s : State => s.sli.gap) _ State.cancelOrder_sli_gap slots s
  rw [State.cancelAll_eq]; generalize slots.foldl State.cancelOrder s = t at h ⊢; exact h

@[simp] theorem State.cancelAll_sli_inbound (s : State) :
    (s.cancelAll).sli.inbound = s.sli.inbound := by
  have h := foldl_keeps (fun s : State => s.sli.inbound) _ State.cancelOrder_sli_inbound slots s
  rw [State.cancelAll_eq]; generalize slots.foldl State.cancelOrder s = t at h ⊢; exact h

@[simp] theorem State.cancelAll_sli_replies (s : State) :
    (s.cancelAll).sli.replies = s.sli.replies := by
  have h := foldl_keeps (fun s : State => s.sli.replies) _ State.cancelOrder_sli_replies slots s
  rw [State.cancelAll_eq]; generalize slots.foldl State.cancelOrder s = t at h ⊢; exact h

@[simp] theorem State.cancelAll_sli_auditNotice (s : State) :
    (s.cancelAll).sli.auditNotice = s.sli.auditNotice := by
  have h := foldl_keeps (fun s : State => s.sli.auditNotice) _ State.cancelOrder_sli_auditNotice slots s
  rw [State.cancelAll_eq]; generalize slots.foldl State.cancelOrder s = t at h ⊢; exact h

@[simp] theorem State.cancelAll_sli_posNotice (s : State) :
    (s.cancelAll).sli.posNotice = s.sli.posNotice := by
  have h := foldl_keeps (fun s : State => s.sli.posNotice) _ State.cancelOrder_sli_posNotice slots s
  rw [State.cancelAll_eq]; generalize slots.foldl State.cancelOrder s = t at h ⊢; exact h

@[simp] theorem State.cancelAll_sli_orderNotice (s : State) :
    (s.cancelAll).sli.orderNotice = s.sli.orderNotice := by
  have h := foldl_keeps (fun s : State => s.sli.orderNotice) _ State.cancelOrder_sli_orderNotice slots s
  rw [State.cancelAll_eq]; generalize slots.foldl State.cancelOrder s = t at h ⊢; exact h

@[simp] theorem State.cancelAll_sli_linkNotice (s : State) :
    (s.cancelAll).sli.linkNotice = s.sli.linkNotice := by
  have h := foldl_keeps (fun s : State => s.sli.linkNotice) _ State.cancelOrder_sli_linkNotice slots s
  rw [State.cancelAll_eq]; generalize slots.foldl State.cancelOrder s = t at h ⊢; exact h

@[simp] theorem State.cancelAll_sli_haltedSent (s : State) :
    (s.cancelAll).sli.haltedSent = s.sli.haltedSent := by
  have h := foldl_keeps (fun s : State => s.sli.haltedSent) _ State.cancelOrder_sli_haltedSent slots s
  rw [State.cancelAll_eq]; generalize slots.foldl State.cancelOrder s = t at h ⊢; exact h

@[simp] theorem State.cancelAll_sli_control (s : State) :
    (s.cancelAll).sli.control = s.sli.control := by
  have h := foldl_keeps (fun s : State => s.sli.control) _ State.cancelOrder_sli_control slots s
  rw [State.cancelAll_eq]; generalize slots.foldl State.cancelOrder s = t at h ⊢; exact h

@[simp] theorem State.cancelAll_sli_haltedBy (s : State) :
    (s.cancelAll).sli.haltedBy = s.sli.haltedBy := by
  have h := foldl_keeps (fun s : State => s.sli.haltedBy) _ State.cancelOrder_sli_haltedBy slots s
  rw [State.cancelAll_eq]; generalize slots.foldl State.cancelOrder s = t at h ⊢; exact h

@[simp] theorem State.cancelAll_sli_sending (s : State) :
    (s.cancelAll).sli.sending = s.sli.sending := by
  have h := foldl_keeps (fun s : State => s.sli.sending) _ State.cancelOrder_sli_sending slots s
  rw [State.cancelAll_eq]; generalize slots.foldl State.cancelOrder s = t at h ⊢; exact h

@[simp] theorem State.cancelAll_sli_link (s : State) :
    (s.cancelAll).sli.link = s.sli.link := by
  have h := foldl_keeps (fun s : State => s.sli.link) _ State.cancelOrder_sli_link slots s
  rw [State.cancelAll_eq]; generalize slots.foldl State.cancelOrder s = t at h ⊢; exact h

@[simp] theorem State.cancelAll_sli_supCount (s : State) :
    (s.cancelAll).sli.supCount = s.sli.supCount := by
  have h := foldl_keeps (fun s : State => s.sli.supCount) _ State.cancelOrder_sli_supCount slots s
  rw [State.cancelAll_eq]; generalize slots.foldl State.cancelOrder s = t at h ⊢; exact h

@[simp] theorem State.cancelAll_pins (s : State) :
    (s.cancelAll).pins = s.pins := by
  have h := foldl_keeps (fun s : State => s.pins) _ State.cancelOrder_pins slots s
  rw [State.cancelAll_eq]; generalize slots.foldl State.cancelOrder s = t at h ⊢; exact h

@[simp] theorem State.cancelAll_freeCount (s : State) :
    (s.cancelAll).freeCount = s.freeCount := by
  have h := foldl_keeps (fun s : State => s.freeCount) _ State.cancelOrder_freeCount slots s
  rw [State.cancelAll_eq]; generalize slots.foldl State.cancelOrder s = t at h ⊢; exact h

@[simp] theorem State.cancelAll_pending (s : State) :
    (s.cancelAll).pending = s.pending := by
  have h := foldl_keeps (fun s : State => s.pending) _ State.cancelOrder_pending slots s
  rw [State.cancelAll_eq]; generalize slots.foldl State.cancelOrder s = t at h ⊢; exact h

/-! ### `State.dropSecondary` -/

@[simp] theorem State.dropSecondary_ccc_note (s : State) (q : Option Slot) :
    (s.dropSecondary q).ccc.note = s.ccc.note := by
  unfold State.dropSecondary; split <;> [rfl; (dsimp only; split <;> simp)]

@[simp] theorem State.dropSecondary_ccc_resync (s : State) (q : Option Slot) :
    (s.dropSecondary q).ccc.resync = s.ccc.resync := by
  unfold State.dropSecondary; split <;> [rfl; (dsimp only; split <;> simp)]

@[simp] theorem State.dropSecondary_psel_working (s : State) (q : Option Slot) :
    (s.dropSecondary q).psel.working = s.psel.working := by
  unfold State.dropSecondary; split <;> [rfl; (dsimp only; split <;> simp)]

@[simp] theorem State.dropSecondary_psel_seq (s : State) (q : Option Slot) :
    (s.dropSecondary q).psel.seq = s.psel.seq := by
  unfold State.dropSecondary; split <;> [rfl; (dsimp only; split <;> simp)]

@[simp] theorem State.dropSecondary_tbt (s : State) (q : Option Slot) :
    (s.dropSecondary q).tbt = s.tbt := by
  unfold State.dropSecondary; split <;> [rfl; (dsimp only; split <;> simp)]

@[simp] theorem State.dropSecondary_pos (s : State) (q : Option Slot) :
    (s.dropSecondary q).pos = s.pos := by
  unfold State.dropSecondary; split <;> [rfl; (dsimp only; split <;> simp)]

@[simp] theorem State.dropSecondary_ksc (s : State) (q : Option Slot) :
    (s.dropSecondary q).ksc = s.ksc := by
  unfold State.dropSecondary; split <;> [rfl; (dsimp only; split <;> simp)]

@[simp] theorem State.dropSecondary_ind (s : State) (q : Option Slot) :
    (s.dropSecondary q).ind = s.ind := by
  unfold State.dropSecondary; split <;> [rfl; (dsimp only; split <;> simp)]

@[simp] theorem State.dropSecondary_sli (s : State) (q : Option Slot) :
    (s.dropSecondary q).sli = s.sli := by
  unfold State.dropSecondary; split <;> [rfl; (dsimp only; split <;> simp)]

@[simp] theorem State.dropSecondary_pins (s : State) (q : Option Slot) :
    (s.dropSecondary q).pins = s.pins := by
  unfold State.dropSecondary; split <;> [rfl; (dsimp only; split <;> simp)]

@[simp] theorem State.dropSecondary_freeCount (s : State) (q : Option Slot) :
    (s.dropSecondary q).freeCount = s.freeCount := by
  unfold State.dropSecondary; split <;> [rfl; (dsimp only; split <;> simp)]

@[simp] theorem State.dropSecondary_pending (s : State) (q : Option Slot) :
    (s.dropSecondary q).pending = s.pending := by
  unfold State.dropSecondary; split <;> [rfl; (dsimp only; split <;> simp)]

/-! ### `State.unlinkPartner` -/

@[simp] theorem State.unlinkPartner_ccc_claim (s : State) (q : Option Slot) :
    (s.unlinkPartner q).ccc.claim = s.ccc.claim := by
  unfold State.unlinkPartner; split <;> simp

@[simp] theorem State.unlinkPartner_ccc_note (s : State) (q : Option Slot) :
    (s.unlinkPartner q).ccc.note = s.ccc.note := by
  unfold State.unlinkPartner; split <;> simp

@[simp] theorem State.unlinkPartner_ccc_resync (s : State) (q : Option Slot) :
    (s.unlinkPartner q).ccc.resync = s.ccc.resync := by
  unfold State.unlinkPartner; split <;> simp

@[simp] theorem State.unlinkPartner_psel_working (s : State) (q : Option Slot) :
    (s.unlinkPartner q).psel.working = s.psel.working := by
  unfold State.unlinkPartner; split <;> simp

@[simp] theorem State.unlinkPartner_psel_seq (s : State) (q : Option Slot) :
    (s.unlinkPartner q).psel.seq = s.psel.seq := by
  unfold State.unlinkPartner; split <;> simp

@[simp] theorem State.unlinkPartner_tbt (s : State) (q : Option Slot) :
    (s.unlinkPartner q).tbt = s.tbt := by
  unfold State.unlinkPartner; split <;> simp

@[simp] theorem State.unlinkPartner_pos (s : State) (q : Option Slot) :
    (s.unlinkPartner q).pos = s.pos := by
  unfold State.unlinkPartner; split <;> simp

@[simp] theorem State.unlinkPartner_ksc (s : State) (q : Option Slot) :
    (s.unlinkPartner q).ksc = s.ksc := by
  unfold State.unlinkPartner; split <;> simp

@[simp] theorem State.unlinkPartner_ind (s : State) (q : Option Slot) :
    (s.unlinkPartner q).ind = s.ind := by
  unfold State.unlinkPartner; split <;> simp

@[simp] theorem State.unlinkPartner_sli (s : State) (q : Option Slot) :
    (s.unlinkPartner q).sli = s.sli := by
  unfold State.unlinkPartner; split <;> simp

@[simp] theorem State.unlinkPartner_pins (s : State) (q : Option Slot) :
    (s.unlinkPartner q).pins = s.pins := by
  unfold State.unlinkPartner; split <;> simp

@[simp] theorem State.unlinkPartner_freeCount (s : State) (q : Option Slot) :
    (s.unlinkPartner q).freeCount = s.freeCount := by
  unfold State.unlinkPartner; split <;> simp

@[simp] theorem State.unlinkPartner_pending (s : State) (q : Option Slot) :
    (s.unlinkPartner q).pending = s.pending := by
  unfold State.unlinkPartner; split <;> simp

/-! ### `State.retire` -/

@[simp] theorem State.retire_ccc_resync (s : State) (p : Slot) :
    (s.retire p).ccc.resync = s.ccc.resync := by
  unfold State.retire; split <;> [rfl; (dsimp only; split <;> simp)]

@[simp] theorem State.retire_psel_working (s : State) (p : Slot) :
    (s.retire p).psel.working = s.psel.working := by
  unfold State.retire; split <;> [rfl; (dsimp only; split <;> simp)]

@[simp] theorem State.retire_psel_seq (s : State) (p : Slot) :
    (s.retire p).psel.seq = s.psel.seq := by
  unfold State.retire; split <;> [rfl; (dsimp only; split <;> simp)]

@[simp] theorem State.retire_tbt_prescaler (s : State) (p : Slot) :
    (s.retire p).tbt.prescaler = s.tbt.prescaler := by
  unfold State.retire; split <;> [rfl; (dsimp only; split <;> simp)]

@[simp] theorem State.retire_tbt_stepDivider (s : State) (p : Slot) :
    (s.retire p).tbt.stepDivider = s.tbt.stepDivider := by
  unfold State.retire; split <;> [rfl; (dsimp only; split <;> simp)]

@[simp] theorem State.retire_tbt_secondDivider (s : State) (p : Slot) :
    (s.retire p).tbt.secondDivider = s.tbt.secondDivider := by
  unfold State.retire; split <;> [rfl; (dsimp only; split <;> simp)]

@[simp] theorem State.retire_tbt_epochPhase (s : State) (p : Slot) :
    (s.retire p).tbt.epochPhase = s.tbt.epochPhase := by
  unfold State.retire; split <;> [rfl; (dsimp only; split <;> simp)]

@[simp] theorem State.retire_pos (s : State) (p : Slot) :
    (s.retire p).pos = s.pos := by
  unfold State.retire; split <;> [rfl; (dsimp only; split <;> simp)]

@[simp] theorem State.retire_ksc (s : State) (p : Slot) :
    (s.retire p).ksc = s.ksc := by
  unfold State.retire; split <;> [rfl; (dsimp only; split <;> simp)]

@[simp] theorem State.retire_ind (s : State) (p : Slot) :
    (s.retire p).ind = s.ind := by
  unfold State.retire; split <;> [rfl; (dsimp only; split <;> simp)]

@[simp] theorem State.retire_sli_rate (s : State) (p : Slot) :
    (s.retire p).sli.rate = s.sli.rate := by
  unfold State.retire; split <;> [rfl; (dsimp only; split <;> simp)]

@[simp] theorem State.retire_sli_rx (s : State) (p : Slot) :
    (s.retire p).sli.rx = s.sli.rx := by
  unfold State.retire; split <;> [rfl; (dsimp only; split <;> simp)]

@[simp] theorem State.retire_sli_assembly (s : State) (p : Slot) :
    (s.retire p).sli.assembly = s.sli.assembly := by
  unfold State.retire; split <;> [rfl; (dsimp only; split <;> simp)]

@[simp] theorem State.retire_sli_damaged (s : State) (p : Slot) :
    (s.retire p).sli.damaged = s.sli.damaged := by
  unfold State.retire; split <;> [rfl; (dsimp only; split <;> simp)]

@[simp] theorem State.retire_sli_gap (s : State) (p : Slot) :
    (s.retire p).sli.gap = s.sli.gap := by
  unfold State.retire; split <;> [rfl; (dsimp only; split <;> simp)]

@[simp] theorem State.retire_sli_inbound (s : State) (p : Slot) :
    (s.retire p).sli.inbound = s.sli.inbound := by
  unfold State.retire; split <;> [rfl; (dsimp only; split <;> simp)]

@[simp] theorem State.retire_sli_replies (s : State) (p : Slot) :
    (s.retire p).sli.replies = s.sli.replies := by
  unfold State.retire; split <;> [rfl; (dsimp only; split <;> simp)]

@[simp] theorem State.retire_sli_auditNotice (s : State) (p : Slot) :
    (s.retire p).sli.auditNotice = s.sli.auditNotice := by
  unfold State.retire; split <;> [rfl; (dsimp only; split <;> simp)]

@[simp] theorem State.retire_sli_posNotice (s : State) (p : Slot) :
    (s.retire p).sli.posNotice = s.sli.posNotice := by
  unfold State.retire; split <;> [rfl; (dsimp only; split <;> simp)]

@[simp] theorem State.retire_sli_orderNotice (s : State) (p : Slot) :
    (s.retire p).sli.orderNotice = s.sli.orderNotice := by
  unfold State.retire; split <;> [rfl; (dsimp only; split <;> simp)]

@[simp] theorem State.retire_sli_linkNotice (s : State) (p : Slot) :
    (s.retire p).sli.linkNotice = s.sli.linkNotice := by
  unfold State.retire; split <;> [rfl; (dsimp only; split <;> simp)]

@[simp] theorem State.retire_sli_haltedSent (s : State) (p : Slot) :
    (s.retire p).sli.haltedSent = s.sli.haltedSent := by
  unfold State.retire; split <;> [rfl; (dsimp only; split <;> simp)]

@[simp] theorem State.retire_sli_control (s : State) (p : Slot) :
    (s.retire p).sli.control = s.sli.control := by
  unfold State.retire; split <;> [rfl; (dsimp only; split <;> simp)]

@[simp] theorem State.retire_sli_haltedBy (s : State) (p : Slot) :
    (s.retire p).sli.haltedBy = s.sli.haltedBy := by
  unfold State.retire; split <;> [rfl; (dsimp only; split <;> simp)]

@[simp] theorem State.retire_sli_sending (s : State) (p : Slot) :
    (s.retire p).sli.sending = s.sli.sending := by
  unfold State.retire; split <;> [rfl; (dsimp only; split <;> simp)]

@[simp] theorem State.retire_sli_link (s : State) (p : Slot) :
    (s.retire p).sli.link = s.sli.link := by
  unfold State.retire; split <;> [rfl; (dsimp only; split <;> simp)]

@[simp] theorem State.retire_sli_supCount (s : State) (p : Slot) :
    (s.retire p).sli.supCount = s.sli.supCount := by
  unfold State.retire; split <;> [rfl; (dsimp only; split <;> simp)]

@[simp] theorem State.retire_pins (s : State) (p : Slot) :
    (s.retire p).pins = s.pins := by
  unfold State.retire; split <;> [rfl; (dsimp only; split <;> simp)]

@[simp] theorem State.retire_freeCount (s : State) (p : Slot) :
    (s.retire p).freeCount = s.freeCount := by
  unfold State.retire; split <;> [rfl; (dsimp only; split <;> simp)]

@[simp] theorem State.retire_pending (s : State) (p : Slot) :
    (s.retire p).pending = s.pending := by
  unfold State.retire; split <;> [rfl; (dsimp only; split <;> simp)]

/-! ### `State.clearMarks` -/

@[simp] theorem State.clearMarks_ccc_claim (s : State) :
    (s.clearMarks).ccc.claim = s.ccc.claim := by
  unfold State.clearMarks; generalize slots = l
  exact foldl_keeps (fun s : State => s.ccc.claim) _ (by simp) l s

@[simp] theorem State.clearMarks_ccc_note (s : State) :
    (s.clearMarks).ccc.note = s.ccc.note := by
  unfold State.clearMarks; generalize slots = l
  exact foldl_keeps (fun s : State => s.ccc.note) _ (by simp) l s

@[simp] theorem State.clearMarks_ccc_resync (s : State) :
    (s.clearMarks).ccc.resync = s.ccc.resync := by
  unfold State.clearMarks; generalize slots = l
  exact foldl_keeps (fun s : State => s.ccc.resync) _ (by simp) l s

@[simp] theorem State.clearMarks_psel_working (s : State) :
    (s.clearMarks).psel.working = s.psel.working := by
  unfold State.clearMarks; generalize slots = l
  exact foldl_keeps (fun s : State => s.psel.working) _ (by simp) l s

@[simp] theorem State.clearMarks_psel_seq (s : State) :
    (s.clearMarks).psel.seq = s.psel.seq := by
  unfold State.clearMarks; generalize slots = l
  exact foldl_keeps (fun s : State => s.psel.seq) _ (by simp) l s

@[simp] theorem State.clearMarks_tbt (s : State) :
    (s.clearMarks).tbt = s.tbt := by
  unfold State.clearMarks; generalize slots = l
  exact foldl_keeps (fun s : State => s.tbt) _ (by simp) l s

@[simp] theorem State.clearMarks_pos (s : State) :
    (s.clearMarks).pos = s.pos := by
  unfold State.clearMarks; generalize slots = l
  exact foldl_keeps (fun s : State => s.pos) _ (by simp) l s

@[simp] theorem State.clearMarks_ksc (s : State) :
    (s.clearMarks).ksc = s.ksc := by
  unfold State.clearMarks; generalize slots = l
  exact foldl_keeps (fun s : State => s.ksc) _ (by simp) l s

@[simp] theorem State.clearMarks_ind (s : State) :
    (s.clearMarks).ind = s.ind := by
  unfold State.clearMarks; generalize slots = l
  exact foldl_keeps (fun s : State => s.ind) _ (by simp) l s

@[simp] theorem State.clearMarks_sli (s : State) :
    (s.clearMarks).sli = s.sli := by
  unfold State.clearMarks; generalize slots = l
  exact foldl_keeps (fun s : State => s.sli) _ (by simp) l s

@[simp] theorem State.clearMarks_pins (s : State) :
    (s.clearMarks).pins = s.pins := by
  unfold State.clearMarks; generalize slots = l
  exact foldl_keeps (fun s : State => s.pins) _ (by simp) l s

@[simp] theorem State.clearMarks_freeCount (s : State) :
    (s.clearMarks).freeCount = s.freeCount := by
  unfold State.clearMarks; generalize slots = l
  exact foldl_keeps (fun s : State => s.freeCount) _ (by simp) l s

@[simp] theorem State.clearMarks_pending (s : State) :
    (s.clearMarks).pending = s.pending := by
  unfold State.clearMarks; generalize slots = l
  exact foldl_keeps (fun s : State => s.pending) _ (by simp) l s

/-! ### `State.enterResync` -/

@[simp] theorem State.enterResync_ccc_note (s : State) :
    (s.enterResync).ccc.note = s.ccc.note := by
  unfold State.enterResync; split <;> simp

@[simp] theorem State.enterResync_psel_working (s : State) :
    (s.enterResync).psel.working = s.psel.working := by
  unfold State.enterResync; split <;> simp

@[simp] theorem State.enterResync_psel_seq (s : State) :
    (s.enterResync).psel.seq = s.psel.seq := by
  unfold State.enterResync; split <;> simp

@[simp] theorem State.enterResync_tbt_prescaler (s : State) :
    (s.enterResync).tbt.prescaler = s.tbt.prescaler := by
  unfold State.enterResync; split <;> simp

@[simp] theorem State.enterResync_tbt_stepDivider (s : State) :
    (s.enterResync).tbt.stepDivider = s.tbt.stepDivider := by
  unfold State.enterResync; split <;> simp

@[simp] theorem State.enterResync_tbt_secondDivider (s : State) :
    (s.enterResync).tbt.secondDivider = s.tbt.secondDivider := by
  unfold State.enterResync; split <;> simp

@[simp] theorem State.enterResync_tbt_epochPhase (s : State) :
    (s.enterResync).tbt.epochPhase = s.tbt.epochPhase := by
  unfold State.enterResync; split <;> simp

@[simp] theorem State.enterResync_pos (s : State) :
    (s.enterResync).pos = s.pos := by
  unfold State.enterResync; split <;> simp

@[simp] theorem State.enterResync_ksc (s : State) :
    (s.enterResync).ksc = s.ksc := by
  unfold State.enterResync; split <;> simp

@[simp] theorem State.enterResync_ind (s : State) :
    (s.enterResync).ind = s.ind := by
  unfold State.enterResync; split <;> simp

@[simp] theorem State.enterResync_sli_rate (s : State) :
    (s.enterResync).sli.rate = s.sli.rate := by
  unfold State.enterResync; split <;> simp

@[simp] theorem State.enterResync_sli_rx (s : State) :
    (s.enterResync).sli.rx = s.sli.rx := by
  unfold State.enterResync; split <;> simp

@[simp] theorem State.enterResync_sli_assembly (s : State) :
    (s.enterResync).sli.assembly = s.sli.assembly := by
  unfold State.enterResync; split <;> simp

@[simp] theorem State.enterResync_sli_damaged (s : State) :
    (s.enterResync).sli.damaged = s.sli.damaged := by
  unfold State.enterResync; split <;> simp

@[simp] theorem State.enterResync_sli_gap (s : State) :
    (s.enterResync).sli.gap = s.sli.gap := by
  unfold State.enterResync; split <;> simp

@[simp] theorem State.enterResync_sli_inbound (s : State) :
    (s.enterResync).sli.inbound = s.sli.inbound := by
  unfold State.enterResync; split <;> simp

@[simp] theorem State.enterResync_sli_replies (s : State) :
    (s.enterResync).sli.replies = s.sli.replies := by
  unfold State.enterResync; split <;> simp

@[simp] theorem State.enterResync_sli_posNotice (s : State) :
    (s.enterResync).sli.posNotice = s.sli.posNotice := by
  unfold State.enterResync; split <;> simp

@[simp] theorem State.enterResync_sli_orderNotice (s : State) :
    (s.enterResync).sli.orderNotice = s.sli.orderNotice := by
  unfold State.enterResync; split <;> simp

@[simp] theorem State.enterResync_sli_linkNotice (s : State) :
    (s.enterResync).sli.linkNotice = s.sli.linkNotice := by
  unfold State.enterResync; split <;> simp

@[simp] theorem State.enterResync_sli_haltedSent (s : State) :
    (s.enterResync).sli.haltedSent = s.sli.haltedSent := by
  unfold State.enterResync; split <;> simp

@[simp] theorem State.enterResync_sli_control (s : State) :
    (s.enterResync).sli.control = s.sli.control := by
  unfold State.enterResync; split <;> simp

@[simp] theorem State.enterResync_sli_haltedBy (s : State) :
    (s.enterResync).sli.haltedBy = s.sli.haltedBy := by
  unfold State.enterResync; split <;> simp

@[simp] theorem State.enterResync_sli_sending (s : State) :
    (s.enterResync).sli.sending = s.sli.sending := by
  unfold State.enterResync; split <;> simp

@[simp] theorem State.enterResync_sli_link (s : State) :
    (s.enterResync).sli.link = s.sli.link := by
  unfold State.enterResync; split <;> simp

@[simp] theorem State.enterResync_sli_supCount (s : State) :
    (s.enterResync).sli.supCount = s.sli.supCount := by
  unfold State.enterResync; split <;> simp

@[simp] theorem State.enterResync_pins (s : State) :
    (s.enterResync).pins = s.pins := by
  unfold State.enterResync; split <;> simp

@[simp] theorem State.enterResync_freeCount (s : State) :
    (s.enterResync).freeCount = s.freeCount := by
  unfold State.enterResync; split <;> simp

@[simp] theorem State.enterResync_pending (s : State) :
    (s.enterResync).pending = s.pending := by
  unfold State.enterResync; split <;> simp

/-! ### `State.orderFault` -/

@[simp] theorem State.orderFault_ccc_note (s : State) (k : OrderFault) (ref : Word) :
    (s.orderFault k ref).ccc.note = s.ccc.note := by
  unfold State.orderFault; simp

@[simp] theorem State.orderFault_psel_working (s : State) (k : OrderFault) (ref : Word) :
    (s.orderFault k ref).psel.working = s.psel.working := by
  unfold State.orderFault; simp

@[simp] theorem State.orderFault_psel_seq (s : State) (k : OrderFault) (ref : Word) :
    (s.orderFault k ref).psel.seq = s.psel.seq := by
  unfold State.orderFault; simp

@[simp] theorem State.orderFault_tbt_prescaler (s : State) (k : OrderFault) (ref : Word) :
    (s.orderFault k ref).tbt.prescaler = s.tbt.prescaler := by
  unfold State.orderFault; simp

@[simp] theorem State.orderFault_tbt_stepDivider (s : State) (k : OrderFault) (ref : Word) :
    (s.orderFault k ref).tbt.stepDivider = s.tbt.stepDivider := by
  unfold State.orderFault; simp

@[simp] theorem State.orderFault_tbt_secondDivider (s : State) (k : OrderFault) (ref : Word) :
    (s.orderFault k ref).tbt.secondDivider = s.tbt.secondDivider := by
  unfold State.orderFault; simp

@[simp] theorem State.orderFault_tbt_epochPhase (s : State) (k : OrderFault) (ref : Word) :
    (s.orderFault k ref).tbt.epochPhase = s.tbt.epochPhase := by
  unfold State.orderFault; simp

@[simp] theorem State.orderFault_pos (s : State) (k : OrderFault) (ref : Word) :
    (s.orderFault k ref).pos = s.pos := by
  unfold State.orderFault; simp

@[simp] theorem State.orderFault_ksc (s : State) (k : OrderFault) (ref : Word) :
    (s.orderFault k ref).ksc = s.ksc := by
  unfold State.orderFault; simp

@[simp] theorem State.orderFault_ind (s : State) (k : OrderFault) (ref : Word) :
    (s.orderFault k ref).ind = s.ind := by
  unfold State.orderFault; simp

@[simp] theorem State.orderFault_sli_rate (s : State) (k : OrderFault) (ref : Word) :
    (s.orderFault k ref).sli.rate = s.sli.rate := by
  unfold State.orderFault; simp

@[simp] theorem State.orderFault_sli_rx (s : State) (k : OrderFault) (ref : Word) :
    (s.orderFault k ref).sli.rx = s.sli.rx := by
  unfold State.orderFault; simp

@[simp] theorem State.orderFault_sli_assembly (s : State) (k : OrderFault) (ref : Word) :
    (s.orderFault k ref).sli.assembly = s.sli.assembly := by
  unfold State.orderFault; simp

@[simp] theorem State.orderFault_sli_damaged (s : State) (k : OrderFault) (ref : Word) :
    (s.orderFault k ref).sli.damaged = s.sli.damaged := by
  unfold State.orderFault; simp

@[simp] theorem State.orderFault_sli_gap (s : State) (k : OrderFault) (ref : Word) :
    (s.orderFault k ref).sli.gap = s.sli.gap := by
  unfold State.orderFault; simp

@[simp] theorem State.orderFault_sli_inbound (s : State) (k : OrderFault) (ref : Word) :
    (s.orderFault k ref).sli.inbound = s.sli.inbound := by
  unfold State.orderFault; simp

@[simp] theorem State.orderFault_sli_replies (s : State) (k : OrderFault) (ref : Word) :
    (s.orderFault k ref).sli.replies = s.sli.replies := by
  unfold State.orderFault; simp

@[simp] theorem State.orderFault_sli_posNotice (s : State) (k : OrderFault) (ref : Word) :
    (s.orderFault k ref).sli.posNotice = s.sli.posNotice := by
  unfold State.orderFault; simp

@[simp] theorem State.orderFault_sli_linkNotice (s : State) (k : OrderFault) (ref : Word) :
    (s.orderFault k ref).sli.linkNotice = s.sli.linkNotice := by
  unfold State.orderFault; simp

@[simp] theorem State.orderFault_sli_haltedSent (s : State) (k : OrderFault) (ref : Word) :
    (s.orderFault k ref).sli.haltedSent = s.sli.haltedSent := by
  unfold State.orderFault; simp

@[simp] theorem State.orderFault_sli_control (s : State) (k : OrderFault) (ref : Word) :
    (s.orderFault k ref).sli.control = s.sli.control := by
  unfold State.orderFault; simp

@[simp] theorem State.orderFault_sli_haltedBy (s : State) (k : OrderFault) (ref : Word) :
    (s.orderFault k ref).sli.haltedBy = s.sli.haltedBy := by
  unfold State.orderFault; simp

@[simp] theorem State.orderFault_sli_sending (s : State) (k : OrderFault) (ref : Word) :
    (s.orderFault k ref).sli.sending = s.sli.sending := by
  unfold State.orderFault; simp

@[simp] theorem State.orderFault_sli_link (s : State) (k : OrderFault) (ref : Word) :
    (s.orderFault k ref).sli.link = s.sli.link := by
  unfold State.orderFault; simp

@[simp] theorem State.orderFault_sli_supCount (s : State) (k : OrderFault) (ref : Word) :
    (s.orderFault k ref).sli.supCount = s.sli.supCount := by
  unfold State.orderFault; simp

@[simp] theorem State.orderFault_pins (s : State) (k : OrderFault) (ref : Word) :
    (s.orderFault k ref).pins = s.pins := by
  unfold State.orderFault; simp

@[simp] theorem State.orderFault_freeCount (s : State) (k : OrderFault) (ref : Word) :
    (s.orderFault k ref).freeCount = s.freeCount := by
  unfold State.orderFault; simp

@[simp] theorem State.orderFault_pending (s : State) (k : OrderFault) (ref : Word) :
    (s.orderFault k ref).pending = s.pending := by
  unfold State.orderFault; simp

/-! ### `State.linkDown` -/

@[simp] theorem State.linkDown_ccc_note (s : State) :
    (s.linkDown).ccc.note = s.ccc.note := by
  unfold State.linkDown; simp

@[simp] theorem State.linkDown_ccc_resync (s : State) :
    (s.linkDown).ccc.resync = s.ccc.resync := by
  unfold State.linkDown; simp

@[simp] theorem State.linkDown_psel_working (s : State) :
    (s.linkDown).psel.working = s.psel.working := by
  unfold State.linkDown; simp

@[simp] theorem State.linkDown_psel_seq (s : State) :
    (s.linkDown).psel.seq = s.psel.seq := by
  unfold State.linkDown; simp

@[simp] theorem State.linkDown_tbt_prescaler (s : State) :
    (s.linkDown).tbt.prescaler = s.tbt.prescaler := by
  unfold State.linkDown; simp

@[simp] theorem State.linkDown_tbt_stepDivider (s : State) :
    (s.linkDown).tbt.stepDivider = s.tbt.stepDivider := by
  unfold State.linkDown; simp

@[simp] theorem State.linkDown_tbt_secondDivider (s : State) :
    (s.linkDown).tbt.secondDivider = s.tbt.secondDivider := by
  unfold State.linkDown; simp

@[simp] theorem State.linkDown_tbt_epochPhase (s : State) :
    (s.linkDown).tbt.epochPhase = s.tbt.epochPhase := by
  unfold State.linkDown; simp

@[simp] theorem State.linkDown_pos (s : State) :
    (s.linkDown).pos = s.pos := by
  unfold State.linkDown; simp

@[simp] theorem State.linkDown_ksc (s : State) :
    (s.linkDown).ksc = s.ksc := by
  unfold State.linkDown; simp

@[simp] theorem State.linkDown_ind (s : State) :
    (s.linkDown).ind = s.ind := by
  unfold State.linkDown; simp

@[simp] theorem State.linkDown_sli_rate (s : State) :
    (s.linkDown).sli.rate = s.sli.rate := by
  unfold State.linkDown; simp

@[simp] theorem State.linkDown_sli_rx (s : State) :
    (s.linkDown).sli.rx = s.sli.rx := by
  unfold State.linkDown; simp

@[simp] theorem State.linkDown_sli_assembly (s : State) :
    (s.linkDown).sli.assembly = s.sli.assembly := by
  unfold State.linkDown; simp

@[simp] theorem State.linkDown_sli_damaged (s : State) :
    (s.linkDown).sli.damaged = s.sli.damaged := by
  unfold State.linkDown; simp

@[simp] theorem State.linkDown_sli_gap (s : State) :
    (s.linkDown).sli.gap = s.sli.gap := by
  unfold State.linkDown; simp

@[simp] theorem State.linkDown_sli_inbound (s : State) :
    (s.linkDown).sli.inbound = s.sli.inbound := by
  unfold State.linkDown; simp

@[simp] theorem State.linkDown_sli_replies (s : State) :
    (s.linkDown).sli.replies = s.sli.replies := by
  unfold State.linkDown; simp

@[simp] theorem State.linkDown_sli_auditNotice (s : State) :
    (s.linkDown).sli.auditNotice = s.sli.auditNotice := by
  unfold State.linkDown; simp

@[simp] theorem State.linkDown_sli_posNotice (s : State) :
    (s.linkDown).sli.posNotice = s.sli.posNotice := by
  unfold State.linkDown; simp

@[simp] theorem State.linkDown_sli_orderNotice (s : State) :
    (s.linkDown).sli.orderNotice = s.sli.orderNotice := by
  unfold State.linkDown; simp

@[simp] theorem State.linkDown_sli_linkNotice (s : State) :
    (s.linkDown).sli.linkNotice = s.sli.linkNotice := by
  unfold State.linkDown; simp

@[simp] theorem State.linkDown_sli_haltedSent (s : State) :
    (s.linkDown).sli.haltedSent = s.sli.haltedSent := by
  unfold State.linkDown; simp

@[simp] theorem State.linkDown_sli_control (s : State) :
    (s.linkDown).sli.control = s.sli.control := by
  unfold State.linkDown; simp

@[simp] theorem State.linkDown_sli_sending (s : State) :
    (s.linkDown).sli.sending = s.sli.sending := by
  unfold State.linkDown; simp

@[simp] theorem State.linkDown_sli_supCount (s : State) :
    (s.linkDown).sli.supCount = s.sli.supCount := by
  unfold State.linkDown; simp

@[simp] theorem State.linkDown_pins (s : State) :
    (s.linkDown).pins = s.pins := by
  unfold State.linkDown; simp

@[simp] theorem State.linkDown_freeCount (s : State) :
    (s.linkDown).freeCount = s.freeCount := by
  unfold State.linkDown; simp

@[simp] theorem State.linkDown_pending (s : State) :
    (s.linkDown).pending = s.pending := by
  unfold State.linkDown; simp

/-! ### `State.linkAlive` -/

@[simp] theorem State.linkAlive_ccc_note (s : State) :
    (s.linkAlive).ccc.note = s.ccc.note := by
  unfold State.linkAlive; split <;> simp

@[simp] theorem State.linkAlive_psel_working (s : State) :
    (s.linkAlive).psel.working = s.psel.working := by
  unfold State.linkAlive; split <;> simp

@[simp] theorem State.linkAlive_psel_seq (s : State) :
    (s.linkAlive).psel.seq = s.psel.seq := by
  unfold State.linkAlive; split <;> simp

@[simp] theorem State.linkAlive_tbt_prescaler (s : State) :
    (s.linkAlive).tbt.prescaler = s.tbt.prescaler := by
  unfold State.linkAlive; split <;> simp

@[simp] theorem State.linkAlive_tbt_stepDivider (s : State) :
    (s.linkAlive).tbt.stepDivider = s.tbt.stepDivider := by
  unfold State.linkAlive; split <;> simp

@[simp] theorem State.linkAlive_tbt_secondDivider (s : State) :
    (s.linkAlive).tbt.secondDivider = s.tbt.secondDivider := by
  unfold State.linkAlive; split <;> simp

@[simp] theorem State.linkAlive_tbt_epochPhase (s : State) :
    (s.linkAlive).tbt.epochPhase = s.tbt.epochPhase := by
  unfold State.linkAlive; split <;> simp

@[simp] theorem State.linkAlive_pos (s : State) :
    (s.linkAlive).pos = s.pos := by
  unfold State.linkAlive; split <;> simp

@[simp] theorem State.linkAlive_ksc (s : State) :
    (s.linkAlive).ksc = s.ksc := by
  unfold State.linkAlive; split <;> simp

@[simp] theorem State.linkAlive_ind (s : State) :
    (s.linkAlive).ind = s.ind := by
  unfold State.linkAlive; split <;> simp

@[simp] theorem State.linkAlive_sli_rate (s : State) :
    (s.linkAlive).sli.rate = s.sli.rate := by
  unfold State.linkAlive; split <;> simp

@[simp] theorem State.linkAlive_sli_rx (s : State) :
    (s.linkAlive).sli.rx = s.sli.rx := by
  unfold State.linkAlive; split <;> simp

@[simp] theorem State.linkAlive_sli_assembly (s : State) :
    (s.linkAlive).sli.assembly = s.sli.assembly := by
  unfold State.linkAlive; split <;> simp

@[simp] theorem State.linkAlive_sli_damaged (s : State) :
    (s.linkAlive).sli.damaged = s.sli.damaged := by
  unfold State.linkAlive; split <;> simp

@[simp] theorem State.linkAlive_sli_gap (s : State) :
    (s.linkAlive).sli.gap = s.sli.gap := by
  unfold State.linkAlive; split <;> simp

@[simp] theorem State.linkAlive_sli_inbound (s : State) :
    (s.linkAlive).sli.inbound = s.sli.inbound := by
  unfold State.linkAlive; split <;> simp

@[simp] theorem State.linkAlive_sli_replies (s : State) :
    (s.linkAlive).sli.replies = s.sli.replies := by
  unfold State.linkAlive; split <;> simp

@[simp] theorem State.linkAlive_sli_posNotice (s : State) :
    (s.linkAlive).sli.posNotice = s.sli.posNotice := by
  unfold State.linkAlive; split <;> simp

@[simp] theorem State.linkAlive_sli_orderNotice (s : State) :
    (s.linkAlive).sli.orderNotice = s.sli.orderNotice := by
  unfold State.linkAlive; split <;> simp

@[simp] theorem State.linkAlive_sli_linkNotice (s : State) :
    (s.linkAlive).sli.linkNotice = s.sli.linkNotice := by
  unfold State.linkAlive; split <;> simp

@[simp] theorem State.linkAlive_sli_haltedSent (s : State) :
    (s.linkAlive).sli.haltedSent = s.sli.haltedSent := by
  unfold State.linkAlive; split <;> simp

@[simp] theorem State.linkAlive_sli_control (s : State) :
    (s.linkAlive).sli.control = s.sli.control := by
  unfold State.linkAlive; split <;> simp

@[simp] theorem State.linkAlive_sli_haltedBy (s : State) :
    (s.linkAlive).sli.haltedBy = s.sli.haltedBy := by
  unfold State.linkAlive; split <;> simp

@[simp] theorem State.linkAlive_sli_sending (s : State) :
    (s.linkAlive).sli.sending = s.sli.sending := by
  unfold State.linkAlive; split <;> simp

@[simp] theorem State.linkAlive_pins (s : State) :
    (s.linkAlive).pins = s.pins := by
  unfold State.linkAlive; split <;> simp

@[simp] theorem State.linkAlive_freeCount (s : State) :
    (s.linkAlive).freeCount = s.freeCount := by
  unfold State.linkAlive; split <;> simp

@[simp] theorem State.linkAlive_pending (s : State) :
    (s.linkAlive).pending = s.pending := by
  unfold State.linkAlive; split <;> simp

end Sys2Proof.Machine
end

