-- ==== Sys2Proof/WellFormed.lean ====
section
/-! DEFINITION. When a command is well formed. Its own operands are well formed by their types (a column's
four levels, a character on the line, one of the 64 slots, one of the eight loops). What is left to check is
the message body that a message command takes, by the rule that owns the message, and that the part's state
calls for the command at all: a command it does not call for does nothing (log entry 1). -/

namespace Sys2Proof.Machine

/-! ### Message bodies -/

/-- The length that a valid message's body can have: a header at least, and 40 bytes at most (R162, R165). -/
def bodyLengthFits (b : List Byte) : Bool := decide (headerLength ≤ b.length ∧ b.length ≤ 40)

/-- The fields of a body can be read, by the rule that owns messages of its kind: R30 for an OFFER, R130 for
a SET, R148 for a CADENCE-LOAD, R126 for a POSITION, R178 for an AUDIT-ENTRY, R28 for a FAR-END. Any other
inbound kind reads any body (R174), and a kind that is none of the fourteen reads none (R166). -/
def bodyReads (b : List Byte) : Bool :=
  match commandOfKind (kindOf b) with
  | .offer => (readOffer b).isSome
  | .set => (readSet b).isSome
  | .cadenceLoad => (readLoad b).isSome
  | .position => (readPosition b).isSome
  | .auditEntry => (readEntry b).isSome
  | .farEnd => (readFarEnd b).isSome
  | .unknownKind => false
  | _ => true

/-- A message body is well formed. -/
def bodyWellFormed (b : List Byte) : Bool := bodyLengthFits b && bodyReads b

/-! ### The commands that a state calls for -/

/-- The key event `e` stands at the head of the key event queue (R87). -/
def State.keyWaits (s : State) (e : KeyEvent) : Bool := decide (s.ksc.queue.head? = some e)

/-- The message that command `c` hands on stands at the head of the inbound queue, and the reply group has a
free entry (R166). -/
def State.messageWaits (s : State) (c : Instr) : Bool :=
  s.sli.inbound.head?.any (fun b => decide (commandOfKind (kindOf b) = c))
    && decide (s.sli.replies.length < Config.replyRoom)

/-- The state calls for command `c`. Reset, key scans, characters and the beats of the time base come
whatever the state. -/
def State.callsFor (s : State) (c : Instr) : Bool :=
  match c with
  | .powerOnReset _ | .keyScan _ | .receiveCharacter _ | .receivedHalt | .receivedGo | .linkBaseTick
  | .confirmBeat | .agingTick | .custodyCountTick | .autoAnswer | .cadenceStep | .epochBoundary => true
  | .answer => s.keyWaits .answer
  | .loopKey k => s.keyWaits (.loop k)
  | .holdKey => s.keyWaits .hold
  | .release => s.keyWaits .release
  | .extendKey => s.keyWaits .extend
  | .call => s.keyWaits .call
  | .swap => s.keyWaits .swap
  | .joinKey => s.keyWaits .join
  | .cancel => s.keyWaits .cancel
  | .parkKey => s.keyWaits .park
  | .retrieve => s.keyWaits .retrieve
  | .positionKey => s.keyWaits .position
  | .gapTimeout => decide (Config.gapLimit ≤ s.sli.gap + 1 ∧ s.sli.rx ≠ .hunt)
  | .supervisionTimeout => decide (s.sli.link = .up ∧ s.window ≤ s.sli.supCount + 1)
  | .offer => s.messageWaits .offer
  | .poll => s.messageWaits .poll
  | .set => s.messageWaits .set
  | .cadenceLoad => s.messageWaits .cadenceLoad
  | .cadenceCommit => s.messageWaits .cadenceCommit
  | .position => s.messageWaits .position
  | .auditEntry => s.messageWaits .auditEntry
  | .auditEnd => s.messageWaits .auditEnd
  | .restart => s.messageWaits .restart
  | .confirm => s.messageWaits .confirm
  | .cleared => s.messageWaits .cleared
  | .delivered => s.messageWaits .delivered
  | .campFree => s.messageWaits .campFree
  | .farEnd => s.messageWaits .farEnd
  | .unknownKind => s.messageWaits .unknownKind
  | .transmitStart => s.mayTransmit && s.hasMessage
  | .transmitEnd => s.sli.sending.isSome
  | .sendControlCharacter => s.sli.control.isSome
  | .confirmTimeout p => !s.frozen && (s.confirmTimer p).any (· ≤ 1)
  | .custodyTimerExpiry p => (s.timer p).reported
  | .expiryRetry p => !s.isHeld && (s.timer p).waiting

/-- The command takes a message from the inbound queue. -/
def takesMessage (c : Instr) : Bool :=
  match c with
  | .offer | .poll | .set | .cadenceLoad | .cadenceCommit | .position | .auditEntry | .auditEnd
  | .restart | .confirm | .cleared | .delivered | .campFree | .farEnd | .unknownKind => true
  | .powerOnReset _ | .keyScan _ | .answer | .loopKey _ | .holdKey | .release | .extendKey | .call
  | .swap | .joinKey | .cancel | .parkKey | .retrieve | .positionKey | .receiveCharacter _
  | .receivedHalt | .receivedGo | .gapTimeout | .linkBaseTick | .supervisionTimeout | .transmitStart
  | .transmitEnd | .sendControlCharacter | .confirmBeat | .confirmTimeout _ | .agingTick
  | .custodyCountTick | .custodyTimerExpiry _ | .autoAnswer | .expiryRetry _ | .cadenceStep
  | .epochBoundary => false

/-- Command `c` is well formed in `s`: the state calls for it, and a message it takes is well formed. -/
def State.wellFormed (s : State) (c : Instr) : Bool :=
  s.callsFor c && (!takesMessage c || s.sli.inbound.head?.any bodyWellFormed)

end Sys2Proof.Machine
end

