-- ==== Sys2Proof/Laws/Ops.lean ====
section
/-! SUPPORT. What each shared operation does, said once: the slot, the timer and the leaf it writes, and the
records it leaves alone. A proof about a command cites these lemmas and unfolds no operation. -/

namespace Sys2Proof.Machine

/-! ### Reading -/

theorem SlotState.record?_eq_some {c : SlotState} {r : Record} : c.record? = some r ↔ c = .live r := by
  cases c <;> simp [SlotState.record?]

theorem State.record?_eq_some {s : State} {p : Slot} {r : Record} :
    s.record? p = some r ↔ s.slot p = .live r := SlotState.record?_eq_some

@[simp] theorem SlotState.record?_live (r : Record) : (SlotState.live r).record? = some r := rfl

@[simp] theorem SlotState.record?_free : SlotState.free.record? = none := rfl

@[simp] theorem SlotState.record?_reserved (p : Slot) : (SlotState.reserved p).record? = none := rfl

@[simp] theorem SlotState.ref?_live (r : Record) : (SlotState.live r).ref? = some r.ref := rfl

@[simp] theorem mem_slots (p : Slot) : p ∈ slots := List.mem_finRange p

/-- The slot that `find?` answers satisfies the test. -/
theorem find_slots_some {f : Slot → Bool} {p : Slot} (h : slots.find? f = some p) : f p = true :=
  List.find?_some h

/-- `find?` answers none exactly where no slot satisfies the test. -/
theorem find_slots_none {f : Slot → Bool} : slots.find? f = none ↔ ∀ p, f p = false := by
  simp

/-- The lowest FREE slot is FREE. -/
theorem State.lowestFree_free {s : State} {p : Slot} (h : s.lowestFree = some p) : s.slot p = .free := by
  simpa using find_slots_some h

/-- The headset slot holds a record in ACTIVE or SETUP. -/
theorem State.headset_some {s : State} {p : Slot} (h : s.headset = some p) :
    ∃ r, s.record? p = some r ∧ r.onHeadset = true := by
  simpa [Option.any_eq_true] using find_slots_some h

/-- The slot that carries loop `k` holds a record with that loop. -/
theorem State.onLoop_some {s : State} {k : Loop} {p : Slot} (h : s.onLoop k = some p) :
    ∃ r, s.record? p = some r ∧ r.loop = some k := by
  simpa [Option.any_eq_true] using find_slots_some h

/-- The slot PARKED at orbit `o` holds a PARKED record with that orbit. -/
theorem State.parkedAt_some {s : State} {o : Orbit} {p : Slot} (h : s.parkedAt o = some p) :
    ∃ r, s.record? p = some r ∧ r.state = .parked ∧ r.orbit = some o := by
  simpa [Option.any_eq_true] using find_slots_some h

/-! ### A write to a slot -/

theorem State.slot_put (s : State) (p q : Slot) (c : SlotState) :
    (s.put p c).slot q = if p = q then c else s.slot q := by
  simp [State.slot, Vector.getElem_set, Fin.ext_iff]

@[simp] theorem State.slot_put_self (s : State) (p : Slot) (c : SlotState) : (s.put p c).slot p = c := by
  simp [State.slot_put]

theorem State.slot_put_ne (s : State) {p q : Slot} (c : SlotState) (h : p ≠ q) :
    (s.put p c).slot q = s.slot q := by simp [State.slot_put, h]

theorem State.record?_put (s : State) (p q : Slot) (c : SlotState) :
    (s.put p c).record? q = if p = q then c.record? else s.record? q := by
  unfold State.record?; rw [State.slot_put]; split <;> rfl

theorem State.timer_setTimer (s : State) (p q : Slot) (t : Timer) :
    (s.setTimer p t).timer q = if p = q then t else s.timer q := by
  simp [State.timer, Vector.getElem_set, Fin.ext_iff]

@[simp] theorem State.slot_setTimer (s : State) (p q : Slot) (t : Timer) :
    (s.setTimer p t).slot q = s.slot q := rfl

@[simp] theorem State.record?_setTimer (s : State) (p q : Slot) (t : Timer) :
    (s.setTimer p t).record? q = s.record? q := rfl

@[simp] theorem State.timer_put (s : State) (p q : Slot) (c : SlotState) :
    (s.put p c).timer q = s.timer q := rfl

/-- Everything a write to a slot does: the table, the index, PSEL, and nothing else. -/
theorem State.put_eq (s : State) (p : Slot) (c : SlotState) :
    s.put p c =
      { s with
        ccc.table := s.ccc.table.set p c
        ccc.index := reindex s.ccc.index p (s.slot p).ref? c.ref?
        psel := (s.put p c).psel } := rfl

/-! ### PSEL's leaf under a write -/

theorem Psel.setLeaf_leaves (ps : Psel) (p : Slot) (l : Option QueueFields) :
    (ps.setLeaf p l).leaves = ps.leaves.set p l := by
  unfold Psel.setLeaf
  split
  · next h => subst h; exact (Vector.set_getElem_self p.isLt).symm
  · rfl

@[simp] theorem State.put_psel_leaves (s : State) (p : Slot) (c : SlotState) :
    (s.put p c).psel.leaves = s.psel.leaves.set p c.leaf := by
  simp [State.put_psel, Psel.setLeaf_leaves]

/-- A write to a slot keeps every leaf as its slot's record gives it (R78, R79). -/
theorem State.put_leavesExact {s : State} (h : s.LeavesExact) (p : Slot) (c : SlotState) :
    (s.put p c).LeavesExact := by
  intro q
  rw [State.slot_put, State.put_psel_leaves]
  have hq := h q
  by_cases hpq : p = q
  · subst hpq; simp
  · have hv : ¬ p.val = q.val := fun e => hpq (Fin.ext e)
    simpa [Vector.getElem_set, hpq, hv] using hq

/-- A write that leaves the leaf as it is leaves the tree as it is (R79). -/
theorem Psel.setLeaf_same {ps : Psel} {p : Slot} {l : Option QueueFields} (h : ps.leaves[p] = l) :
    ps.setLeaf p l = ps := by simp [Psel.setLeaf, h]

/-- A write to a slot that is QUEUED neither before nor after it leaves PSEL as it is (R79, R82). -/
theorem State.put_psel_idle {s : State} (h : s.LeavesExact) {p : Slot} {c : SlotState}
    (h0 : (s.slot p).queuedTenant = none) (h1 : c.queuedTenant = none) (h2 : (s.slot p).leaf = c.leaf) :
    (s.put p c).psel = s.psel := by
  rw [State.put_psel, h0, h1]
  exact Psel.setLeaf_same ((h p).trans h2)

/-- A record that is not QUEUED has an empty leaf and counts for no tenant. -/
theorem SlotState.leaf_live_idle {r : Record} (h : r.state ≠ .queued) :
    (SlotState.live r).leaf = none ∧ (SlotState.live r).queuedTenant = none := by
  simp [SlotState.leaf, SlotState.queuedTenant, h]

/-! ### The reference index under a write (R5) -/

@[simp] theorem reindex_same (ix : List (Word × Slot)) (p : Slot) (w : Option Word) :
    reindex ix p w w = ix := by simp [reindex]

/-- A slot that goes on holding the same reference leaves the index as it is. -/
theorem State.put_index_same {s : State} {p : Slot} {c : SlotState} (h : (s.slot p).ref? = c.ref?) :
    (s.put p c).ccc.index = s.ccc.index := by simp [h]

/-- An entry is in the index with one added exactly when it is the new one or was there before. -/
theorem mem_insertRef {w : Word} {p : Slot} {ix : List (Word × Slot)} {e : Word × Slot} :
    e ∈ insertRef w p ix ↔ e = (w, p) ∨ e ∈ ix := by
  induction ix with
  | nil => simp [insertRef]
  | cons x xs ih =>
    unfold insertRef
    split
    · simp
    · simp only [List.mem_cons, ih]; tauto

/-- Adding an entry whose reference is new keeps the index in rising order. -/
theorem insertRef_pairwise {w : Word} {p : Slot} {ix : List (Word × Slot)}
    (h : ix.Pairwise fun a b => a.1.toNat < b.1.toNat) (hw : ∀ e ∈ ix, e.1 ≠ w) :
    (insertRef w p ix).Pairwise fun a b => a.1.toNat < b.1.toNat := by
  induction ix with
  | nil => simp [insertRef]
  | cons x xs ih =>
    rw [List.pairwise_cons] at h
    unfold insertRef
    split
    · next hle =>
      have hne : x.1.toNat ≠ w.toNat := fun e => hw x (by simp) (BitVec.eq_of_toNat_eq e)
      refine List.pairwise_cons.2 ⟨fun e he => ?_, List.pairwise_cons.2 h⟩
      rcases List.mem_cons.1 he with rfl | he
      · dsimp only; omega
      · have := h.1 e he; dsimp only; omega
    · next hgt =>
      refine List.pairwise_cons.2 ⟨fun e he => ?_, ih h.2 fun e he => hw e (by simp [he])⟩
      rcases mem_insertRef.1 he with rfl | he
      · dsimp only; omega
      · exact h.1 e he

/-! ### A record changed in place -/

theorem State.update_live {s : State} {p : Slot} {r : Record} (h : s.record? p = some r)
    (f : Record → Record) : s.update p f = s.put p (.live (f r)) := by simp [State.update, h]

theorem State.update_dead {s : State} {p : Slot} (h : s.record? p = none) (f : Record → Record) :
    s.update p f = s := by simp [State.update, h]

theorem State.record?_update (s : State) (p q : Slot) (f : Record → Record) :
    (s.update p f).record? q = if p = q then (s.record? q).map f else s.record? q := by
  rcases hr : s.record? p with _ | r
  · rw [State.update_dead hr]
    split
    · next h => subst h; simp [hr]
    · rfl
  · rw [State.update_live hr, State.record?_put]
    split
    · next h => subst h; simp [hr]
    · rfl

theorem State.slot_update_ne (s : State) {p q : Slot} (f : Record → Record) (h : p ≠ q) :
    (s.update p f).slot q = s.slot q := by
  unfold State.update
  split
  · exact State.slot_put_ne _ _ h
  · rfl

theorem State.slot_update_self {s : State} {p : Slot} {r : Record} (h : s.record? p = some r)
    (f : Record → Record) : (s.update p f).slot p = .live (f r) := by simp [State.update_live h]

@[simp] theorem State.timer_update (s : State) (p q : Slot) (f : Record → Record) :
    (s.update p f).timer q = s.timer q := by simp [State.timer]

theorem State.update_leavesExact {s : State} (h : s.LeavesExact) (p : Slot) (f : Record → Record) :
    (s.update p f).LeavesExact := by
  unfold State.update
  split
  · exact State.put_leavesExact h _ _
  · exact h

/-- A change in place that keeps the reference, the state, the tenant, the queue fields and whether an order
is pending leaves the index and PSEL as they are. -/
theorem State.update_psel_idle {s : State} (h : s.LeavesExact) {p : Slot} {f : Record → Record}
    (hf : ∀ r, s.record? p = some r → (f r).ref = r.ref ∧ (f r).state = r.state ∧
      (f r).tenant = r.tenant ∧ (f r).queue = r.queue ∧ ((f r).order = none ↔ r.order = none)) :
    (s.update p f).psel = s.psel ∨ ∃ r, s.record? p = some r ∧ r.state = .queued := by
  rcases hr : s.record? p with _ | r
  · exact .inl (by rw [State.update_dead hr])
  · by_cases hq : r.state = .queued
    · exact .inr ⟨r, rfl, hq⟩
    · refine .inl ?_
      have hs := hf r hr
      have h1 : (f r).state ≠ .queued := by rw [hs.2.1]; exact hq
      have hsl := State.record?_eq_some.1 hr
      rw [State.update_live hr]
      refine State.put_psel_idle h ?_ ?_ ?_
      · rw [hsl]; exact (SlotState.leaf_live_idle hq).2
      · exact (SlotState.leaf_live_idle h1).2
      · rw [hsl, (SlotState.leaf_live_idle hq).1, (SlotState.leaf_live_idle h1).1]

/-! ### Entering a state -/

theorem State.slot_enter (s : State) (p q : Slot) (r : Record) :
    (s.enter p r).slot q = if p = q then .live r else s.slot q := by
  unfold State.enter; rw [State.slot_setTimer, State.slot_put]

theorem State.timer_enter (s : State) (p q : Slot) (r : Record) :
    (s.enter p r).timer q = if p = q then timerFor (s.profile r.tenant) r.state else s.timer q := by
  unfold State.enter; rw [State.timer_setTimer, State.timer_put]

theorem State.enter_leavesExact {s : State} (h : s.LeavesExact) (p : Slot) (r : Record) :
    (s.enter p r).LeavesExact := State.put_leavesExact h p (.live r)

/-- The timer of a state that has a kind is `armed` from the tenant's reload (R114, R115). -/
theorem timerFor_armed {st : Custody} {k : TimerKind} (f : Profile) (h : st.timerKind = some k) :
    timerFor f st = armed k (f.reload k) := by simp [timerFor, h, armed]

/-- The timer of a state that has none is stopped (R114). -/
theorem timerFor_stopped {st : Custody} (f : Profile) (h : st.timerKind = none) :
    timerFor f st = Timer.stopped := by simp [timerFor, h]

theorem State.slot_enterQueued (s : State) (p q : Slot) (r : Record) :
    (s.enterQueued p r).slot q = if p = q then .live (s.queuedRecord r) else s.slot q := by
  unfold State.enterQueued; rw [State.slot_enter]; rfl

theorem State.timer_enterQueued (s : State) (p q : Slot) (r : Record) :
    (s.enterQueued p r).timer q = if p = q then Timer.stopped else s.timer q := by
  unfold State.enterQueued; rw [State.timer_enter]; rfl

/-! ### Small steps of an order's issue and end -/

theorem State.slot_setLock_ne (s : State) {q : Option Slot} {x : Slot} (l : Option Slot) (h : q ≠ some x) :
    (s.setLock q l).slot x = s.slot x := by
  cases q with
  | none => rfl
  | some q => exact State.slot_update_ne s _ fun e => h (by rw [e])

theorem State.setLock_leavesExact {s : State} (h : s.LeavesExact) (q l : Option Slot) :
    (s.setLock q l).LeavesExact := by
  cases q with
  | none => exact h
  | some q => exact State.update_leavesExact h q _

theorem State.slot_reserveSlot_ne (s : State) (p : Slot) {o : Order} {x : Slot}
    (h : o.reservedSlot ≠ some x) : (s.reserveSlot p o).slot x = s.slot x := by
  unfold State.reserveSlot
  split
  · next f hf => exact State.slot_put_ne s _ fun e => h (by rw [hf, e])
  · rfl

theorem State.slot_reserveSlot_self (s : State) (p : Slot) {o : Order} {f : Slot}
    (h : o.reservedSlot = some f) : (s.reserveSlot p o).slot f = .reserved p := by
  simp [State.reserveSlot, h]

theorem State.reserveSlot_leavesExact {s : State} (h : s.LeavesExact) (p : Slot) (o : Order) :
    (s.reserveSlot p o).LeavesExact := by
  unfold State.reserveSlot
  split
  · exact State.put_leavesExact h _ _
  · exact h

theorem State.slot_issueOrder (s : State) (p x : Slot) (o : Order) :
    (s.issueOrder p o).slot x =
      (((s.reserveSlot p o).update p fun r => { r with order := some o }).setLock o.secondary
        (some p)).slot x := rfl

/-- The issue of an order writes its primary (R51). -/
theorem State.slot_issueOrder_primary {s : State} {p : Slot} {r : Record} {o : Order}
    (hr : s.record? p = some r) (h1 : o.secondary ≠ some p) (h2 : o.reservedSlot ≠ some p) :
    (s.issueOrder p o).slot p = .live { r with order := some o } := by
  rw [State.slot_issueOrder, State.slot_setLock_ne _ _ h1]
  refine State.slot_update_self (r := r) ?_ _
  unfold State.record?
  rw [State.slot_reserveSlot_ne s p h2]
  exact hr

/-- The issue of an order leaves every slot alone but its primary, its secondary and the one it reserves
(R51). -/
theorem State.slot_issueOrder_other {s : State} {p x : Slot} {o : Order} (hx : x ≠ p)
    (h1 : o.secondary ≠ some x) (h2 : o.reservedSlot ≠ some x) :
    (s.issueOrder p o).slot x = s.slot x := by
  rw [State.slot_issueOrder, State.slot_setLock_ne _ _ h1, State.slot_update_ne _ _ (Ne.symm hx),
    State.slot_reserveSlot_ne s p h2]

/-- The issue of an order locks its secondary (R53). -/
theorem State.slot_issueOrder_secondary {s : State} {p q : Slot} {u : Record} {o : Order}
    (hq : o.secondary = some q) (hu : s.record? q = some u) (hpq : q ≠ p) (h2 : o.reservedSlot ≠ some q) :
    (s.issueOrder p o).slot q = .live { u with lock := some p } := by
  rw [State.slot_issueOrder, hq]
  refine State.slot_update_self (r := u) ?_ _
  unfold State.record?
  rw [State.slot_update_ne _ _ (Ne.symm hpq), State.slot_reserveSlot_ne s p h2]
  exact hu

theorem State.issueOrder_leavesExact {s : State} (h : s.LeavesExact) (p : Slot) (o : Order) :
    (s.issueOrder p o).LeavesExact :=
  State.setLock_leavesExact
    (State.update_leavesExact (State.reserveSlot_leavesExact h p o) p _) o.secondary (some p)

/-- What the issue of an order leaves alone besides the call table and PSEL's contest (R51). -/
theorem State.issueOrder_frame (s : State) (p : Slot) (o : Order) :
    (s.issueOrder p o).tbt = s.tbt ∧ (s.issueOrder p o).pos = s.pos ∧ (s.issueOrder p o).ind = s.ind
      ∧ (s.issueOrder p o).pins = s.pins ∧ (s.issueOrder p o).sli.orders = s.sli.orders ++ [p]
      ∧ (s.issueOrder p o).psel.working = s.psel.working ∧ (s.issueOrder p o).psel.seq = s.psel.seq := by
  refine ⟨by simp, by simp, by simp, by simp, ?_, by simp, by simp⟩
  simp [State.issueOrder]

/-- Where R50 allows an order: link UP, no resync, room in the order group, primary and secondary unfenced,
and no claim where the kind takes one. -/
theorem State.mayIssue_iff {s : State} {p : Slot} {o : Order} :
    s.mayIssue p o = true ↔
      s.isHeld = false ∧ s.OrderRoom ∧ s.unfenced p = true ∧ (∀ q ∈ o.secondary, s.unfenced q = true)
        ∧ (o.takesClaim = true → s.ccc.claim = none) := by
  simp only [State.mayIssue, Bool.and_eq_true, Bool.not_eq_true', decide_eq_true_eq, Option.all_eq_true,
    Bool.or_eq_true, Option.isNone_iff_eq_none, Option.mem_def]
  constructor
  · rintro ⟨⟨⟨⟨h1, h2⟩, h3⟩, h4⟩, h5⟩
    exact ⟨h1, h2, h3, h4, fun h => h5.resolve_left (by simp [h])⟩
  · rintro ⟨h1, h2, h3, h4, h5⟩
    refine ⟨⟨⟨⟨h1, h2⟩, h3⟩, h4⟩, ?_⟩
    cases ht : o.takesClaim
    · exact .inl rfl
    · exact .inr (h5 ht)

/-- Timers, aging and orders are held exactly while the link is DOWN or a resync is under way (R175, R177). -/
theorem State.isHeld_iff {s : State} : s.isHeld = true ↔ s.sli.link = .down ∨ s.ccc.resync = true := by
  simp [State.isHeld, State.frozen]

/-! ### The selection order (R76) -/

theorem seqOlder_iff (a b : BitVec 16) :
    seqOlder a b = true ↔
      1 ≤ (65536 + b.toNat - a.toNat) % 65536 ∧ (65536 + b.toNat - a.toNat) % 65536 ≤ 32767 := by
  have ha := a.isLt
  have : (b - a).toNat = (65536 + b.toNat - a.toNat) % 65536 := by
    rw [BitVec.toNat_sub]; congr 1; omega
  simp [seqOlder, this]

/-- The four tests of R76, spelled out. -/
theorem comesFirst_iff (a b : QueueFields) (p q : Slot) :
    comesFirst a p b q = true ↔
      a.key < b.key ∨ (a.key = b.key ∧ (b.wait < a.wait ∨ (a.wait = b.wait ∧
        ((1 ≤ (65536 + b.seq.toNat - a.seq.toNat) % 65536
            ∧ (65536 + b.seq.toNat - a.seq.toNat) % 65536 ≤ 32767)
          ∨ (((65536 + b.seq.toNat - a.seq.toNat) % 65536 = 0
              ∨ (65536 + b.seq.toNat - a.seq.toNat) % 65536 = 32768) ∧ p < q))))) := by
  have ha := a.seq.isLt
  have hb := b.seq.isLt
  have h1 := seqOlder_iff a.seq b.seq
  have h2 := seqOlder_iff b.seq a.seq
  unfold comesFirst
  split_ifs with hk hw hx hy
  · rw [decide_eq_true_eq]; omega
  · rw [decide_eq_true_eq]; omega
  · rw [h1] at hx
    exact iff_of_true rfl (by omega)
  · rw [h2] at hy
    exact iff_of_false id (by omega)
  · rw [h1] at hx
    rw [h2] at hy
    rw [decide_eq_true_eq, Fin.lt_def]
    omega

/-! ### The line (R161, R167) -/

/-- Something of a frame is always left after its SOM: its EOM at least. -/
@[simp] theorem frameTail_ne_nil (body : List Byte) : frameTail body ≠ [] := by simp [frameTail]

@[simp] theorem charLevels_length (b : Byte) : (charLevels b).length = 11 := by simp [charLevels]

/-- A control character changes the pending one, the message being sent, TXD and the count of free values. -/
theorem State.sendControl_frame (s : State) (c : Control) :
    s.sendControl c =
      { s with
        sli := { s.sli with control := none, sending := (s.sendControl c).sli.sending }
        pins.txd := (s.sendControl c).pins.txd
        freeCount := (s.sendControl c).freeCount } := by
  unfold State.sendControl
  cases h : s.sli.sending <;> simp [h]

theorem State.sendControl_idle {s : State} (h : s.sli.sending = none) (c : Control) :
    s.sendControl c = { s with sli.control := none, pins.txd := [charLevels c.char] } := by
  simp [State.sendControl, h]

/-- Between two characters: some of what is left of the frame goes out first, and some stays. -/
theorem State.sendControl_between {s : State} {m : Sending} (h : s.sli.sending = some m)
    (hl : m.left ≠ []) (c : Control) :
    ∃ n, n < m.left.length ∧ (s.sendControl c).sli.sending = some { m with left := m.left.drop n }
      ∧ m.left.drop n ≠ []
      ∧ (s.sendControl c).pins.txd = (m.left.take n ++ [c.char]).map charLevels := by
  have hpos : 0 < m.left.length := List.length_pos_of_ne_nil hl
  refine ⟨Config.charsGone s.freeCount % m.left.length, Nat.mod_lt _ hpos, ?_, ?_, ?_⟩
  · simp [State.sendControl, h]
  · have := Nat.mod_lt (Config.charsGone s.freeCount) hpos
    intro hn
    have := congrArg List.length hn
    simp at this
    omega
  · simp [State.sendControl, h]

/-! ### Keys -/

/-- A key other than POSITION, taken while keys are barred, is refused (R88). -/
theorem State.attendantKey_barred {s : State} {e : KeyEvent} {rest : List KeyEvent}
    {act : State → State} (h : s.ksc.queue = e :: rest) (hb : s.keysBarred = true) :
    s.attendantKey e act = { s with ksc.queue := rest }.refuseKey := by
  have hb' : State.keysBarred { s with ksc.queue := rest } = true := hb
  simp [State.attendantKey, State.takeKey, h, hb']

/-- A key other than POSITION, taken while keys are not barred, is judged by its own rule (R88). -/
theorem State.attendantKey_open {s : State} {e : KeyEvent} {rest : List KeyEvent}
    {act : State → State} (h : s.ksc.queue = e :: rest) (hb : s.keysBarred = false) :
    s.attendantKey e act = act { s with ksc.queue := rest } := by
  have hb' : State.keysBarred { s with ksc.queue := rest } = false := hb
  simp [State.attendantKey, State.takeKey, h, hb']

/-- Another key event at the head, or none, leaves the state alone (log entry 1). -/
theorem State.attendantKey_other {s : State} {e : KeyEvent} {act : State → State}
    (h : s.keyWaits e = false) : s.attendantKey e act = s := by
  unfold State.attendantKey State.takeKey
  split
  · rfl
  · next x rest hq =>
    have : x ≠ e := by simpa [State.keyWaits, hq] using h
    rw [if_neg this]

/-- A refused key requests a chirp, unless one is playing, and changes nothing else (R87, R154). -/
theorem State.refuseKey_eq (s : State) : s.refuseKey = s.chirped := by
  unfold State.refuseKey State.requestChirp State.chirped
  split
  · next h => simp [h]
  · next h =>
    have : s.ind.chirp.isNone = false := by simpa [Option.isSome_iff_ne_none] using h
    simp [this]

/-- R88 lets a key be judged exactly where the state takes keys. -/
theorem State.keysBarred_iff {s : State} : s.keysBarred = false ↔ s.TakesKeys := by
  have hl : s.sli.link ≠ .down ↔ s.sli.link = .up := by cases s.sli.link <;> simp
  simp [State.keysBarred, State.isHeld, State.frozen, State.TakesKeys, hl]

/-! ### Messages -/

/-- A message of the owner's kind at the head is handed on, and the flow-control comparison follows (R166,
R167). -/
theorem State.handOn_ours {s : State} {ours : Byte → Bool} {take : List Byte → State → State}
    {b : List Byte} {rest : List (List Byte)} (h : s.sli.inbound = b :: rest) (hk : ours (kindOf b) = true)
    (hr : s.sli.replies.length < Config.replyRoom) :
    s.handOn ours take = (take b { s with sli.inbound := rest }).compareFlow := by
  simp [State.handOn, h, hk, hr]

/-- Where no message of the owner's kind is at the head, or the reply group is full, nothing happens (log
entry 1). -/
theorem State.handOn_other {s : State} {ours : Byte → Bool} {take : List Byte → State → State}
    (h : ∀ b ∈ s.sli.inbound.head?, ours (kindOf b) = true → ¬ s.sli.replies.length < Config.replyRoom) :
    s.handOn ours take = s := by
  unfold State.handOn
  split
  · rfl
  · next b rest hb =>
    rw [if_neg]
    rintro ⟨h1, h2⟩
    exact h b (by simp [hb]) h1 h2

/-- A message command of kind `k` that completes on its message, as `HandsOn`. -/
theorem handsOn_of {c : Instr} {s : State} {k : Byte} {take : List Byte → State → State} {b : List Byte}
    {rest : List (List Byte)} {P : State → Prop}
    (hc : exec c s = .next (s.handOn (· = k) take)) (hm : s.MessageWaits k b rest)
    (hP : P (take b { s with sli.inbound := rest })) : HandsOn c s P :=
  ⟨_, by rw [hc, State.handOn_ours hm.1 (by simp [hm.2.1]) hm.2.2], hP⟩

/-! ### The position and resync -/

/-- The completion of a close moves the position only from CLOSING to CLOSED (R127). -/
theorem State.closeIfEmpty_cases (s : State) :
    s.closeIfEmpty = s ∨ (s.pos.state = .closing ∧ s.liveCount = 0 ∧
      s.closeIfEmpty = { s with pos.state := .closed, sli.posNotice := some .closed }) := by
  unfold State.closeIfEmpty
  split
  · next h => exact .inr ⟨h.1, h.2, by simp [State.setPosition, h.1]⟩
  · exact .inl rfl

/-- Entry to resync does nothing while one is under way (R176). -/
theorem State.enterResync_again {s : State} (h : s.ccc.resync = true) : s.enterResync = s := by
  simp [State.enterResync, h]

/-- Entry to resync sets the flag and raises the AUDIT-REQUEST notice (R176). -/
theorem State.enterResync_sets {s : State} (h : s.ccc.resync = false) :
    s.enterResync.ccc.resync = true ∧ s.enterResync.sli.auditNotice = true := by
  simp [State.enterResync, h]

/-- Every state an ORDER-FAULT leads to is in resync (R68). -/
@[simp] theorem State.orderFault_resync (s : State) (k : OrderFault) (ref : Word) :
    (s.orderFault k ref).ccc.resync = true := by
  unfold State.orderFault
  cases h : s.ccc.resync
  · exact (State.enterResync_sets (s := s.orderNotice k ref) h).1
  · rw [State.enterResync_again (s := s.orderNotice k ref) h]; exact h

/-! ### Commands that the state does not call for -/

/-- A command that its state does not call for does nothing (log entry 1). -/
theorem exec_not_called {c : Instr} {s : State} (h : s.callsFor c = false) : exec c s = .next s := by
  have msg : ∀ {d : Instr} {ours : Byte → Bool} {take : List Byte → State → State},
      (∀ k : Byte, ours k = true → commandOfKind k = d) → s.messageWaits d = false →
      s.handOn ours take = s := by
    intro d ours take hk hw
    refine State.handOn_other fun b hb ho hr => ?_
    have hb' : s.sli.inbound.head? = some b := hb
    simp [State.messageWaits, hb', hk _ ho, hr] at hw
  cases c <;>
    simp only [State.callsFor, Bool.true_eq_false, Bool.and_eq_false_iff, Bool.not_eq_false'] at h <;>
    simp only [exec]
  case answer => exact congrArg _ (State.attendantKey_other h)
  case loopKey => exact congrArg _ (State.attendantKey_other h)
  case holdKey => exact congrArg _ (State.attendantKey_other h)
  case release => exact congrArg _ (State.attendantKey_other h)
  case extendKey => exact congrArg _ (State.attendantKey_other h)
  case call => exact congrArg _ (State.attendantKey_other h)
  case swap => exact congrArg _ (State.attendantKey_other h)
  case joinKey => exact congrArg _ (State.attendantKey_other h)
  case cancel => exact congrArg _ (State.attendantKey_other h)
  case parkKey => exact congrArg _ (State.attendantKey_other h)
  case retrieve => exact congrArg _ (State.attendantKey_other h)
  case positionKey =>
    unfold execPositionKey State.takeKey
    split
    · rfl
    · next x rest hq =>
      have : x ≠ .position := by simpa [State.keyWaits, hq] using h
      rw [if_neg this]
  case gapTimeout => simp [execGapTimeout, of_decide_eq_false h]
  case supervisionTimeout => simp [execSupervisionTimeout, of_decide_eq_false h]
  case unknownKind => exact congrArg _ (msg (by simp) h)
  case transmitStart =>
    unfold execTransmitStart
    rcases h with h | h
    · simp [h]
    · simp only [State.hasMessage, Bool.or_eq_false_iff, Bool.not_eq_false', List.isEmpty_iff,
        Option.isSome_eq_false_iff, Option.isNone_iff_eq_none] at h
      obtain ⟨⟨⟨⟨⟨h1, h2⟩, h3⟩, h4⟩, h5⟩, h6⟩ := h
      simp [State.startMessage, State.startNotice, h1, h2, h3, h4, h5, h6]
  case transmitEnd =>
    have : s.sli.sending = none := by simpa using h
    simp [execTransmitEnd, this]
  case sendControlCharacter =>
    have : s.sli.control = none := by simpa using h
    simp [execSendControlCharacter, this]
  case confirmTimeout p =>
    unfold execConfirmTimeout
    rcases h with h | h
    · simp [h]
    · simp [h]
  case custodyTimerExpiry p => simp [execCustodyTimerExpiry, h]
  case expiryRetry p =>
    unfold execExpiryRetry
    rcases h with h | h <;> simp [h]
  all_goals exact congrArg _ (msg (by intro k hk; rw [of_decide_eq_true hk]; rfl) h)

end Sys2Proof.Machine
end

