-- ==== Sys2Proof/Laws/Orders.lean ====
section
/-! SUPPORT. What the issue of an order does as a whole (R51), in the relation `Issues` of Safety.lean, and
what a write that neither moves a record into or out of QUEUED nor changes its leaf leaves alone. -/

namespace Sys2Proof.Machine

/-! ### Writes that PSEL does not see -/

/-- Counting a tenant up and down again changes no count. -/
theorem Psel.countDown_countUp (ps : Psel) (t : Option Tenant) : (ps.countUp t).countDown t = ps := by
  cases t with
  | none => rfl
  | some t =>
    have : (ps.queued.set t (ps.queued[t] + 1)).set t (ps.queued[t] + 1 - 1) = ps.queued := by
      rw [Vector.set_set]
      exact Vector.set_getElem_self t.isLt
    simp only [Psel.countUp, Psel.countDown]
    have h2 : (ps.queued.set t (ps.queued[t] + 1))[t] = ps.queued[t] + 1 := by simp
    rw [h2, this]

/-- A write that keeps the slot's queued tenant keeps every count (R82). -/
theorem State.put_queued_same {s : State} {p : Slot} {c : SlotState}
    (h : (s.slot p).queuedTenant = c.queuedTenant) : (s.put p c).psel.queued = s.psel.queued := by
  rw [State.put_psel, Psel.setLeaf_queued, h, Psel.countDown_countUp]

/-- A write that keeps the slot's queued tenant and its leaf keeps PSEL. -/
theorem State.put_psel_same {s : State} (hl : s.LeavesExact) {p : Slot} {c : SlotState}
    (h : (s.slot p).queuedTenant = c.queuedTenant) (h2 : (s.slot p).leaf = c.leaf) :
    (s.put p c).psel = s.psel := by
  rw [State.put_psel, h, Psel.countDown_countUp]
  exact Psel.setLeaf_same ((hl p).trans h2)

/-- A change in place that keeps the reference keeps the index (R5). -/
theorem State.update_index_same {s : State} {p : Slot} {f : Record → Record} (h : ∀ r, (f r).ref = r.ref) :
    (s.update p f).ccc.index = s.ccc.index := by
  unfold State.update
  split
  · next r hr =>
    refine State.put_index_same ?_
    rw [State.record?_eq_some.1 hr]
    simp [h]
  · rfl

/-- A change in place that keeps state and tenant keeps every count (R82). -/
theorem State.update_queued_same {s : State} {p : Slot} {f : Record → Record}
    (h : ∀ r, (f r).state = r.state ∧ (f r).tenant = r.tenant) :
    (s.update p f).psel.queued = s.psel.queued := by
  unfold State.update
  split
  · next r hr =>
    refine State.put_queued_same ?_
    rw [State.record?_eq_some.1 hr]
    simp [SlotState.queuedTenant, h r]
  · rfl

/-- A change in place that keeps what PSEL reads of a record keeps PSEL. -/
theorem State.update_psel_same {s : State} (hl : s.LeavesExact) {p : Slot} {f : Record → Record}
    (h : ∀ r, s.record? p = some r → (f r).state = r.state ∧ (f r).tenant = r.tenant ∧
      (f r).queue = r.queue ∧ ((f r).order = none ↔ r.order = none)) :
    (s.update p f).psel = s.psel := by
  unfold State.update
  split
  · next r hr =>
    have h' := h r hr
    refine State.put_psel_same hl ?_ ?_ <;> rw [State.record?_eq_some.1 hr]
    · simp [SlotState.queuedTenant, h']
    · simp [SlotState.leaf, h']
  · rfl

/-! ### The parts of an issue -/

/-- Reserving a FREE slot is not seen by the index or by PSEL. -/
theorem State.reserveSlot_unseen {s : State} (hl : s.LeavesExact) {p : Slot} {o : Order}
    (hf : ∀ f ∈ o.reservedSlot, s.slot f = .free) :
    (s.reserveSlot p o).ccc.index = s.ccc.index ∧ (s.reserveSlot p o).psel = s.psel := by
  unfold State.reserveSlot
  split
  · next f h =>
    have hs := hf f h
    refine ⟨State.put_index_same ?_, State.put_psel_same hl ?_ ?_⟩ <;> rw [hs] <;> rfl
  · exact ⟨rfl, rfl⟩

/-- Setting a lock is not seen by the index or by PSEL. -/
theorem State.setLock_unseen {s : State} (hl : s.LeavesExact) (q l : Option Slot) :
    (s.setLock q l).ccc.index = s.ccc.index ∧ (s.setLock q l).psel = s.psel := by
  cases q with
  | none => exact ⟨rfl, rfl⟩
  | some q =>
    exact ⟨State.update_index_same fun _ => rfl,
      State.update_psel_same hl fun _ _ => ⟨rfl, rfl, rfl, Iff.rfl⟩⟩

/-- The kinds that take the headset claim (R52). -/
theorem Order.takesClaim_iff {o : Order} :
    o.takesClaim = true ↔ o.kind = .connect ∨ o.kind = .dial ∨ (o.kind = .clear ∧ o.secondary.isSome) := by
  unfold Order.takesClaim; cases o.kind <;> simp

/-- The kinds whose issue clears the dial buffer (R51). -/
theorem Order.clearsDial_iff {o : Order} :
    o.clearsDial = true ↔ o.kind = .extend ∨ o.kind = .dial ∨ o.kind = .park := by
  unfold Order.clearsDial; cases o.kind <;> simp

/-! ### The issue as a whole -/

/-- Everything the issue of an order does (R51). The primary is no secondary of its own, and the slot it
reserves is FREE. -/
theorem State.issueOrder_issues {s : State} {p : Slot} {r : Record} {o : Order} (hl : s.LeavesExact)
    (hr : s.record? p = some r) (hs : o.secondary ≠ some p)
    (hf : ∀ f ∈ o.reservedSlot, s.slot f = .free) :
    State.Issues s (s.issueOrder p o) p r o := by
  have hp : s.slot p = .live r := State.record?_eq_some.1 hr
  have hfp : o.reservedSlot ≠ some p := fun e => by simpa [hp] using hf p e
  have hsf : ∀ q ∈ o.secondary, ∀ u ∈ s.record? q, o.reservedSlot ≠ some q := by
    intro q _ u hu e
    have := hf q e
    rw [State.record?_eq_some.1 hu] at this
    cases this
  have hA := State.reserveSlot_unseen (p := p) hl hf
  have hlA := State.reserveSlot_leavesExact hl p o
  have hlB := State.update_leavesExact hlA p fun r => { r with order := some o }
  have hC := State.setLock_unseen hlB o.secondary (some p)
  have hslot : ∀ x : Slot, ((s.issueOrder p o).slot x).leaf = if x = p then none else (s.slot x).leaf := by
    intro x
    by_cases hx : x = p
    · subst hx
      rw [State.slot_issueOrder_primary hr hs hfp]
      simp [SlotState.leaf]
    · rw [if_neg hx]
      by_cases h1 : o.secondary = some x
      · rcases hu : s.record? x with _ | u
        · by_cases h2 : o.reservedSlot = some x
          · have e : (s.issueOrder p o).slot x = .reserved p := by
              rw [State.slot_issueOrder, h1]
              have h3 : ((s.reserveSlot p o).update p fun r => { r with order := some o }).slot x
                  = .reserved p := by
                rw [State.slot_update_ne _ _ (Ne.symm hx), State.slot_reserveSlot_self s p h2]
              have h4 : ((s.reserveSlot p o).update p fun r => { r with order := some o }).record? x
                  = none := by unfold State.record?; rw [h3]; rfl
              simpa [State.setLock, State.update_dead h4] using h3
            rw [e, hf x h2]; rfl
          · have h3 : ((s.reserveSlot p o).update p fun r => { r with order := some o }).slot x
                = s.slot x := by
              rw [State.slot_update_ne _ _ (Ne.symm hx), State.slot_reserveSlot_ne s p h2]
            have h4 : ((s.reserveSlot p o).update p fun r => { r with order := some o }).record? x
                = none := by unfold State.record?; rw [h3]; exact hu
            rw [State.slot_issueOrder, h1]
            simp [State.setLock, State.update_dead h4, h3]
        · rw [State.slot_issueOrder_secondary h1 hu hx (hsf x h1 u hu), State.record?_eq_some.1 hu]
          rfl
      · by_cases h2 : o.reservedSlot = some x
        · have e : (s.issueOrder p o).slot x = .reserved p := by
            rw [State.slot_issueOrder, State.slot_setLock_ne _ _ h1,
              State.slot_update_ne _ _ (Ne.symm hx), State.slot_reserveSlot_self s p h2]
          rw [e, hf x h2]; rfl
        · rw [State.slot_issueOrder_other hx h1 h2]
  have hleaves : (s.issueOrder p o).psel.leaves = s.psel.leaves.set p none := by
    refine Vector.ext fun i hi => ?_
    have h1 : (s.issueOrder p o).psel.leaves[i] = ((s.issueOrder p o).slot ⟨i, hi⟩).leaf :=
      State.issueOrder_leavesExact hl p o ⟨i, hi⟩
    have h2 : s.psel.leaves[i] = (s.slot ⟨i, hi⟩).leaf := hl ⟨i, hi⟩
    rw [h1, hslot, Vector.getElem_set, h2]
    by_cases e : p.val = i
    · subst e; simp
    · have : (⟨i, hi⟩ : Slot) ≠ p := fun h => e (by rw [← h])
      simp [e, this]
  refine ⟨State.slot_issueOrder_primary hr hs hfp, ?_, ?_, ?_, hleaves, ?_, ?_⟩
  · intro q hq u hu
    have hqp : q ≠ p := fun e => hs (by rw [← e]; exact hq)
    exact State.slot_issueOrder_secondary hq hu hqp (hsf q hq u hu)
  · intro f h
    have hfr := hf f h
    have hfp' : f ≠ p := fun e => hfp (by rw [← e]; exact h)
    have h3 : ((s.reserveSlot p o).update p fun r => { r with order := some o }).slot f = .reserved p := by
      rw [State.slot_update_ne _ _ (Ne.symm hfp'), State.slot_reserveSlot_self s p h]
    by_cases h1 : o.secondary = some f
    · have h4 : ((s.reserveSlot p o).update p fun r => { r with order := some o }).record? f = none := by
        unfold State.record?; rw [h3]; rfl
      rw [State.slot_issueOrder, h1]
      simpa [State.setLock, State.update_dead h4] using h3
    · rw [State.slot_issueOrder, State.slot_setLock_ne _ _ h1, h3]
  · intro x hx h1 h2
    exact State.slot_issueOrder_other hx h1 h2
  · intro hst
    have hrA : (s.reserveSlot p o).record? p = some r := by
      unfold State.record?; rw [State.slot_reserveSlot_ne s p hfp]; exact hr
    show (((s.reserveSlot p o).update p fun r => { r with order := some o }).setLock o.secondary
      (some p)).psel = s.psel
    rw [hC.2, State.update_live hrA]
    refine (State.put_psel_same hlA ?_ ?_).trans hA.2
    · rw [State.record?_eq_some.1 hrA]; simp [SlotState.queuedTenant]
    · rw [State.record?_eq_some.1 hrA]; simp [SlotState.leaf, hst]
  · have hidx : (s.issueOrder p o).ccc.index = s.ccc.index :=
      (hC.1.trans (State.update_index_same fun _ => rfl)).trans hA.1
    have hqd : (s.issueOrder p o).psel.queued = s.psel.queued := by
      have e1 : (s.issueOrder p o).psel.queued =
          ((s.reserveSlot p o).update p fun r => { r with order := some o }).psel.queued :=
        congrArg Psel.queued hC.2
      have e2 : ((s.reserveSlot p o).update p fun r => { r with order := some o }).psel.queued =
          (s.reserveSlot p o).psel.queued := State.update_queued_same fun _ => ⟨rfl, rfl⟩
      rw [e1, e2, hA.2]
    have h1 : (s.issueOrder p o).ccc =
        { s.ccc with
          table := (s.issueOrder p o).ccc.table
          claim := if o.takesClaim then some p else s.ccc.claim
          note := if s.headset = some p then none else s.ccc.note } := by
      have ha : (s.issueOrder p o).ccc.claim = if o.takesClaim then some p else s.ccc.claim := by
        simp [State.issueOrder]
      have hb : (s.issueOrder p o).ccc.note = if s.headset = some p then none else s.ccc.note := rfl
      have hc : (s.issueOrder p o).ccc.resync = s.ccc.resync := by simp
      dsimp only
      rw [← hidx, ← ha, ← hb, ← hc]
    have h2 : (s.issueOrder p o).psel =
        { s.psel with
          leaves := (s.issueOrder p o).psel.leaves, nodes := (s.issueOrder p o).psel.nodes } := by
      have ha : (s.issueOrder p o).psel.working = s.psel.working := by simp
      have hb : (s.issueOrder p o).psel.seq = s.psel.seq := by simp
      dsimp only
      rw [← ha, ← hb, ← hqd]
    have h3 : (s.issueOrder p o).ksc = { s.ksc with dial := if o.clearsDial then [] else s.ksc.dial } := by
      simp [State.issueOrder]
    have h4 : (s.issueOrder p o).sli = { s.sli with orders := s.sli.orders ++ [p] } := by
      simp [State.issueOrder]
    have key : s.issueOrder p o =
        { s with
          ccc := (s.issueOrder p o).ccc, psel := (s.issueOrder p o).psel
          ksc := (s.issueOrder p o).ksc, sli := (s.issueOrder p o).sli } := by
      have e1 : (s.issueOrder p o).tbt = s.tbt := by simp
      have e2 : (s.issueOrder p o).pos = s.pos := by simp
      have e3 : (s.issueOrder p o).ind = s.ind := by simp
      have e4 : (s.issueOrder p o).pins = s.pins := by simp
      have e5 : (s.issueOrder p o).freeCount = s.freeCount := by simp
      have e6 : (s.issueOrder p o).pending = s.pending := by simp
      rw [← e1, ← e2, ← e3, ← e4, ← e5, ← e6]
    rw [h1, h2, h3, h4] at key
    simp only [Order.takesClaim_iff, Order.clearsDial_iff] at key
    exact key

/-! ### The end of an order, retirement and resync keep the leaves exact (R78, R79) -/

theorem State.releaseSlot_leavesExact {s : State} (h : s.LeavesExact) (p : Slot) (o : Order) :
    (s.releaseSlot p o).LeavesExact := by
  unfold State.releaseSlot
  split
  · split
    · exact State.put_leavesExact h _ _
    · exact h
  · exact h

theorem State.dropClaim_leavesExact {s : State} (h : s.LeavesExact) (p : Slot) :
    (s.dropClaim p).LeavesExact := by
  unfold State.dropClaim
  split <;> exact h

theorem State.withdraw_leavesExact {s : State} (h : s.LeavesExact) (p : Slot) (o : Order) :
    (s.withdraw p o).LeavesExact := by
  unfold State.withdraw
  split <;> exact h

theorem State.endOrder_leavesExact {s : State} (h : s.LeavesExact) (p : Slot) :
    (s.endOrder p).LeavesExact := by
  unfold State.endOrder
  split
  · exact h
  · next o _ =>
    exact State.update_leavesExact (State.dropClaim_leavesExact (State.setLock_leavesExact
      (State.releaseSlot_leavesExact (State.withdraw_leavesExact h p o) p o) _ _) p) p _

theorem State.cancelOrder_leavesExact {s : State} (h : s.LeavesExact) (p : Slot) :
    (s.cancelOrder p).LeavesExact := by
  unfold State.cancelOrder
  split
  · exact h
  · dsimp only
    split <;> exact State.endOrder_leavesExact h p

theorem State.cancelAll_leavesExact {s : State} (h : s.LeavesExact) : s.cancelAll.LeavesExact := by
  have key : ∀ (l : List Slot) (t : State), t.LeavesExact →
      (l.foldl State.cancelOrder t).LeavesExact := by
    intro l
    induction l with
    | nil => exact fun _ ht => ht
    | cons p l ih => exact fun t ht => ih _ (State.cancelOrder_leavesExact ht p)
  have hf := key slots s h
  rw [State.cancelAll_eq]
  generalize slots.foldl State.cancelOrder s = t at hf ⊢
  exact hf

theorem State.dropSecondary_leavesExact {s : State} (h : s.LeavesExact) (q : Option Slot) :
    (s.dropSecondary q).LeavesExact := by
  cases q with
  | none => exact h
  | some q =>
    simp only [State.dropSecondary]
    split
    · exact State.dropClaim_leavesExact (State.update_leavesExact h q _) q
    · exact State.update_leavesExact h q _

theorem State.unlinkPartner_leavesExact {s : State} (h : s.LeavesExact) (q : Option Slot) :
    (s.unlinkPartner q).LeavesExact := by
  cases q with
  | none => exact h
  | some q => exact State.update_leavesExact h q _

theorem State.retire_leavesExact {s : State} (h : s.LeavesExact) (p : Slot) :
    (s.retire p).LeavesExact := by
  unfold State.retire
  split
  · exact h
  · next r _ =>
    have h1 := State.unlinkPartner_leavesExact
      (State.dropSecondary_leavesExact (State.endOrder_leavesExact h p) r.lock) r.partner
    have h2 : ((((s.endOrder p).dropSecondary r.lock).unlinkPartner r.partner).setTimer p
        Timer.stopped).LeavesExact := h1
    dsimp only
    split <;> exact State.put_leavesExact h2 p .free

/-- Retirement leaves the slot FREE (R17). -/
theorem State.slot_retire_self {s : State} {p : Slot} {r : Record} (h : s.record? p = some r) :
    (s.retire p).slot p = .free := by
  unfold State.retire
  rw [h]
  dsimp only
  split <;> exact State.slot_put_self _ p .free

theorem State.clearMarks_leavesExact {s : State} (h : s.LeavesExact) : s.clearMarks.LeavesExact := by
  unfold State.clearMarks
  generalize slots = l
  induction l generalizing s with
  | nil => exact h
  | cons p l ih => exact ih (State.update_leavesExact h p _)

theorem State.enterResync_eq {s : State} (h : s.ccc.resync = false) :
    s.enterResync =
      { (State.cancelAll { s with ccc.resync := true }).clearMarks with sli.auditNotice := true } := by
  unfold State.enterResync
  rw [if_neg (by simp [h])]

theorem State.enterResync_leavesExact {s : State} (h : s.LeavesExact) : s.enterResync.LeavesExact := by
  cases hr : s.ccc.resync
  · have h1 : State.LeavesExact { s with ccc.resync := true } := h
    have h2 := State.clearMarks_leavesExact (State.cancelAll_leavesExact h1)
    rw [State.enterResync_eq hr]
    generalize (State.cancelAll { s with ccc.resync := true }).clearMarks = t at h2 ⊢
    exact h2
  · rw [State.enterResync_again hr]; exact h

theorem State.orderFault_leavesExact {s : State} (h : s.LeavesExact) (k : OrderFault) (ref : Word) :
    (s.orderFault k ref).LeavesExact := by
  have h1 : (s.orderNotice k ref).LeavesExact := h
  unfold State.orderFault
  exact State.enterResync_leavesExact h1

theorem State.linkDown_leavesExact {s : State} (h : s.LeavesExact) : s.linkDown.LeavesExact := by
  have h1 : State.LeavesExact { s with sli.link := .down, sli.haltedBy := false } := h
  unfold State.linkDown
  exact State.cancelAll_leavesExact h1

theorem State.closeIfEmpty_leavesExact {s : State} (h : s.LeavesExact) : s.closeIfEmpty.LeavesExact := by
  rcases State.closeIfEmpty_cases s with e | ⟨_, _, e⟩ <;> rw [e] <;> exact h

theorem State.enterQueued_leavesExact {s : State} (h : s.LeavesExact) (p : Slot) (r : Record) :
    (s.enterQueued p r).LeavesExact :=
  State.enter_leavesExact (s := { s with psel.seq := s.psel.seq + 1 }) h p (s.queuedRecord r)

end Sys2Proof.Machine
end

