-- ==== Sys2Proof/Tests/States.lean ====
section
/-! SUPPORT. The small states that the tests and the witnesses are stated on, and that the ones with records
are lawful. -/

set_option maxRecDepth 100000
set_option synthInstance.maxSize 4000

namespace Sys2Proof.Tests

open Sys2Proof Sys2Proof.Machine

/-! ### States to test on -/

/-- A position in service with an empty table. -/
def base : State := { State.reset with sli.link := .up, pos.state := .opened }

/-- An incoming call of tenant 3 in state `st`, with none of the fields that a state asks for. -/
def call (ref : Word) (st : Custody) : Record :=
  { offeredRecord ref { tenant := 3, cls := .external, number := [1, 2], name := [0x41] } with state := st }

/-- `s` with the records of `l` in their slots, their references given in rising order. -/
def seat (s : State) (l : List (Slot × Record)) : State :=
  { s with
    ccc.table := l.foldl (fun t x => t.set x.1 (.live x.2)) s.ccc.table
    ccc.index := l.map fun x => (x.2.ref, x.1) }

/-- `s` with the queue fields `q` in the leaf of slot `p`, its path decided, and tenant 3's count at 1. -/
def inQueue (s : State) (p : Slot) (q : QueueFields) : State :=
  { s with
    psel.leaves := s.psel.leaves.set p (some q)
    psel.nodes := replay (s.psel.leaves.set p (some q)) s.psel.nodes p
    psel.queued := s.psel.queued.set 3 1 }

def active : Record := { call 7 .active with loop := some 0 }
def held : Record := { call 9 .held with loop := some 1, recallAlert := true }
def parked : Record := { call 11 .parked with orbit := some 4 }
def asked : QueueFields := { seq := 0, wait := 5, key := 1022 }
def queued : Record := { call 12 .queued with queue := some asked }
def camped : Record := { call 13 .camped with destination := some [5], recallCount := 1 }
def extended : Record := { call 14 .extended with destination := some [6] }

/-- One record in each of six custody states. -/
def room : State :=
  inQueue (seat base [(0, active), (1, held), (2, parked), (3, queued), (4, camped), (5, extended)])
    3 asked

/-- A dialled leg in state `st`, partner of slot 1. -/
def dialled (st : Custody) : Record :=
  { call 7 st with
    leg := .dialled, loop := some 0, destination := some [8], partner := some 1
    farEnd := some (if st = .setup then .ringing else .answered) }

/-- A pair whose dialled leg is on the headset in state `st`, its source HELD. -/
def pair (st : Custody) : State :=
  seat base [(0, dialled st), (1, { held with recallAlert := false, partner := some 0 })]

/-- A HELD record on every loop. -/
def allHeld : State :=
  seat base ((List.range 8).map fun n =>
    (Fin.ofNat 64 n, { call (BitVec.ofNat 16 (30 + n)) .held with loop := some (Fin.ofNat 8 n) }))

/-- The order group full. -/
def full (s : State) : State := { s with sli.orders := List.replicate 16 0 }

/-- Slot 3 has the headset claim. -/
def claimed (s : State) : State := { s with ccc.claim := some 3 }

/-- A table without a FREE slot. -/
def noneFree (s : State) : State :=
  { s with
    ccc.table :=
      slots.foldl (fun t p => if s.slot p = .free then t.set p (.reserved 0) else t) s.ccc.table }

/-- `s` with the timer of slot `p` at `t`. -/
def clocked (s : State) (p : Slot) (t : Timer) : State :=
  { s with tbt.timers := s.tbt.timers.set p t }

/-- `s` with a message at the head of its inbound queue. -/
def given (s : State) (b : List Byte) : State := { s with sli.inbound := [b] }

/-- `s` with a key event at the head of its queue. -/
def pressed (s : State) (e : KeyEvent) : State := { s with ksc.queue := [e] }

/-- An order of a kind that awaits its confirm. -/
def waiting (k : OrderKind) : Order :=
  { Order.new k with stage := .awaitingConfirm, confirmTimer := some 9 }

/-- A message with reference `ref` and what follows its header. -/
def message (k : Byte) (ref : Byte) (tail : List Byte) : List Byte := [k, 0x55, 0, ref] ++ tail

/-- The result of a command. -/
def after (c : Instr) (s : State) : State :=
  match exec c s with
  | .next t => t
  | _ => s

/-! ### These states are lawful -/

theorem base_settings : base.SettingsFit := by decide

theorem base_banks : base.BanksFit := by decide

theorem base_tones : base.ind.TonesFit := by decide

theorem base_psel : Psel.reset.Decided := by decide

/-- A state whose settings, cascade, console and tones are those of `base` keeps the laws about ranges. -/
theorem ranges_of {s : State} (hp : s.pos.settings = base.pos.settings)
    (hf : s.pos.profiles = base.pos.profiles) (hw : s.psel.working = base.psel.working)
    (ht : s.tbt.InRange) (hr : s.RoomKept) (hm : s.MessagesFit) (hi : s.ind = base.ind)
    (hs : s.SendingFits := by decide) : s.RangesLawful := by
  have hprof : ∀ t : Tenant, s.profile t = base.profile t := fun t => by
    simp only [State.profile, hf]
  refine ⟨⟨by rw [hp]; exact base_settings.1, fun t => by rw [hprof]; exact base_settings.2.1 t,
    by rw [hw]; exact base_settings.2.2⟩, ht, hr, hm, hs, fun n => by rw [hi]; exact base_banks n,
    by rw [hi]; exact base_tones⟩

/-- A lawful state stays lawful with other messages in its inbound queue, as long as they fit. -/
theorem lawful_given {s : State} (h : s.Lawful) (b : List Byte)
    (hb : headerLength ≤ b.length ∧ b.length ≤ 40) : (given s b).Lawful := by
  obtain ⟨h1, h2, h3, h4, ⟨h5, h6, _, h8⟩, _, h10⟩ := h
  refine ⟨h1, h2, h3, h4, ⟨h5, h6, by simp [given, Config.inboundRoom], h8⟩, ?_, h10⟩
  intro x hx
  have : x = b := by simpa [given] using hx
  rw [this]; exact hb

theorem room_lawful : room.Lawful :=
  ⟨by decide, by decide, ranges_of rfl rfl rfl (by decide) (by decide) (by decide) rfl⟩

/-- A lawful state stays lawful with other custody timers, as long as they fit. -/
theorem lawful_timers {s : State} (h : s.Lawful) (ts : Vector Timer 64)
    (ht : State.TimersFit { s with tbt.timers := ts }) : State.Lawful { s with tbt.timers := ts } := by
  obtain ⟨⟨a1, a2, a3, a4, a5, a6, a7, a8, a9, b1, b2, b3, b4, _, b6, b7, b8⟩, hp, hr⟩ := h
  exact ⟨⟨a1, a2, a3, a4, a5, a6, a7, a8, a9, b1, b2, b3, b4, ht, b6, b7, b8⟩, hp, hr⟩

/-- A lawful state stays lawful with other tones, as long as they fit. -/
theorem lawful_ind {s : State} (h : s.Lawful) (i : Ind) (ha : i.active = s.ind.active)
    (hs : i.shadow = s.ind.shadow) (hi : i.TonesFit) : State.Lawful { s with ind := i } := by
  obtain ⟨h1, h2, h3, h4, h5, h6, h7, h8, _⟩ := h
  refine ⟨h1, h2, h3, h4, h5, h6, h7, fun n => ?_, hi⟩
  show (i.active.patterns[n]).Fits ∧ (i.shadow.patterns[n]).Fits
  rw [ha, hs]
  exact h8 n

/-- A lawful table stays lawful under another outcome note that fits. -/
theorem table_note {s : State} (h : s.TableLawful) (n : Option Note)
    (hn : State.NoteFits { s with ccc.note := n }) : State.TableLawful { s with ccc.note := n } := by
  obtain ⟨a1, a2, a3, a4, a5, a6, a7, a8, a9, b1, b2, b3, b4, b5, _, b7, b8⟩ := h
  exact ⟨a1, a2, a3, a4, a5, a6, a7, a8, a9, b1, b2, b3, b4, b5, hn, b7, b8⟩

/-- A lawful table stays lawful under another position state that fits. -/
theorem table_position {s : State} (h : s.TableLawful) (x : PosState)
    (hx : State.PositionFits { s with pos.state := x }) : State.TableLawful { s with pos.state := x } := by
  obtain ⟨a1, a2, a3, a4, a5, a6, a7, a8, a9, b1, b2, b3, b4, b5, b6, b7, _⟩ := h
  exact ⟨a1, a2, a3, a4, a5, a6, a7, a8, a9, b1, b2, b3, b4, b5, b6, b7, hx⟩

/-- A lawful table without a pending order stays lawful while frozen or in resync. -/
theorem table_held {s : State} (h : s.TableLawful) (l : LinkState) (x : Bool)
    (hq : State.HeldQuiet { s with sli.link := l, ccc.resync := x })
    (hm : State.MarksFit { s with sli.link := l, ccc.resync := x }) :
    State.TableLawful { s with sli.link := l, ccc.resync := x } := by
  obtain ⟨a1, a2, a3, a4, a5, a6, a7, a8, a9, b1, b2, b3, _, b5, b6, _, b8⟩ := h
  exact ⟨a1, a2, a3, a4, a5, a6, a7, a8, a9, b1, b2, b3, hq, b5, b6, hm, b8⟩

/-- `room` frozen. -/
def down : State := { room with sli.link := .down }

theorem down_lawful : down.Lawful :=
  ⟨table_held room_lawful.1 .down false (by decide) (by decide), room_lawful.2⟩

/-- `room` in resync. -/
def resyncing : State := { room with ccc.resync := true }

theorem resyncing_lawful : resyncing.Lawful :=
  ⟨table_held room_lawful.1 .up true (by decide) (by decide), room_lawful.2⟩

theorem base_lawful : base.Lawful :=
  ⟨by decide, by decide, ranges_of rfl rfl rfl (by decide) (by decide) (by decide) rfl⟩

theorem setup_lawful : (pair .setup).Lawful :=
  ⟨by decide, by decide, ranges_of rfl rfl rfl (by decide) (by decide) (by decide) rfl⟩

/-- What a record must be to stand alone in a table: it fits its state, it is not QUEUED, it names no other
record and no claim, and its order, if any, is past the order group. -/
abbrev StandsAlone (r : Record) : Prop :=
  r.Fits ∧ r.state ≠ .queued ∧ r.partner = none ∧ r.lock = none ∧ r.marked = false ∧ r.auditPartner = 0
    ∧ (∀ k : Loop, r.loop = some k → r.reservedLoop ≠ some k)
    ∧ (∀ k : Orbit, r.orbit = some k → r.reservedOrbit ≠ some k)
    ∧ (∀ o ∈ r.order, o.ShapeFits r ∧ o.PrimaryFits r ∧ o.stage ≠ .awaitingLine ∧ o.secondary = none
      ∧ o.reservedSlot = none ∧ o.takesClaim = false)

theorem single_slot (p : Slot) (r : Record) (q : Slot) :
    (seat base [(p, r)]).slot q = if p = q then .live r else .free := by
  have h : base.ccc.table[q] = .free := (by decide : ∀ q : Slot, base.ccc.table[q] = .free) q
  simp only [seat, List.foldl, State.slot, Fin.getElem_fin, Vector.getElem_set, Fin.val_inj]
  split
  · rfl
  · exact h

theorem single_record? (p : Slot) (r : Record) (q : Slot) (u : Record) :
    (seat base [(p, r)]).record? q = some u ↔ p = q ∧ u = r := by
  simp only [State.record?, single_slot]
  split <;> simp [SlotState.record?, *, eq_comm]

theorem base_empty :
    (∀ q : Slot, base.timer q = Timer.stopped) ∧ (∀ q : Slot, base.psel.leaves[q] = none)
      ∧ (∀ n : Tenant, base.psel.queued[n] = 0) := by decide

/-- A record that stands alone is all a lawful table needs. -/
theorem single_lawful (p : Slot) {r : Record} (h : StandsAlone r) : (seat base [(p, r)]).Lawful := by
  obtain ⟨hf, hq, hp, hl, hm, ha, hk, ho, hor⟩ := h
  have hr := single_record? p r
  have hrec : ∀ q, ∀ u ∈ (seat base [(p, r)]).record? q, p = q ∧ u = r := fun q u hu => (hr q u).1 hu
  have own : (seat base [(p, r)]).record? p = some r := (hr p r).2 ⟨rfl, rfl⟩
  have stopped : ∀ q : Slot, (seat base [(p, r)]).timer q = Timer.stopped :=
    base_empty.1
  have noLeaf : ∀ q : Slot, (seat base [(p, r)]).psel.leaves[q] = none :=
    base_empty.2.1
  have noCount : ∀ n : Tenant, (seat base [(p, r)]).psel.queued[n] = 0 :=
    base_empty.2.2
  refine ⟨⟨?_, ?_, ?_, ?_, ?_, ?_, ?_, ?_, ?_, ?_, ?_, ?_, ?_, ?_, ?_, ?_, ?_⟩, ⟨?_, base_psel, ?_⟩,
    base_lawful.2.2⟩
  · intro q u hu; obtain ⟨rfl, rfl⟩ := hrec q u hu; exact hf
  · refine ⟨by simp [seat], by simp [seat] at own ⊢; simp [own], fun q u hu => ?_⟩
    obtain ⟨rfl, rfl⟩ := hrec q u hu
    simp [seat]
  · intro q u hu _ q' u' hu' _
    exact (hrec q' u' hu').1.symm.trans (hrec q u hu).1
  · intro q u hu q' u' hu' k
    obtain ⟨rfl, rfl⟩ := hrec q u hu
    obtain ⟨rfl, rfl⟩ := hrec q' u' hu'
    exact ⟨fun _ _ => rfl, fun _ _ => rfl, hk k⟩
  · intro q u hu q' u' hu' k
    obtain ⟨rfl, rfl⟩ := hrec q u hu
    obtain ⟨rfl, rfl⟩ := hrec q' u' hu'
    exact ⟨fun _ _ => rfl, fun _ _ => rfl, ho k⟩
  · intro q u hu
    obtain ⟨rfl, rfl⟩ := hrec q u hu
    simp [hp]
  · intro q u hu o hu'
    obtain ⟨rfl, rfl⟩ := hrec q u hu
    exact ⟨(hor o hu').1, (hor o hu').2.1⟩
  · refine ⟨List.nodup_nil, by simp [seat, base, State.reset, State.resetWith, Sli.reset], fun q u hu o hu' hs => ?_⟩
    obtain ⟨rfl, rfl⟩ := hrec q u hu
    exact absurd hs (hor o hu').2.2.1
  · intro q u hu
    obtain ⟨rfl, rfl⟩ := hrec q u hu
    exact ⟨fun o hu' x hx => by simp [(hor o hu').2.2.2.1] at hx, by simp [hl]⟩
  · intro q
    constructor
    · intro h; cases h
    rintro ⟨u, hu, o, hu', hc⟩
    obtain ⟨rfl, rfl⟩ := hrec q u hu
    simp [(hor o hu').2.2.2.2.2] at hc
  · refine ⟨fun f q hq => ?_, fun q u hu o hu' f hx => ?_⟩
    · rw [single_slot] at hq; split at hq <;> cases hq
    · obtain ⟨rfl, rfl⟩ := hrec q u hu
      simp [(hor o hu').2.2.2.2.1] at hx
  · intro q u hu o hu' hc
    obtain ⟨rfl, rfl⟩ := hrec q u hu
    have := (hor o hu').2.2.2.2.2
    simp [Order.takesClaim, hc] at this
  · intro h; cases h
  · intro q
    rw [stopped q]
    exact ⟨by decide, fun k hk => by cases hk⟩
  · intro h; cases h
  · intro _ q u hu
    obtain ⟨rfl, rfl⟩ := hrec q u hu
    exact ⟨hm, ha⟩
  · constructor <;> intro h <;> cases h
  · intro q
    rw [noLeaf, single_slot]
    split
    · simp [SlotState.leaf, hq]
    · rfl
  · intro n
    rw [noCount, State.countQueued, eq_comm, List.countP_eq_zero]
    intro q _
    rw [single_slot]
    split <;> simp [SlotState.queuedTenant, hq]

end Sys2Proof.Tests
end

