-- ==== Sys2Proof/Tests/Slice0.lean ====
section
/-! SUPPORT. Small checks of single commands against the rules, by their names in spec/opcode_table.json, and
the refusal of an ill-formed term by each check of WellFormed.lean. What each test expects is taken from the
rule or worked example its comment names, by hand. -/

set_option maxRecDepth 100000
set_option synthInstance.maxSize 4000

namespace Sys2Proof.Tests

open Sys2Proof Sys2Proof.Machine

/-! ### Well-formed messages: an ill-formed term for each check -/

theorem test_wellFormed_offer :
    bodyWellFormed (message kindOffer 20 [3, 2, 2, 1, 0x31, 0x32, 0x41]) = true := by decide

/-- A body of three bytes is shorter than a header (R165). -/
theorem test_illFormed_length : bodyWellFormed [0x22, 0, 0] = false := by decide

/-- A body of 41 bytes is longer than any message (R162). -/
theorem test_illFormed_tooLong : bodyWellFormed (0x22 :: List.replicate 40 0) = false := by decide

/-- The number byte 'A' is no digit (R30). -/
theorem test_illFormed_offer :
    bodyWellFormed (message kindOffer 20 [3, 2, 2, 1, 0x31, 0x41, 0x41]) = false := by decide

/-- Item code 0x0E names no position item (R130, R131). -/
theorem test_illFormed_set : bodyWellFormed (message kindSet 0 [0x80, 0x0E, 0, 1]) = false := by decide

/-- A step with duration 0 (R148). -/
theorem test_illFormed_cadenceLoad :
    bodyWellFormed (message kindCadenceLoad 0 [0x01, 10, 0, 1, 0x80]) = false := by decide

/-- Target 0x04 names no target (R126). -/
theorem test_illFormed_position : bodyWellFormed (message kindPosition 0 [4]) = false := by decide

/-- EXTENDED without a destination (R178). -/
theorem test_illFormed_auditEntry :
    bodyWellFormed (message kindAuditEntry 9 [5, 3, 2, 0, 0, 0, 0, 0, 0]) = false := by decide

/-- Far-end status 0x05 (R28). -/
theorem test_illFormed_farEnd : bodyWellFormed (message kindFarEnd 9 [5]) = false := by decide

/-- Kind 0x2A is none of the fourteen (R166). -/
theorem test_illFormed_kind : bodyWellFormed (message 0x2A 0 []) = false := by decide

/-- A key command that does not stand at the head of the queue is not called for (R87). -/
theorem test_notCalledFor_key : (pressed base .hold).wellFormed .answer = false := by decide

/-- A message command whose message does not stand at the head (R166). -/
theorem test_notCalledFor_message :
    (given base (message kindPoll 0 [])).wellFormed .offer = false := by decide

/-- No expiry of slot 3 has been reported (R116). -/
theorem test_notCalledFor_expiry : base.wellFormed (.custodyTimerExpiry 3) = false := by decide

/-! ### Reset and the key scanner -/

theorem test_powerOnReset :
    (after (.powerOnReset 2) room).sli.rate = 38400 ∧ (after (.powerOnReset 2) room).slot 0 = .free
      ∧ (after (.powerOnReset 7) room).sli.rate = 9600 := by decide

/-- CALL at row 2, column 6: the third closed sample is accepted (the worked example of
08_console_key_scanning_and_the_dial_buffer.md). -/
theorem test_keyScan_third_sample :
    let s : State := { base with
      ksc.scan := 6, ksc.keys := base.ksc.keys.set 22 { pressed := false, run := 2 } }
    (after (.keyScan 0b0100) s).ksc.queue = [.call] ∧ (after (.keyScan 0b0100) s).pins.kcol = 0x40 := by
  decide

/-- A bounce restarts the run count (the same example, at 80 ms). -/
theorem test_keyScan_bounce :
    let s : State := { base with
      ksc.scan := 6, ksc.keys := base.ksc.keys.set 22 { pressed := false, run := 1 } }
    (after (.keyScan 0b0000) s).ksc.keys[(22 : Fin 29)] = { pressed := false, run := 0 } := by decide

/-! ### Keys -/

/-- The kind of the order pending on slot `p`. -/
def kindAt (s : State) (p : Slot) : Option OrderKind :=
  ((s.record? p).bind Record.order).map Order.kind

theorem test_answer :
    let t := after .answer (pressed room .answer)
    kindAt t 3 = some .connect ∧ t.sli.orders = [3] ∧ t.ccc.claim = some 3
      ∧ (t.record? 0).bind Record.lock = some 3 ∧ t.head = none := by decide

theorem test_answer_refused : (after .answer (pressed base .answer)).ind.chirpReq = true := by decide

theorem test_loopKey : kindAt (after (.loopKey 1) (pressed room (.loop 1))) 1 = some .connect := by decide

theorem test_loopKey_own_loop :
    after (.loopKey 0) (pressed room (.loop 0)) = room := by decide

theorem test_holdKey : kindAt (after .holdKey (pressed room .hold)) 0 = some .hold := by decide

theorem test_release : kindAt (after .release (pressed room .release)) 0 = some .clear := by decide

/-- RELEASE for a dialled leg in a pair is a JOIN (R95). -/
theorem test_release_pair :
    kindAt (after .release (pressed (pair .active) .release)) 0 = some .join := by decide

theorem test_extendKey :
    let t := after .extendKey (pressed { room with ksc.dial := [2, 4, 1, 7] } .extend)
    ((t.record? 0).bind Record.order).map Order.digits = some [2, 4, 1, 7] ∧ t.ksc.dial = [] := by decide

/-- DIAL reserves the lowest free loop and the lowest FREE slot (the worked example of
01_call_records_and_the_call_table.md). -/
theorem test_call :
    let t := after .call (pressed { room with ksc.dial := [2, 4, 1, 7] } .call)
    t.slot 6 = .reserved 0 ∧ (t.record? 0).bind Record.reservedLoop = some 2
      ∧ t.ccc.claim = some 0 := by decide

theorem test_swap : kindAt (after .swap (pressed (pair .active) .swap)) 1 = some .connect := by decide

/-- A leg in SETUP cannot be displaced (R99). -/
theorem test_swap_setup : (after .swap (pressed (pair .setup) .swap)).ind.chirpReq = true := by decide

theorem test_joinKey : kindAt (after .joinKey (pressed (pair .setup) .join)) 0 = some .join := by decide

theorem test_cancel_pair :
    let t := after .cancel (pressed (pair .setup) .cancel)
    kindAt t 0 = some .clear ∧ (t.record? 1).bind Record.lock = some 0 := by decide

theorem test_cancel_buffer :
    after .cancel (pressed { room with ksc.dial := [1, 2] } .cancel) = room := by decide

theorem test_parkKey :
    (((after .parkKey (pressed { room with ksc.dial := [7] } .park)).record? 0).bind
      Record.reservedOrbit) = some 7 := by decide

/-- Orbit 4 is carried (R97). -/
theorem test_parkKey_taken :
    (after .parkKey (pressed { room with ksc.dial := [4] } .park)).ind.chirpReq = true := by decide

theorem test_retrieve :
    kindAt (after .retrieve (pressed { room with ksc.dial := [4] } .retrieve)) 2 = some .connect := by
  decide

theorem test_positionKey :
    let t := after .positionKey (pressed room .position)
    t.pos.state = .busyOut ∧ t.sli.posNotice = some .busyOut := by decide

/-! ### The line -/

/-- The frame of the worked example of R162: CLEARED naming ref 0xC105. -/
theorem test_frame :
    frameOf [0x32, 0x00, 0xC1, 0x05] = [0xC1, 0x32, 0x00, 0xC3, 0x41, 0x05, 0x08, 0xC2] := by decide

theorem test_receiveCharacter_som :
    (after (.receiveCharacter (goodChar 0xC1)) base).sli.rx = .body := by decide

/-- The escaped byte 0x41 stores 0xC1 (R163). -/
theorem test_receiveCharacter_escaped :
    (after (.receiveCharacter (goodChar 0x41)) { base with sli.rx := .escaped }).sli.assembly = [0xC1] := by
  decide

theorem test_receivedHalt : (after .receivedHalt base).sli.haltedBy = true := by decide

theorem test_receivedGo :
    (after .receivedGo { base with sli.haltedBy := true }).sli.haltedBy = false := by decide

theorem test_gapTimeout :
    (after .gapTimeout { base with sli.rx := .body, sli.gap := 3 }).sli.linkNotice = some (.gap, 0) := by
  decide

theorem test_linkBaseTick :
    let t := after .linkBaseTick { base with sli.gap := 1, sli.supCount := 7 }
    t.sli.gap = 2 ∧ t.sli.supCount = 8 := by decide

/-- The default window is 500 base ticks (R171, R131). -/
theorem test_supervisionTimeout :
    (after .supervisionTimeout { base with sli.supCount := 499 }).sli.link = .down
      ∧ (after .supervisionTimeout { base with sli.supCount := 498 }).sli.link = .up := by decide

/-- Replies go before orders and notices (R170); a STATUS body by R174. -/
theorem test_transmitStart :
    (after .transmitStart { base with
      sli.replies := [.refuse 5 500 .duplicate], sli.auditNotice := true }).sli.sending
      = some { body := [0x42, 5, 0x01, 0xF4, 0x03], owner := none
               left := [0x42, 5, 0x01, 0xF4, 0x03, 0xC3, 0x41, 0xC2] } := by decide

theorem test_transmitStart_order :
    (after .transmitStart (after .holdKey (pressed room .hold))).sli.sending
      = some { body := [0x52, 0, 0, 7, 0, 0], owner := some 0
               left := [0x52, 0, 0, 7, 0, 0, 0xA7, 0xC2] } := by decide

/-- The confirm timer starts at the confirm time, 30 by default (R54, R131). -/
theorem test_transmitEnd :
    let s := after .transmitStart (after .holdKey (pressed room .hold))
    (((after .transmitEnd s).record? 0).bind Record.order).bind Order.confirmTimer = some 30 := by decide

/-- The levels of 0xC4, 11000100: start, the bits from the least significant, a parity bit that makes the three
ones even, stop (R161). -/
theorem test_charLevels :
    charLevels 0xC4
      = [false, false, false, true, false, false, false, true, true, true, true] := by decide

/-- What is left of the frame goes out by the end of its transmission (R170). -/
theorem test_transmitEnd_rest :
    (after .transmitEnd { base with
      sli.sending := some { body := [], owner := none, left := [0x08, 0xC2] } }).pins.txd
      = [charLevels 0x08, charLevels 0xC2] := by decide

theorem test_sendControlCharacter :
    let t := after .sendControlCharacter { base with sli.control := some .halt, sli.haltedBy := true }
    t.pins.txd = [charLevels 0xC4] ∧ t.sli.control = none := by decide

/-- With the EOM alone left of a message, the control character goes out before it (R167). -/
theorem test_sendControlCharacter_between :
    let t := after .sendControlCharacter { base with
      sli.control := some .go, sli.sending := some { body := [], owner := none, left := [0xC2] } }
    t.pins.txd = [charLevels 0xC5] ∧ t.sli.sending.map Sending.left = some [0xC2] := by
  have h : ∀ n, Config.charsGone n % 1 = 0 := fun n => Nat.mod_one _
  simp [after, exec, execSendControlCharacter, State.sendControl, base, h, Control.char, goChar]

/-! ### Requests -/

theorem test_poll :
    ∃ v, (after .poll (given room (message kindPoll 0 []))).sli.replies = [.status 0x55 0 v]
      ∧ v.live = 6 ∧ v.queued = 1 ∧ v.headRef = 12 ∧ v.freeLoops = 6 ∧ v.freeOrbits = 9 :=
  ⟨_, rfl, by decide⟩

/-- An age rate of 200 is stored as 15 (R133). -/
theorem test_set_clamps :
    let t := after .set (given base (message kindSet 0 [0x80, 0x05, 0, 200]))
    t.pos.settings.ageRate = 15 ∧ t.sli.replies = [.ack 0x55 0 true] := by decide

/-- A confirm time of 2 is stored as 5 (R133). -/
theorem test_set_raises :
    (after .set (given base (message kindSet 0 [0x80, 0x08, 0, 2]))).pos.settings.confirmTime = 5 := by
  decide

/-- PATTERN 11, ONCE, ON 50, OFF 10 is stored with ON 40, and its ACK is clamped (the worked example of
09_lamps_buzzer_and_display.md). -/
theorem test_cadenceLoad :
    let t := after .cadenceLoad (given base (message kindCadenceLoad 0 [0x01, 11, 1, 2, 0xB2, 0x0A]))
    t.ind.shadow.patterns[(11 : Fin 16)] = { mode := .once, steps := [⟨true, 40⟩, ⟨false, 10⟩] }
      ∧ t.sli.replies = [.ack 0x55 0 true] := by decide

theorem test_cadenceLoad_busy :
    (after .cadenceLoad { given base (message kindCadenceLoad 0 [0x02, 3, 3]) with
      ind.commit := true }).sli.replies = [.refuse 0x55 0 .bankBusy] := by decide

theorem test_cadenceCommit :
    (after .cadenceCommit (given base (message kindCadenceCommit 0 []))).ind.commit = true := by decide

/-- A target of CLOSE with live records makes the position CLOSING (R126). -/
theorem test_position :
    (after .position (given room (message kindPosition 0 [3]))).pos.state = .closing := by decide

theorem test_unknownKind :
    (after .unknownKind (given room (message 0x2A 9 []))).sli.linkNotice = some (.unknownKind, 9) := by
  decide

/-! ### Calls and confirms -/

/-- An accepted OFFER with an unprintable name byte stored as '?' (the worked example of
02_custody_states_and_switch_events.md). -/
theorem test_offer :
    let t := after .offer (given base (message kindOffer 20 [3, 2, 0, 3, 0x4E, 0x07, 0x43]))
    t.sli.replies = [.accept 0x55 20] ∧ t.lookup 20 = some 0 ∧ t.head = some 0
      ∧ ((t.record? 0).map Record.name) = some [0x4E, 0x3F, 0x43] := by decide

theorem test_offer_duplicate :
    (after .offer (given room (message kindOffer 12 [3, 2, 0, 0]))).sli.replies
      = [.refuse 0x55 12 .duplicate] := by decide

theorem test_cleared :
    let t := after .cleared (given room (message kindCleared 12 []))
    t.slot 3 = .free ∧ t.lookup 12 = none ∧ t.psel.queued[(3 : Tenant)] = 0 ∧ t.head = none := by decide

theorem test_delivered :
    (after .delivered (given room (message kindDelivered 14 []))).slot 5 = .free := by decide

/-- DELIVERED for a HELD record is a mismatch (R36, R42). -/
theorem test_delivered_mismatch :
    let t := after .delivered (given room (message kindDelivered 9 []))
    t.sli.orderNotice = some (.mismatch, 9) ∧ t.ccc.resync = true ∧ (t.record? 1).isSome := by decide

/-- The NOANSWER timer is armed at 30 s by default (R37, R132). -/
theorem test_campFree :
    let t := after .campFree (given room (message kindCampFree 13 []))
    ((t.record? 4).map Record.state) = some .extended ∧ t.timer 4 = armed .noAnswer 30 := by decide

theorem test_farEnd_answered :
    let t := after .farEnd (given (pair .setup) (message kindFarEnd 7 [3]))
    ((t.record? 0).map fun r => (r.state, r.farEnd)) = some (.active, some .answered) := by decide

/-- HOLD DONE arms the HOLD timer at 60 s by default (R60, R132). -/
theorem test_confirm_hold :
    let s := seat base [(0, { active with order := some (waiting .hold) })]
    let t := after .confirm (given s (message kindConfirm 7 [0x52, 1]))
    ((t.record? 0).map Record.state) = some .held ∧ t.timer 0 = armed .hold 60 ∧ t.headset = none := by
  decide

/-- A CONFIRM for an order that is not there is LATE (R56). -/
theorem test_confirm_late :
    (after .confirm (given room (message kindConfirm 7 [0x52, 1]))).sli.orderNotice = some (.late, 7) := by
  decide

/-! ### Audit and restart -/

/-- A new reference restated HELD takes the lowest FREE slot and the lowest free loop (R178, R179). -/
theorem test_auditEntry :
    let t := after .auditEntry (given resyncing (message kindAuditEntry 20 [3, 3, 2, 4, 0, 0, 0, 0, 0]))
    ((t.record? 6).map fun r => (r.state, r.loop, r.recallCount, r.marked))
      = some (.held, some 2, 3, true) ∧ t.sli.replies = [.ack 0x55 20 true] := by decide

theorem test_auditEntry_outside_resync :
    (after .auditEntry (given room (message kindAuditEntry 20 [3, 3, 2, 0, 0, 0, 0, 0, 0]))).sli.replies
      = [.refuse 0x55 20 .resync] := by decide

theorem test_auditEnd :
    let s : State := { seat base [(0, { active with marked := true }), (4, camped)] with
      ccc.resync := true }
    let t := after .auditEnd (given s (message kindAuditEnd 0 []))
    t.ccc.resync = false ∧ t.slot 4 = .free ∧ t.slot 0 = .live active := by decide

theorem test_restart :
    let t := after .restart (given { room with pos.state := .closing } (message kindRestart 0 []))
    t.slot 0 = .free ∧ t.pos.state = .closed ∧ t.sli.posNotice = some .closed := by decide

/-! ### Beats and timers -/

/-- The ACTIVE record with a HOLD whose confirm timer stands at `n`. -/
def counting (n : Nat) : State :=
  seat base [(0, { active with order := some { waiting .hold with confirmTimer := some n } })]

theorem test_confirmBeat :
    (((after .confirmBeat (counting 9)).record? 0).bind Record.order).bind Order.confirmTimer = some 8 := by
  decide

theorem test_confirmTimeout :
    let t := after (.confirmTimeout 0) (counting 1)
    t.sli.orderNotice = some (.timeout, 7) ∧ t.ccc.resync = true ∧ t.slot 0 = .live active := by decide

/-- A wait of 6 s at age rate 4: 1024 less floor(24 / 8) = 1021 (R71, R73). -/
theorem test_agingTick :
    ((after .agingTick room).record? 3).bind Record.queue = some { seq := 0, wait := 6, key := 1021 } := by
  decide

theorem test_custodyCountTick :
    let t := after .custodyCountTick (room.setTimer 1 (armed .hold 1))
    (t.timer 1).remaining = 0 ∧ (t.timer 1).reported = true := by decide

/-- A HOLD expiry below the limit: the count becomes 1 and the timer is armed again at 60 (the worked sequence
of 06_time_base_and_custody_timers.md). -/
theorem test_custodyTimerExpiry :
    let t := after (.custodyTimerExpiry 1) (room.setTimer 1
      { kind := some .hold, remaining := 0, waiting := false, owed := none, reported := true })
    ((t.record? 1).map fun r => (r.recallCount, r.recallAlert)) = some (1, true)
      ∧ t.timer 1 = armed .hold 60 ∧ t.ind.recallReq = true := by decide

/-- A waiting CAMP expiry at the limit issues a DIVERT (R119, R121). -/
theorem test_expiryRetry :
    let t := after (.expiryRetry 4) (room.setTimer 4
      { kind := some .camp, remaining := 0, waiting := true, owed := none, reported := false })
    kindAt t 4 = some .divert ∧ ((t.record? 4).map Record.recallCount) = some 2
      ∧ (t.timer 4).waiting = false := by decide

theorem test_autoAnswer :
    let s : State := { inQueue (seat base [(3, queued)]) 3 asked with pos.settings.autoAnswer := 1 }
    kindAt (after .autoAnswer s) 3 = some .connect ∧ (after .autoAnswer s).ind.chirpReq = false := by decide

/-! ### Ranking (the four calls of 04_presentation_selection.md) -/

theorem test_presentationKey :
    let w : Working := { defaultWorking with offsets := (Vector.replicate 16 0).set 3 100 |>.set 5 200 }
    presentationKey w 3 .external 0 40 = 1104 ∧ presentationKey w 0 .internal 0 300 = 1898
      ∧ presentationKey w 5 .internal 1 3 = 455 ∧ presentationKey w 3 .external 0 42 = 1103 := by decide

/-! ### Lamps, buzzer and display -/

/-- Loop 0 ACTIVE is steady, loop 1 HELD-RECALL is FAST (ON 5, OFF 5) at phase 1, loop 2 is dark (R147). -/
theorem test_cadenceStep_lamps :
    (after .cadenceStep room).pins.lsd.take 3 = [true, true, false]
      ∧ (after .cadenceStep { room with tbt.secondDivider := 5 }).pins.lsd.take 3
        = [true, false, false] := by decide

/-- The queue view with an empty queue (R159). -/
theorem test_cadenceStep_display :
    ((after .cadenceStep base).ind.image.map Image.line1) = some (bytesOf "QUEUED 00           ") := by
  decide

theorem test_epochBoundary :
    (after .epochBoundary room).ind.burst = { running := true, position := 0, assigned := false, count := 2 }
      ∧ (after .epochBoundary { room with ind.recallReq := true }).ind.recallEpoch = true := by decide

/-! ### The step -/

/-- With no command waiting, a cycle of REFCLK passes (R110; log entry 3). -/
theorem test_step_idle : step State.reset = .next { State.reset with tbt.prescaler := 1 } := by
  rfl

/-- A key event waiting at the head becomes the next command (log entry 3). -/
theorem test_step_key : step (pressed room .hold) = .next { pressed room .hold with pending := [.holdKey] } := by
  rfl

end Sys2Proof.Tests
end

