-- ==== Sys2Proof/Tests/Witnesses.lean ====
section
/-! SUPPORT. For every statement of Certificates/Slice0/Obligations.lean that has premises, a concrete state
and operands that meet them all (`witness_<name of the statement>`), clause by clause where a statement has
several, at the boundaries of the ranges they name. The clauses that refuse a key, and a few others of a
statement with many, stand in a witness of their own beside it. -/

set_option maxRecDepth 100000
set_option synthInstance.maxSize 4000

namespace Sys2Proof.Tests

open Sys2Proof Sys2Proof.Machine

/-! ### The step, the cascade and the invariants -/

theorem witness_StepRunsTheFrontCommand :
    ({ base with pending := [.set, .poll] } : State).pending = .set :: [.poll] := rfl

/-- The cascade at given counts, the part idle. -/
def idleAt (a b c d : Nat) : State :=
  { State.reset with
    tbt.prescaler := a, tbt.stepDivider := b, tbt.secondDivider := c, tbt.epochPhase := d }

theorem witness_IdleStepCountsRefclk :
    (∀ a ∈ [0, 36862], (idleAt a 0 0 0).pending = [] ∧ (idleAt a 0 0 0).ownStep = none
        ∧ (idleAt a 0 0 0).tbt.prescaler < 36863)
      ∧ ((idleAt 36863 3 0 0).ownStep = none ∧ (idleAt 36863 3 0 0).tbt.stepDivider < 4)
      ∧ ((idleAt 36863 4 18 0).ownStep = none ∧ (idleAt 36863 4 18 0).tbt.secondDivider < 19)
      ∧ ((idleAt 36863 4 19 1).ownStep = none ∧ (idleAt 36863 4 19 1).tbt.secondDivider = 19
        ∧ (idleAt 36863 4 19 1).tbt.epochPhase ≤ 1) := by decide

/-- The part's own steps, each with all that comes after it in the order waiting too. -/
theorem witness_IdleStepTakesThePartsOwnStep :
    let last : State := { base with sli.linkNotice := some (.gap, 0) }
    let key : State := { last with ksc.queue := [.loop 7] }
    let message : State := { key with sli.inbound := [[0x35, 0, 0, 1], [0x21]] }
    let stalled : State := { message with sli.replies := List.replicate 8 (.accept 0 0) }
    let control : State := { message with sli.control := some .go }
    let expiry : State := clocked (clocked control 63 (.mk (some .hold) 0 false none true)) 5
      (.mk (some .park) 0 false none true)
    (∀ s ∈ [last, key, message, stalled, control, expiry], s.pending = [])
      ∧ ((expiry.timer 5).reported = true ∧ ∀ q : Slot, q < 5 → (expiry.timer q).reported = false)
      ∧ (¬ (∃ p : Slot, (control.timer p).reported = true) ∧ control.sli.control.isSome)
      ∧ (message.sli.control = none ∧ message.sli.replies.length < 8
        ∧ message.sli.inbound = [[0x35, 0, 0, 1], [0x21]])
      ∧ (8 ≤ stalled.sli.replies.length ∧ stalled.ksc.queue = [.loop 7]) ∧ key.sli.inbound = []
      ∧ (last.ksc.queue = [] ∧ last.sli.sending = none ∧ last.sli.haltedBy = false
        ∧ last.sli.linkNotice.isSome) := by decide

/-- `room` with a command waiting. -/
def roomNext : State := { room with pending := [.receivedHalt] }

theorem witness_EveryStepKeepsThePresentation :
    roomNext.PresentationLawful ∧ step roomNext = .next (after .receivedHalt room) :=
  ⟨room_lawful.2.1, rfl⟩

theorem witness_EveryStepKeepsTheRanges :
    roomNext.RangesLawful ∧ step roomNext = .next (after .receivedHalt room) :=
  ⟨room_lawful.2.2, rfl⟩

theorem witness_EveryStepKeepsTheLaws :
    roomNext.Lawful ∧ step roomNext = .next (after .receivedHalt room) := ⟨room_lawful, rfl⟩

/-- Two occupied leaves with one key and one wait: the older seq, 0xFFFF before 0, comes first (R76). -/
def twoLeaves : Psel :=
  (inQueue (inQueue base 60 { asked with seq := 0xFFFF }) 3 asked).psel

theorem twoLeaves_leaves :
    ∀ x : Slot, ∀ i ∈ twoLeaves.leaves[x],
      (x = 60 ∧ i = { asked with seq := 0xFFFF }) ∨ (x = 3 ∧ i = asked) := by decide

theorem witness_HeadComesFirst :
    base.psel.Decided ∧ base.psel.head = none
      ∧ twoLeaves.Decided ∧ twoLeaves.head = some 60 ∧ twoLeaves.leaves[(3 : Slot)].isSome
      ∧ (let ahead (i j : QueueFields) : Nat := (65536 + j.seq.toNat - i.seq.toNat) % 65536
        let before (i : QueueFields) (x : Slot) (j : QueueFields) (y : Slot) : Prop :=
          i.key < j.key ∨ (i.key = j.key ∧ (j.wait < i.wait ∨ (i.wait = j.wait ∧
            ((1 ≤ ahead i j ∧ ahead i j ≤ 32767)
              ∨ ((ahead i j = 0 ∨ ahead i j = 32768) ∧ x < y)))))
        ∀ x y z : Slot, ∀ i ∈ twoLeaves.leaves[x], ∀ j ∈ twoLeaves.leaves[y],
          ∀ k ∈ twoLeaves.leaves[z], before i x j y → before j y k z → before i x k z) := by
  refine ⟨base_psel, by decide, by decide, by decide, by decide, fun x y z i hi j hj k hk => ?_⟩
  rcases twoLeaves_leaves x i hi with ⟨rfl, rfl⟩ | ⟨rfl, rfl⟩ <;>
    rcases twoLeaves_leaves y j hj with ⟨rfl, rfl⟩ | ⟨rfl, rfl⟩ <;>
    rcases twoLeaves_leaves z k hk with ⟨rfl, rfl⟩ | ⟨rfl, rfl⟩ <;> decide

theorem witness_OnlySetAndResetChangeSettings :
    exec .receivedHalt room = .next (after .receivedHalt room) ∧ (.receivedHalt : Instr) ≠ .set
      ∧ (∀ straps, (.receivedHalt : Instr) ≠ .powerOnReset straps) :=
  ⟨rfl, by decide, fun _ => by simp⟩

theorem witness_PositionMovesOnlyAsStated :
    exec .positionKey (pressed base .position) = .next (after .positionKey (pressed base .position))
      ∧ (∀ straps, (.positionKey : Instr) ≠ .powerOnReset straps)
      ∧ (after .positionKey (pressed base .position)).pos.state ≠ (pressed base .position).pos.state :=
  ⟨rfl, fun _ => by simp, by decide⟩

/-! ### The console's keys -/

/-- `s` with every key of the scanned column `col` released, but for the one at place `i`, which has been
sampled pressed twice. -/
def almost (s : State) (col : Fin 8) (i : Fin 29) : State :=
  { s with ksc.scan := col, ksc.keys := s.ksc.keys.set i { pressed := false, run := 2 } }

theorem witness_KeyScanDebouncesOneColumn :
    let s := almost base 2 18
    (∀ k ∈ keyAt 2 s.ksc.scan.val, (0b0100#4).getLsbD 2 ≠ s.ksc.keys[k.place].pressed
        ∧ s.ksc.keys[k.place].run = 2)
      ∧ (∀ k ∈ keyAt 0 s.ksc.scan.val, (0b0100#4).getLsbD 0 = s.ksc.keys[k.place].pressed)
      ∧ (∀ k ∈ keyAt 1 s.ksc.scan.val, (0b0110#4).getLsbD 1 ≠ s.ksc.keys[k.place].pressed
        ∧ s.ksc.keys[k.place].run < 2) := by decide

theorem witness_KeyScanHandsAPressOn :
    (∀ s ∈ [almost base 2 18, almost { base with ksc.queue := List.replicate 7 .swap } 2 18,
          almost { base with ksc.queue := List.replicate 8 .swap } 2 18],
        keyAt 2 s.ksc.scan.val = some (.event .answer)
          ∧ (s.ksc.keys[(Key.event .answer).place].sample ((0b0100#4).getLsbD 2)).2 = true
          ∧ (∀ row' : Fin 4, row' ≠ 2 → ∀ k' ∈ keyAt row'.val s.ksc.scan.val,
            (s.ksc.keys[k'.place].sample ((0b0100#4).getLsbD row'.val)).2 = false))
      ∧ (∀ s ∈ [almost base 0 8, almost { base with ksc.dial := List.replicate 5 1 } 0 8,
          almost { base with ksc.dial := List.replicate 6 1 } 0 8,
          almost { base with pos.state := .closed } 0 8],
        keyAt 1 s.ksc.scan.val = some (.digit 0)
          ∧ (s.ksc.keys[(Key.digit 0).place].sample ((0b0010#4).getLsbD 1)).2 = true
          ∧ (∀ row' : Fin 4, row' ≠ 1 → ∀ k' ∈ keyAt row'.val s.ksc.scan.val,
            (s.ksc.keys[k'.place].sample ((0b0010#4).getLsbD row'.val)).2 = false)) := by decide

/-- Every key of column `col` is sampled pressed for the third time. -/
def allAlmost (s : State) (col : Fin 8) : State :=
  { s with ksc.scan := col, ksc.keys := Vector.replicate 29 { pressed := false, run := 2 } }

/-- Several presses accepted in one scan of column 0 or 2, in row order, and none. -/
theorem witness_KeyScanHandsPressesOnInRowOrder :
    (after (.keyScan 0b1111) (allAlmost base 0)).ksc.queue = [.loop 0, .join]
      ∧ (after (.keyScan 0b1111) (allAlmost base 0)).ksc.dial = [0, 8]
      ∧ (after (.keyScan 0b1111) (allAlmost { base with ksc.queue := List.replicate 7 .swap } 2)).ksc.queue
        = List.replicate 7 .swap ++ [.loop 2]
      ∧ (after (.keyScan 0b0000) (allAlmost base 2)).ksc.queue = [] := by decide

theorem witness_KeysAreBarredWhenClosedFrozenOrInResync :
    ∀ s ∈ [pressed { room with pos.state := .closed } .answer,
        pressed { room with sli.link := .down } .answer, pressed { room with ccc.resync := true } .answer],
      s.ksc.queue = .answer :: [] ∧ KeyEvent.answer ≠ .position ∧ ¬ s.TakesKeys := by decide

/-- The headset record with a HOLD pending. -/
def holding : Record := { active with order := some (waiting .hold) }

theorem witness_HeadsetKeysAreRefusedWhileItsOrderIsPending :
    let s := seat base [(0, holding)]
    s.headset = some 0 ∧ s.record? 0 = some holding ∧ ¬ holding.unfenced
      ∧ (pressed s .swap).ksc.queue = .swap :: []
      ∧ KeyEvent.swap ∈ ([.answer, .hold, .release, .extend, .call, .park, .swap, .join, .retrieve] :
        List KeyEvent) := by decide

theorem witness_AnswerAndAutoAnswerConnectTheHead :
    (let s := pressed room .answer;
      s.TakesKeys ∧ s.LeavesExact ∧ s.OrderRoom ∧ s.ccc.claim = none ∧ s.head = some 3
        ∧ s.record? 3 = some queued ∧ queued.state = .queued ∧ queued.queue.isSome ∧ queued.unfenced
        ∧ s.HeadsetYields ∧ s.lowestLoop = some 2 ∧ s.ksc.queue = .answer :: [] ∧ s.headset.isSome)
      ∧ (let s := inQueue (seat base [(3, queued)]) 3 asked;
        let s : State := { s with pos.settings.autoAnswer := 1 }
        s.TakesKeys ∧ s.LeavesExact ∧ s.OrderRoom ∧ s.ccc.claim = none ∧ s.head = some 3
          ∧ s.record? 3 = some queued ∧ s.HeadsetYields ∧ s.lowestLoop = some 0
          ∧ s.pos.settings.autoAnswer = 1 ∧ s.headset = none) := by decide

theorem witness_AnswerAndAutoAnswerAreRefused :
    (∀ s ∈ [base, claimed room, allHeld, full room, seat base [(0, holding)], pair .setup],
        (pressed s .answer).ksc.queue = .answer :: [] ∧ s.TakesKeys)
      ∧ base.head = none ∧ (claimed room).ccc.claim ≠ none ∧ allHeld.NoLoop ∧ ¬ (full room).OrderRoom
      ∧ (seat base [(0, holding)]).HeadsetBars ∧ (pair .setup).HeadsetBars
      ∧ base.pos.settings.autoAnswer = 0 ∧ room.headset.isSome
      ∧ ¬ ({ room with pos.state := .closed } : State).TakesKeys
      ∧ ¬ ({ room with sli.link := .down } : State).TakesKeys
      ∧ ¬ ({ room with ccc.resync := true } : State).TakesKeys := by decide

theorem witness_LoopKeyActsByWhatItsLoopHolds :
    (let s := pressed room (.loop 1);
      s.ksc.queue = .loop 1 :: [] ∧ s.TakesKeys ∧ s.LeavesExact ∧ s.record? 1 = some held
        ∧ s.onLoop 1 = some 1 ∧ held.state = .held
        ∧ (held.unfenced ∧ s.OrderRoom ∧ s.ccc.claim = none ∧ s.HeadsetYields))
      ∧ (let s := pressed { room with ccc.claim := some 3 } (.loop 1);
        s.onLoop 1 = some 1 ∧ s.ccc.claim ≠ none)
      ∧ (let s := pressed room (.loop 0);
        s.onLoop 0 = some 0 ∧ s.record? 0 = some active ∧ active.onHeadset ∧ active.unfenced)
      ∧ (let s := pressed (seat base [(0, holding)]) (.loop 0);
        s.LeavesExact ∧ s.onLoop 0 = some 0 ∧ holding.onHeadset ∧ ¬ holding.unfenced)
      ∧ (pressed room (.loop 7)).onLoop 7 = none := by decide

theorem witness_RetrieveConnectsTheParkedRecord :
    let s := pressed { room with ksc.dial := [4] } .retrieve
    s.ksc.queue = .retrieve :: [] ∧ s.TakesKeys ∧ s.LeavesExact ∧ s.OrderRoom ∧ s.ccc.claim = none
      ∧ s.ksc.dial = [4] ∧ s.parkedAt 4 = some 2 ∧ s.record? 2 = some parked ∧ parked.unfenced
      ∧ s.HeadsetYields ∧ s.lowestLoop = some 2 := by decide

/-- `room` with an order pending on its PARKED record. -/
def parkedFenced : State := seat base [(2, { parked with order := some (waiting .connect) })]

theorem witness_RetrieveIsRefused :
    let dialled (s : State) (d : List Digit) : State := pressed { s with ksc.dial := d } .retrieve
    (∀ d ∈ [[], [4, 4], [5]], (dialled room d).TakesKeys ∧ (dialled room d).ksc.queue = .retrieve :: [])
      ∧ (∀ d ∈ [[], [4, 4]], (dialled room d).ksc.dial.length ≠ 1)
      ∧ (∀ p : Slot, ∀ r ∈ (dialled room [5]).record? p, r.state = .parked → r.orbit ≠ some 5)
      ∧ (parkedFenced.TakesKeys ∧ ∃ p ∈ parkedFenced.parkedAt 4, ∃ r ∈ parkedFenced.record? p, ¬ r.unfenced)
      ∧ (claimed room).ccc.claim ≠ none ∧ (pair .setup).HeadsetBars ∧ allHeld.NoLoop
      ∧ ¬ (full room).OrderRoom := by decide

theorem witness_HeadsetKeysOrderForTheHeadset :
    (∀ s ∈ [pressed room .hold, pressed room .release],
        s.TakesKeys ∧ s.LeavesExact ∧ s.OrderRoom ∧ s.headset = some 0 ∧ s.record? 0 = some active
          ∧ active.state = .active ∧ active.unfenced ∧ active.leg = .incoming)
      ∧ (∀ n ∈ [1, 6], let s := pressed { room with ksc.dial := List.replicate n 1 } .extend
        s.headset = some 0 ∧ active.partner = none ∧ 1 ≤ s.ksc.dial.length ∧ s.ksc.dial.length ≤ 6)
      ∧ (let s := pressed room .park;
        s.ksc.dial = [] ∧ s.lowestOrbit = some 0)
      ∧ (let s := pressed { room with ksc.dial := [9] } .park;
        s.ksc.dial = [9] ∧ s.orbitFree 9) := by decide

/-- A PARKED record at every orbit. -/
def allParked : State :=
  seat base ((List.range 10).map fun n =>
    (Fin.ofNat 64 (n + 1), { call (BitVec.ofNat 16 (30 + n)) .parked with orbit := some (Fin.ofNat 10 n) }))

theorem witness_HeadsetKeysAreRefused :
    (∀ s ∈ [base, pair .setup, pair .active, full room, allParked], s.TakesKeys)
      ∧ (∀ e ∈ [KeyEvent.hold, .release, .extend, .park], (pressed room e).ksc.queue = e :: [])
      ∧ base.NoneActive ∧ (pair .setup).NoneActive ∧ ¬ (full room).OrderRoom
      ∧ (∃ p ∈ (pair .active).headset, ∃ r ∈ (pair .active).record? p, r.partner.isSome)
      ∧ room.ksc.dial = [] ∧ 2 ≤ ([4, 4] : List Digit).length
      ∧ (∀ o : Orbit, ∃ p : Slot, ∃ r ∈ allParked.record? p,
        r.orbit = some o ∨ r.reservedOrbit = some o)
      ∧ (∃ p : Slot, ∃ r ∈ room.record? p, r.orbit = some 4 ∨ r.reservedOrbit = some 4) := by decide

theorem witness_CallReservesALoopAndASlot :
    ∀ n ∈ [1, 6],
      let s := pressed { room with ksc.dial := List.replicate n 1 } .call
      s.ksc.queue = .call :: [] ∧ s.TakesKeys ∧ s.LeavesExact ∧ s.OrderRoom ∧ s.ccc.claim = none
        ∧ s.headset = some 0 ∧ s.record? 0 = some active ∧ active.state = .active
        ∧ active.leg = .incoming ∧ active.unfenced ∧ active.partner = none
        ∧ 1 ≤ s.ksc.dial.length ∧ s.ksc.dial.length ≤ 6 ∧ s.lowestLoop = some 2
        ∧ s.lowestFree = some 6 := by decide

theorem witness_CallIsRefused :
    (∀ s ∈ [base, pair .active, room, claimed room, allHeld, noneFree room, full room],
        s.TakesKeys ∧ (pressed s .call).ksc.queue = .call :: [])
      ∧ base.NoneActive
      ∧ (∃ p ∈ (pair .active).headset, ∃ r ∈ (pair .active).record? p, r.leg = .dialled ∧ r.partner.isSome)
      ∧ room.ksc.dial = [] ∧ (claimed room).ccc.claim ≠ none ∧ allHeld.NoLoop
      ∧ (∀ f : Slot, (noneFree room).slot f ≠ .free) ∧ ¬ (full room).OrderRoom := by decide

theorem witness_PairKeysOrderForTheirLegs :
    ∀ st ∈ [Custody.active, .setup], ∀ e ∈ [KeyEvent.swap, .join, .release, .cancel],
      let s := pressed (pair st) e
      s.TakesKeys ∧ s.LeavesExact ∧ s.OrderRoom ∧ s.headset = some 0 ∧ s.record? 0 = some (dialled st)
        ∧ (dialled st).partner = some 1 ∧ (dialled st).leg = .dialled ∧ (dialled st).unfenced
        ∧ s.ccc.claim = none
        ∧ (∃ u ∈ s.record? 1, u.state = .held ∧ u.unfenced) := by decide

/-- A pair one of whose legs, of slot 0 or 1, is locked. -/
def pairLocked (leg : Slot) : State :=
  let lock (p : Slot) : Option Slot := if p = leg then some 9 else none
  seat base [(0, { dialled .active with lock := lock 0 }), (1, { held with partner := some 0, lock := lock 1 })]

/-- A pair whose source is on the headset, the dialled leg HELD. -/
def sourceOn : State :=
  seat base [(0, { active with partner := some 1 }), (1, { dialled .held with ref := 9, partner := some 0 })]

theorem witness_PairKeysAreRefused :
    (∀ s ∈ [room, base, pair .setup, pair .active, sourceOn, pairLocked 0, pairLocked 1, full (pair .active),
          claimed (pair .active)], s.TakesKeys)
      ∧ (∀ e ∈ [KeyEvent.swap, .join, .release, .cancel], (pressed room e).ksc.queue = e :: [])
      ∧ (∀ p ∈ room.headset, ∀ r ∈ room.record? p, r.partner = none) ∧ (pair .setup).NoneActive
      ∧ (∀ p ∈ sourceOn.headset, ∀ r ∈ sourceOn.record? p, r.leg = .incoming)
      ∧ (∀ s ∈ [pairLocked 0, pairLocked 1, full (pair .active), claimed (pair .active)],
        ∃ p ∈ s.headset, ∃ r ∈ s.record? p, r.leg = .dialled ∧ r.partner.isSome)
      ∧ (∃ p ∈ (pairLocked 0).headset, ∃ r ∈ (pairLocked 0).record? p, ¬ r.unfenced)
      ∧ (∃ p ∈ (pairLocked 1).headset, ∃ r ∈ (pairLocked 1).record? p, r.unfenced
        ∧ ∃ q ∈ r.partner, ∃ u ∈ (pairLocked 1).record? q, ¬ u.unfenced)
      ∧ ¬ (full (pair .active)).OrderRoom ∧ (claimed (pair .active)).ccc.claim ≠ none := by decide

theorem witness_CancelWithoutAPairClearsTheBuffer :
    ∀ s ∈ [pressed base .cancel, pressed (seat base [(0, holding)]) .cancel,
        pressed { room with sli.link := .down } .cancel],
      s.ksc.queue = .cancel :: []
        ∧ (∀ p ∈ s.headset, ∀ r ∈ s.record? p, r.leg = .incoming ∨ r.partner = none) := by decide

theorem witness_PositionKeyStepsTheCycle :
    (pressed base .position).ksc.queue = .position :: []
      ∧ (∀ p : Slot, base.record? p = none) ∧ (room.record? 0).isSome := by decide

/-! ### The line -/

theorem witness_FramedBodyArrivesWhole :
    ∀ n ∈ [4, 40], base.sli.rx = .hunt ∧ 4 ≤ (List.replicate n (0xC3 : Byte)).length
      ∧ (List.replicate n (0xC3 : Byte)).length ≤ 40
      ∧ ({ base with sli.inbound := List.replicate 15 [] } : State).sli.inbound.length < 16 := by decide

theorem witness_ReceiverTakesCharactersByItsState :
    (∀ b ∈ [0xC1, 0xC2, 0xC3, 0xC4, 0xC5, 0x40, 0x41, 0x45, 0x46],
        receivedByte (goodChar b) = some b)
      ∧ receivedByte .lineBreak = none
      ∧ receivedByte (.frame #v[true, false, false, false, false, false, false, false] true true) = some 0x01
      ∧ receivedByte (.frame #v[true, false, false, false, false, false, false, false] false true) = none
      ∧ receivedByte (.frame #v[false, false, false, false, false, false, false, true] true true) = some 0x80
      ∧ receivedByte (.frame #v[false, false, false, false, false, false, false, false] false false) = none
      ∧ isControl 0xC0 = false ∧ isControl 0xC6 = false
      ∧ (List.replicate 40 (0 : Byte)).length < 41 ∧ 41 ≤ (List.replicate 41 (0 : Byte)).length := by
  decide

theorem witness_EndedFrameIsJudged :
    receivedByte (goodChar 0xC2) = some 0xC2 ∧ RxState.body ≠ .hunt ∧ RxState.escaped ≠ .hunt
      ∧ ([0x22, 0, 0, 0, 0xDE] : List Byte).foldl (· + ·) 0 = 0
      ∧ ([0x22, 0, 0, 0xDE] : List Byte).foldl (· + ·) 0 = 0
      ∧ ([0x22, 0, 0, 0, 0xDF] : List Byte).foldl (· + ·) 0 ≠ 0 := by decide

/-- The link DOWN, a POLL's frame received up to its EOM. -/
def lastChar : State := { down with sli.rx := .body, sli.assembly := [0x22, 0, 0, 0, 0xDE] }

theorem witness_ValidMessageBringsTheLinkUp :
    lastChar.Lawful ∧ receivedByte (goodChar 0xC2) = some 0xC2 ∧ lastChar.sli.rx = .body
      ∧ lastChar.sli.damaged = false ∧ lastChar.sli.assembly.foldl (· + ·) (0 : Byte) = 0
      ∧ 5 ≤ lastChar.sli.assembly.length ∧ lastChar.sli.inbound.length < 16
      ∧ lastChar.sli.link = .down ∧ lastChar.ccc.resync = false :=
  ⟨⟨down_lawful.1, down_lawful.2.1, ranges_of rfl rfl rfl (by decide) (by decide) (by decide) rfl⟩,
    by decide⟩

theorem witness_FlowControlActsAtOnce :
    let at_ (n : Nat) (h : Bool) : State :=
      { base with sli.inbound := List.replicate n [], sli.haltedSent := h }
    (at_ 12 false).pos.settings.highMark ≤ (at_ 12 false).sli.inbound.length
      ∧ ¬ (at_ 11 false).pos.settings.highMark ≤ (at_ 11 false).sli.inbound.length
      ∧ (at_ 4 true).sli.inbound.length ≤ (at_ 4 true).pos.settings.lowMark
      ∧ ¬ (at_ 5 true).sli.inbound.length ≤ (at_ 5 true).pos.settings.lowMark := by decide

theorem witness_ControlCharacterIsSent :
    ∀ c ∈ [Control.halt, .go], ∀ l ∈ [[(0xC2 : Byte)], frameTail [0x22, 0, 0, 0]],
      let s : State := { base with sli.control := some c }
      let t : State := { s with sli.sending := some { body := [], owner := none, left := l } }
      s.sli.control = some c ∧ s.sli.sending = none ∧ t.sli.control = some c
        ∧ (∀ m ∈ t.sli.sending, m.left ≠ []) := by decide

theorem witness_BaseTickCountsGapAndSupervision :
    let at_ (g n : Nat) : State := { base with sli.rx := .body, sli.gap := g, sli.supCount := n }
    (at_ 2 498).sli.supCount + 1 < (at_ 2 498).pos.settings.supervision * 100 ∧ (at_ 2 498).sli.gap < 3
      ∧ 3 ≤ (at_ 3 498).sli.gap ∧ (at_ 3 498).sli.rx ≠ .hunt := by decide

theorem witness_SupervisionTimeoutFreezesThePosition :
    let s : State := { room with sli.supCount := 499 }
    let open_ (g : Nat) : State := { s with sli.rx := .body, sli.gap := g }
    (s.Lawful ∧ (open_ 2).Lawful ∧ (open_ 3).Lawful)
      ∧ s.sli.link = .up ∧ s.pos.settings.supervision * 100 ≤ s.sli.supCount + 1 ∧ s.sli.rx = .hunt
      ∧ (open_ 2).sli.gap < 3 ∧ 3 ≤ (open_ 3).sli.gap ∧ (open_ 3).sli.rx ≠ .hunt :=
  ⟨⟨room_lawful, ⟨room_lawful.1, room_lawful.2.1, ranges_of rfl rfl rfl (by decide) (by decide) (by decide) rfl⟩,
    ⟨room_lawful.1, room_lawful.2.1, ranges_of rfl rfl rfl (by decide) (by decide) (by decide) rfl⟩⟩, by decide⟩

theorem witness_TransmitterStartsTheFirstMessage :
    (let s : State := { base with sli.haltedBy := true };
      s.sli.haltedBy = true)
      ∧ (base.sli.haltedBy = false ∧ base.sli.sending = none ∧ base.sli.replies = []
        ∧ base.sli.orders = [] ∧ base.sli.auditNotice = false ∧ base.sli.posNotice = none
        ∧ base.sli.orderNotice = none)
      ∧ (let s : State := { seat base [(0, { active with order := some (Order.new .hold) })] with
            sli.orders := [0] };
        s.sli.orders = 0 :: [] ∧ s.LeavesExact ∧ (s.record? 0).isSome)
      ∧ ({ Order.new .park with reservedOrbit := some 9 } : Order).reservedOrbit = some (9 : Orbit)
      ∧ ({ Order.new .divert with tenant := some 15 } : Order).tenant = some (15 : Tenant)
      ∧ (∀ k ∈ [OrderKind.extend, .dial, .park, .divert, .hold], (Order.new k).kind = k)
      ∧ OrderKind.hold ∉ [OrderKind.extend, .dial, .park, .divert] := by decide

theorem witness_TransmitEndStartsTheConfirmTimer :
    let r : Record := { active with order := some { Order.new .hold with stage := .onTheLine } }
    let m : Sending := { body := [], owner := some 0, left := [0x2E, 0xC2] }
    let s : State := { seat base [(0, r)] with sli.sending := some m }
    s.sli.sending = some m ∧ m.owner = some 0 ∧ s.LeavesExact ∧ s.record? 0 = some r
      ∧ (r.order.map Order.stage) = some .onTheLine
      ∧ (s.record? 1 = none ∧ s.LeavesExact) := by decide

end Sys2Proof.Tests
end

