-- ==== Sys2Proof/Tests/WitnessesCalls.lean ====
section
/-! SUPPORT. The witnesses of `Witnesses.lean`, continued: the statements about calls, confirms, requests,
the audit, timers and the console's outputs. -/

set_option maxRecDepth 100000
set_option synthInstance.maxSize 4000

namespace Sys2Proof.Tests

open Sys2Proof Sys2Proof.Machine

/-! ### Calls offered and call events -/

/-- An OFFER of tenant 3, class EXTERNAL, with two digits and one name character. -/
def offerOf (ref : Byte) : List Byte := message kindOffer ref [3, 2, 2, 1, 0x31, 0x32, 0x41]

theorem witness_OfferBodyIsReadByItsRule :
    (readOffer (offerOf 20)).isSome
      ∧ (readOffer (message kindOffer 20 ([15, 3, 16, 16] ++ List.replicate 16 0x39
          ++ List.replicate 16 0x7F))).isSome := by decide

theorem witness_AcceptedOfferIsQueued :
    let s := given room (offerOf 20)
    s.MessageWaits kindOffer (offerOf 20) [] ∧ s.TakesKeys ∧ s.pos.state = .opened
      ∧ readOffer (offerOf 20) = some { tenant := 3, cls := .external, number := [1, 2], name := [0x41] }
      ∧ refOf (offerOf 20) ≠ 0 ∧ s.lookup (refOf (offerOf 20)) = none ∧ s.lowestFree = some 6
      ∧ s.psel.queued[(3 : Tenant)] < (s.profile 3).queueLimit ∧ s.LeavesExact := by decide

/-- Tenant 3's queue limit at 1. -/
def limited (s : State) : State :=
  { s with pos.profiles := s.pos.profiles.set 3 { defaultProfile 3 with queueLimit := 1 } }

theorem witness_RefusedOfferChangesNothing :
    (∀ x ∈ [PosState.busyOut, .closing, .closed, .opened],
        (given { room with pos.state := x } (offerOf 20)).MessageWaits kindOffer (offerOf 20) [])
      ∧ (given down (offerOf 20)).sli.link = .down ∧ (given resyncing (offerOf 20)).ccc.resync = true
      ∧ (given room (offerOf 20)).TakesKeys
      ∧ readOffer ((offerOf 20).take 10) = none ∧ (readOffer (offerOf 0)).isSome
      ∧ refOf (offerOf 0) = 0 ∧ (room.lookup (refOf (offerOf 12))).isSome
      ∧ (noneFree base).lookup (refOf (offerOf 20)) = none
      ∧ (∀ p : Slot, (noneFree base).slot p ≠ .free)
      ∧ (limited room).slot 6 = .free
      ∧ ((limited room).profile 3).queueLimit ≤ (limited room).psel.queued[(3 : Tenant)] := by decide

/-- A CLOSING position that holds one record. -/
def closing : State := { seat base [(5, extended)] with pos.state := .closing }

theorem closing_lawful : closing.Lawful :=
  have h := single_lawful 5 (r := extended) (by decide)
  ⟨table_position h.1 .closing (by decide), h.2⟩

theorem witness_ClearedAndDeliveredRetire :
    (∀ k ∈ [kindCleared, kindDelivered], (given closing (message k 14 [])).Lawful)
      ∧ (given room (message kindCleared 12 [])).Lawful
      ∧ (∀ k ∈ [kindCleared, kindDelivered], ∀ s ∈ [room, closing],
        (given s (message k 14 [])).MessageWaits k (message k 14 []) []
          ∧ s.lookup (refOf (message k 14 [])) = some 5 ∧ s.record? 5 = some extended)
      ∧ room.lookup (refOf (message kindCleared 12 [])) = some 3 ∧ room.record? 3 = some queued
      ∧ (extended.state = .extended ∨ extended.state = .camped ∨ extended.state = .parked) :=
  ⟨fun k _ => lawful_given closing_lawful _ (by simp [message, headerLength]),
    lawful_given room_lawful _ (by decide), by decide⟩

theorem witness_EventsForUnknownReferencesAreIgnored :
    ∀ k ∈ [kindCleared, kindDelivered, kindCampFree, kindFarEnd, kindConfirm],
      (given room (message k 99 [])).MessageWaits k (message k 99 []) []
        ∧ room.lookup (refOf (message k 99 [])) = none := by decide

theorem witness_CampFreeMovesToExtended :
    let s := given room (message kindCampFree 13 [])
    s.MessageWaits kindCampFree (message kindCampFree 13 []) []
      ∧ s.lookup (refOf (message kindCampFree 13 [])) = some 4 ∧ s.record? 4 = some camped
      ∧ camped.state = .camped ∧ s.LeavesExact := by decide

theorem witness_FarEndMovesTheDialledLeg :
    ∀ c ∈ [(1 : Byte), 2, 3, 4],
      let b := message kindFarEnd 7 [c]
      let s := given (pair .setup) b
      s.MessageWaits kindFarEnd b [] ∧ s.lookup (refOf b) = some 0
        ∧ s.record? 0 = some (dialled .setup) ∧ (dialled .setup).state = .setup
        ∧ (dialled .setup).leg = .dialled ∧ s.LeavesExact ∧ 5 ≤ b.length ∧ byteAt b 4 = c := by decide

theorem witness_UnfittingEventsAreMismatches :
    (∀ k ∈ [kindDelivered, kindCampFree, kindFarEnd], ∀ c ∈ [[], [(0 : Byte)], [5], [3]],
        (given room (message k 9 c)).Lawful ∧ (given resyncing (message k 9 c)).Lawful
          ∧ (given (pair .setup) (message k 7 c)).Lawful)
      ∧ (∀ k ∈ [kindDelivered, kindCampFree, kindFarEnd], ∀ c ∈ [[], [(0 : Byte)], [5], [3]],
        (given room (message k 9 c)).MessageWaits k (message k 9 c) []
          ∧ room.lookup (refOf (message k 9 c)) = some 1 ∧ room.record? 1 = some held
          ∧ resyncing.lookup (refOf (message k 9 c)) = some 1 ∧ resyncing.record? 1 = some held)
      ∧ held.state = .held ∧ held.state ≠ .camped ∧ held.leg = .incoming
      ∧ (message kindFarEnd 7 []).length < 5 ∧ (byteAt (message kindFarEnd 7 [0]) 4).toNat < 1
      ∧ 4 < (byteAt (message kindFarEnd 7 [5]) 4).toNat := by
  refine ⟨fun k _ c hc => ?_, by decide⟩
  have hlen : headerLength ≤ (message k 9 c).length ∧ (message k 9 c).length ≤ 40 := by
    simp only [List.mem_cons, List.not_mem_nil, or_false] at hc
    rcases hc with rfl | rfl | rfl | rfl <;> simp [message, headerLength]
  exact ⟨lawful_given room_lawful _ hlen, lawful_given resyncing_lawful _ hlen,
    lawful_given setup_lawful _ hlen⟩

/-! ### Confirms -/

/-- A CONFIRM for an order of kind `k`, with an outcome and a new reference. -/
def confirmOf (ref : Byte) (k : OrderKind) (v new : Byte) : List Byte :=
  message kindConfirm ref [k.code, v, 0, new]

theorem lawful_confirm {s : State} (h : s.Lawful) (ref : Byte) (k : OrderKind) (v new : Byte) :
    (given s (confirmOf ref k v new)).Lawful :=
  lawful_given h _ (by simp [confirmOf, message, headerLength])

def connecting : Order := { waiting .connect with secondary := some 0, reservedLoop := some 2 }

/-- A CONNECT of the QUEUED record of slot 3, the ACTIVE one of slot 0 its secondary. -/
def connect : State :=
  { seat base [(0, { active with lock := some 3 }), (3, { queued with order := some connecting })] with
    ccc.claim := some 3, psel.queued := Psel.reset.queued.set 3 1 }

theorem connect_lawful : connect.Lawful :=
  ⟨by decide, by decide, ranges_of rfl rfl rfl (by decide) (by decide) (by decide) rfl⟩

theorem witness_ConnectDoneTakesTheHeadset :
    let b := confirmOf 12 .connect 1 0
    (given connect b).Lawful
      ∧ (given connect b).ConfirmWaits b [] 3 { queued with order := some connecting } connecting
      ∧ connecting.kind = .connect ∧ byteAt b 5 = 0x01 ∧ connecting.secondary = some 0
      ∧ (connect.record? 0).isSome :=
  ⟨lawful_confirm connect_lawful _ _ _ _, by decide⟩

/-- The ACTIVE record of slot 0 with an order. -/
def withOrder (o : Order) : State := seat base [(0, { active with order := some o })]

def parking : Order := { waiting .park with reservedOrbit := some 9 }
def extending : Order := { waiting .extend with digits := [1, 2, 3, 4, 5, 6] }

theorem hold_lawful : (withOrder (waiting .hold)).Lawful := single_lawful 0 (by decide)

theorem park_lawful : (withOrder parking).Lawful := single_lawful 0 (by decide)

theorem extend_lawful : (withOrder extending).Lawful := single_lawful 0 (by decide)

/-- Tenant 3 without camp-on. -/
def campless : State :=
  { withOrder extending with
    pos.profiles := base.pos.profiles.set 3 { base.pos.profiles[3] with campOn := 0 } }

theorem campless_lawful : campless.Lawful := by
  obtain ⟨h1, h2, ⟨h3, h4, h5⟩, h6⟩ := extend_lawful
  refine ⟨h1, h2, ⟨h3, fun t => ?_, h5⟩, h6⟩
  have h3' := h4 3
  by_cases ht : t = 3
  · subst ht
    obtain ⟨a, b, c, d, e, f⟩ := h3'
    exact ⟨a, b, c, d, Nat.zero_le _, f⟩
  · have hv : ¬ (3 : Nat) = t.val := fun e => ht (Fin.ext e.symm)
    have : campless.profile t = (withOrder extending).profile t := by
      simp only [State.profile, campless, withOrder, seat, Fin.getElem_fin]
      exact Vector.getElem_set_ne (by omega) t.isLt hv
    rw [this]; exact h4 t

theorem witness_HoldParkAndExtendConfirmsSettleThePrimary :
    ((given (withOrder (waiting .hold)) (confirmOf 7 .hold 1 0)).Lawful
        ∧ (given (withOrder parking) (confirmOf 7 .park 1 0)).Lawful
        ∧ (∀ v, (given (withOrder extending) (confirmOf 7 .extend v 0)).Lawful)
        ∧ (given campless (confirmOf 7 .extend 3 0)).Lawful)
      ∧ (given (withOrder (waiting .hold)) (confirmOf 7 .hold 1 0)).ConfirmWaits
          (confirmOf 7 .hold 1 0) [] 0 { active with order := some (waiting .hold) } (waiting .hold)
      ∧ (given (withOrder parking) (confirmOf 7 .park 1 0)).ConfirmWaits
          (confirmOf 7 .park 1 0) [] 0 { active with order := some parking } parking
      ∧ (∀ v ∈ [(2 : Byte), 3, 4],
        (given (withOrder extending) (confirmOf 7 .extend v 0)).ConfirmWaits
            (confirmOf 7 .extend v 0) [] 0 { active with order := some extending } extending
          ∧ byteAt (confirmOf 7 .extend v 0) 5 = v)
      ∧ ((withOrder extending).profile active.tenant).campOn = 1
      ∧ (given campless (confirmOf 7 .extend 3 0)).ConfirmWaits
          (confirmOf 7 .extend 3 0) [] 0 { active with order := some extending } extending
      ∧ (campless.profile active.tenant).campOn = 0 :=
  ⟨⟨lawful_confirm hold_lawful _ _ _ _, lawful_confirm park_lawful _ _ _ _,
    fun v => lawful_confirm extend_lawful _ _ v _, lawful_confirm campless_lawful _ _ _ _⟩, by decide⟩

def dialling : Order :=
  { waiting .dial with reservedLoop := some 2, reservedSlot := some 9, digits := [1] }

/-- A DIAL for the ACTIVE record of slot 0, slot 9 reserved. -/
def dial : State :=
  { withOrder dialling with
    ccc.claim := some 0, ccc.table := (withOrder dialling).ccc.table.set 9 (.reserved 0) }

theorem dial_lawful : dial.Lawful :=
  ⟨by decide, by decide, ranges_of rfl rfl rfl (by decide) (by decide) (by decide) rfl⟩

theorem witness_DialAndRefusedConfirmsSettleTheReservations :
    (∀ v new, (given dial (confirmOf 7 .dial v new)).Lawful)
      ∧ (∀ v ∈ [(1 : Byte), 3, 4, 5],
        (given dial (confirmOf 7 .dial v 20)).ConfirmWaits (confirmOf 7 .dial v 20) [] 0
            { active with order := some dialling } dialling
          ∧ byteAt (confirmOf 7 .dial v 20) 5 = v)
      ∧ wordAt (confirmOf 7 .dial 1 20) 6 ≠ 0 ∧ dial.lookup (wordAt (confirmOf 7 .dial 1 20) 6) = none
      ∧ dialling.reservedSlot = some 9 ∧ dialling.kind ≠ .recall ∧ dialling.kind ≠ .divert :=
  ⟨fun v new => lawful_confirm dial_lawful _ _ v new, by decide⟩

/-- An order of kind `k` for the dialled leg of a pair, its partner the secondary. -/
def pairOrder (k : OrderKind) : Order := { waiting k with secondary := some 1 }

/-- A pair with an order for both its legs. -/
def pairWith (k : OrderKind) : State :=
  { seat base [(0, { dialled .active with order := some (pairOrder k) }),
      (1, { held with recallAlert := false, partner := some 0, lock := some 0 })] with
    ccc.claim := if k = .clear then some 0 else none }

theorem clear_lawful : (pairWith .clear).Lawful :=
  ⟨by decide, by decide, ranges_of rfl rfl rfl (by decide) (by decide) (by decide) rfl⟩

theorem join_lawful : (pairWith .join).Lawful :=
  ⟨by decide, by decide, ranges_of rfl rfl rfl (by decide) (by decide) (by decide) rfl⟩

theorem witness_ClearAndJoinDoneRetire :
    ((given (pairWith .clear) (confirmOf 7 .clear 1 0)).Lawful
        ∧ (given (pairWith .join) (confirmOf 7 .join 1 0)).Lawful)
      ∧ (∀ k ∈ [OrderKind.clear, .join],
        (given (pairWith k) (confirmOf 7 k 1 0)).ConfirmWaits (confirmOf 7 k 1 0) [] 0
            { dialled .active with order := some (pairOrder k) } (pairOrder k)
          ∧ byteAt (confirmOf 7 k 1 0) 5 = 0x01 ∧ (pairOrder k).secondary = some 1
          ∧ ((pairWith k).record? 1).isSome ∧ (pairWith k).record? 2 = none) :=
  ⟨⟨lawful_confirm clear_lawful _ _ _ _, lawful_confirm join_lawful _ _ _ _⟩, by decide⟩

def recalling : Order := { waiting .recall with expiryKind := some .camp }
def divertingHeld : Order := { waiting .divert with expiryKind := some .hold, tenant := some 3 }
def diverting : Order := { waiting .divert with expiryKind := some .park, tenant := some 3 }

/-- A CAMPED record with a RECALL pending, and a PARKED and a HELD one with a DIVERT each. -/
def expired : State :=
  seat base [(1, { held with order := some divertingHeld }), (2, { parked with order := some diverting }),
    (4, { camped with order := some recalling })]

theorem expired_lawful : expired.Lawful :=
  ⟨by decide, by decide, ranges_of rfl rfl rfl (by decide) (by decide) (by decide) rfl⟩

/-- The same with the CAMPED record since moved to EXTENDED by a CAMP-FREE (R37, R122). -/
def freed : State :=
  seat base [(5, { extended with order := some recalling })]

theorem freed_lawful : freed.Lawful := single_lawful 5 (by decide)

/-- The same with its CAMP timer spent, and with its expiry reported and not yet taken. -/
def freedAt (reported : Bool) : State :=
  clocked freed 5 { kind := some .camp, remaining := 0, waiting := false, owed := none, reported := reported }

theorem freedAt_lawful (x : Bool) : (freedAt x).Lawful :=
  lawful_timers freed_lawful _ (by revert x; decide)

/-- A record whose RECALL waits for the line. -/
def inGroup (n : Nat) : Record :=
  { call (BitVec.ofNat 16 (20 + n)) .extended with
    destination := some [1], order := some { Order.new .recall with expiryKind := some .noAnswer } }

/-- The order group full of RECALLs, while a DIVERT awaits its confirm. -/
def crowded : State :=
  { seat base ((2, { parked with order := some diverting })
      :: (List.range 16).map fun n => (Fin.ofNat 64 (20 + n), inGroup n)) with
    sli.orders := (List.range 16).map fun n => Fin.ofNat 64 (20 + n) }

theorem crowded_lawful : crowded.Lawful :=
  ⟨by decide, by decide, ranges_of rfl rfl rfl (by decide) (by decide) (by decide) rfl⟩

theorem witness_RecallAndDivertConfirmsSettleThePrimary :
    (∀ v, (given expired (confirmOf 13 .recall v 0)).Lawful
        ∧ (given freed (confirmOf 14 .recall v 0)).Lawful
        ∧ (∀ x, (given (freedAt x) (confirmOf 14 .recall v 0)).Lawful)
        ∧ (given expired (confirmOf 9 .divert v 0)).Lawful
        ∧ (given expired (confirmOf 11 .divert v 0)).Lawful
        ∧ (given crowded (confirmOf 11 .divert v 0)).Lawful)
      ∧ (∀ v ∈ [(1 : Byte), 5],
        (given expired (confirmOf 13 .recall v 0)).ConfirmWaits (confirmOf 13 .recall v 0) [] 4
            { camped with order := some recalling } recalling
          ∧ (given freed (confirmOf 14 .recall v 0)).ConfirmWaits (confirmOf 14 .recall v 0) [] 5
            { extended with order := some recalling } recalling
          ∧ (given expired (confirmOf 9 .divert v 0)).ConfirmWaits (confirmOf 9 .divert v 0) [] 1
            { held with order := some divertingHeld } divertingHeld
          ∧ (given expired (confirmOf 11 .divert v 0)).ConfirmWaits (confirmOf 11 .divert v 0) [] 2
            { parked with order := some diverting } diverting
          ∧ byteAt (confirmOf 11 .divert v 0) 5 = v)
      ∧ (given crowded (confirmOf 11 .divert 5 0)).ConfirmWaits (confirmOf 11 .divert 5 0) [] 2
          { parked with order := some diverting } diverting
      ∧ camped.state.timerKind = recalling.expiryKind ∧ extended.state.timerKind ≠ recalling.expiryKind
      ∧ (∀ x, (given (freedAt x) (confirmOf 14 .recall 5 0)).ConfirmWaits (confirmOf 14 .recall 5 0) [] 5
          { extended with order := some recalling } recalling)
      ∧ (freed.timer 5).isSpent = false ∧ ((freedAt true).timer 5).isSpent = false
      ∧ (let m := (freedAt false).timer 5
        m.kind.isSome ∧ m.remaining = 0 ∧ m.waiting = false ∧ m.reported = false)
      ∧ extended.state.timerKind = some .noAnswer ∧ held.state = .held ∧ parked.state ≠ .held
      ∧ expired.OrderRoom ∧ ¬ crowded.OrderRoom :=
  ⟨fun v => ⟨lawful_confirm expired_lawful _ _ v _, lawful_confirm freed_lawful _ _ v _,
    fun x => lawful_confirm (freedAt_lawful x) _ _ v _, lawful_confirm expired_lawful _ _ v _, lawful_confirm expired_lawful _ _ v _,
    lawful_confirm crowded_lawful _ _ v _⟩, by decide⟩

theorem witness_UnfittingConfirmsRaiseFaults :
    (∀ ref k v new, (given down (confirmOf ref k v new)).Lawful
        ∧ (given (withOrder (waiting .hold)) (confirmOf ref k v new)).Lawful
        ∧ (given (withOrder extending) (confirmOf ref k v new)).Lawful
        ∧ (given dial (confirmOf ref k v new)).Lawful)
      ∧ (given down (confirmOf 7 .hold 1 0)).MessageWaits kindConfirm (confirmOf 7 .hold 1 0) []
      ∧ down.lookup (refOf (confirmOf 7 .hold 1 0)) = some 0 ∧ (down.record? 0).isSome
      ∧ (withOrder (waiting .hold)).lookup (refOf (confirmOf 7 .park 1 0)) = some 0
      ∧ (waiting .hold).kind.code ≠ byteAt (confirmOf 7 .park 1 0) 4
      ∧ (∀ v ∈ [(0 : Byte), 6, 2, 3, 4],
        (waiting .hold).kind.code = byteAt (confirmOf 7 .hold v 0) 4 ∧ byteAt (confirmOf 7 .hold v 0) 5 = v)
      ∧ (waiting .hold).stage = .awaitingConfirm
      ∧ byteAt (confirmOf 7 .extend 1 0) 5 = 0x01 ∧ extending.stage = .awaitingConfirm
      ∧ wordAt (confirmOf 7 .dial 1 7) 6 ≠ 0 ∧ (dial.lookup (wordAt (confirmOf 7 .dial 1 7) 6)).isSome
      ∧ wordAt (confirmOf 7 .dial 1 0) 6 = 0 ∧ dialling.kind.code = byteAt (confirmOf 7 .dial 1 0) 4 :=
  ⟨fun _ _ _ _ => ⟨lawful_confirm down_lawful _ _ _ _, lawful_confirm hold_lawful _ _ _ _,
    lawful_confirm extend_lawful _ _ _ _, lawful_confirm dial_lawful _ _ _ _⟩, by decide⟩

/-- The clauses about the outcomes that are not valid for a RECALL or a DIVERT. -/
theorem witness_UnfittingRecallAndDivertConfirms :
    (∀ v, (given expired (confirmOf 13 .recall v 0)).Lawful
        ∧ (given freed (confirmOf 14 .recall v 0)).Lawful
        ∧ (∀ x, (given (freedAt x) (confirmOf 14 .recall v 0)).Lawful)
        ∧ (given expired (confirmOf 9 .divert v 0)).Lawful
        ∧ (given expired (confirmOf 11 .divert v 0)).Lawful)
      ∧ (∀ v ∈ [(0 : Byte), 2, 6],
        (given expired (confirmOf 13 .recall v 0)).ConfirmWaits (confirmOf 13 .recall v 0) [] 4
            { camped with order := some recalling } recalling
          ∧ (given freed (confirmOf 14 .recall v 0)).ConfirmWaits (confirmOf 14 .recall v 0) [] 5
            { extended with order := some recalling } recalling
          ∧ (∀ x, (given (freedAt x) (confirmOf 14 .recall v 0)).ConfirmWaits (confirmOf 14 .recall v 0) []
            5 { extended with order := some recalling } recalling)
          ∧ (given expired (confirmOf 9 .divert v 0)).ConfirmWaits (confirmOf 9 .divert v 0) [] 1
            { held with order := some divertingHeld } divertingHeld
          ∧ (given expired (confirmOf 11 .divert v 0)).ConfirmWaits (confirmOf 11 .divert v 0) [] 2
            { parked with order := some diverting } diverting
          ∧ byteAt (confirmOf 13 .recall v 0) 5 ≠ 0x01 ∧ byteAt (confirmOf 13 .recall v 0) 5 ≠ 0x05)
      ∧ camped.state.timerKind = recalling.expiryKind ∧ extended.state.timerKind ≠ recalling.expiryKind
      ∧ (freed.timer 5).kind = none ∧ ((freedAt true).timer 5).reported = true
      ∧ (let m := (freedAt false).timer 5
        m.kind.isSome ∧ m.remaining = 0 ∧ m.waiting = false ∧ m.reported = false)
      ∧ held.state = .held ∧ parked.state ≠ .held :=
  ⟨fun v => ⟨lawful_confirm expired_lawful _ _ v _, lawful_confirm freed_lawful _ _ v _,
    fun x => lawful_confirm (freedAt_lawful x) _ _ v _, lawful_confirm expired_lawful _ _ v _,
    lawful_confirm expired_lawful _ _ v _⟩, by decide⟩

end Sys2Proof.Tests
end

