-- ==== Sys2Proof/Tests/WitnessesRequests.lean ====
section
/-! SUPPORT. The witnesses of `Witnesses.lean`, concluded: the statements about requests, the audit and the
restart, the timers and the console's outputs. -/

set_option maxRecDepth 100000
set_option synthInstance.maxSize 4000

namespace Sys2Proof.Tests

open Sys2Proof Sys2Proof.Machine

/-! ### Requests -/

theorem witness_PollAndUnknownKindAreHandedOn :
    (given room (message kindPoll 0 [])).MessageWaits kindPoll (message kindPoll 0 []) []
      ∧ ({ given room (message kindPoll 0 []) with
          sli.replies := List.replicate 7 (.accept 0 0) } : State).sli.replies.length < Config.replyRoom
      ∧ (∀ k ∈ [(0x20 : Byte), 0x2A, 0x30, 0x36],
        (given room (message k 0 [])).MessageWaits k (message k 0 []) []
          ∧ k ∉ ([0x21, 0x22, 0x23, 0x24, 0x25, 0x26, 0x27, 0x28, 0x29, 0x31, 0x32, 0x33, 0x34, 0x35] :
            List Byte)) := by decide

/-- A SET of a numeric item. -/
def setOf (scope code hi lo : Byte) : List Byte := message kindSet 0 [scope, code, hi, lo]

theorem witness_SetStoresTheItemInItsRange :
    (∀ c ∈ [(0x01 : Byte), 0x02, 0x03, 0x04, 0x05, 0x06, 0x07, 0x08, 0x09, 0x0A, 0x0B, 0x0C, 0x0D],
        (given room (setOf 0x80 c 0 4)).MessageWaits kindSet (setOf 0x80 c 0 4) []
          ∧ byteAt (setOf 0x80 c 0 4) 4 = 0x80 ∧ byteAt (setOf 0x80 c 0 4) 5 = c
          ∧ (setOf 0x80 c 0 4).length = 8)
      ∧ (∀ c ∈ [(0x11 : Byte), 0x12, 0x13, 0x14, 0x15, 0x16, 0x17, 0x18, 0x19], ∀ t ∈ [(0 : Tenant), 15],
        let b := setOf (BitVec.ofNat 8 t.val) c 0 4
        (given room b).MessageWaits kindSet b [] ∧ (byteAt b 4).toNat = t.val ∧ byteAt b 5 = c
          ∧ b.length = 8)
      ∧ (let b := message kindSet 0 ([15, 0x1A] ++ List.replicate 12 0x7F);
        (given room b).MessageWaits kindSet b [] ∧ (byteAt b 4).toNat = (15 : Tenant).val
          ∧ byteAt b 5 = 0x1A ∧ b.length = 18)
      ∧ (byteAt (setOf 16 0x11 0 0) 4 ≠ 0x80 ∧ 16 ≤ (byteAt (setOf 16 0x11 0 0) 4).toNat)
      ∧ (∀ c ∈ [(0x00 : Byte), 0x0E], byteAt (setOf 0x80 c 0 0) 4 = 0x80
        ∧ ((byteAt (setOf 0x80 c 0 0) 5).toNat < 1 ∨ 0x0D < (byteAt (setOf 0x80 c 0 0) 5).toNat))
      ∧ (∀ c ∈ [(0x10 : Byte), 0x1B], byteAt (setOf 0 c 0 0) 4 ≠ 0x80
        ∧ ((byteAt (setOf 0 c 0 0) 5).toNat < 0x11 ∨ 0x1A < (byteAt (setOf 0 c 0 0) 5).toNat))
      ∧ (let b := message kindSet 0 [0x80, 0x01, 0]; byteAt b 5 ≠ 0x1A ∧ b.length ≠ 8)
      ∧ (byteAt (setOf 0 0x1A 0 0) 5 = 0x1A ∧ (setOf 0 0x1A 0 0).length ≠ 18) := by decide

/-- A CADENCE-LOAD of a pattern with the given step bytes. -/
def loadOf (n mode : Byte) (steps : List Byte) : List Byte :=
  message kindCadenceLoad 0 ([0x01, n, mode, BitVec.ofNat 8 steps.length] ++ steps)

theorem witness_CadenceRequestsActOnTheShadowBank :
    (∀ steps ∈ [[(0x81 : Byte)], List.replicate 8 0x3F, [0x81, 0x40]],
        let b := loadOf 15 1 steps
        (given room b).MessageWaits kindCadenceLoad b [] ∧ room.ind.commit = false
          ∧ byteAt b 4 = 0x01 ∧ (byteAt b 5).toNat = (15 : Fin 16).val ∧ byteAt b 6 = 0x01
          ∧ 1 ≤ (byteAt b 7).toNat ∧ (byteAt b 7).toNat ≤ 8 ∧ b.length = 8 + (byteAt b 7).toNat)
      ∧ (∀ c ∈ (loadOf 15 1 [0x81]).drop 8, c.toNat % 64 ≠ 0)
      ∧ (∃ c ∈ (loadOf 15 1 [0x81, 0x40]).drop 8, c.toNat % 64 = 0)
      ∧ (let b := message kindCadenceLoad 0 [0x02, 15, 15];
        (given room b).MessageWaits kindCadenceLoad b [] ∧ byteAt b 4 = 0x02 ∧ b.length = 7
          ∧ (byteAt b 5).toNat = (15 : Fin 16).val)
      ∧ (let b := message kindCadenceLoad 0 [0x02, 15]; byteAt b 4 = 0x02 ∧ b.length ≠ 7)
      ∧ 16 ≤ (byteAt (loadOf 16 0 [1]) 5).toNat
      ∧ (let b := message kindCadenceLoad 0 [0x02, 15, 16]; b.length = 7 ∧ 16 ≤ (byteAt b 6).toNat)
      ∧ (byteAt (loadOf 15 2 [1]) 4 = 0x01 ∧ byteAt (loadOf 15 2 [1]) 6 ≠ 0x00
        ∧ byteAt (loadOf 15 2 [1]) 6 ≠ 0x01)
      ∧ (∀ k ∈ [0, 9], let b := loadOf 15 0 (List.replicate k 1)
        byteAt b 4 = 0x01 ∧ b.length = 8 + k ∧ (byteAt b 7).toNat = k)
      ∧ (let s : State := { given room (loadOf 15 1 [1]) with ind.commit := true }; s.ind.commit = true)
      ∧ (given room (message kindCadenceCommit 0 [])).MessageWaits kindCadenceCommit
          (message kindCadenceCommit 0 []) [] := by decide

theorem witness_PositionRequestMovesThePosition :
    (∀ c ∈ [(1 : Byte), 2, 3],
        let b := message kindPosition 0 [c]
        (given base b).MessageWaits kindPosition b [] ∧ b.length = 5 ∧ byteAt b 4 = c)
      ∧ (∀ p : Slot, base.record? p = none) ∧ base.pos.state = .opened ∧ (room.record? 0).isSome
      ∧ (byteAt (message kindPosition 0 [0]) 4).toNat < 1
      ∧ 3 < (byteAt (message kindPosition 0 [4]) 4).toNat
      ∧ (message kindPosition 0 []).length ≠ 5 := by decide

/-! ### Audit and restart -/

/-- An AUDIT-ENTRY of tenant 3, class EXTERNAL, in the state of code `st`, at orbit `orbit`. -/
def entryOf (ref st orbit : Byte) : List Byte :=
  message kindAuditEntry ref [st, 3, 2, 4, orbit, 0, 0, 1, 0x35, 0]

/-- What `entryOf` says. -/
def entry (st : Custody) (orbit : Option Orbit) : EntryBody :=
  { state := st, tenant := 3, cls := .external, recallCount := 4, orbit := orbit, partnerRef := 0
    destination := [5], number := [] }

/-- Every record of `room` marked. -/
def marked : State :=
  { seat resyncing [(0, { active with marked := true }), (1, { held with marked := true }),
      (2, { parked with marked := true })] with ccc.resync := true }

/-- No loop is free. -/
def loopless : State := { allHeld with ccc.resync := true }

theorem witness_RefusedAuditEntryChangesNothing :
    (∀ s ∈ [{ room with pos.state := .closed }, room, resyncing],
        (given s (entryOf 20 5 0)).MessageWaits kindAuditEntry (entryOf 20 5 0) [])
      ∧ resyncing.pos.state ≠ .closed ∧ resyncing.ccc.resync = true ∧ room.ccc.resync = false
      ∧ readEntry (entryOf 0 5 0) = none ∧ readEntry (entryOf 20 4 0) = some (entry .setup none)
      ∧ (entry .setup none).leg = .incoming
      ∧ (readEntry (entryOf 20 2 0) = some (entry .active none)
        ∧ ∃ u ∈ marked.record? 0, u.marked = true ∧ u.onHeadset)
      ∧ (readEntry (entryOf 20 7 4) = some (entry .parked (some 4))
        ∧ ∃ u ∈ marked.record? 2, u.marked = true ∧ u.state = .parked ∧ u.orbit = some 4)
      ∧ (let s : State := { resyncing with ccc.table := Vector.replicate 64 (.reserved 0) };
        s.lookup 20 = none ∧ ∀ q : Slot, s.slot q ≠ .free)
      ∧ (readEntry (entryOf 20 3 0) = some (entry .held none) ∧ loopless.lookup 20 = none
        ∧ (∀ k : Loop, loopless.loopFree k = false) ∧ loopless.slot 20 = .free) := by decide

/-- Bodies at the bounds of the ranges of R178 and just past them. -/
theorem witness_AuditEntryBodyIsReadByItsRule :
    (∀ b ∈ [entryOf 1 7 9, message kindAuditEntry 1 ([2, 15, 3, 255, 77, 0xFF, 0xFF, 6] ++ List.replicate 6 0x30
          ++ [16] ++ List.replicate 16 0x39)], (readEntry b).isSome)
      ∧ (∀ b ∈ [entryOf 1 7 10, entryOf 1 0 0, entryOf 1 8 0, (entryOf 1 5 0).dropLast,
          message kindAuditEntry 1 [5, 3, 2, 4, 0, 0, 0, 0, 0]], readEntry b = none) := by decide

/-- What the entry for `ref` that puts its record on the headset meets in `resyncing`: the ACTIVE record of
slot 0. -/
def headsetSettled : State :=
  { resyncing with
    ccc.table := resyncing.ccc.table.set 0 (.live { active with state := .held }), ccc.note := none
    tbt.timers := resyncing.tbt.timers.set 0 (armed .hold 60) }

theorem headset_settles : State.Settles (given resyncing (entryOf 20 2 0))
    (given headsetSettled (entryOf 20 2 0)) 20 (entry .active none) := by
  have only : ∀ q : Slot, ∀ v ∈ resyncing.record? q, v.onHeadset → q = 0 ∧ v = active := by decide
  have parkedNone : (entry .active none).state ≠ .parked := by decide
  refine ⟨fun h => absurd ⟨by decide, .inl ⟨.inl rfl, by decide⟩⟩ (h 0 active (by decide)),
    fun q v hv hm => ?_⟩
  obtain ⟨rfl, rfl⟩ := only q v hv (hm.2.elim (fun x => x.2) fun x => absurd x.1 parkedNone)
  exact ⟨rfl, fun _ => rfl, fun h => absurd h parkedNone⟩

theorem orbit_settles : State.Settles (given resyncing (entryOf 20 7 4))
    ((given resyncing (entryOf 20 7 4)).retire 2) 20 (entry .parked (some 4)) := by
  have only : ∀ q : Slot, ∀ v ∈ resyncing.record? q, v.orbit = some 4 → q = 2 ∧ v = parked := by decide
  have notHeadset : ¬ ((entry .parked (some 4)).state = .active ∨ (entry .parked (some 4)).state = .setup) := by
    decide
  refine ⟨fun h => absurd ⟨by decide, .inr ⟨rfl, rfl⟩⟩ (h 2 parked (by decide)), fun q v hv hm => ?_⟩
  obtain ⟨rfl, rfl⟩ := only q v hv (hm.2.elim (fun x => absurd x.1 notHeadset) fun x => x.2)
  exact ⟨rfl, fun h => absurd h notHeadset, fun _ => by decide⟩

/-- The displacements of R179: the entries that meet an unmarked record. -/
theorem witness_AcceptedAuditEntrySettlesAnother :
    (∀ x ∈ [((2 : Byte), (0 : Byte), Custody.active, none), (7, 4, .parked, some (4 : Orbit))],
        let b := entryOf 20 x.1 x.2.1
        let s := given resyncing b
        s.MessageWaits kindAuditEntry b [] ∧ readEntry b = some (entry x.2.2.1 x.2.2.2)
          ∧ s.lookup (refOf b) = none)
      ∧ (∃ e ∈ readEntry (message kindAuditEntry 20 [4, 3, 3, 0, 0, 0, 9, 1, 0x35, 0]),
        e.state = .setup ∧ e.partnerRef ≠ 0 ∧ e.cls = .internal ∧ e.destination ≠ [])
      ∧ headsetSettled.lowestFree = some 6 ∧ headsetSettled.lowestLoop.isSome
      ∧ (resyncing.retire 2).lookup 20 = none ∧ (resyncing.retire 2).lowestFree = some 2 := by decide

theorem witness_AcceptedAuditEntryStatesTheRecord :
    (∀ ref st orbit, (given resyncing (entryOf ref st orbit)).Lawful)
      ∧ (∀ x ∈ [((20 : Byte), (1 : Byte), Custody.queued), (20, 3, .held), (9, 3, .held), (9, 5, .extended),
          (12, 1, .queued), (7, 2, .active)],
        let b := entryOf x.1 x.2.1 0
        let s := given resyncing b
        let e := entry x.2.2 none
        s.MessageWaits kindAuditEntry b [] ∧ s.pos.state ≠ .closed ∧ s.ccc.resync = true
          ∧ readEntry b = some e
          ∧ (∀ q : Slot, s.lookup (refOf b) ≠ some q → ∀ u ∈ s.record? q,
            ¬ (e.state.onHeadset ∧ u.onHeadset) ∧ ¬ (e.state = .parked ∧ u.orbit = e.orbit)))
      ∧ resyncing.lookup (refOf (entryOf 20 3 0)) = none ∧ resyncing.lowestFree = some 6
      ∧ resyncing.lowestLoop.isSome
      ∧ resyncing.lookup (refOf (entryOf 9 5 0)) = some 1 ∧ (resyncing.record? 1).isSome :=
  ⟨fun _ _ _ => lawful_given resyncing_lawful _ (by simp [entryOf, message, headerLength]), by decide⟩

/-- Two marked records that name each other, and one unmarked. -/
def audited : State :=
  { seat base [(0, { dialled .active with partner := none, marked := true, auditPartner := 9 }),
      (1, { held with marked := true, auditPartner := 7 }), (4, camped)] with ccc.resync := true }

theorem audited_lawful : audited.Lawful :=
  ⟨by decide, by decide, ranges_of rfl rfl rfl (by decide) (by decide) (by decide) rfl⟩

theorem witness_AuditEndRetiresAndLinks :
    (given audited (message kindAuditEnd 0 [])).Lawful
      ∧ (given audited (message kindAuditEnd 0 [])).MessageWaits kindAuditEnd (message kindAuditEnd 0 []) []
      ∧ audited.ccc.resync = true
      ∧ (∃ r ∈ audited.record? 4, r.marked = false) ∧ (∃ r ∈ audited.record? 0, r.marked = true)
      ∧ audited.record? 2 = none
      ∧ (given room (message kindAuditEnd 0 [])).MessageWaits kindAuditEnd (message kindAuditEnd 0 []) []
      ∧ room.ccc.resync = false :=
  ⟨lawful_given audited_lawful _ (by decide), by decide⟩

theorem witness_RestartEmptiesThePosition :
    ∀ s ∈ [room, { room with pos.state := .closing }],
      (given s (message kindRestart 0 [])).MessageWaits kindRestart (message kindRestart 0 []) [] := by
  decide

/-! ### Beats and timers -/

/-- The ACTIVE record with a HOLD whose confirm timer stands at `n`. -/
def timed (n : Nat) : State :=
  seat base [(0, { active with order := some { waiting .hold with confirmTimer := some n } })]

theorem timed_one_lawful : (timed 1).Lawful := single_lawful 0 (by decide)

theorem timed_two_lawful : (timed 2).Lawful := single_lawful 0 (by decide)

/-- Two records whose RECALLs time out at one beat. -/
def timedTwice : State :=
  let o : Order := { waiting .recall with expiryKind := some .noAnswer, confirmTimer := some 1 }
  seat base [(5, { extended with order := some o }), (6, { extended with ref := 15, order := some o })]

theorem timedTwice_lawful : timedTwice.Lawful := ⟨by decide, by decide, base_lawful.2.2⟩

theorem witness_ConfirmTimersCountDownAndTimeOut :
    (down.Lawful ∧ (timed 1).Lawful ∧ (timed 2).Lawful ∧ timedTwice.Lawful)
      ∧ down.sli.link = .down ∧ (timed 2).sli.link = .up
      ∧ (∀ p : Slot, ∀ r ∈ (timed 2).record? p, ∀ o ∈ r.order, ∀ n ∈ o.confirmTimer, 2 ≤ n)
      ∧ (∃ r ∈ (timed 1).record? 0, ∃ o ∈ r.order, o.confirmTimer = some 1)
      ∧ (∀ p ∈ [(5 : Slot), 6], ∃ r ∈ timedTwice.record? p, ∃ o ∈ r.order, o.confirmTimer = some 1)
      ∧ (∀ q : Slot, q ≠ 0 → ∀ v ∈ (timed 1).record? q, ∀ w ∈ v.order, w.confirmTimer ≠ some 1) :=
  ⟨⟨down_lawful, timed_one_lawful, timed_two_lawful, timedTwice_lawful⟩, by decide⟩

/-- A record that has waited 65534 or 65535 seconds. -/
def longWait (n : Nat) : State :=
  inQueue (seat base [(3, { queued with queue := some { asked with wait := n } })]) 3
    { asked with wait := n }

theorem witness_AgingRaisesWaitsAndRecomputesKeys :
    (∀ s ∈ [room, down, longWait 65534, longWait 65535], s.LeavesExact ∧ s.psel.Decided)
      ∧ down.sli.link = .down ∧ room.sli.link = .up ∧ room.ccc.resync = false
      ∧ (∃ r ∈ (longWait 65534).record? 3, r.state = .queued ∧ ∃ q ∈ r.queue, q.wait < 65535)
      ∧ (∃ r ∈ (longWait 65535).record? 3, r.state = .queued ∧ ∃ q ∈ r.queue, q.wait = 65535)
      ∧ (room.slot 0).queuedTenant = none := by decide

/-- An expiry of kind `k`: reported, waiting, or owed. -/
def reported (k : TimerKind) : Timer :=
  { kind := some k, remaining := 0, waiting := false, owed := none, reported := true }

def waitingFor (k : TimerKind) (o : Option Owed) : Timer :=
  { kind := some k, remaining := 0, waiting := true, owed := o, reported := false }

theorem witness_CustodyTimersCountOnlyWhenNotHeld :
    down.sli.link = .down ∧ resyncing.ccc.resync = true ∧ room.sli.link = .up ∧ room.ccc.resync = false
      ∧ (∀ n ∈ [1, 255], let m := (clocked room 1 (armed .hold n)).timer 1
        m.kind.isSome ∧ 0 < m.remaining ∧ m.waiting = false)
      ∧ (room.timer 1).kind = none
      ∧ ((clocked room 1 (waitingFor .hold none)).timer 1).waiting = true := by decide

/-- An EXTENDED record with an order, whose timer has expired. -/
def fenced : State :=
  seat base [(5, { extended with order := some { waiting .recall with expiryKind := some .noAnswer } })]

theorem fenced_lawful : fenced.Lawful := single_lawful 5 (by decide)

theorem witness_ExpiriesActWaitOrAreRetried :
    ((clocked room 1 (armed .hold 9)).Lawful ∧ (clocked room 1 (reported .hold)).Lawful
        ∧ (clocked room 5 (reported .noAnswer)).Lawful ∧ (clocked room 4 (reported .camp)).Lawful
        ∧ (clocked fenced 5 (reported .noAnswer)).Lawful ∧ (clocked down 5 (reported .noAnswer)).Lawful
        ∧ (clocked room 5 (waitingFor .noAnswer none)).Lawful
        ∧ (clocked room 5 (waitingFor .noAnswer (some .divert))).Lawful
        ∧ (clocked room 5 (waitingFor .noAnswer (some .recall))).Lawful
        ∧ (clocked down 5 (waitingFor .noAnswer none)).Lawful
        ∧ (∀ o, (clocked fenced 5 (waitingFor .noAnswer (some o))).Lawful) ∧ room.Lawful)
      ∧ (room.record? 1 = some held ∧ room.record? 5 = some extended ∧ room.record? 4 = some camped
        ∧ down.record? 5 = some extended)
      ∧ held.unfenced ∧ extended.unfenced ∧ camped.unfenced ∧ extended.away
      ∧ (∃ r ∈ fenced.record? 5, ¬ r.unfenced)
      ∧ (min (held.recallCount + 1) 3 < (room.profile 3).recallLimit)
      ∧ (min (extended.recallCount + 1) 3 < (room.profile 3).recallLimit)
      ∧ ((room.profile 3).recallLimit ≤ min (camped.recallCount + 1) 3)
      ∧ (room.sli.link = .up ∧ room.ccc.resync = false ∧ room.OrderRoom)
      ∧ ¬ (down.sli.link = .up ∧ down.ccc.resync = false ∧ down.OrderRoom)
      ∧ (fenced.sli.link = .up ∧ fenced.ccc.resync = false) ∧ (room.timer 5).kind = none := by
  refine ⟨⟨?_, ?_, ?_, ?_, ?_, ?_, ?_, ?_, ?_, ?_, fun o => ?_, room_lawful⟩, by decide⟩
  · exact lawful_timers room_lawful _ (by decide)
  · exact lawful_timers room_lawful _ (by decide)
  · exact lawful_timers room_lawful _ (by decide)
  · exact lawful_timers room_lawful _ (by decide)
  · exact lawful_timers fenced_lawful _ (by decide)
  · exact lawful_timers down_lawful _ (by decide)
  · exact lawful_timers room_lawful _ (by decide)
  · exact lawful_timers room_lawful _ (by decide)
  · exact lawful_timers room_lawful _ (by decide)
  · exact lawful_timers down_lawful _ (by decide)
  · exact lawful_timers fenced_lawful _ (by cases o <;> decide)

/-! ### Lamps, buzzer and display -/

/-- The chirp at phase `n`, or none, its request `r`, the epoch of the recall tone or not. -/
def tones (s : State) (n : Option Nat) (r e : Bool) : State :=
  { s with ind := { s.ind with chirp := n, chirpReq := r, recallEpoch := e } }

theorem tones_lawful {s : State} (h : s.Lawful) (n : Option Nat) (r e : Bool)
    (hs : s.ind = base.ind) (hn : ∀ k ∈ n, k ≤ 39) : (tones s n r e).Lawful :=
  lawful_ind h _ rfl rfl ⟨hn, by rw [hs]; exact base_tones.2⟩

/-- `room` with a sounding alert burst in an assigned epoch, nobody on the headset. -/
def sounding : State := { base with ind.burst := { running := true, position := 1, assigned := true, count := 2 } }

theorem sounding_lawful : sounding.Lawful := lawful_ind base_lawful _ rfl rfl (by decide)

/-- `base` with a position state and no record. -/
theorem positioned_lawful (x : PosState) (hx : x ≠ .closing) : ({ base with pos.state := x } : State).Lawful := by
  refine ⟨table_position base_lawful.1 x ?_, base_lawful.2⟩
  revert hx; cases x <;> decide

/-- Tenant 3's flash threshold at 1, which its one QUEUED record reaches. -/
def flashing : State :=
  { room with pos.profiles := room.pos.profiles.set 3 { defaultProfile 3 with flashThreshold := 1 } }

theorem flashing_lawful : flashing.Lawful :=
  ⟨room_lawful.1, room_lawful.2.1, by decide, room_lawful.2.2.2⟩

/-- The step that wraps to phase 0, with a commit and a recall request waiting for the boundary. -/
def wrapping : State :=
  { room with
    tbt.secondDivider := 19, tbt.epochPhase := 1
    ind := { room.ind with commit := true, recallReq := true } }

theorem wrapping_lawful : wrapping.Lawful :=
  lawful_ind (s := { room with tbt.secondDivider := 19, tbt.epochPhase := 1 })
    ⟨room_lawful.1, room_lawful.2.1, room_lawful.2.2.1, by decide, room_lawful.2.2.2.2⟩ _ rfl rfl base_tones

theorem witness_CadenceStepShiftsOutTheLamps :
    (room.Lawful ∧ down.Lawful ∧ (pair .setup).Lawful ∧ dial.Lawful ∧ sounding.Lawful ∧ fenced.Lawful
        ∧ (∀ n ∈ [none, some 0, some 38, some 39], ∀ r e, (tones room n r e).Lawful)
        ∧ (∀ x, x ≠ .closing → ({ base with pos.state := x } : State).Lawful)
        ∧ ({ room with pos.state := .closing } : State).Lawful ∧ flashing.Lawful ∧ wrapping.Lawful)
      ∧ (∀ p : Slot, ∀ r ∈ room.record? p, r.loop ≠ some 7)
      ∧ (∃ r ∈ room.record? 0, r.loop = some 0 ∧ r.order = none ∧ r.state = .active)
      ∧ (∃ r ∈ room.record? 1, r.loop = some 1 ∧ r.state = .held ∧ r.recallAlert = true)
      ∧ (∃ r ∈ dial.record? 0, r.reservedLoop = some 2 ∧ r.loop = some 0 ∧ r.order.isSome)
      ∧ (∃ r ∈ (pair .setup).record? 0, r.state = .setup)
      ∧ (∃ r ∈ (pair .setup).record? 1, r.state = .held ∧ r.recallAlert = false)
      ∧ down.sli.link = .down ∧ room.sli.link = .up
      ∧ room.psel.queued[(0 : Tenant)] = 0 ∧ 0 < room.psel.queued[(3 : Tenant)]
      ∧ room.psel.queued[(3 : Tenant)] < (room.profile 3).flashThreshold
      ∧ (0 < flashing.psel.queued[(3 : Tenant)]
        ∧ (flashing.profile 3).flashThreshold ≤ flashing.psel.queued[(3 : Tenant)])
      ∧ (wrapping.tbt.epochPhase * 20 + wrapping.tbt.secondDivider + 1) % 40 = 0
      ∧ room.ind.recallEpoch = false ∧ sounding.headset = none
      ∧ (sounding.ind.burst.running = true ∧ sounding.ind.burst.assigned = true
        ∧ sounding.ind.burst.position < sounding.ind.burst.count) :=
  ⟨⟨room_lawful, down_lawful, setup_lawful, dial_lawful, sounding_lawful, fenced_lawful,
    fun n hn r e => tones_lawful room_lawful n r e rfl (by revert n; decide),
    positioned_lawful, ⟨table_position room_lawful.1 _ (by decide), room_lawful.2⟩, flashing_lawful, wrapping_lawful⟩, by decide⟩

/-- Record `r` on the headset, alone. -/
def shown (r : Record) : State := seat base [(0, r)]

/-- A DIALLED leg in SETUP, its source gone. -/
def calling (f : FarEnd) : Record := { dialled .setup with partner := none, farEnd := some f }

/-- A headset record of each state word and each line 2. -/
def headsetRecords : List Record :=
  [calling .proceeding, calling .ringing, calling .busy, { active with name := [] },
    { active with name := [], number := [] }, { calling .ringing with name := [], number := [] }]

theorem headsetRecords_lawful : ∀ r ∈ headsetRecords, (shown r).Lawful := by
  have h : ∀ r ∈ headsetRecords, StandsAlone r := by decide
  exact fun r hr => single_lawful 0 (h r hr)

/-- `room` with an outcome note, and with an ORDER-FAULT that names its headset record. -/
def noted (n : Note) : State := { room with ccc.note := some n }
def orderFaulted : State := { room with sli.orderNotice := some (.timeout, 7) }

/-- One QUEUED record, nobody on the headset. -/
def queueing : State := inQueue (seat base [(3, queued)]) 3 asked

/-- A full dial buffer. -/
def dialFull : State := { base with ksc.dial := [1, 2, 3, 4, 5, 6] }

/-- `base` with its display already written. -/
def rewritten : State :=
  let i := (after .cadenceStep base).ind.image
  { base with ind.image := i, ind.written := i }

theorem display_lawful :
    (∀ n, (noted n).Lawful) ∧ orderFaulted.Lawful ∧ queueing.Lawful ∧ dialFull.Lawful ∧ rewritten.Lawful :=
  ⟨fun n => ⟨table_note room_lawful.1 _ (by cases n <;> decide), room_lawful.2⟩, ⟨room_lawful.1, room_lawful.2⟩,
    ⟨by decide, by decide, base_lawful.2.2⟩,
    ⟨base_lawful.1, base_lawful.2.1, ranges_of rfl rfl rfl (by decide) (by decide) (by decide) rfl⟩,
    lawful_ind base_lawful _ rfl rfl base_tones⟩

theorem witness_CadenceStepWritesTheDisplay :
    (room.Lawful ∧ down.Lawful ∧ resyncing.Lawful ∧ base.Lawful ∧ ({ base with pos.state := .closed } : State).Lawful
        ∧ (∀ r ∈ headsetRecords, (shown r).Lawful) ∧ (∀ n, (noted n).Lawful) ∧ orderFaulted.Lawful
        ∧ queueing.Lawful ∧ dialFull.Lawful ∧ rewritten.Lawful)
      ∧ base.ind.written = none ∧ rewritten.ind.written = (after .cadenceStep rewritten).ind.image
      ∧ down.sli.link = .down ∧ (resyncing.sli.link = .up ∧ resyncing.ccc.resync = true)
      ∧ (base.sli.link = .up ∧ base.ccc.resync = false) ∧ base.headset = none ∧ base.head = none
      ∧ queueing.headset = none ∧ queueing.head = some 3 ∧ (queueing.record? 3).isSome
      ∧ (room.headset = some 0 ∧ room.record? 0 = some active ∧ active.state = .active
        ∧ room.ccc.note = none ∧ room.sli.orderNotice = none)
      ∧ orderFaulted.sli.orderNotice = some (.timeout, active.ref)
      ∧ (∀ r ∈ headsetRecords, (shown r).headset = some 0 ∧ (shown r).record? 0 = some r)
      ∧ (∀ f, (calling f).state = .setup ∧ (calling f).farEnd = some f)
      ∧ dialFull.ksc.dial ≠ [] ∧ base.ksc.dial = [] ∧ active.name ≠ []
      ∧ (headsetRecords.map fun r => (r.name, r.number, r.destination)) =
        [([0x41], [1, 2], some [8]), ([0x41], [1, 2], some [8]), ([0x41], [1, 2], some [8]),
          ([], [1, 2], none), ([], [], none), ([], [], some [8])] :=
  ⟨⟨room_lawful, down_lawful, resyncing_lawful, base_lawful, positioned_lawful _ (by decide),
    headsetRecords_lawful, display_lawful⟩, by decide, by decide, by decide, by decide, by decide, by decide,
    by decide, by decide, by decide, by decide, by decide, by decide, by decide,
    fun _ => ⟨rfl, rfl⟩, by decide⟩

theorem witness_EpochBoundarySettlesBanksAndTones :
    (0 < room.psel.queued.toList.sum ∧ room.sli.link = .up ∧ room.ccc.resync = false)
      ∧ ¬ (0 < base.psel.queued.toList.sum ∧ base.sli.link = .up ∧ base.ccc.resync = false)
      ∧ room.ind.burst.running = false ∧ room.ind.commit = false := by decide

end Sys2Proof.Tests
end

