-- ==== Sys2Proof/Proofs/OfferBody.lean ====
section
/-! PROOFS. How the body of an OFFER is read (R10, R30): one lemma for each reader of a field, and the reader of
the body in terms of them. -/

namespace Sys2Proof.Machine

/-! ### Fields of a body -/

/-- A run of bytes that lies within the body, byte by byte. -/
theorem bytesFrom_eq_map {b : List Byte} {i n : Nat} (h : i + n ≤ b.length) :
    bytesFrom b i n = (List.range n).map fun j => byteAt b (i + j) := by
  refine List.ext_getElem (by simp [bytesFrom]; omega) fun j h1 _ => ?_
  have hj : i + j < b.length := by simp [bytesFrom] at h1; omega
  simp [bytesFrom, byteAt, List.getD_eq_getElem?_getD, hj]

/-- A byte names a tenant exactly when it is that tenant's number. -/
theorem tenantOfByte_eq_some {c : Byte} {t : Tenant} : tenantOfByte c = some t ↔ t.val = c.toNat := by
  have ht := t.isLt
  unfold tenantOfByte
  split
  · simp [Fin.ext_iff, eq_comm]
  · simp only [reduceCtorEq, false_iff]; omega

/-- The three codes of a call class (R174). -/
theorem classOfCode_eq_some {c : Byte} {k : CallClass} :
    classOfCode c = some k ↔
      (c = 0x01 ∧ k = .urgent) ∨ (c = 0x02 ∧ k = .external) ∨ (c = 0x03 ∧ k = .internal) := by
  unfold classOfCode
  split_ifs with h1 h2 h3
  · simp [h1, eq_comm]
  · simp [h2, eq_comm]
  · simp [h3, eq_comm]
  · refine iff_of_false (by simp) ?_
    rintro (⟨h, -⟩ | ⟨h, -⟩ | ⟨h, -⟩)
    exacts [h1 h, h2 h, h3 h]

/-- A byte spells a digit exactly when it is that digit's character. -/
theorem digitOfByte_eq_some {c : Byte} {d : Digit} : digitOfByte c = some d ↔ 0x30 + d.val = c.toNat := by
  have hd := d.isLt
  unfold digitOfByte
  split
  · simp only [Option.some.injEq, Fin.ext_iff]; omega
  · simp only [reduceCtorEq, false_iff]; omega

/-- A run of bytes spells the digits whose characters it holds. -/
theorem digitsOfBytes_eq_some {cs : List Byte} {ds : List Digit} :
    digitsOfBytes cs = some ds ↔ ds.map (fun d => 0x30 + d.val) = cs.map BitVec.toNat := by
  induction cs generalizing ds with
  | nil => cases ds <;> simp [digitsOfBytes]
  | cons c cs ih =>
    have key : digitsOfBytes (c :: cs) = some ds ↔
        ∃ d ds', ds = d :: ds' ∧ digitOfByte c = some d ∧ digitsOfBytes cs = some ds' := by
      rw [digitsOfBytes]
      split
      · next d ds' h1 h2 => simp [h1, h2, eq_comm]
      · next h =>
        simp only [reduceCtorEq, false_iff, not_exists]
        rintro d ds' ⟨-, h1, h2⟩
        exact h d ds' h1 h2
    rw [key]
    cases ds with
    | nil => simp
    | cons d ds => simp [← ih, digitOfByte_eq_some]

/-- A run of bytes spells digits exactly when each of them is the character of one. -/
theorem digitsOfBytes_isSome {cs : List Byte} :
    (∃ ds, digitsOfBytes cs = some ds) ↔ ∀ c ∈ cs, 0x30 ≤ c.toNat ∧ c.toNat ≤ 0x39 := by
  induction cs with
  | nil => simp [digitsOfBytes]
  | cons c cs ih =>
    rw [List.forall_mem_cons, ← ih]
    simp only [digitsOfBytes_eq_some]
    constructor
    · rintro ⟨ds, h⟩
      obtain ⟨d, ds, rfl, hd, hds⟩ := List.map_eq_cons_iff.1 h
      have := d.isLt
      exact ⟨by omega, ds, hds⟩
    · rintro ⟨⟨h1, h2⟩, ds, hds⟩
      refine ⟨⟨c.toNat - 0x30, by omega⟩ :: ds, ?_⟩
      simp only [List.map_cons, hds, List.cons.injEq, and_true]
      omega

/-! ### The body as a whole -/

/-- The lengths of an OFFER body: a number and a name of at most 16 each, and nothing after them (R30). -/
abbrev OfferLengths (b : List Byte) : Prop :=
  (byteAt b 6).toNat ≤ 16 ∧ (byteAt b 7).toNat ≤ 16
    ∧ b.length = 8 + (byteAt b 6).toNat + (byteAt b 7).toNat

/-- An OFFER body is read exactly when its lengths agree and each of its fields is read. -/
theorem readOffer_eq_some {b : List Byte} {o : OfferBody} :
    readOffer b = some o ↔
      OfferLengths b ∧ tenantOfByte (byteAt b 4) = some o.tenant ∧ classOfCode (byteAt b 5) = some o.cls
        ∧ digitsOfBytes (bytesFrom b 8 (byteAt b 6).toNat) = some o.number
        ∧ (bytesFrom b (8 + (byteAt b 6).toNat) (byteAt b 7).toNat).map degrade = o.name := by
  obtain ⟨t, c, ds, name⟩ := o
  unfold readOffer
  dsimp only
  split_ifs with h
  · split
    · next h1 h2 h3 => simp [h1, h2, h3, OfferLengths, h.2]
    · next hn =>
      simp only [reduceCtorEq, false_iff]
      rintro ⟨-, h1, h2, h3, -⟩
      exact hn _ _ _ h1 h2 h3
  · simp only [false_iff]
    rintro ⟨h1, -⟩
    exact h ⟨by omega, h1⟩

/-- Each character of a read name is printable, or stands for one that is not (R10). -/
theorem degrade_eq (c : Byte) : degrade c = if 0x20 ≤ c.toNat ∧ c.toNat ≤ 0x7E then c else 0x3F := by
  simp [degrade, printable]

/-- Settles O32: the body is read field by field, and each field has its own rule. -/
theorem offerBodyIsReadByItsRule : Obligations.OfferBodyIsReadByItsRule := by
  intro b n m
  have digits (h : OfferLengths b) := bytesFrom_eq_map (b := b) (i := 8) (n := n) (by omega)
  have chars (h : OfferLengths b) := bytesFrom_eq_map (b := b) (i := 8 + n) (n := m) (by omega)
  refine ⟨⟨fun h => ?_, fun h => ?_⟩, fun o ho => ?_⟩
  · obtain ⟨o, ho⟩ := Option.isSome_iff_exists.1 h
    obtain ⟨hl, ht, hc, hd, -⟩ := readOffer_eq_some.1 ho
    have hds := digitsOfBytes_isSome.1 ⟨_, hd⟩
    rw [digits hl] at hds
    rw [tenantOfByte_eq_some] at ht
    rw [classOfCode_eq_some] at hc
    refine ⟨by omega, by tauto, hl.1, hl.2.1, hl.2.2, ?_⟩
    simpa using hds
  · obtain ⟨ht, hc, hn, hm, hlen, hd⟩ := h
    have hl : OfferLengths b := ⟨hn, hm, hlen⟩
    obtain ⟨ds, hds⟩ : ∃ ds, digitsOfBytes (bytesFrom b 8 n) = some ds := by
      rw [digitsOfBytes_isSome, digits hl]; simpa using hd
    obtain ⟨k, hk⟩ : ∃ k, classOfCode (byteAt b 5) = some k := by
      simp only [classOfCode_eq_some]
      rcases hc with h | h | h <;> simp [h]
    refine Option.isSome_iff_exists.2 ⟨⟨⟨_, Nat.lt_succ_of_le ht⟩, k, ds, _⟩, readOffer_eq_some.2
      ⟨hl, tenantOfByte_eq_some.2 rfl, hk, hds, rfl⟩⟩
  · obtain ⟨hl, ht, hc, hd, hname⟩ := readOffer_eq_some.1 ho
    rw [digitsOfBytes_eq_some, digits hl] at hd
    rw [chars hl] at hname
    rw [classOfCode_eq_some] at hc
    refine ⟨tenantOfByte_eq_some.1 ht, ?_, ?_, ?_, ?_, fun i hi => ?_, fun i hi => ?_⟩
    · rcases hc with ⟨h, hk⟩ | ⟨h, hk⟩ | ⟨h, hk⟩ <;> simp [h, hk]
    · rcases hc with ⟨h, hk⟩ | ⟨h, hk⟩ | ⟨h, hk⟩ <;> simp [h, hk]
    · simpa using congrArg List.length hd
    · simp [← hname]
    · simpa [hi] using congrArg (fun l => l[i]?) hd
    · simp [← hname, hi, degrade_eq]

end Sys2Proof.Machine
end

