-- ==== Sys2Proof/Proofs/CallEvents.lean ====
section
/-! PROOFS. The admission of an OFFER (R29, R31, R32) and the call events that move their record
(R37 to R39). -/

namespace Sys2Proof.Machine

/-! ### The message commands and their owners -/

/-- OFFER is handed on to its owner. -/
theorem exec_offer_eq (s : State) : exec .offer s = .next (s.handOn (· = kindOffer) State.takeOffer) := rfl

/-- DELIVERED is handed on to its owner. -/
theorem exec_delivered_eq (s : State) :
    exec .delivered s = .next (s.handOn (· = kindDelivered) State.takeDelivered) := rfl

/-- CAMP-FREE is handed on to its owner. -/
theorem exec_campFree_eq (s : State) :
    exec .campFree s = .next (s.handOn (· = kindCampFree) State.takeCampFree) := rfl

/-- FAR-END is handed on to its owner. -/
theorem exec_farEnd_eq (s : State) :
    exec .farEnd s = .next (s.handOn (· = kindFarEnd) State.takeFarEnd) := rfl

/-- An event that names the record of a slot acts on that slot and record (R28). -/
theorem State.onKnown_live {s : State} {ref : Word} {p : Slot} {r : Record} (h : s.lookup ref = some p)
    (hr : s.record? p = some r) (act : Slot → Record → State) : s.onKnown ref act = act p r := by
  simp [State.onKnown, h, hr]

/-! ### OFFER: admission (R29) -/

/-- A refused OFFER only places its REFUSE (R32). -/
theorem State.takeOffer_refused {s : State} {b : List Byte} {why : Reason}
    (h : s.offerRefusal (refOf b) (readOffer b) = some why) :
    s.takeOffer b = s.reply (.refuse (tagOf b) (refOf b) why) := by
  simp [State.takeOffer, h]

/-- An OFFER that no test refuses enters QUEUED in the lowest FREE slot, and its ACCEPT is placed (R31). -/
theorem State.takeOffer_accepted {s : State} {b : List Byte} {o : OfferBody} {p : Slot}
    (h : s.offerRefusal (refOf b) (some o) = none) (ho : readOffer b = some o) (hp : s.lowestFree = some p) :
    s.takeOffer b =
      (s.enterQueued p (offeredRecord (refOf b) o)).reply (.accept (tagOf b) (refOf b)) := by
  simp [State.takeOffer, ho, h, hp]

/-- The pool hands out no slot exactly where none is FREE (R3). -/
theorem State.lowestFree_eq_none {s : State} : s.lowestFree = none ↔ ∀ p, s.slot p ≠ .free := by
  simp [State.lowestFree]

/-- A position that takes keys is neither frozen nor in resync (R88). -/
theorem State.isHeld_of_takesKeys {s : State} (h : s.TakesKeys) : s.isHeld = false := by
  simp [State.isHeld, State.frozen, h]

section AdmissionTests

variable {s : State} {ref : Word}

/-- Test 1 of R29 at a BUSY-OUT position. -/
theorem State.offerRefusal_busyOut (h : s.pos.state = .busyOut) (body : Option OfferBody) :
    s.offerRefusal ref body = some .busyOut := by simp [State.offerRefusal, h]

/-- Test 1 of R29 at a CLOSING or CLOSED position. -/
theorem State.offerRefusal_closed (h : s.pos.state = .closing ∨ s.pos.state = .closed)
    (body : Option OfferBody) : s.offerRefusal ref body = some .closed := by
  rcases h with h | h <;> simp [State.offerRefusal, h]

/-- Test 2 of R29. -/
theorem State.offerRefusal_resync (hopen : s.pos.state = .opened) (h : s.isHeld = true)
    (body : Option OfferBody) : s.offerRefusal ref body = some .resync := by
  simp [State.offerRefusal, hopen, h]

/-- Test 3 of R29. -/
theorem State.offerRefusal_malformed (hopen : s.pos.state = .opened) (hheld : s.isHeld = false) :
    s.offerRefusal ref none = some .malformed := by
  simp [State.offerRefusal, hopen, hheld]

/-- Test 4 of R29. -/
theorem State.offerRefusal_duplicate (hopen : s.pos.state = .opened) (hheld : s.isHeld = false)
    (h : ref = 0 ∨ (s.lookup ref).isSome) (o : OfferBody) :
    s.offerRefusal ref (some o) = some .duplicate := by
  simp only [State.offerRefusal, hopen, hheld, Bool.false_eq_true, ↓reduceIte, if_pos h]

/-- Tests 5 and 6 of R29, for a well-formed OFFER of a new reference. -/
theorem State.offerRefusal_new (hopen : s.pos.state = .opened) (hheld : s.isHeld = false) (href : ref ≠ 0)
    (hnew : s.lookup ref = none) (o : OfferBody) :
    s.offerRefusal ref (some o) =
      if s.lowestFree = none then some .full
      else if (s.profile o.tenant).queueLimit ≤ s.psel.queued[o.tenant] then some .tenantFull
      else none := by
  have hdup : ¬ (ref = 0 ∨ (s.lookup ref).isSome) := not_or.2 ⟨href, by simp [hnew]⟩
  simp only [State.offerRefusal, hopen, hheld, if_neg hdup, Bool.false_eq_true, ↓reduceIte,
    Option.isNone_iff_eq_none]

end AdmissionTests

/-- A message that waits is taken by its owner, and the flow-control comparison follows (R166, R167). -/
theorem exec_message {c : Instr} {s : State} {k : Byte} {take : List Byte → State → State} {b : List Byte}
    {rest : List (List Byte)} (hc : exec c s = .next (s.handOn (· = k) take)) (hm : s.MessageWaits k b rest) :
    exec c s = .next (take b { s with sli.inbound := rest }).compareFlow := by
  obtain ⟨hq, hk, hroom⟩ := hm
  rw [hc, State.handOn_ours hq (by simp [hk]) hroom]

/-- Settles O34: whichever test of R29 fails first, the OFFER only leaves the queue and places its REFUSE. -/
theorem refusedOfferChangesNothing : Obligations.RefusedOfferChangesNothing := by
  intro s b rest hm refused run
  have refuses {why : Reason}
      (h : State.offerRefusal { s with sli.inbound := rest } (refOf b) (readOffer b) = some why) :
      run = refused why :=
    (exec_message (exec_offer_eq s) hm).trans (by rw [State.takeOffer_refused h]; rfl)
  refine ⟨fun h => refuses (State.offerRefusal_busyOut h _),
    fun h => refuses (State.offerRefusal_closed h _), fun hopen =>
      ⟨fun h => refuses (State.offerRefusal_resync hopen (State.isHeld_iff.2 h) _), fun htake => ?_⟩⟩
  have hheld := State.isHeld_of_takesKeys htake
  refine ⟨fun hnone => refuses ?_, fun o ho => ⟨fun hdup => refuses ?_, fun href hnew =>
    ⟨fun hfull => refuses ?_, fun p hfree hlimit => refuses ?_⟩⟩⟩
  · rw [hnone]
    exact State.offerRefusal_malformed hopen hheld
  · rw [Option.mem_def.1 ho]
    exact State.offerRefusal_duplicate hopen hheld hdup o
  · rw [Option.mem_def.1 ho]
    exact (State.offerRefusal_new hopen hheld href hnew o).trans (if_pos (State.lowestFree_eq_none.2 hfull))
  · rw [Option.mem_def.1 ho]
    have hpool : s.lowestFree ≠ none := fun h => State.lowestFree_eq_none.1 h p hfree
    exact (State.offerRefusal_new hopen hheld href hnew o).trans ((if_neg hpool).trans (if_pos hlimit))

/-! ### OFFER: the record created (R31) -/

/-- A QUEUED record without an order written to a FREE slot: the index, its tenant's count, its leaf and the
path of its leaf follow (R5, R79, R82). -/
theorem State.put_queued {s : State} (hl : s.LeavesExact) {p : Slot} (hp : s.slot p = .free) {r : Record}
    {q : QueueFields} (hs : r.state = .queued) (ho : r.order = none) (hq : r.queue = some q) :
    s.put p (.live r) =
      { s with
        ccc.table := s.ccc.table.set p (.live r)
        ccc.index := insertRef r.ref p s.ccc.index
        psel.queued := s.psel.queued.set r.tenant (s.psel.queued[r.tenant] + 1)
        psel.leaves := s.psel.leaves.set p (some q)
        psel.nodes := replay (s.psel.leaves.set p (some q)) s.psel.nodes p } := by
  have hleaf : s.psel.leaves[p] = none := by rw [hl p, hp]; rfl
  have htenant : (SlotState.live r).queuedTenant = some r.tenant := by simp [SlotState.queuedTenant, hs]
  have hnew : (SlotState.live r).leaf = some q := by simp [SlotState.leaf, hs, ho, hq]
  have hold : (SlotState.free).queuedTenant = none := rfl
  have hpsel : (s.put p (.live r)).psel =
      { s.psel with
        queued := s.psel.queued.set r.tenant (s.psel.queued[r.tenant] + 1)
        leaves := s.psel.leaves.set p (some q)
        nodes := replay (s.psel.leaves.set p (some q)) s.psel.nodes p } := by
    rw [State.put_psel, htenant, hnew, hp, hold]
    refine (if_neg ?_).trans rfl
    rw [Psel.countDown, Psel.countUp]
    simp [hleaf]
  rw [State.put_eq, hpsel, hp]
  simp [reindex, SlotState.ref?]

/-- The key of a wait of 0 is the base of the record (R70, R71). -/
theorem Record.keyAt_zero (r : Record) (w : Working) :
    r.keyAt w 0 = keyBase w r.tenant r.cls r.recallCount := by
  simp [Record.keyAt, presentationKey, cappedCredit]

/-- A record offered to a FREE slot stands QUEUED there, with the next seq, a wait of 0 and its base as key,
and its custody timer is stopped (R31, R72, R75). -/
theorem State.enterQueued_offered {s : State} (hl : s.LeavesExact) {p : Slot} (hp : s.slot p = .free)
    (ref : Word) (o : OfferBody) :
    let q : QueueFields := { seq := s.psel.seq, wait := 0, key := keyBase s.psel.working o.tenant o.cls 0 }
    let r : Record := { offeredRecord ref o with queue := some q }
    s.enterQueued p (offeredRecord ref o) =
      { s with
        ccc.table := s.ccc.table.set p (.live r)
        ccc.index := insertRef ref p s.ccc.index
        psel.seq := s.psel.seq + 1
        psel.queued := s.psel.queued.set o.tenant (s.psel.queued[o.tenant] + 1)
        psel.leaves := s.psel.leaves.set p (some q)
        psel.nodes := replay (s.psel.leaves.set p (some q)) s.psel.nodes p
        tbt.timers := s.tbt.timers.set p Timer.stopped } := by
  intro q r
  have hr : s.queuedRecord (offeredRecord ref o) = r := by
    simp only [State.queuedRecord, Record.keyAt_zero]
    rfl
  have hput := State.put_queued (s := { s with psel.seq := s.psel.seq + 1 }) hl hp (r := r) (q := q) rfl rfl rfl
  rw [State.enterQueued, State.enter, hr, hput]
  rfl

/-- Settles O33: every test of R29 passes, and the record enters QUEUED in the FREE slot. -/
theorem acceptedOfferIsQueued : Obligations.AcceptedOfferIsQueued := by
  intro s b rest o p hm htake hopen ho href hnew hp hlimit hl q
  have hheld := State.isHeld_of_takesKeys htake
  have hpasses : s.offerRefusal (refOf b) (some o) = none := by
    rw [State.offerRefusal_new hopen hheld href hnew, if_neg (by simp [hp]), if_neg (by omega)]
  have hqueued := State.enterQueued_offered (s := { s with sli.inbound := rest }) hl
    (State.lowestFree_free hp) (refOf b) o
  refine handsOn_of (exec_offer_eq s) hm ?_
  rw [State.takeOffer_accepted (s := { s with sli.inbound := rest }) hpasses ho hp, hqueued]
  rfl

/-! ### Call events that move their record (R37 to R39) -/

/-- A record that is not QUEUED, before or after it is written anew under its own reference: only the table
changes. -/
theorem State.put_live_idle {s : State} (hl : s.LeavesExact) {p : Slot} {r : Record}
    (hr : s.record? p = some r) (r' : Record) (href : r'.ref = r.ref) (h0 : r.state ≠ .queued)
    (h1 : r'.state ≠ .queued) :
    s.put p (.live r') = { s with ccc.table := s.ccc.table.set p (.live r') } := by
  have hslot := State.record?_eq_some.1 hr
  obtain ⟨hleaf, htenant⟩ := SlotState.leaf_live_idle h0
  obtain ⟨hleaf', htenant'⟩ := SlotState.leaf_live_idle h1
  have hpsel : (s.put p (.live r')).psel = s.psel :=
    State.put_psel_idle hl (hslot ▸ htenant) htenant' (by rw [hslot, hleaf, hleaf'])
  rw [State.put_eq, hpsel, hslot]
  simp [href]

/-- A record that is not QUEUED enters another such state under its own reference: the table and its custody
timer change (R114, R115). -/
theorem State.enter_idle {s : State} (hl : s.LeavesExact) {p : Slot} {r : Record}
    (hr : s.record? p = some r) (r' : Record) (href : r'.ref = r.ref) (h0 : r.state ≠ .queued)
    (h1 : r'.state ≠ .queued) :
    s.enter p r' =
      { s with
        ccc.table := s.ccc.table.set p (.live r')
        tbt.timers := s.tbt.timers.set p (timerFor (s.profile r'.tenant) r'.state) } := by
  rw [State.enter, State.put_live_idle hl hr r' href h0 h1]
  rfl

/-- A CAMP-FREE moves a CAMPED record to EXTENDED (R37). -/
theorem State.takeCampFree_camped {s : State} {b : List Byte} {p : Slot} {r : Record}
    (hlook : s.lookup (refOf b) = some p) (hr : s.record? p = some r) (hst : r.state = .camped) :
    s.takeCampFree b = s.enter p { r with state := .extended } := by
  rw [State.takeCampFree, State.onKnown_live hlook hr, if_pos hst]

/-- Settles O37: neither CAMPED nor EXTENDED is in the contest, so only the table and the timer change. -/
theorem campFreeMovesToExtended : Obligations.CampFreeMovesToExtended := by
  intro s b rest p r hm hlook hr hst hl
  have htimer : timerFor (s.profile r.tenant) .extended = armed .noAnswer (s.profile r.tenant).noAnswerReload :=
    timerFor_armed _ rfl
  refine handsOn_of (exec_campFree_eq s) hm ?_
  rw [← htimer]
  exact (State.takeCampFree_camped (s := { s with sli.inbound := rest }) hlook hr hst).trans
    (State.enter_idle (s := { s with sli.inbound := rest }) hl hr { r with state := .extended } rfl
      (by simp [hst]) (by simp))

/-- The status that a FAR-END carries, and its code (R28, R174). -/
theorem readFarEnd_eq_some {b : List Byte} {st : FarEnd} :
    readFarEnd b = some st ↔ 5 ≤ b.length ∧
      ((byteAt b 4 = 0x01 ∧ st = .proceeding) ∨ (byteAt b 4 = 0x02 ∧ st = .ringing)
        ∨ (byteAt b 4 = 0x03 ∧ st = .answered) ∨ (byteAt b 4 = 0x04 ∧ st = .busy)) := by
  unfold readFarEnd farEndOfCode
  split_ifs with h0 h1 h2 h3 h4
  · simp [h0, h1, eq_comm]
  · simp [h0, h2, eq_comm]
  · simp [h0, h3, eq_comm]
  · simp [h0, h4, eq_comm]
  · refine iff_of_false (by simp) ?_
    rintro ⟨-, ⟨h, -⟩ | ⟨h, -⟩ | ⟨h, -⟩ | ⟨h, -⟩⟩
    exacts [h1 h, h2 h, h3 h, h4 h]
  · exact iff_of_false (by simp) fun h => h0 h.1

/-- A FAR-END whose status is not ANSWERED sets it on a DIALLED leg in SETUP (R38). -/
theorem State.takeFarEnd_status {s : State} {b : List Byte} {p : Slot} {r : Record} {st : FarEnd}
    (hlook : s.lookup (refOf b) = some p) (hr : s.record? p = some r) (hst : r.state = .setup)
    (hleg : r.leg = .dialled) (hread : readFarEnd b = some st) (hna : st ≠ .answered) :
    s.takeFarEnd b = s.put p (.live { r with farEnd := some st }) := by
  simp [State.takeFarEnd, State.onKnown_live hlook hr, hread, hst, hleg, hna]

/-- An ANSWERED moves a DIALLED leg in SETUP to ACTIVE (R39). -/
theorem State.takeFarEnd_answered {s : State} {b : List Byte} {p : Slot} {r : Record}
    (hlook : s.lookup (refOf b) = some p) (hr : s.record? p = some r) (hst : r.state = .setup)
    (hleg : r.leg = .dialled) (hread : readFarEnd b = some .answered) :
    s.takeFarEnd b = s.enter p { r with state := .active, farEnd := some .answered } := by
  simp [State.takeFarEnd, State.onKnown_live hlook hr, hread, hst, hleg]

/-- Settles O38: neither SETUP nor ACTIVE is in the contest, so only the table and the timer change. -/
theorem farEndMovesTheDialledLeg : Obligations.FarEndMovesTheDialledLeg := by
  intro s b rest p r hm hlook hr hst hleg hl hlen
  have h0 : r.state ≠ .queued := by simp [hst]
  refine ⟨fun st hcode => handsOn_of (exec_farEnd_eq s) hm ?_,
    fun hcode => handsOn_of (exec_farEnd_eq s) hm ?_⟩
  · have hread : readFarEnd b = some st := readFarEnd_eq_some.2 ⟨hlen, by tauto⟩
    have hna : st ≠ .answered := by rcases hcode with ⟨_, h⟩ | ⟨_, h⟩ | ⟨_, h⟩ <;> simp [h]
    exact (State.takeFarEnd_status (s := { s with sli.inbound := rest }) hlook hr hst hleg hread hna).trans
      (State.put_live_idle (s := { s with sli.inbound := rest }) hl hr { r with farEnd := some st } rfl h0 h0)
  · have hread : readFarEnd b = some .answered := readFarEnd_eq_some.2 ⟨hlen, by tauto⟩
    exact (State.takeFarEnd_answered (s := { s with sli.inbound := rest }) hlook hr hst hleg hread).trans
      (State.enter_idle (s := { s with sli.inbound := rest }) hl hr
        { r with state := .active, farEnd := some .answered } rfl h0 (by simp))

end Sys2Proof.Machine
end

