-- ==== Sys2Proof/Proofs/Cancellation.lean ====
section
/-! PROOFS. The cancellation of every pending order (R66, R67), the entry to resync (R176) and the ORDER-FAULT
(R68) as a whole, in the relations `CancelsAll`, `EntersResync` and `Faults` of Safety.lean. The cancellation
is a fold over the slots: `CancelledOn` says where it stands once the orders of a set of slots are gone. -/

namespace Sys2Proof.Machine

/-! ### States that agree field by field -/

theorem Ccc.eq_iff {a b : Ccc} :
    a = b ↔ a.table = b.table ∧ a.index = b.index ∧ a.claim = b.claim ∧ a.note = b.note
      ∧ a.resync = b.resync := by
  cases a; cases b; simp

theorem Psel.eq_iff {a b : Psel} :
    a = b ↔ a.working = b.working ∧ a.seq = b.seq ∧ a.leaves = b.leaves ∧ a.nodes = b.nodes
      ∧ a.queued = b.queued := by
  cases a; cases b; simp

theorem Tbt.eq_iff {a b : Tbt} :
    a = b ↔ a.prescaler = b.prescaler ∧ a.stepDivider = b.stepDivider ∧ a.secondDivider = b.secondDivider
      ∧ a.epochPhase = b.epochPhase ∧ a.timers = b.timers := by
  cases a; cases b; simp

theorem Sli.eq_iff {a b : Sli} :
    a = b ↔ a.rate = b.rate ∧ a.rx = b.rx ∧ a.assembly = b.assembly ∧ a.damaged = b.damaged ∧ a.gap = b.gap
      ∧ a.inbound = b.inbound ∧ a.replies = b.replies ∧ a.orders = b.orders ∧ a.auditNotice = b.auditNotice
      ∧ a.posNotice = b.posNotice ∧ a.orderNotice = b.orderNotice ∧ a.linkNotice = b.linkNotice
      ∧ a.haltedSent = b.haltedSent ∧ a.control = b.control ∧ a.haltedBy = b.haltedBy
      ∧ a.sending = b.sending ∧ a.link = b.link ∧ a.supCount = b.supCount := by
  cases a; cases b; simp

theorem State.eq_iff {a b : State} :
    a = b ↔ a.ccc = b.ccc ∧ a.psel = b.psel ∧ a.tbt = b.tbt ∧ a.pos = b.pos ∧ a.ksc = b.ksc ∧ a.ind = b.ind
      ∧ a.sli = b.sli ∧ a.pins = b.pins ∧ a.freeCount = b.freeCount ∧ a.pending = b.pending := by
  cases a; cases b; simp

/-! ### The slots under the end of an order -/

/-- The condition of a slot with its live record, if it holds one, changed by `f`. -/
def SlotState.mapLive (f : Record → Record) : SlotState → SlotState
  | .live r => .live (f r)
  | c => c

theorem State.slot_update (s : State) (p q : Slot) (f : Record → Record) :
    (s.update p f).slot q = if p = q then (s.slot q).mapLive f else s.slot q := by
  split
  · next h =>
    subst h
    unfold State.update State.record?
    cases hp : s.slot p <;> simp [SlotState.record?, SlotState.mapLive, hp]
  · next h => exact State.slot_update_ne s f h

theorem State.slot_setLock (s : State) (x l : Option Slot) (q : Slot) :
    (s.setLock x l).slot q =
      if x = some q then (s.slot q).mapLive fun r => { r with lock := l } else s.slot q := by
  cases x with
  | none => rfl
  | some x => simp [State.setLock, State.slot_update]

theorem State.slot_releaseSlot (s : State) (p q : Slot) (o : Order) :
    (s.releaseSlot p o).slot q =
      if o.reservedSlot = some q ∧ s.slot q = .reserved p then .free else s.slot q := by
  unfold State.releaseSlot
  split
  · next f hf =>
    by_cases hq : f = q
    · subst hq
      by_cases hres : s.slot f = .reserved p <;> simp [hf, hres]
    · have hne : ¬ (o.reservedSlot = some q ∧ s.slot q = .reserved p) := by simp [hf, hq]
      rw [if_neg hne]
      split
      · exact State.slot_put_ne s _ hq
      · rfl
  · next hn => simp [hn]

@[simp] theorem State.slot_withdraw (s : State) (p q : Slot) (o : Order) :
    (s.withdraw p o).slot q = s.slot q := by simp [State.slot]

@[simp] theorem State.slot_dropClaim (s : State) (p q : Slot) : (s.dropClaim p).slot q = s.slot q := by
  simp [State.slot]

/-- What the end of the order `o` of slot `p` makes of the condition of slot `q` (R58): a reservation for it,
the lock of its secondary and the order itself are gone. -/
def SlotState.ended (p : Slot) (o : Order) (q : Slot) : SlotState → SlotState
  | .free => .free
  | .reserved w => if o.reservedSlot = some q ∧ w = p then .free else .reserved w
  | .live r => .live { r with
      order := if p = q then none else r.order
      lock := if o.secondary = some q then none else r.lock }

/-- The end of an order, slot by slot (R58). -/
theorem State.slot_endOrder {s : State} {p : Slot} {o : Order}
    (h : (s.record? p).bind Record.order = some o) (q : Slot) :
    (s.endOrder p).slot q = (s.slot q).ended p o q := by
  unfold State.endOrder
  rw [h]
  simp only [State.slot_update, State.slot_dropClaim, State.slot_setLock, State.slot_releaseSlot,
    State.slot_withdraw]
  cases s.slot q with
  | free => simp [SlotState.ended, SlotState.mapLive]
  | reserved w =>
    by_cases hw : o.reservedSlot = some q ∧ w = p <;> simp [SlotState.ended, SlotState.mapLive, hw]
  | live r =>
    by_cases hp : p = q <;> by_cases hs : o.secondary = some q <;>
      simp [SlotState.ended, SlotState.mapLive, hp, hs]

/-! ### The end of an order leaves the index and the counts (R5, R82) -/

theorem State.releaseSlot_index (s : State) (p : Slot) (o : Order) :
    (s.releaseSlot p o).ccc.index = s.ccc.index := by
  unfold State.releaseSlot
  split
  · split
    · next h => exact State.put_index_same (by rw [h]; rfl)
    · rfl
  · rfl

theorem State.releaseSlot_queued (s : State) (p : Slot) (o : Order) :
    (s.releaseSlot p o).psel.queued = s.psel.queued := by
  unfold State.releaseSlot
  split
  · split
    · next h => exact State.put_queued_same (by rw [h]; rfl)
    · rfl
  · rfl

theorem State.setLock_index (s : State) (q l : Option Slot) : (s.setLock q l).ccc.index = s.ccc.index := by
  cases q with
  | none => rfl
  | some q => exact State.update_index_same fun _ => rfl

theorem State.setLock_queued (s : State) (q l : Option Slot) :
    (s.setLock q l).psel.queued = s.psel.queued := by
  cases q with
  | none => rfl
  | some q => exact State.update_queued_same fun _ => ⟨rfl, rfl⟩

theorem State.endOrder_index (s : State) (p : Slot) : (s.endOrder p).ccc.index = s.ccc.index := by
  unfold State.endOrder
  split
  · rfl
  · dsimp only
    exact (State.update_index_same fun _ => by rfl).trans
      (by simp [State.setLock_index, State.releaseSlot_index])

theorem State.endOrder_queued (s : State) (p : Slot) : (s.endOrder p).psel.queued = s.psel.queued := by
  unfold State.endOrder
  split
  · rfl
  · dsimp only
    exact (State.update_queued_same fun _ => by exact ⟨rfl, rfl⟩).trans
      (by simp [State.setLock_queued, State.releaseSlot_queued])

/-- The end of an order takes it from the order group where it still waits for the line (R54). -/
theorem State.endOrder_orders {s : State} {p : Slot} {o : Order}
    (h : (s.record? p).bind Record.order = some o) :
    (s.endOrder p).sli.orders =
      if o.stage = .awaitingLine then s.sli.orders.filter (· ≠ p) else s.sli.orders := by
  unfold State.endOrder
  rw [h]
  simp only [State.update_sli, State.dropClaim_sli, State.setLock_sli, State.releaseSlot_sli]
  unfold State.withdraw
  split <;> rfl

/-! ### The cancellation of one order (R66, R67) -/

/-- Where no order is pending, none is cancelled. -/
theorem State.cancelOrder_none {s : State} {p : Slot} (h : (s.record? p).bind Record.order = none) :
    s.cancelOrder p = s := by simp [State.cancelOrder, h]

/-- A timer replaced by itself is left as it is. -/
theorem State.setTimer_timer (s : State) (p : Slot) : s.setTimer p (s.timer p) = s := by
  have h : s.tbt.timers.set p (s.timer p) = s.tbt.timers := Vector.set_getElem_self p.isLt
  rw [State.setTimer, h]

/-- The cancellation of an order is its end, with the slot's timer as R67 leaves it. -/
theorem State.cancelOrder_eq {s : State} {p : Slot} {o : Order}
    (h : (s.record? p).bind Record.order = some o) :
    s.cancelOrder p = (s.endOrder p).setTimer p (s.timerCancelled p) := by
  have hself : (s.endOrder p).setTimer p (s.timer p) = s.endOrder p := by
    have htimer : (s.endOrder p).timer p = s.timer p := by simp [State.timer]
    rw [← htimer, State.setTimer_timer]
  unfold State.cancelOrder State.timerCancelled
  rw [h]
  cases hk : o.kind <;> simp [hk, OrderKind.owes, Timer.owing, hself]

theorem State.slot_cancelOrder {s : State} {p : Slot} {o : Order}
    (h : (s.record? p).bind Record.order = some o) (q : Slot) :
    (s.cancelOrder p).slot q = (s.slot q).ended p o q := by
  rw [State.cancelOrder_eq h, State.slot_setTimer, State.slot_endOrder h]

/-- A cancelled RECALL or DIVERT is owed on its slot's timer, and every other timer is left (R67). -/
theorem State.timer_cancelOrder {s : State} {p : Slot} {o : Order}
    (h : (s.record? p).bind Record.order = some o) (q : Slot) :
    (s.cancelOrder p).timer q = if p = q then s.timerCancelled p else s.timer q := by
  have hend : (s.endOrder p).timer q = s.timer q := by simp [State.timer]
  rw [State.cancelOrder_eq h, State.timer_setTimer, hend]

theorem State.cancelOrder_orders {s : State} {p : Slot} {o : Order}
    (h : (s.record? p).bind Record.order = some o) :
    (s.cancelOrder p).sli.orders =
      if o.stage = .awaitingLine then s.sli.orders.filter (· ≠ p) else s.sli.orders := by
  rw [State.cancelOrder_eq h, State.setTimer_sli, State.endOrder_orders h]

theorem State.cancelOrder_index (s : State) (p : Slot) : (s.cancelOrder p).ccc.index = s.ccc.index := by
  rcases ho : (s.record? p).bind Record.order with _ | o
  · rw [State.cancelOrder_none ho]
  · rw [State.cancelOrder_eq ho, State.setTimer_ccc, State.endOrder_index]

theorem State.cancelOrder_queued (s : State) (p : Slot) :
    (s.cancelOrder p).psel.queued = s.psel.queued := by
  rcases ho : (s.record? p).bind Record.order with _ | o
  · rw [State.cancelOrder_none ho]
  · rw [State.cancelOrder_eq ho, State.setTimer_psel, State.endOrder_queued]

/-! ### The laws that tie an order to what it holds -/

/-- The laws that a cancellation relies on: a pending order, its secondary, its reserved slot and the order
group name each other, and every leaf is exact (R4, R53, R54, R78). -/
structure State.OrdersTied (s : State) : Prop where
  group : s.GroupExact
  locks : s.LocksExact
  reserved : s.ReservedExact
  leaves : s.LeavesExact

theorem State.ordersTied_of_lawful {s : State} (h : s.Lawful) : s.OrdersTied := by
  obtain ⟨⟨-, -, -, -, -, -, -, hgroup, hlocks, -, hreserved, -⟩, ⟨hleaves, -⟩, -⟩ := h
  exact ⟨hgroup, hlocks, hreserved, hleaves⟩

section OrdersTied

variable {s : State} {p q : Slot} (hs : s.OrdersTied)
include hs

/-- A record is locked by `p` exactly where the order of `p` has it as its secondary (R53). -/
theorem State.OrdersTied.lock_iff {u : Record} (hu : s.record? q = some u) :
    u.lock = some p ↔ ∃ o, (s.record? p).bind Record.order = some o ∧ o.secondary = some q := by
  constructor
  · intro h
    obtain ⟨-, r, hr, o, ho, hsec⟩ := (hs.locks q u hu).2 p h
    exact ⟨o, Option.bind_eq_some_iff.2 ⟨r, hr, ho⟩, hsec⟩
  · rintro ⟨o, h, hsec⟩
    obtain ⟨r, hr, ho⟩ := Option.bind_eq_some_iff.1 h
    obtain ⟨u', hu', hlock, -⟩ := (hs.locks p r hr).1 o ho q hsec
    rw [Option.mem_def, hu] at hu'
    cases hu'
    exact hlock

/-- A slot that names `p` as its owner is the one that the order of `p` has reserved (R4). -/
theorem State.OrdersTied.reserved_by (h : s.slot q = .reserved p) :
    ∃ o, (s.record? p).bind Record.order = some o ∧ o.reservedSlot = some q := by
  obtain ⟨r, hr, o, ho, hres⟩ := hs.reserved.1 q p h
  exact ⟨o, Option.bind_eq_some_iff.2 ⟨r, hr, ho⟩, hres⟩

/-- A slot of the order group has a pending order AWAITING LINE (R54). -/
theorem State.OrdersTied.awaiting (h : p ∈ s.sli.orders) :
    ∃ o, (s.record? p).bind Record.order = some o ∧ o.stage = .awaitingLine := by
  obtain ⟨r, hr, o, ho, hst⟩ := hs.group.2.1 p h
  exact ⟨o, Option.bind_eq_some_iff.2 ⟨r, hr, ho⟩, hst⟩

end OrdersTied

/-! ### The cancellation, slot after slot -/

/-- What is left of the condition of slot `q` when the orders of the slots in `done` have been cancelled. -/
def SlotState.cancelled (done : Finset Slot) (q : Slot) : SlotState → SlotState
  | .free => .free
  | .reserved w => if w ∈ done then .free else .reserved w
  | .live r => .live { r with
      order := if q ∈ done then none else r.order
      lock := r.lock.filter (· ∉ done) }

/-- A lock that names `p`, besides those that name a slot in `done`, is cleared. -/
theorem filter_notMem_insert (l : Option Slot) (p : Slot) (done : Finset Slot) :
    l.filter (· ∉ insert p done) = if l = some p then none else l.filter (· ∉ done) := by
  cases l with
  | none => simp
  | some w => by_cases hw : w = p <;> simp [Option.filter, hw]

/-- `t` is `s` with the orders of the slots in `done` cancelled, as far as slots, timers and the order group
show it. -/
structure State.CancelledOn (s t : State) (done : Finset Slot) : Prop where
  slot : ∀ q, t.slot q = (s.slot q).cancelled done q
  timer : ∀ q, t.timer q = if q ∈ done then s.timerCancelled q else s.timer q
  orders : t.sli.orders = s.sli.orders.filter (· ∉ done)

theorem State.CancelledOn.refl (s : State) : s.CancelledOn s ∅ where
  slot q := by
    cases s.slot q with
    | free => rfl
    | reserved w => simp [SlotState.cancelled]
    | live u =>
      have hlock : u.lock.filter (· ∉ (∅ : Finset Slot)) = u.lock := by cases u.lock <;> simp
      simp only [SlotState.cancelled, hlock]
      simp
  timer q := by simp
  orders := by simp

section CancelledOn

variable {s t : State} {done : Finset Slot} {p : Slot}

/-- The order that is still pending on a slot. -/
theorem State.CancelledOn.order (h : s.CancelledOn t done) (p : Slot) :
    (t.record? p).bind Record.order = if p ∈ done then none else (s.record? p).bind Record.order := by
  unfold State.record?
  rw [h.slot]
  cases s.slot p <;> simp only [SlotState.cancelled] <;> split_ifs <;> simp [SlotState.record?]

/-- A slot without a pending order has nothing to cancel. -/
theorem State.CancelledOn.insert_idle (hs : s.OrdersTied) (h : s.CancelledOn t done)
    (hn : (s.record? p).bind Record.order = none) : s.CancelledOn t (insert p done) where
  slot q := by
    rw [h.slot]
    cases hq : s.slot q with
    | free => rfl
    | reserved w =>
      have hw : w ≠ p := by
        rintro rfl
        obtain ⟨o, ho, -⟩ := hs.reserved_by hq
        simp [hn] at ho
      simp [SlotState.cancelled, hw]
    | live u =>
      have hu := State.record?_eq_some.2 hq
      have hlock : u.lock ≠ some p := by
        rw [Ne, hs.lock_iff hu, hn]; simp
      have horder : q = p → u.order = none := by
        rintro rfl
        simpa [hu] using hn
      have hmem : (if q ∈ done then none else u.order) = if q ∈ insert p done then none else u.order := by
        by_cases hqp : q = p
        · simp [hqp, horder hqp]
        · simp [hqp]
      simp only [SlotState.cancelled, filter_notMem_insert, if_neg hlock, hmem]
  timer q := by
    rw [h.timer]
    by_cases hq : q = p
    · subst hq
      simp [State.timerCancelled, hn]
    · simp [hq]
  orders := by
    rw [h.orders]
    refine List.filter_congr fun x hx => ?_
    have : x ≠ p := by
      rintro rfl
      obtain ⟨o, ho, -⟩ := hs.awaiting hx
      simp [hn] at ho
    simp [this]

/-- The cancellation of the order pending on one more slot. -/
theorem State.CancelledOn.insert_pending (hs : s.OrdersTied) (h : s.CancelledOn t done) {o : Order}
    (hp : p ∉ done) (ho : (s.record? p).bind Record.order = some o) :
    s.CancelledOn (t.cancelOrder p) (insert p done) where
  slot q := by
    have ho' := (h.order p).trans ((if_neg hp).trans ho)
    rw [State.slot_cancelOrder ho', h.slot]
    cases hq : s.slot q with
    | free => rfl
    | reserved w =>
      have hw : w = p → o.reservedSlot = some q := by
        rintro rfl
        obtain ⟨o', ho', hres⟩ := hs.reserved_by hq
        rw [ho] at ho'
        cases ho'
        exact hres
      by_cases hd : w ∈ done
      · simp [SlotState.cancelled, SlotState.ended, hd]
      · by_cases hwp : w = p
        · simp [SlotState.cancelled, SlotState.ended, hwp, hw hwp, hp]
        · simp [SlotState.cancelled, SlotState.ended, hd, hwp]
    | live u =>
      have hlock : o.secondary = some q ↔ u.lock = some p := by
        rw [hs.lock_iff (State.record?_eq_some.2 hq), ho]; simp
      have hmem : (if p = q then none else if q ∈ done then none else u.order) =
          if q ∈ insert p done then none else u.order := by
        by_cases hqp : p = q
        · simp [hqp]
        · simp [hqp, Ne.symm hqp]
      simp only [SlotState.cancelled, SlotState.ended, filter_notMem_insert, hmem, hlock]
  timer q := by
    have ho' := (h.order p).trans ((if_neg hp).trans ho)
    have htimer : t.timer p = s.timer p := by rw [h.timer, if_neg hp]
    rw [State.timer_cancelOrder ho']
    split
    · next hq =>
      subst hq
      simp [State.timerCancelled, ho, ho', htimer]
    · next hq => simp [h.timer, Ne.symm hq]
  orders := by
    have ho' := (h.order p).trans ((if_neg hp).trans ho)
    rw [State.cancelOrder_orders ho', h.orders]
    split
    · simp [List.filter_filter]
    · next hst =>
      refine List.filter_congr fun x hx => ?_
      have : x ≠ p := by
        rintro rfl
        obtain ⟨o', ho', hst'⟩ := hs.awaiting hx
        rw [ho] at ho'
        cases ho'
        exact hst hst'
      simp [this]

/-- The fold cancels the orders of its slots. -/
theorem State.CancelledOn.foldl (hs : s.OrdersTied) (l : List Slot) :
    ∀ {t : State} {done : Finset Slot}, s.CancelledOn t done →
      s.CancelledOn (l.foldl State.cancelOrder t) (done ∪ l.toFinset) := by
  induction l with
  | nil => simp
  | cons p l ih =>
    intro t done h
    have hstep : s.CancelledOn (t.cancelOrder p) (insert p done) := by
      by_cases hp : p ∈ done
      · rw [State.cancelOrder_none (by rw [h.order, if_pos hp]), Finset.insert_eq_self.2 hp]
        exact h
      · rcases ho : (s.record? p).bind Record.order with _ | o
        · rw [State.cancelOrder_none (by rw [h.order, if_neg hp, ho])]
          exact h.insert_idle hs ho
        · exact h.insert_pending hs hp ho
    have hset : done ∪ (p :: l).toFinset = insert p done ∪ l.toFinset := by
      ext x; simp
    rw [List.foldl_cons, hset]
    exact ih hstep

end CancelledOn

/-! ### All orders cancelled (R66) -/

theorem State.cancelAll_index (s : State) : s.cancelAll.ccc.index = s.ccc.index := by
  have h := foldl_keeps (fun s : State => s.ccc.index) _ State.cancelOrder_index slots s
  rw [State.cancelAll_eq]; generalize slots.foldl State.cancelOrder s = t at h ⊢; exact h

theorem State.cancelAll_queued (s : State) : s.cancelAll.psel.queued = s.psel.queued := by
  have h := foldl_keeps (fun s : State => s.psel.queued) _ State.cancelOrder_queued slots s
  rw [State.cancelAll_eq]; generalize slots.foldl State.cancelOrder s = t at h ⊢; exact h

theorem State.cancelAll_claim (s : State) : s.cancelAll.ccc.claim = none := by
  rw [State.cancelAll_eq]

/-- After the cancellation of every order, every slot is as if its order had been cancelled (R66). -/
theorem State.cancelAll_cancelledOn {s : State} (hs : s.OrdersTied) :
    s.CancelledOn s.cancelAll Finset.univ := by
  have h := State.CancelledOn.foldl hs slots (State.CancelledOn.refl s)
  have huniv : (∅ : Finset Slot) ∪ slots.toFinset = Finset.univ := by ext; simp
  rw [huniv] at h
  rw [State.cancelAll_eq]
  generalize slots.foldl State.cancelOrder s = t at h ⊢
  exact ⟨h.slot, h.timer, h.orders⟩

theorem State.cancelAll_slot_live {s : State} (hs : s.OrdersTied) {p : Slot} {r : Record}
    (hr : s.record? p = some r) : s.cancelAll.slot p = .live { r with order := none, lock := none } := by
  rw [(State.cancelAll_cancelledOn hs).slot, State.record?_eq_some.1 hr]
  simp [SlotState.cancelled]

theorem State.cancelAll_slot_dead {s : State} (hs : s.OrdersTied) {p : Slot} (hr : s.record? p = none) :
    s.cancelAll.slot p = .free := by
  rw [(State.cancelAll_cancelledOn hs).slot]
  unfold State.record? at hr
  cases hp : s.slot p with
  | free => rfl
  | reserved w => simp [SlotState.cancelled]
  | live r => simp [hp] at hr

theorem State.cancelAll_timer {s : State} (hs : s.OrdersTied) (p : Slot) :
    s.cancelAll.timer p = s.timerCancelled p := by simp [(State.cancelAll_cancelledOn hs).timer]

theorem State.cancelAll_orders {s : State} (hs : s.OrdersTied) : s.cancelAll.sli.orders = [] := by
  simp [(State.cancelAll_cancelledOn hs).orders]

/-- Everything the cancellation of every order does (R66, R67). -/
theorem State.cancelAll_cancels {s : State} (hs : s.OrdersTied) : s.CancelsAll s.cancelAll id := by
  refine ⟨fun p r hr => State.cancelAll_slot_live hs hr, fun p hr => State.cancelAll_slot_dead hs hr,
    fun p => State.cancelAll_timer hs p, State.cancelAll_leavesExact hs.leaves, ?_⟩
  simp [State.eq_iff, Ccc.eq_iff, Psel.eq_iff, Tbt.eq_iff, Sli.eq_iff, State.cancelAll_index,
    State.cancelAll_queued, State.cancelAll_claim, State.cancelAll_orders hs]

/-! ### Marks and the entry to resync (R176) -/

theorem State.clearMarks_index (s : State) : s.clearMarks.ccc.index = s.ccc.index := by
  unfold State.clearMarks; generalize slots = l
  exact foldl_keeps (fun s : State => s.ccc.index) _ (fun _ _ => State.update_index_same fun _ => by rfl) l s

theorem State.clearMarks_queued (s : State) : s.clearMarks.psel.queued = s.psel.queued := by
  unfold State.clearMarks; generalize slots = l
  exact foldl_keeps (fun s : State => s.psel.queued) _
    (fun _ _ => State.update_queued_same fun _ => by exact ⟨rfl, rfl⟩) l s

theorem slots_nodup : slots.Nodup := List.nodup_finRange 64

/-- A change of every record in a list of distinct slots, slot by slot. -/
theorem State.slot_foldl_update (f : Record → Record) (l : List Slot) (hl : l.Nodup) (q : Slot) :
    ∀ s : State, (l.foldl (fun s p => s.update p f) s).slot q =
      if q ∈ l then (s.slot q).mapLive f else s.slot q := by
  induction l with
  | nil => simp
  | cons p l ih =>
    intro s
    obtain ⟨hp, hl⟩ := List.nodup_cons.1 hl
    rw [List.foldl_cons, ih hl, State.slot_update]
    by_cases hq : p = q
    · subst hq; simp [hp]
    · simp [hq, Ne.symm hq]

/-- Every record's audit mark and audit partner ref are cleared (R176). -/
theorem State.slot_clearMarks (s : State) (q : Slot) :
    s.clearMarks.slot q = (s.slot q).mapLive fun r => { r with marked := false, auditPartner := 0 } :=
  (State.slot_foldl_update _ slots slots_nodup q s).trans (if_pos (mem_slots q))

/-- The audit marks cleared after the cancellation of every order (R176). -/
theorem State.CancelsAll.clearMarks {s t : State} (h : s.CancelsAll t id) :
    s.CancelsAll t.clearMarks fun r => { r with marked := false, auditPartner := 0 } := by
  obtain ⟨hlive, hdead, htimer, hleaves, hframe⟩ := h
  refine ⟨fun p r hr => ?_, fun p hr => ?_, fun p => ?_, State.clearMarks_leavesExact hleaves, ?_⟩
  · rw [State.slot_clearMarks, hlive p r hr]
    rfl
  · rw [State.slot_clearMarks, hdead p hr]
    rfl
  · simpa [State.timer] using htimer p
  · simpa [State.eq_iff, Ccc.eq_iff, Psel.eq_iff, Tbt.eq_iff, Sli.eq_iff, State.clearMarks_index,
      State.clearMarks_queued] using hframe

/-- Everything the entry to resync does (R176). -/
theorem State.enterResync_enters {s : State} (hs : s.OrdersTied) (h : s.ccc.resync = false) :
    s.EntersResync s.enterResync := by
  have hcancels := State.CancelsAll.clearMarks (State.cancelAll_cancels (s := { s with ccc.resync := true })
    ⟨hs.group, hs.locks, hs.reserved, hs.leaves⟩)
  refine ⟨?_, State.enterResync_sets h⟩
  rw [State.enterResync_eq h]
  generalize (State.cancelAll { s with ccc.resync := true }).clearMarks = t at hcancels ⊢
  obtain ⟨hlive, hdead, htimer, hleaves, hframe⟩ := hcancels
  exact ⟨hlive, hdead, htimer, hleaves,
    congrArg (fun u : State => { u with sli.auditNotice := true }) hframe⟩

/-- Everything an ORDER-FAULT does (R68). -/
theorem State.orderFault_faults {s : State} (hs : s.OrdersTied) (k : OrderFault) (ref : Word) :
    s.Faults (s.orderFault k ref) k ref := by
  refine ⟨fun h => ?_, fun h => ?_⟩
  · exact State.enterResync_again (s := s.orderNotice k ref) h
  · exact State.enterResync_enters (s := s.orderNotice k ref)
      ⟨hs.group, hs.locks, hs.reserved, hs.leaves⟩ h

end Sys2Proof.Machine
end

