-- ==== Sys2Proof/Proofs/Mismatches.lean ====
section
/-! PROOFS. The call events that do not fit their record (R36, R37, R40 to R42). -/

namespace Sys2Proof.Machine

section Unfitting

variable {s : State} {b : List Byte} {p : Slot} {r : Record} (hlook : s.lookup (refOf b) = some p)
  (hr : s.record? p = some r)
include hlook hr

/-- A DELIVERED for a record that has not been sent on (R36). -/
theorem State.takeDelivered_unfitting (h : r.away = false) : s.takeDelivered b = s.mismatch (refOf b) := by
  rw [State.takeDelivered, State.onKnown_live hlook hr, h]
  rfl

/-- A CAMP-FREE for a record that is not CAMPED (R37). -/
theorem State.takeCampFree_unfitting (h : r.state ≠ .camped) :
    s.takeCampFree b = s.mismatch (refOf b) := by
  rw [State.takeCampFree, State.onKnown_live hlook hr, if_neg h]

/-- A FAR-END without one of the four status values, or for a record that is not a DIALLED leg in SETUP
(R40, R41). -/
theorem State.takeFarEnd_unfitting
    (h : readFarEnd b = none ∨ ¬ (r.leg = .dialled ∧ r.state = .setup)) :
    s.takeFarEnd b = s.mismatch (refOf b) := by
  rw [State.takeFarEnd, State.onKnown_live hlook hr]
  cases hread : readFarEnd b with
  | none => rfl
  | some st => exact if_neg (h.resolve_left (by simp [hread]))

end Unfitting

/-- A FAR-END that is too short or whose code is not one of the four carries no status (R28, R41). -/
theorem readFarEnd_eq_none {b : List Byte}
    (h : b.length < 5 ∨ (byteAt b 4).toNat < 1 ∨ 4 < (byteAt b 4).toNat) : readFarEnd b = none := by
  refine Option.eq_none_iff_forall_ne_some.2 fun st hst => ?_
  obtain ⟨hlen, hcode⟩ := readFarEnd_eq_some.1 hst
  rcases hcode with ⟨hc, -⟩ | ⟨hc, -⟩ | ⟨hc, -⟩ | ⟨hc, -⟩ <;> simp [hc] at h <;> omega

/-- Settles O39: each of the three owners raises the mismatch, whose effect is `orderFault_faults`. -/
theorem unfittingEventsAreMismatches : Obligations.UnfittingEventsAreMismatches := by
  intro s b rest p r hlaw hlook hr faulted
  have hs := State.ordersTied_of_lawful hlaw
  have hfault : faulted (State.mismatch { s with sli.inbound := rest } (refOf b)) :=
    State.orderFault_faults (s := { s with sli.inbound := rest })
      ⟨hs.group, hs.locks, hs.reserved, hs.leaves⟩ .mismatch (refOf b)
  refine ⟨fun hm hst => handsOn_of (exec_delivered_eq s) hm ?_,
    fun hm hst => handsOn_of (exec_campFree_eq s) hm ?_,
    fun hm hunfit => handsOn_of (exec_farEnd_eq s) hm ?_⟩
  · have haway : r.away = false := by rcases hst with h | h | h | h <;> simp [Record.away, h]
    rwa [State.takeDelivered_unfitting (s := { s with sli.inbound := rest }) hlook hr haway]
  · rwa [State.takeCampFree_unfitting (s := { s with sli.inbound := rest }) hlook hr hst]
  · have hnone : readFarEnd b = none ∨ ¬ (r.leg = .dialled ∧ r.state = .setup) := by
      rcases hunfit with h | h | h
      · exact .inr fun hc => by simp [h] at hc
      · exact .inr fun hc => h hc.2
      · exact .inl (readFarEnd_eq_none h)
    rwa [State.takeFarEnd_unfitting (s := { s with sli.inbound := rest }) hlook hr hnone]

end Sys2Proof.Machine
end

