-- ==== Sys2Proof/Proofs/LoopKeys.lean ====
section
/-! PROOFS. What a loop key does by what its loop holds (R91, R92). -/

namespace Sys2Proof.Machine

/-! ### The headset as a CONNECT finds it (R89, R90) -/

/-- A slot without order and lock, by its record. -/
theorem State.unfenced_live {s : State} {p : Slot} {r : Record} (h : s.record? p = some r) :
    s.unfenced p = r.unfenced := by simp [State.unfenced, h]

/-- A CONNECT with the headset record as its secondary may be issued exactly where the headset yields (R50,
R89, R90). -/
theorem State.mayConnect_iff {s : State} {p : Slot} {r : Record} (hr : s.record? p = some r)
    (loop : Option Loop) (hheld : s.isHeld = false) :
    (s.headsetInSetup = false ∧ s.mayIssue p (s.connectOrder loop) = true) ↔
      r.unfenced ∧ s.OrderRoom ∧ s.ccc.claim = none ∧ s.HeadsetYields := by
  have hyields : (s.headsetInSetup = false ∧ ∀ q ∈ s.headset, s.unfenced q = true) ↔ s.HeadsetYields := by
    rcases hq : s.headset with _ | q
    · simp [State.HeadsetYields, State.headsetInSetup, State.headsetRecord, hq]
    · obtain ⟨u, hu, hhead⟩ := State.headset_some hq
      have hstate : u.state ≠ .setup ↔ u.state = .active := by
        rcases (of_decide_eq_true hhead : u.state = .active ∨ u.state = .setup) with h | h <;> simp [h]
      simp [State.HeadsetYields, State.headsetInSetup, State.headsetRecord, hq, hu, State.unfenced_live hu,
        hstate]
  have hclaim : (s.connectOrder loop).takesClaim = true := rfl
  have hsec : (s.connectOrder loop).secondary = s.headset := rfl
  rw [State.mayIssue_iff, State.unfenced_live hr, hsec, ← hyields]
  simp only [hheld, hclaim, true_and, forall_const]
  tauto

/-! ### The loop key judged (R91, R92) -/

section LoopKey

variable {s : State} {k : Loop}

/-- A loop that no record carries (R92). -/
theorem State.loopKeyJudged_empty (h : s.onLoop k = none) : s.loopKeyJudged k = s.refuseKey := by
  simp [State.loopKeyJudged, h]

variable {p : Slot} {r : Record} (hp : s.onLoop k = some p) (hr : s.record? p = some r)
include hp hr

/-- A loop that holds a HELD record: a CONNECT where R50 and R89 allow it (R92). -/
theorem State.loopKeyJudged_held (hst : r.state = .held) :
    s.loopKeyJudged k =
      if s.headsetInSetup = false ∧ s.mayIssue p (s.connectOrder none) = true then
        s.issueOrder p (s.connectOrder none)
      else s.refuseKey := by
  simp only [State.loopKeyJudged, hp, hr, hst, if_true, State.keyIssues]
  cases s.headsetInSetup <;> simp

/-- A loop that holds a record that is not HELD: no effect while it is unfenced (R92). -/
theorem State.loopKeyJudged_other (hst : r.state ≠ .held) :
    s.loopKeyJudged k = if r.unfenced then s else s.refuseKey := by
  simp [State.loopKeyJudged, hp, hr, hst]

end LoopKey

/-- Settles O16: the key is judged by the record that its loop holds, and a CONNECT for a HELD one has the
headset record, which is another, as its secondary. -/
theorem loopKeyActsByWhatItsLoopHolds : Obligations.LoopKeyActsByWhatItsLoopHolds := by
  intro s rest k hqueue htakes hleaves chirp
  let s0 : State := { s with ksc.queue := rest }
  have hheld : s0.isHeld = false := State.isHeld_of_takesKeys htakes
  have hexec : exec (.loopKey k) s = .next (s0.loopKeyJudged k) :=
    congrArg _ (State.attendantKey_open hqueue (State.keysBarred_iff.2 htakes))
  have hchirp : .next s0.refuseKey = chirp := by rw [State.refuseKey_eq]
  refine ⟨fun p r hr hloop hst => ?_, fun p r hr hloop hhead => ?_, fun hloop => ?_⟩
  · have hjudged := State.loopKeyJudged_held (s := s0) hloop hr hst
    have hmay := State.mayConnect_iff (s := s0) hr none hheld
    refine ⟨fun hyes => ⟨_, hexec, ?_⟩, fun hno => ?_⟩
    · have hself : s.headset ≠ some p := fun h => by
        obtain ⟨r', hr', hhead⟩ := State.headset_some h
        rw [Option.mem_def.1 hr] at hr'
        cases hr'
        simp [Record.onHeadset, hst] at hhead
      rw [hjudged, if_pos (hmay.2 hyes)]
      exact State.issueOrder_issues (s := s0) hleaves hr hself (by simp [State.connectOrder, Order.new])
    · rw [hexec, hjudged, if_neg (mt hmay.1 hno), hchirp]
  · have hst : r.state ≠ .held := fun h => by simp [Record.onHeadset, h] at hhead
    have hjudged := State.loopKeyJudged_other (s := s0) hloop hr hst
    exact ⟨fun h => by rw [hexec, hjudged, if_pos h], fun h => by rw [hexec, hjudged, if_neg h, hchirp]⟩
  · rw [hexec, State.loopKeyJudged_empty (s := s0) hloop, hchirp]

end Sys2Proof.Machine
end

