-- ==== Sys2Proof/Proofs/LinkTimeout.lean ====
section
/-! PROOFS. The supervision timeout (R171, R175), alone and within the base tick that takes it (R164). -/

namespace Sys2Proof.Machine

/-- The laws about orders hold of every state with the same table, leaves and order group. -/
theorem State.OrdersTied.congr {s t : State} (h : s.OrdersTied) (htable : t.ccc.table = s.ccc.table)
    (hleaves : t.psel.leaves = s.psel.leaves) (hgroup : t.sli.orders = s.sli.orders) : t.OrdersTied := by
  have hslot : ∀ p, t.slot p = s.slot p := fun p => by unfold State.slot; rw [htable]
  have hrec : ∀ p, t.record? p = s.record? p := fun p => by unfold State.record?; rw [hslot]
  refine ⟨?_, ?_, ?_, ?_⟩
  · simpa only [State.GroupExact, hrec, hgroup] using h.group
  · simpa only [State.LocksExact, hrec] using h.locks
  · simpa only [State.ReservedExact, hrec, hslot] using h.reserved
  · simpa only [State.LeavesExact, hslot, hleaves] using h.leaves

/-- A base tick whose supervision count reaches the window takes the link DOWN (R171). -/
theorem State.stepSupervision_expired {s : State} (hlink : s.sli.link = .up)
    (hwindow : s.window ≤ s.sli.supCount + 1) :
    s.stepSupervision =
      State.cancelAll { s with
        sli.supCount := s.sli.supCount + 1, sli.link := .down, sli.haltedBy := false } := by
  unfold State.stepSupervision
  rw [if_pos hlink]
  exact if_pos hwindow

/-- A gap count that stays below 4, or that counts in HUNT, only counts (R164). -/
theorem State.stepGap_counts {s : State} (h : s.sli.gap < 3 ∨ s.sli.rx = .hunt) :
    s.stepGap = { s with sli.gap := if s.sli.gap < 3 then s.sli.gap + 1 else 4 } := by
  have hmin : min (s.sli.gap + 1) Config.gapLimit = if s.sli.gap < 3 then s.sli.gap + 1 else 4 := by
    unfold Config.gapLimit; split <;> omega
  unfold State.stepGap
  simp only [hmin]
  refine if_neg ?_
  rintro ⟨hfull, hopen⟩
  have hlow := h.resolve_right hopen
  simp only [hlow, if_true, Config.gapLimit] at hfull
  omega

/-- A gap count that reaches 4 in BODY or ESCAPED abandons the assembly (R164). -/
theorem State.stepGap_abandons {s : State} (h : 3 ≤ s.sli.gap) (hopen : s.sli.rx ≠ .hunt) :
    s.stepGap =
      { s with sli := { s.sli with
          gap := 4, rx := .hunt, assembly := [], damaged := false, linkNotice := some (.gap, 0) } } := by
  have hmin : min (s.sli.gap + 1) Config.gapLimit = 4 := by unfold Config.gapLimit; omega
  unfold State.stepGap
  simp only [hmin]
  exact if_pos ⟨rfl, hopen⟩

/-- Settles O29: whatever the gap count did before it, the step of the supervision count cancels every order in
a state with the table, the leaves and the order group of the tick. -/
theorem supervisionTimeoutFreezesThePosition : Obligations.SupervisionTimeoutFreezesThePosition := by
  intro s hlaw hlink hwindow downs
  have hs := State.ordersTied_of_lawful hlaw
  have hdown : ∀ (c : Instr) (l : Sli), l.link = .up → l.orders = s.sli.orders →
      l.supCount = s.sli.supCount → l.auditNotice = s.sli.auditNotice →
      exec c s = .next (State.stepSupervision { s with sli := l }) → downs c l := by
    intro c l hl horders hsup haudit hexec
    refine ⟨_, hexec, ?_⟩
    have hw : State.window { s with sli := l } ≤ l.supCount + 1 := by rw [hsup]; exact hwindow
    rw [State.stepSupervision_expired (s := { s with sli := l }) hl hw]
    dsimp only
    rw [hsup]
    exact ⟨State.cancelAll_cancels (hs.congr rfl rfl horders), by simp, by simp [haudit]⟩
  have htick : exec .linkBaseTick s = .next s.stepGap.stepSupervision := rfl
  refine ⟨hdown _ _ hlink rfl rfl rfl ?_, fun hgap => hdown _ _ hlink rfl rfl rfl ?_,
    fun hgap hopen => hdown _ _ hlink rfl rfl rfl ?_⟩
  · exact congrArg _ (if_pos ⟨hlink, hwindow⟩)
  · rw [htick, State.stepGap_counts hgap]
  · rw [htick, State.stepGap_abandons hgap hopen]

end Sys2Proof.Machine
end

