-- ==== Sys2Proof/Proofs/Transmitter.lean ====
section
/-! PROOFS. What the transmitter starts (R170, R54), and how frames, characters and bodies are laid out
(R161, R162, R174). -/

namespace Sys2Proof.Machine

/-! ### The start of a message (R170) -/

/-- Held by a HALT or busy, the transmitter starts nothing (R170). -/
theorem exec_transmitStart_held {s : State} (h : s.sli.haltedBy = true ∨ s.sli.sending.isSome) :
    exec .transmitStart s = .next s := by
  refine congrArg _ (if_neg ?_)
  rcases h with h | h
  · simp [State.mayTransmit, h]
  · simp [State.mayTransmit, Option.isSome_iff_ne_none.1 h]

/-- Idle and not held, it starts the first message (R170). -/
theorem exec_transmitStart_free {s : State} (hhalt : s.sli.haltedBy = false) (hidle : s.sli.sending = none) :
    exec .transmitStart s = .next s.startMessage := by
  refine congrArg _ (if_pos ?_)
  simp [State.mayTransmit, hhalt, hidle]

/-- An order that starts leaves the group and is ON THE LINE, which neither PSEL nor the index sees (R54). -/
theorem State.startOrder_live {s : State} (hl : s.LeavesExact) {p : Slot} {r : Record} {o : Order}
    (hr : s.record? p = some r) (ho : r.order = some o) (rest : List Slot) :
    s.startOrder p rest =
      State.send
        { s with
          sli.orders := rest
          ccc.table := s.ccc.table.set p (.live { r with order := some { o with stage := .onTheLine } }) }
        (s.orderBody r o) (some p) := by
  have hr' : State.record? { s with sli.orders := rest } p = some r := hr
  have hslot := State.record?_eq_some.1 hr
  have hput : State.put { s with sli.orders := rest } p
        (.live { r with order := some { o with stage := .onTheLine } }) =
      { s with
        sli.orders := rest
        ccc.table := s.ccc.table.set p (.live { r with order := some { o with stage := .onTheLine } }) } := by
    have hpsel := State.put_psel_same (s := { s with sli.orders := rest }) hl (p := p)
      (c := .live { r with order := some { o with stage := .onTheLine } })
      (by simp only [State.record?_eq_some.1 hr']; rfl)
      (by simp [State.record?_eq_some.1 hr', SlotState.leaf, ho])
    rw [State.put_eq, hpsel, State.record?_eq_some.1 hr']
    simp
  simp only [State.startOrder, hr', ho, State.update_live hr', hput]
  rfl

/-! ### Frames and characters (R161, R162) -/

/-- The sum of bytes, one more byte at the end. -/
theorem byteSum_concat (bs : List Byte) (b : Byte) : byteSum (bs ++ [b]) = byteSum bs + b := by
  simp [byteSum]

/-- A body with its check byte sums to 0 (R162). -/
theorem byteSum_checked (body : List Byte) : byteSum (body ++ [checkByte body]) = 0 := by
  rw [byteSum_concat, checkByte, BitVec.add_neg_eq_sub, BitVec.sub_self]
  rfl

/-- A byte as it is sent (R162). -/
theorem escapeByte_eq (b : Byte) :
    escapeByte b = if 0xC1 ≤ b.toNat ∧ b.toNat ≤ 0xC5 then [0xC3, b ^^^ 0x80] else [b] := by
  simp [escapeByte, isControl, esc]

/-- The parity of a list of bits is that of the number of ones in it. -/
theorem foldl_xor_eq (bits : List Bool) (a : Bool) :
    bits.foldl xor a = xor a (decide (bits.countP id % 2 = 1)) := by
  induction bits generalizing a with
  | nil => simp
  | cons b bits ih =>
    rw [List.foldl_cons, ih, List.countP_cons]
    rcases Nat.mod_two_eq_zero_or_one (bits.countP id) with h | h <;> cases a <;> cases b <;>
      simp [h, Nat.add_mod]

/-- The data bits of a byte, least significant bit first (R161). -/
theorem dataBits_toList (b : Byte) : (dataBits b).toList = (List.range 8).map b.getLsbD := by
  simp [dataBits, Vector.toList_ofFn, List.ofFn_succ, List.range_succ]

/-- The levels of a character (R161). -/
theorem charLevels_eq (b : Byte) :
    charLevels b =
      [false, b.getLsbD 0, b.getLsbD 1, b.getLsbD 2, b.getLsbD 3, b.getLsbD 4, b.getLsbD 5,
        b.getLsbD 6, b.getLsbD 7, decide ((List.range 8).countP b.getLsbD % 2 = 1), true] := by
  unfold charLevels
  rw [dataBits_toList, foldl_xor_eq, List.countP_map, Bool.false_xor, Function.id_comp]
  rfl

/-! ### Bodies (R174) -/

/-- A flags byte is the sum of its bits. -/
theorem flagsByte_eq (bit0 bit1 : Bool) :
    flagsByte bit0 bit1 = (if bit0 then 0x01 else 0x00) + (if bit1 then 0x02 else 0x00) := by
  cases bit0 <;> cases bit1 <;> rfl

theorem Order.tail_digits {o : Order} (h : o.kind = .extend ∨ o.kind = .dial) :
    o.tail = BitVec.ofNat 8 o.digits.length :: o.digits.map fun d => BitVec.ofNat 8 (0x30 + d.val) := by
  rcases h with h | h <;> simp only [Order.tail, h] <;> rfl

theorem Order.tail_park {o : Order} (h : o.kind = .park) {x : Orbit} (hx : o.reservedOrbit = some x) :
    o.tail = [BitVec.ofNat 8 x.val] := by simp [Order.tail, h, hx, countByte]

theorem Order.tail_divert {o : Order} (h : o.kind = .divert) {x : Tenant} (hx : o.tenant = some x) :
    o.tail = [BitVec.ofNat 8 x.val] := by simp [Order.tail, h, hx, countByte]

theorem Order.tail_bare {o : Order} (h : o.kind ∉ [.extend, .dial, .park, .divert]) : o.tail = [] := by
  unfold Order.tail
  cases hk : o.kind <;> simp [hk] at h ⊢

/-- Settles O30: the first message by the order of R170, then the layouts it is sent in. -/
theorem transmitterStartsTheFirstMessage : Obligations.TransmitterStartsTheFirstMessage := by
  refine ⟨fun s => ?_, fun body => ⟨checkByte body, byteSum_checked body, ?_⟩, charLevels_eq,
    fun tag ref => ⟨rfl, fun _ => rfl, rfl, rfl, fun v => ?_⟩,
    fun o => ⟨Order.tail_digits, fun h x hx => Order.tail_park h hx, fun h x hx => Order.tail_divert h hx,
      Order.tail_bare⟩, rfl, rfl, rfl, rfl, rfl⟩
  · intro sends run
    refine ⟨exec_transmitStart_held, fun hhalt hidle => ?_⟩
    have hrun : run = .next s.startMessage := exec_transmitStart_free hhalt hidle
    refine ⟨fun x rest hx => ?_, fun hnone => ⟨fun p rest hp r hr o ho hl => ?_, fun hempty => ?_⟩⟩
    · rw [hrun, State.startMessage, hx]
      rfl
    · rw [hrun, State.startMessage, hnone, hp]
      exact congrArg _ (State.startOrder_live hl hr ho rest)
    · have hnotice : s.startMessage = s.startNotice := by simp only [State.startMessage, hnone, hempty]
      rw [hrun, hnotice]
      refine ⟨fun ha => ?_, fun ha => ⟨fun x hx => ?_, fun hpos => ⟨fun k ref hk => ?_,
        fun horder k ref hk => ?_⟩⟩⟩
      · rw [State.startNotice, if_pos ha]
        rfl
      · simp only [State.startNotice, ha, hx]
        rfl
      · simp only [State.startNotice, ha, hpos, hk]
        rfl
      · simp only [State.startNotice, ha, hpos, horder, hk]
        rfl
  · rw [frameOf, frameTail, funext escapeByte_eq]
    rfl
  · rw [← flagsByte_eq]
    rfl

end Sys2Proof.Machine
end

