-- ==== Sys2Proof/Proofs/OrderEnd.lean ====
section
/-! PROOFS. How a CONFIRM is judged (R56, R57), and the end of an order that holds nothing but itself: no
secondary, no reserved slot and no claim (R58). -/

namespace Sys2Proof.Machine

/-- CONFIRM is handed on to its owner. -/
theorem exec_confirm_eq (s : State) :
    exec .confirm s = .next (s.handOn (· = kindConfirm) State.takeConfirm) := rfl

/-! ### Tables -/

/-- A table that differs in one slot is the other one with that slot written. -/
theorem State.table_eq_set {s t : State} {p : Slot} {c : SlotState} (hp : t.slot p = c)
    (hne : ∀ q, q ≠ p → t.slot q = s.slot q) : t.ccc.table = s.ccc.table.set p c := by
  refine Vector.ext fun i hi => ?_
  rw [Vector.getElem_set]
  split
  · next h => subst h; exact hp
  · next h => exact hne ⟨i, hi⟩ fun e => h (by rw [← e])

/-- A slot of a table in which one slot has been written. -/
theorem State.slot_set (s : State) (p q : Slot) (c : SlotState) :
    State.slot { s with ccc.table := s.ccc.table.set p c } q = if p = q then c else s.slot q := by
  simp [State.slot, Vector.getElem_set, Fin.ext_iff]

/-! ### The CONFIRM and the order it answers (R56, R57) -/

/-- The CONFIRM `b` answers the order `o` of slot `p`, which awaits it on the record `r` (R56). -/
structure State.Awaits (s : State) (b : List Byte) (p : Slot) (r : Record) (o : Order) : Prop where
  lookup : s.lookup (refOf b) = some p
  record : s.record? p = some r
  order : r.order = some o
  stage : o.stage = .awaitingConfirm
  kind : byteAt b 4 = o.kind.code
  held : s.isHeld = false

/-- A position that is neither frozen nor in resync holds nothing back. -/
theorem State.isHeld_eq_false {s : State} (hlink : s.sli.link = .up) (hres : s.ccc.resync = false) :
    s.isHeld = false := by simp [State.isHeld, State.frozen, hlink, hres]

/-- The waiting CONFIRM of `ConfirmWaits`, once it has left the inbound queue. -/
theorem State.ConfirmWaits.awaits {s : State} {b : List Byte} {rest : List (List Byte)} {p : Slot}
    {r : Record} {o : Order} (h : s.ConfirmWaits b rest p r o) :
    s.MessageWaits kindConfirm b rest ∧ State.Awaits { s with sli.inbound := rest } b p r o := by
  obtain ⟨hm, hlook, hr, ho, hst, hk, hlink, hres⟩ := h
  exact ⟨hm, hlook, hr, ho, hst, hk, State.isHeld_eq_false hlink hres⟩

section Awaits

variable {s : State} {b : List Byte} {p : Slot} {r : Record} {o : Order}

theorem State.Awaits.pending (h : s.Awaits b p r o) : (s.record? p).bind Record.order = some o := by
  rw [h.record]; exact h.order

/-- A CONFIRM that answers an order ends it and is judged by its outcome (R56, R58). -/
theorem State.Awaits.takeConfirm_eq (h : s.Awaits b p r o) :
    s.takeConfirm b = s.confirmMatched p o (readConfirm b) (refOf b) := by
  have hanswers : o.answers (byteAt b 4) = true := by simp [Order.answers, h.kind, h.stage]
  have hfilter : r.order.filter (fun o => o.answers (readConfirm b).kind) = some o := by
    rw [h.order]
    exact Option.filter_eq_some_iff.2 ⟨rfl, hanswers⟩
  simp only [State.takeConfirm, State.onKnown_live h.lookup h.record, h.held, hfilter]
  rfl

/-- No order has its own primary as its secondary (R53). -/
theorem State.OrdersTied.secondary_ne (hs : s.OrdersTied) (hr : s.record? p = some r)
    (ho : r.order = some o) : o.secondary ≠ some p := by
  intro hsec
  obtain ⟨r', hr', -, hnone⟩ := (hs.locks p r hr).1 o ho p hsec
  rw [Option.mem_def, hr] at hr'
  cases hr'
  simp [ho] at hnone

/-- A record with a pending order has no lock (R53). -/
theorem State.OrdersTied.lock_none (hs : s.OrdersTied) (hr : s.record? p = some r)
    (ho : r.order = some o) : r.lock = none := by
  refine Option.eq_none_iff_forall_ne_some.2 fun q hq => ?_
  simp [((hs.locks p r hr).2 q hq).1] at ho

/-- The end of an order leaves its primary's record without it (R58). -/
theorem State.record?_endOrder_self (hs : s.OrdersTied) (hr : s.record? p = some r)
    (ho : r.order = some o) : (s.endOrder p).record? p = some { r with order := none } := by
  have hpending : (s.record? p).bind Record.order = some o := by rw [hr]; exact ho
  rw [State.record?_eq_some, State.slot_endOrder hpending, State.record?_eq_some.1 hr]
  simp [SlotState.ended, hs.secondary_ne hr ho]

/-- A CONFIRM whose outcome is valid for the order it answers is committed (R57, R58). -/
theorem State.Awaits.takeConfirm_valid (h : s.Awaits b p r o) (hs : s.OrdersTied) {v : Verdict}
    (hv : verdictOfCode (byteAt b 5) = some v) (hvalid : validVerdict o.kind v (wordAt b 6) = true) :
    s.takeConfirm b = (s.endOrder p).commit p { r with order := none } o v (wordAt b 6) := by
  have hfilter : (readConfirm b).verdict.filter (fun v => validVerdict o.kind v (readConfirm b).newRef) =
      some v := Option.filter_eq_some_iff.2 ⟨hv, hvalid⟩
  simp only [h.takeConfirm_eq, State.confirmMatched, State.record?_endOrder_self hs h.record h.order, hfilter]
  rfl

/-- A CONFIRM whose outcome is not valid for the order it answers is a MISMATCH, after the order has ended as if
it had been REFUSED (R57, R68). -/
theorem State.Awaits.takeConfirm_invalid (h : s.Awaits b p r o) (hs : s.OrdersTied)
    (hv : ∀ v, verdictOfCode (byteAt b 5) = some v → validVerdict o.kind v (wordAt b 6) = false) :
    s.takeConfirm b =
      ((s.endOrder p).refusedOutcome p { r with order := none } o false).orderFault .mismatch (refOf b) := by
  have hfilter : (readConfirm b).verdict.filter (fun v => validVerdict o.kind v (readConfirm b).newRef) =
      none := Option.filter_eq_none_iff.2 fun v h => by simp [readConfirm] at h; simp [readConfirm, hv v h]
  simp only [h.takeConfirm_eq, State.confirmMatched, State.record?_endOrder_self hs h.record h.order, hfilter]

end Awaits

/-! ### Orders that hold nothing but themselves -/

/-- The parts of the end of an order (R58). -/
theorem State.endOrder_steps {s : State} {p : Slot} {o : Order}
    (h : (s.record? p).bind Record.order = some o) :
    s.endOrder p =
      (((((s.withdraw p o).releaseSlot p o).setLock o.secondary none).dropClaim p).update p
        fun r => { r with order := none }) := by
  simp only [State.endOrder, h]

/-- Where no order is pending, none ends. -/
theorem State.endOrder_none {s : State} {p : Slot} (h : (s.record? p).bind Record.order = none) :
    s.endOrder p = s := by simp only [State.endOrder, h]

/-- An order that has left the order group is not withdrawn from it. -/
theorem State.withdraw_sent {s : State} {p : Slot} {o : Order} (h : o.stage ≠ .awaitingLine) :
    s.withdraw p o = s := if_neg h

theorem State.releaseSlot_none {s : State} {p : Slot} {o : Order} (h : o.reservedSlot = none) :
    s.releaseSlot p o = s := by simp [State.releaseSlot, h]

theorem State.setLock_none (s : State) (l : Option Slot) : s.setLock none l = s := rfl

/-- The claim of another slot is kept (R52). -/
theorem State.dropClaim_other {s : State} {p : Slot} (h : s.ccc.claim ≠ some p) : s.dropClaim p = s := if_neg h

/-- The order `o` AWAITING CONFIRM on slot `p` has no secondary, no reserved slot and no claim, and its record
`r` is not QUEUED. -/
structure State.EndsPlainly (s : State) (p : Slot) (r : Record) (o : Order) : Prop where
  tied : s.OrdersTied
  record : s.record? p = some r
  order : r.order = some o
  stage : o.stage = .awaitingConfirm
  secondary : o.secondary = none
  reservedSlot : o.reservedSlot = none
  claim : s.ccc.claim ≠ some p
  state : r.state ≠ .queued

/-- The primary of a RECALL or DIVERT is HELD or has been sent on (R50). -/
theorem State.TableLawful.expiry_state {s : State} (h : s.TableLawful) {p : Slot} {r : Record} {o : Order}
    (hr : s.record? p = some r) (ho : r.order = some o) (hk : o.kind = .recall ∨ o.kind = .divert) :
    r.state = .held ∨ r.away = true := by
  obtain ⟨-, -, -, -, -, -, horders, -⟩ := h
  obtain ⟨⟨-, -, -, -, -, -, -, hexpiry, -⟩, ⟨-, -, -, -, -, -, -, hsuits⟩⟩ := horders p r hr o ho
  obtain ⟨k, hkind⟩ := Option.isSome_iff_exists.1 (hexpiry.2 hk)
  have := hsuits k hkind
  cases k <;> simp [TimerKind.suits] at this <;> simp [Record.away, this]
  rcases this with h | h <;> simp [h]

/-- A HOLD, EXTEND, PARK, RECALL or DIVERT holds nothing but itself (R50, R52). -/
theorem State.Awaits.endsPlainly {s : State} {b : List Byte} {p : Slot} {r : Record} {o : Order}
    (h : s.Awaits b p r o) (hs : s.OrdersTied) (hlaw : s.TableLawful)
    (hk : o.kind ∈ [.hold, .extend, .park, .recall, .divert]) : s.EndsPlainly p r o := by
  have hexpiry := State.TableLawful.expiry_state hlaw h.record h.order
  obtain ⟨-, -, -, -, -, -, horders, -, -, hclaim, -⟩ := hlaw
  obtain ⟨⟨-, -, -, -, hslot, hsec, -⟩, ⟨-, hactive, -⟩⟩ := horders p r h.record o h.order
  refine ⟨hs, h.record, h.order, h.stage, ?_, ?_, ?_, ?_⟩
  · refine Option.not_isSome_iff_eq_none.1 fun hc => ?_
    rcases hsec hc with e | e | e <;> simp [e] at hk
  · refine Option.not_isSome_iff_eq_none.1 fun hc => ?_
    simp [hslot.1 hc] at hk
  · rw [Ne, hclaim p]
    rintro ⟨r', hr', o', ho', htakes⟩
    rw [Option.mem_def, h.record] at hr'
    cases hr'
    rw [Option.mem_def, h.order] at ho'
    cases ho'
    rcases Order.takesClaim_iff.1 htakes with e | e | ⟨e, -⟩ <;> simp [e] at hk
  · intro hq
    have hna : r.state ≠ .active := by simp [hq]
    have hnx : ¬ (r.state = .held ∨ r.away = true) := by simp [Record.away, hq]
    have h1 := mt hactive hna
    have h2 := mt hexpiry hnx
    simp only [List.mem_cons, List.not_mem_nil, or_false] at hk
    tauto

section EndsPlainly

variable {s : State} {p : Slot} {r : Record} {o : Order}

/-- Such an order ends without a trace but in its primary's record (R58). -/
theorem State.EndsPlainly.endOrder_eq (h : s.EndsPlainly p r o) :
    s.endOrder p = { s with ccc.table := s.ccc.table.set p (.live { r with order := none }) } := by
  have hpending : (s.record? p).bind Record.order = some o := by rw [h.record]; exact h.order
  have hupdate : s.update p (fun r => { r with order := none }) =
      { s with ccc.table := s.ccc.table.set p (.live { r with order := none }) } := by
    rw [State.update_live h.record]
    exact State.put_live_idle h.tied.leaves h.record _ rfl h.state h.state
  rw [State.endOrder_steps hpending, State.withdraw_sent (by simp [h.stage]),
    State.releaseSlot_none h.reservedSlot, h.secondary, State.setLock_none, State.dropClaim_other h.claim]
  exact hupdate

/-- The record after the end. -/
theorem State.EndsPlainly.record?_ended (h : s.EndsPlainly p r o) :
    (s.endOrder p).record? p = some { r with order := none } :=
  State.record?_endOrder_self h.tied h.record h.order

/-- The end of such an order, and a record that is not QUEUED written in its primary's place. -/
theorem State.EndsPlainly.endOrder_put (h : s.EndsPlainly p r o) (r' : Record) (href : r'.ref = r.ref)
    (hst : r'.state ≠ .queued) :
    (s.endOrder p).put p (.live r') = { s with ccc.table := s.ccc.table.set p (.live r') } := by
  rw [State.put_live_idle (State.endOrder_leavesExact h.tied.leaves p) h.record?_ended r' href h.state hst,
    h.endOrder_eq]
  simp

/-- The end of such an order, and its primary's entry into a state other than QUEUED. -/
theorem State.EndsPlainly.endOrder_enter (h : s.EndsPlainly p r o) (r' : Record) (href : r'.ref = r.ref)
    (hst : r'.state ≠ .queued) :
    (s.endOrder p).enter p r' =
      { s with
        ccc.table := s.ccc.table.set p (.live r')
        tbt.timers := s.tbt.timers.set p (timerFor (s.profile r'.tenant) r'.state) } := by
  have hprofile : (s.endOrder p).profile r'.tenant = s.profile r'.tenant := by simp [State.profile]
  rw [State.enter, h.endOrder_put r' href hst, hprofile]
  rfl

/-- The profile that governs the primary is the same after the end. -/
theorem State.endOrder_profile (s : State) (p : Slot) (t : Tenant) : (s.endOrder p).profile t = s.profile t := by
  simp [State.profile]

end EndsPlainly

/-! ### CONFIRM as a command -/

section Confirm

variable {s : State} {b : List Byte} {rest : List (List Byte)} {p : Slot} {r : Record} {o : Order}
  (hlaw : s.Lawful) (hw : s.ConfirmWaits b rest p r o)
include hlaw hw

/-- A valid outcome completes with its commit, on the state in which the order has ended (R57, R58). -/
theorem handsOn_confirm_valid {v : Verdict} {P : State → Prop}
    (hv : verdictOfCode (byteAt b 5) = some v) (hvalid : validVerdict o.kind v (wordAt b 6) = true)
    (hP : P ((State.endOrder { s with sli.inbound := rest } p).commit p { r with order := none } o v
      (wordAt b 6))) : HandsOn .confirm s P := by
  obtain ⟨hm, ha⟩ := hw.awaits
  have hs := (State.ordersTied_of_lawful hlaw).congr (t := { s with sli.inbound := rest }) rfl rfl rfl
  refine handsOn_of (exec_confirm_eq s) hm ?_
  rw [ha.takeConfirm_valid hs hv hvalid]
  exact hP

/-- An outcome that is not valid completes with a MISMATCH, on the state in which the order has ended as if it
had been REFUSED (R57). -/
theorem handsOn_confirm_invalid {P : State → Prop}
    (hv : ∀ v, verdictOfCode (byteAt b 5) = some v → validVerdict o.kind v (wordAt b 6) = false)
    (hP : P (((State.endOrder { s with sli.inbound := rest } p).refusedOutcome p { r with order := none } o
      false).orderFault .mismatch (refOf b))) : HandsOn .confirm s P := by
  obtain ⟨hm, ha⟩ := hw.awaits
  have hs := (State.ordersTied_of_lawful hlaw).congr (t := { s with sli.inbound := rest }) rfl rfl rfl
  refine handsOn_of (exec_confirm_eq s) hm ?_
  rw [ha.takeConfirm_invalid hs hv]
  exact hP

/-- The order of a waiting CONFIRM holds nothing but itself, by its kind. -/
theorem State.ConfirmWaits.endsPlainly (hk : o.kind ∈ [.hold, .extend, .park, .recall, .divert]) :
    State.EndsPlainly { s with sli.inbound := rest } p r o :=
  hw.awaits.2.endsPlainly ((State.ordersTied_of_lawful hlaw).congr rfl rfl rfl) hlaw.1 hk

end Confirm

end Sys2Proof.Machine
end

