-- ==== Sys2Proof/Proofs/PrimarySettles.lean ====
section
/-! PROOFS. The confirms of HOLD, PARK and EXTEND (R60, R62). -/

namespace Sys2Proof.Machine

section EndsPlainly

variable {s : State} {p : Slot} {r : Record} {o : Order}

/-- The primary enters a state, and the outcome note goes (R62). -/
theorem State.EndsPlainly.enter_clearNote (h : s.EndsPlainly p r o) (r' : Record) (href : r'.ref = r.ref)
    (hst : r'.state ≠ .queued) :
    ((s.endOrder p).enter p r').clearNote =
      { s with
        ccc.table := s.ccc.table.set p (.live r'), ccc.note := none
        tbt.timers := s.tbt.timers.set p (timerFor (s.profile r'.tenant) r'.state) } := by
  rw [h.endOrder_enter r' href hst]
  rfl

/-- The primary keeps its state and its timer, and the outcome note is set (R62). -/
theorem State.EndsPlainly.endOrder_setNote (h : s.EndsPlainly p r o) (n : Note) :
    (s.endOrder p).setNote n =
      { s with
        ccc.table := s.ccc.table.set p (.live { r with order := none }), ccc.note := some n
        tbt.timers := s.tbt.timers.set p (s.timer p) } := by
  have htimers : s.tbt.timers.set p (s.timer p) = s.tbt.timers := Vector.set_getElem_self p.isLt
  rw [h.endOrder_eq, htimers]
  rfl

/-- EXTEND BUSY for a tenant with camp-on (R62). -/
theorem State.extendBusy_camps (h : (s.profile r.tenant).campOn = 1) :
    s.extendBusy p r o = s.sentOn p r o .camped := if_pos h

/-- EXTEND BUSY for a tenant without camp-on (R62). -/
theorem State.extendBusy_notes (h : (s.profile r.tenant).campOn = 0) :
    s.extendBusy p r o = s.setNote .busy := if_neg (by simp [h])

end EndsPlainly

/-- Settles O41: each order ends without a trace, and the primary enters its new state, or keeps its state and
the note is set. -/
theorem holdParkAndExtendConfirmsSettleThePrimary : Obligations.HoldParkAndExtendConfirmsSettleThePrimary := by
  intro s b rest p r o hlaw hw becomes f
  let s0 : State := { s with sli.inbound := rest }
  have hplain := fun hk => State.ConfirmWaits.endsPlainly hlaw hw hk
  have hprofile : (s0.endOrder p).profile r.tenant = f := State.endOrder_profile s0 p r.tenant
  refine ⟨fun hk hv => ?_, fun hk hv => ?_, fun hk hv => ?_, fun hk hv hcamp => ?_, fun hk hv hcamp => ?_,
    fun hk hv => ?_⟩
  · refine handsOn_confirm_valid hlaw hw (v := .done) (by rw [hv]; rfl) (by rw [hk]; rfl) ?_
    simp only [State.commit, hk]
    exact (hplain (by simp [hk])).enter_clearNote { r with state := .held, order := none } rfl (by simp)
  · refine handsOn_confirm_valid hlaw hw (v := .done) (by rw [hv]; rfl) (by rw [hk]; rfl) ?_
    simp only [State.commit, hk]
    exact (hplain (by simp [hk])).enter_clearNote
      { r with state := .parked, loop := none, orbit := o.reservedOrbit, order := none } rfl (by simp)
  · refine handsOn_confirm_valid hlaw hw (v := .ringing) (by rw [hv]; rfl) (by rw [hk]; rfl) ?_
    simp only [State.commit, hk]
    exact (hplain (by simp [hk])).enter_clearNote
      { r with state := .extended, loop := none, destination := some o.digits, order := none } rfl (by simp)
  · refine handsOn_confirm_valid hlaw hw (v := .busy) (by rw [hv]; rfl) (by rw [hk]; rfl) ?_
    simp only [State.commit, hk]
    rw [State.extendBusy_camps (hprofile ▸ hcamp)]
    exact (hplain (by simp [hk])).enter_clearNote
      { r with state := .camped, loop := none, destination := some o.digits, order := none } rfl (by simp)
  · refine handsOn_confirm_valid hlaw hw (v := .busy) (by rw [hv]; rfl) (by rw [hk]; rfl) ?_
    simp only [State.commit, hk]
    rw [State.extendBusy_notes (hprofile ▸ hcamp)]
    exact (hplain (by simp [hk])).endOrder_setNote .busy
  · refine handsOn_confirm_valid hlaw hw (v := .invalid) (by rw [hv]; rfl) (by rw [hk]; rfl) ?_
    simp only [State.commit, hk]
    exact (hplain (by simp [hk])).endOrder_setNote .invalid

end Sys2Proof.Machine
end

