-- ==== Sys2Proof/Proofs/Retirement.lean ====
section
/-! PROOFS. Retirement as a whole (R17), in the relation `Retires` of Safety.lean. -/

namespace Sys2Proof.Machine

/-! ### Leaves -/

/-- Leaves that follow tables differing in one slot differ in that leaf (R78). -/
theorem State.leaves_eq_set {s t : State} (hs : s.LeavesExact) (ht : t.LeavesExact) {p : Slot}
    {l : Option QueueFields} (hp : (t.slot p).leaf = l)
    (hne : ∀ q, q ≠ p → (t.slot q).leaf = (s.slot q).leaf) : t.psel.leaves = s.psel.leaves.set p l := by
  refine Vector.ext fun i hi => ?_
  rw [Vector.getElem_set]
  split
  · next h =>
    subst h
    exact (ht p).trans hp
  · next h =>
    have hip : (⟨i, hi⟩ : Slot) ≠ p := fun e => h (by rw [← e])
    exact (ht ⟨i, hi⟩).trans ((hne _ hip).trans (hs ⟨i, hi⟩).symm)

/-! ### The names of a retiring record (R17) -/

/-- The record with its order's secondary dropped (R17, step 4). -/
def Record.withoutSecondary (r : Record) : Record :=
  { r with order := r.order.map fun o => { o with secondary := none } }

theorem State.slot_dropSecondary (s : State) (x : Option Slot) (q : Slot) :
    (s.dropSecondary x).slot q =
      if x = some q then (s.slot q).mapLive Record.withoutSecondary else s.slot q := by
  cases x with
  | none => rfl
  | some x =>
    have hupdate := State.slot_update s x q Record.withoutSecondary
    simp only [Option.some.injEq]
    rw [← hupdate]
    unfold State.dropSecondary
    dsimp only
    split
    · exact State.slot_dropClaim _ x q
    · rfl

theorem State.slot_unlinkPartner (s : State) (x : Option Slot) (q : Slot) :
    (s.unlinkPartner x).slot q =
      if x = some q then (s.slot q).mapLive fun r => { r with partner := none } else s.slot q := by
  cases x with
  | none => rfl
  | some x => simp only [Option.some.injEq]; exact State.slot_update s x q _

theorem State.dropSecondary_index (s : State) (x : Option Slot) :
    (s.dropSecondary x).ccc.index = s.ccc.index := by
  cases x with
  | none => rfl
  | some x =>
    unfold State.dropSecondary
    dsimp only
    split
    · rw [State.dropClaim_ccc_index]
      exact State.update_index_same fun _ => rfl
    · exact State.update_index_same fun _ => rfl

theorem State.dropSecondary_queued (s : State) (x : Option Slot) :
    (s.dropSecondary x).psel.queued = s.psel.queued := by
  cases x with
  | none => rfl
  | some x =>
    unfold State.dropSecondary
    dsimp only
    split
    · rw [State.dropClaim_psel]
      exact State.update_queued_same fun _ => ⟨rfl, rfl⟩
    · exact State.update_queued_same fun _ => ⟨rfl, rfl⟩

theorem State.unlinkPartner_index (s : State) (x : Option Slot) :
    (s.unlinkPartner x).ccc.index = s.ccc.index := by
  cases x with
  | none => rfl
  | some x => exact State.update_index_same fun _ => rfl

theorem State.unlinkPartner_queued (s : State) (x : Option Slot) :
    (s.unlinkPartner x).psel.queued = s.psel.queued := by
  cases x with
  | none => rfl
  | some x => exact State.update_queued_same fun _ => ⟨rfl, rfl⟩

theorem State.dropClaim_claim (s : State) (p : Slot) :
    (s.dropClaim p).ccc.claim = if s.ccc.claim = some p then none else s.ccc.claim := by
  unfold State.dropClaim
  split <;> simp_all

/-- A retirement that drops a CLEAR's secondary drops its claim too (R17, R52). -/
theorem State.dropSecondary_claim (s : State) (x : Option Slot) :
    (s.dropSecondary x).ccc.claim =
      if ∃ q ∈ x, s.ccc.claim = some q ∧ ∃ o, (s.record? q).bind Record.order = some o ∧ o.kind = .clear then
        none
      else s.ccc.claim := by
  cases x with
  | none => simp [State.dropSecondary]
  | some q =>
    simp only [State.dropSecondary, Option.any_eq_true, decide_eq_true_eq, Option.mem_def,
      Option.some.injEq, exists_eq_left']
    by_cases hclear : ∃ o, (s.record? q).bind Record.order = some o ∧ o.kind = .clear
    · simp [hclear, State.dropClaim_claim]
    · simp [hclear]

/-! ### A retirement, part by part (R17) -/

/-- The state with every name for the record `r` of slot `p` gone, short of the slot itself (R17, steps 1 to
5). -/
def State.detach (s : State) (p : Slot) (r : Record) : State :=
  ((s.endOrder p).dropSecondary r.lock).unlinkPartner r.partner

/-- A retirement detaches the record, stops its timer and frees its slot (R17). -/
theorem State.retire_eq {s : State} {p : Slot} {r : Record} (hr : s.record? p = some r) :
    s.retire p =
      { ((s.detach p r).setTimer p Timer.stopped).put p .free with
        ccc.note := if r.onHeadset then none else s.ccc.note } := by
  have hnote : (((s.detach p r).setTimer p Timer.stopped).put p .free).ccc.note = s.ccc.note := by
    simp [State.detach]
  rw [← hnote]
  simp only [State.retire, hr]
  split <;> rfl

section Detach

variable {s : State} {p : Slot} {r : Record}

theorem State.detach_index (s : State) (p : Slot) (r : Record) : (s.detach p r).ccc.index = s.ccc.index := by
  simp [State.detach, State.unlinkPartner_index, State.dropSecondary_index, State.endOrder_index]

theorem State.detach_queued (s : State) (p : Slot) (r : Record) :
    (s.detach p r).psel.queued = s.psel.queued := by
  simp [State.detach, State.unlinkPartner_queued, State.dropSecondary_queued, State.endOrder_queued]

/-- The end of an order as another slot's record sees it (R53, R58). -/
theorem State.OrdersTied.slot_endOrder_other (hs : s.OrdersTied) {q : Slot} {u : Record} (hq : q ≠ p)
    (hu : s.record? q = some u) :
    (s.endOrder p).slot q = .live { u with lock := if u.lock = some p then none else u.lock } := by
  have hslot := State.record?_eq_some.1 hu
  have hlock := hs.lock_iff (p := p) hu
  rcases ho : (s.record? p).bind Record.order with _ | o
  · have hne : u.lock ≠ some p := fun h => by simpa [ho] using hlock.1 h
    rw [State.endOrder_none ho, hslot, if_neg hne]
  · have hsec : o.secondary = some q ↔ u.lock = some p := by rw [hlock, ho]; simp
    rw [State.slot_endOrder ho, hslot]
    simp [SlotState.ended, Ne.symm hq, hsec]

/-- The end of an order frees the slot that it has reserved, and no other (R4, R58). -/
theorem State.OrdersTied.slot_endOrder_dead (hs : s.OrdersTied) {q : Slot} (hq : s.record? q = none) :
    (s.endOrder p).slot q = if s.slot q = .reserved p then .free else s.slot q := by
  rcases ho : (s.record? p).bind Record.order with _ | o
  · have hne : s.slot q ≠ .reserved p := fun h => by
      obtain ⟨o, ho', -⟩ := hs.reserved_by h
      simp [ho] at ho'
    rw [State.endOrder_none ho, if_neg hne]
  · rw [State.slot_endOrder ho]
    cases hslot : s.slot q with
    | free => simp [SlotState.ended]
    | live u => simp [State.record?, hslot] at hq
    | reserved w =>
      have hres : w = p → o.reservedSlot = some q := by
        rintro rfl
        obtain ⟨o', ho', hres⟩ := hs.reserved_by hslot
        rw [ho] at ho'
        cases ho'
        exact hres
      by_cases hw : w = p <;> simp [SlotState.ended, hw]
      exact hres hw

/-- A slot that holds no record is not seen by what drops names (R17). -/
theorem State.slot_detach_dead (hs : s.OrdersTied) {q : Slot} (hq : s.record? q = none) :
    (s.detach p r).slot q = if s.slot q = .reserved p then .free else s.slot q := by
  have hkeep : ∀ f, SlotState.mapLive f (if s.slot q = .reserved p then .free else s.slot q) =
      if s.slot q = .reserved p then .free else s.slot q := by
    intro f
    cases hslot : s.slot q with
    | live u => simp [State.record?, hslot] at hq
    | free => rfl
    | reserved w => split <;> rfl
  rw [State.detach, State.slot_unlinkPartner, State.slot_dropSecondary, hs.slot_endOrder_dead hq]
  simp [hkeep]

/-- Every other record loses what names the retiring one (R17). -/
theorem State.slot_detach_other (hs : s.OrdersTied) (hpairs : s.PairsFit) (hr : s.record? p = some r)
    {q : Slot} {u : Record} (hq : q ≠ p) (hu : s.record? q = some u) :
    (s.detach p r).slot q = .live (u.without p) := by
  have horder : (u.order.map fun o => { o with secondary := if o.secondary = some p then none else o.secondary })
      = if r.lock = some q then u.order.map fun o => { o with secondary := none } else u.order := by
    have hlock := hs.lock_iff (p := q) hr
    rw [hu] at hlock
    rcases ho : u.order with _ | o
    · simp
    · have hsec : r.lock = some q ↔ o.secondary = some p := by rw [hlock]; simp [ho]
      by_cases h : o.secondary = some p <;> simp [hsec, h]
  have hpartner : r.partner = some q ↔ u.partner = some p := by
    constructor
    · intro h
      obtain ⟨u', hu', h', -⟩ := hpairs p r hr q h
      rw [Option.mem_def, hu] at hu'
      cases hu'
      exact h'
    · intro h
      obtain ⟨r', hr', h', -⟩ := hpairs q u hu p h
      rw [Option.mem_def, hr] at hr'
      cases hr'
      exact h'
  rw [State.detach, State.slot_unlinkPartner, State.slot_dropSecondary, hs.slot_endOrder_other hq hu]
  simp only [Record.without, horder, hpartner]
  by_cases h1 : r.lock = some q <;> by_cases h2 : u.partner = some p <;>
    simp [h1, h2, SlotState.mapLive, Record.withoutSecondary]

/-- What the index and PSEL read of the retiring record stands until its slot is freed. -/
theorem State.slot_detach_self (hr : s.record? p = some r) :
    ∃ u : Record, (s.detach p r).slot p = .live u ∧ u.ref = r.ref ∧ u.state = r.state
      ∧ u.tenant = r.tenant := by
  have hend : ∃ u : Record, (s.endOrder p).slot p = .live u ∧ u.ref = r.ref ∧ u.state = r.state
      ∧ u.tenant = r.tenant := by
    rcases ho : (s.record? p).bind Record.order with _ | o
    · exact ⟨r, by rw [State.endOrder_none ho]; exact State.record?_eq_some.1 hr, rfl, rfl, rfl⟩
    · have hslot := State.slot_endOrder ho p
      rw [State.record?_eq_some.1 hr] at hslot
      exact ⟨_, hslot, rfl, rfl, rfl⟩
  obtain ⟨u, hslot, href, hst, hten⟩ := hend
  rw [State.detach, State.slot_unlinkPartner, State.slot_dropSecondary, hslot, ← href, ← hst, ← hten]
  split_ifs <;> exact ⟨_, rfl, rfl, rfl, rfl⟩

/-- The order of the record that locks the retiring one stands until its secondary is dropped. -/
theorem State.OrdersTied.order_of_lock (hs : s.OrdersTied) (hr : s.record? p = some r) {q : Slot}
    (hq : r.lock = some q) :
    ((s.endOrder p).record? q).bind Record.order = (s.record? q).bind Record.order := by
  obtain ⟨hnone, u, hu, o, ho, hsec⟩ := (hs.locks p r hr).2 q hq
  have hqp : q ≠ p := by
    rintro rfl
    rw [Option.mem_def, hr] at hu
    cases hu
    rw [Option.mem_def, hnone] at ho
    cases ho
  have hslot := hs.slot_endOrder_other hqp hu
  rw [State.record?_eq_some.2 hslot, Option.mem_def.1 hu]
  rfl

/-- The order group without the retiring slot (R17, R54). -/
theorem State.OrdersTied.endOrder_group (hs : s.OrdersTied) :
    (s.endOrder p).sli.orders = s.sli.orders.filter (· ≠ p) := by
  have hout : p ∉ s.sli.orders → s.sli.orders.filter (· ≠ p) = s.sli.orders := fun h =>
    List.filter_eq_self.2 fun x hx => decide_eq_true fun e => h (e ▸ hx)
  rcases ho : (s.record? p).bind Record.order with _ | o
  · rw [State.endOrder_none ho, hout]
    intro h
    obtain ⟨o, ho', -⟩ := hs.awaiting h
    simp [ho] at ho'
  · rw [State.endOrder_orders ho]
    split
    · rfl
    · next hst =>
      rw [hout]
      intro h
      obtain ⟨o', ho', hst'⟩ := hs.awaiting h
      rw [ho] at ho'
      cases ho'
      exact hst hst'

/-- The claim of the order that ends is dropped (R52). -/
theorem State.ClaimExact.endOrder_claim (hclaim : s.ClaimExact) :
    (s.endOrder p).ccc.claim = if s.ccc.claim = some p then none else s.ccc.claim := by
  rcases ho : (s.record? p).bind Record.order with _ | o
  · have hne : s.ccc.claim ≠ some p := fun h => by
      obtain ⟨r, hr, o, ho', -⟩ := (hclaim p).1 h
      rw [Option.mem_def] at hr ho'
      simp [hr, ho'] at ho
    rw [State.endOrder_none ho, if_neg hne]
  · rw [State.endOrder_steps ho, State.update_ccc_claim, State.dropClaim_claim]
    simp

end Detach

/-! ### The retirement as a whole -/

/-- Everything a retirement does (R17). -/
theorem State.retire_retires {s : State} (hs : s.OrdersTied) (hpairs : s.PairsFit) (hclaim : s.ClaimExact)
    {p : Slot} {r : Record} (hr : s.record? p = some r) : s.Retires (s.retire p) p r := by
  obtain ⟨v, hv, href, hst, hten⟩ := State.slot_detach_self hr
  have hslot : ∀ q, (s.retire p).slot q = if p = q then .free else (s.detach p r).slot q := fun q => by
    rw [State.retire_eq hr]
    exact State.slot_put ((s.detach p r).setTimer p Timer.stopped) p q .free
  have hother : ∀ q, q ≠ p → ∀ u ∈ s.record? q, (s.retire p).slot q = .live (u.without p) :=
    fun q hq u hu => by
      rw [hslot, if_neg (Ne.symm hq), State.slot_detach_other hs hpairs hr hq hu]
  have hdead : ∀ q, s.record? q = none →
      (s.retire p).slot q = if s.slot q = .reserved p then .free else s.slot q := fun q hq => by
    have hqp : p ≠ q := by
      rintro rfl
      simp [hr] at hq
    rw [hslot, if_neg hqp, State.slot_detach_dead hs hq]
  have hself : (s.retire p).slot p = .free := by rw [hslot, if_pos rfl]
  have hleaves : (s.retire p).psel.leaves = s.psel.leaves.set p none := by
    refine State.leaves_eq_set hs.leaves (State.retire_leavesExact hs.leaves p) (by rw [hself]; rfl)
      fun q hq => ?_
    rcases hu : s.record? q with _ | u
    · rw [hdead q hu]
      split
      · next h => rw [h]; rfl
      · rfl
    · rw [hother q hq u hu, State.record?_eq_some.1 hu]
      simp [SlotState.leaf, Record.without]
  have hindex : (s.retire p).ccc.index = s.ccc.index.filter (fun e => e.1 ≠ r.ref) := by
    rw [State.retire_eq hr]
    simp [hv, href, State.detach_index, reindex, SlotState.ref?]
  have hqueued : (s.retire p).psel.queued =
      if r.state = .queued then s.psel.queued.set r.tenant (s.psel.queued[r.tenant] - 1)
      else s.psel.queued := by
    rw [State.retire_eq hr]
    simp only [State.put_psel, State.slot_setTimer, hv, Psel.setLeaf_queued, State.setTimer_psel,
      SlotState.queuedTenant, hst, hten, Psel.countUp]
    split <;> simp [Psel.countDown, State.detach_queued]
  have hclaims : (s.retire p).ccc.claim =
      if s.ccc.claim = some p ∨ (∃ q ∈ r.lock, s.ccc.claim = some q ∧
          ∃ u ∈ s.record? q, ∃ o ∈ u.order, o.kind = .clear) then none
      else s.ccc.claim := by
    rw [State.retire_eq hr]
    simp only [State.put_ccc_claim, State.setTimer_ccc, State.detach, State.unlinkPartner_ccc_claim,
      State.dropSecondary_claim, hclaim.endOrder_claim]
    by_cases h : s.ccc.claim = some p
    · simp [h]
    · simp only [h, if_false, false_or]
      refine if_congr (exists_congr fun q => and_congr_right fun hq => and_congr_right fun _ => ?_) rfl rfl
      rw [hs.order_of_lock hr hq]
      simp only [Option.bind_eq_some_iff, Option.mem_def]
      exact ⟨fun ⟨o, ⟨u, hu, ho⟩, hk⟩ => ⟨u, hu, o, ho, hk⟩, fun ⟨u, hu, o, ho, hk⟩ => ⟨o, ⟨u, hu, ho⟩, hk⟩⟩
  have hnote : (s.retire p).ccc.note = if r.onHeadset then none else s.ccc.note := by
    rw [State.retire_eq hr]
  have htbt : (s.retire p).tbt = { s.tbt with timers := s.tbt.timers.set p Timer.stopped } := by
    rw [State.retire_eq hr]
    simp [State.detach, Tbt.eq_iff]
  have hsli : (s.retire p).sli =
      { s.sli with orders := s.sli.orders.filter (· ≠ p), posNotice := (s.retire p).sli.posNotice } := by
    have horders : (s.retire p).sli.orders = s.sli.orders.filter (· ≠ p) := by
      rw [State.retire_eq hr, ← hs.endOrder_group]
      simp [State.detach]
    rw [← horders, Sli.eq_iff]
    simp
  refine ⟨hself, hother, hdead, hindex, hclaims, hnote, hleaves, hqueued, htbt, hsli, ?_⟩
  simp [State.eq_iff, Ccc.eq_iff, Psel.eq_iff]

/-- A retirement ends the pending order first, so one that has just ended makes no difference (R17). -/
theorem State.retire_endOrder {s : State} (hs : s.OrdersTied) {p : Slot} {r : Record} {o : Order}
    (hr : s.record? p = some r) (ho : r.order = some o) : (s.endOrder p).retire p = s.retire p := by
  have hended := State.record?_endOrder_self hs hr ho
  have hdetach : (s.endOrder p).detach p { r with order := none } = s.detach p r := by
    simp only [State.detach]
    rw [State.endOrder_none (s := s.endOrder p) (by rw [hended]; rfl)]
  rw [State.retire_eq hended, State.retire_eq hr, hdetach, State.endOrder_ccc_note]
  rfl

/-! ### The close of the position at the end of a step (R127) -/

/-- `Retires` leaves aside what the close writes. -/
theorem State.Retires.closeIfEmpty {s t : State} {p : Slot} {r : Record} (h : s.Retires t p r) :
    s.Retires t.closeIfEmpty p r := by
  rcases State.closeIfEmpty_cases t with e | ⟨-, -, e⟩
  · rwa [e]
  · obtain ⟨hself, hother, hdead, hindex, hclaim, hnote, hleaves, hqueued, htbt, hsli, hframe⟩ := h
    rw [e]
    refine ⟨hself, hother, hdead, hindex, hclaim, hnote, hleaves, hqueued, htbt, ?_, ?_⟩
    · exact congrArg (fun l : Sli => { l with posNotice := some .closed }) hsli
    · exact congrArg (fun u : State => { u with pos.state := .closed, sli.posNotice := some .closed }) hframe

/-- A step that has moved neither the position nor its notice ends with the close (R127). -/
theorem State.closeIfEmpty_closes {s t : State} (hpos : t.pos.state = s.pos.state)
    (hnotice : t.sli.posNotice = s.sli.posNotice) : s.Closes t.closeIfEmpty := by
  rcases State.closeIfEmpty_cases t with e | ⟨hclosing, hempty, e⟩
  · rw [e]
    refine ⟨fun hc hz => ?_, fun _ => ⟨hpos, hnotice⟩⟩
    have hmoved : t.closeIfEmpty.pos.state = .closed := by
      simp [State.closeIfEmpty, hpos, hc, hz, State.setPosition]
    simp [e, hpos, hc] at hmoved
  · rw [e]
    refine ⟨fun _ _ => ⟨rfl, rfl⟩, fun h => ?_⟩
    rcases h with h | h
    · exact absurd (hpos ▸ hclosing) h
    · exact absurd hempty h

end Sys2Proof.Machine
end

