-- ==== Sys2Proof/Proofs/ExpiryConfirms.lean ====
section
/-! PROOFS. The confirms of RECALL and DIVERT (R64, R65, R122). -/

namespace Sys2Proof.Machine

/-! ### The return to the queue (R64, R72) -/

/-- A record that is not QUEUED becomes QUEUED, without an order and under its own reference: its tenant's count,
its leaf and the path of its leaf follow (R79, R82). -/
theorem State.put_live_queued {s : State} (hl : s.LeavesExact) {p : Slot} {r r' : Record} {q : QueueFields}
    (hr : s.record? p = some r) (hst : r.state ≠ .queued) (href : r'.ref = r.ref) (hs : r'.state = .queued)
    (ho : r'.order = none) (hq : r'.queue = some q) :
    s.put p (.live r') =
      { s with
        ccc.table := s.ccc.table.set p (.live r')
        psel.queued := s.psel.queued.set r'.tenant (s.psel.queued[r'.tenant] + 1)
        psel.leaves := s.psel.leaves.set p (some q)
        psel.nodes := replay (s.psel.leaves.set p (some q)) s.psel.nodes p } := by
  have hslot := State.record?_eq_some.1 hr
  obtain ⟨hleaf, htenant⟩ := SlotState.leaf_live_idle hst
  have hold : s.psel.leaves[p] = none := by rw [hl p, hslot, hleaf]
  have htenant' : (SlotState.live r').queuedTenant = some r'.tenant := by simp [SlotState.queuedTenant, hs]
  have hleaf' : (SlotState.live r').leaf = some q := by simp [SlotState.leaf, hs, ho, hq]
  have hpsel : (s.put p (.live r')).psel =
      { s.psel with
        queued := s.psel.queued.set r'.tenant (s.psel.queued[r'.tenant] + 1)
        leaves := s.psel.leaves.set p (some q)
        nodes := replay (s.psel.leaves.set p (some q)) s.psel.nodes p } := by
    rw [State.put_psel, htenant', hleaf', hslot, htenant]
    refine (if_neg ?_).trans rfl
    simp [Psel.countDown, Psel.countUp, hold]
  rw [State.put_eq, hpsel, hslot]
  simp [href]

section EndsPlainly

variable {s : State} {p : Slot} {r : Record} {o : Order}

/-- RECALL DONE, on the state in which the RECALL has ended (R64). -/
theorem State.EndsPlainly.recallDone_eq (h : s.EndsPlainly p r o) :
    let q : QueueFields :=
      { seq := s.psel.seq, wait := 0, key := keyBase s.psel.working r.tenant r.cls r.recallCount }
    (s.endOrder p).recallDone p { r with order := none } =
      { s with
        ccc.table := s.ccc.table.set p (.live { r with
          state := .queued, loop := none, orbit := none, recallAlert := false
          destination := if r.leg = .dialled then r.destination else none
          queue := some q, order := none })
        psel.seq := s.psel.seq + 1
        psel.queued := s.psel.queued.set r.tenant (s.psel.queued[r.tenant] + 1)
        psel.leaves := s.psel.leaves.set p (some q)
        psel.nodes := replay (s.psel.leaves.set p (some q)) s.psel.nodes p
        tbt.timers := s.tbt.timers.set p Timer.stopped
        ind.recallReq := true } := by
  intro q
  let r' : Record := { r with
    state := .queued, loop := none, orbit := none, recallAlert := false
    destination := if r.leg = .dialled then r.destination else none
    queue := some q, order := none }
  let s1 : State := { s.endOrder p with psel.seq := s.psel.seq + 1 }
  have hqueued : (s.endOrder p).queuedRecord { r with
      order := none, destination := if r.leg = .dialled then r.destination else none } = r' := by
    simp only [State.queuedRecord, Record.keyAt_zero, State.endOrder_psel_seq, State.endOrder_psel_working]
    rfl
  have hput : s1.put p (.live r') = _ :=
    State.put_live_queued (s := s1) (State.endOrder_leavesExact h.tied.leaves p) h.record?_ended h.state
      (r' := r') rfl rfl rfl rfl
  have hseq : (s.endOrder p).psel.seq = s.psel.seq := State.endOrder_psel_seq s p
  simp only [State.recallDone, State.enterQueued, State.enter, hqueued, hseq]
  rw [hput]
  simp only [s1, h.endOrder_eq]
  simp
  rfl

/-- RECALL REFUSED for a record still in the state of the expiry, or whose timer is spent: the timer is armed
for the record's state (R64, R122). -/
theorem State.EndsPlainly.recallRefused_arms (h : s.EndsPlainly p r o) {k : TimerKind}
    (hk : r.state.timerKind = some k) (hcond : r.state.timerKind = o.expiryKind ∨ (s.timer p).isSpent = true) :
    (s.endOrder p).recallRefused p { r with order := none } o =
      { s with
        ccc.table := s.ccc.table.set p (.live { r with order := none })
        tbt.timers := s.tbt.timers.set p (armed k ((s.profile r.tenant).reload k)) } := by
  have htimer : (s.endOrder p).timer p = s.timer p := by simp [State.timer]
  have harm : (s.endOrder p).armTimer p =
      (s.endOrder p).setTimer p (timerFor (s.profile r.tenant) r.state) := by
    simp only [State.armTimer, h.record?_ended, State.endOrder_profile]
  unfold State.recallRefused
  rw [htimer, if_pos hcond, harm, timerFor_armed _ hk, h.endOrder_eq]
  rfl

/-- RECALL REFUSED for a record in another state with a timer that is not spent: the timer is left (R122). -/
theorem State.EndsPlainly.recallRefused_keeps (h : s.EndsPlainly p r o)
    (hkind : r.state.timerKind ≠ o.expiryKind) (hspent : (s.timer p).isSpent = false) :
    (s.endOrder p).recallRefused p { r with order := none } o =
      { s with ccc.table := s.ccc.table.set p (.live { r with order := none }) } := by
  have htimer : (s.endOrder p).timer p = s.timer p := by simp [State.timer]
  unfold State.recallRefused
  rw [htimer, if_neg (by simp [hkind, hspent]), h.endOrder_eq]

/-- DIVERT REFUSED for a HELD record: its recall alert is set (R65). -/
theorem State.EndsPlainly.divertRefused_held (h : s.EndsPlainly p r o) (hst : r.state = .held)
    (mayReplace : Bool) :
    (s.endOrder p).divertRefused p { r with order := none } o mayReplace =
      { s with ccc.table := s.ccc.table.set p (.live { r with order := none, recallAlert := true }) } := by
  unfold State.divertRefused
  rw [if_pos hst]
  exact h.endOrder_put { r with order := none, recallAlert := true } rfl (by simp [hst])

/-- DIVERT REFUSED for a record that is not HELD, where no RECALL may be issued in its place: the RECALL is owed
(R65, R122). -/
theorem State.EndsPlainly.divertRefused_owes (h : s.EndsPlainly p r o) (hst : r.state ≠ .held)
    {mayReplace : Bool}
    (hmay : (mayReplace && (s.endOrder p).mayRecall p { r with order := none } .recall o.expiryKind) = false) :
    (s.endOrder p).divertRefused p { r with order := none } o mayReplace =
      { s with
        ccc.table := s.ccc.table.set p (.live { r with order := none })
        tbt.timers := s.tbt.timers.set p (Timer.owing o.expiryKind .recall) } := by
  unfold State.divertRefused
  rw [if_neg hst, hmay, if_neg (by simp), h.endOrder_eq]
  rfl

/-- R50 allows the RECALL that takes the place of a DIVERT exactly where the order group has room (R65). -/
theorem State.EndsPlainly.mayRecall_iff (h : s.EndsPlainly p r o) (hheld : s.isHeld = false)
    (haway : r.away = true) (k : Option TimerKind) :
    (s.endOrder p).mayRecall p { r with order := none } .recall k = true ↔ s.OrderRoom := by
  have haway' : Owed.fits .recall { r with order := none } = true := haway
  have hunfenced : (s.endOrder p).unfenced p = true := by
    rw [State.unfenced, h.record?_ended]
    simp [Record.unfenced, h.tied.lock_none h.record h.order]
  have hclaim : (timerOrder .recall k r.tenant).takesClaim = false := rfl
  have hsec : (timerOrder .recall k r.tenant).secondary = none := rfl
  have hheld' : (s.endOrder p).isHeld = false := by rw [h.endOrder_eq]; exact hheld
  have hroom : (s.endOrder p).OrderRoom ↔ s.OrderRoom := by rw [h.endOrder_eq]
  simp only [State.mayRecall, haway', Bool.true_and]
  rw [State.mayIssue_iff, hroom]
  simp [hheld', hunfenced, hclaim, hsec]

/-- A record that has been sent on is not on the headset (R24). -/
theorem State.headset_ne_of_away (hr : s.record? p = some r) (haway : r.away = true) : s.headset ≠ some p := by
  intro h
  obtain ⟨r', hr', hhead⟩ := State.headset_some h
  rw [hr] at hr'
  cases hr'
  cases hst : r.state <;> simp [Record.away, Record.onHeadset, hst] at haway hhead

/-- DIVERT REFUSED for a record that has been sent on: a RECALL is issued in its place (R65). -/
theorem State.EndsPlainly.divertRefused_recalls (h : s.EndsPlainly p r o) (hheld : s.isHeld = false)
    (haway : r.away = true) (hroom : s.OrderRoom) :
    (s.endOrder p).divertRefused p { r with order := none } o true =
      { s with
        ccc.table := s.ccc.table.set p (.live { r with
          order := some { Order.new .recall with expiryKind := o.expiryKind } })
        sli.orders := s.sli.orders ++ [p] } := by
  have hst : r.state ≠ .held := fun e => by simp [Record.away, e] at haway
  have hissues := State.issueOrder_issues (o := timerOrder .recall o.expiryKind r.tenant)
    (State.endOrder_leavesExact h.tied.leaves p) h.record?_ended (by simp [timerOrder, Order.new])
    (by simp [timerOrder, Order.new])
  obtain ⟨hself, -, -, hother, -, hpsel, hframe⟩ := hissues
  have htable := State.table_eq_set hself fun q hq =>
    hother q hq (by simp [timerOrder, Order.new]) (by simp [timerOrder, Order.new])
  have hhead : (s.endOrder p).headset ≠ some p := State.headset_ne_of_away h.record?_ended haway
  unfold State.divertRefused
  rw [if_neg hst, (h.mayRecall_iff hheld haway _).2 hroom]
  refine (if_pos rfl).trans ?_
  rw [hframe, htable, hpsel h.state, if_neg hhead, h.endOrder_eq]
  simp [timerOrder, Order.new]

end EndsPlainly

/-- Settles O44: the RECALL or DIVERT ends without a trace, and its commit, or what REFUSED makes of it, acts on
the state without it. -/
theorem recallAndDivertConfirmsSettleThePrimary : Obligations.RecallAndDivertConfirmsSettleThePrimary := by
  intro s b rest p r o hlaw hw s0 q ended
  have hplain := fun hk => State.ConfirmWaits.endsPlainly hlaw hw hk
  obtain ⟨-, ha⟩ := hw.awaits
  have hs := (State.ordersTied_of_lawful hlaw).congr (t := s0) rfl rfl rfl
  have hrefused : o.kind = .recall ∨ o.kind = .divert → validVerdict o.kind .refused (wordAt b 6) = true := by
    rintro (hk | hk) <;> rw [hk] <;> rfl
  refine ⟨fun hk hv => ?_, fun hk hv => ⟨fun k hexp hkind => ?_, fun hne hkind hrem hwait hrep k hk' => ?_,
    fun hne hspent => ?_⟩, fun hk hv => ?_, fun hk hv hst => ?_, fun hk hv hst hroom => ?_,
    fun hk hv hst hroom => ?_⟩
  · refine handsOn_confirm_valid hlaw hw (v := .done) (by rw [hv]; rfl) (by rw [hk]; rfl) ?_
    simp only [State.commit, hk]
    exact (hplain (by simp [hk])).recallDone_eq
  · refine handsOn_confirm_valid hlaw hw (v := .refused) (by rw [hv]; rfl) (hrefused (.inl hk)) ?_
    simp only [State.commit, State.refusedOutcome, hk]
    exact (hplain (by simp [hk])).recallRefused_arms hkind (.inl (hkind.trans hexp.symm))
  · have hspent : (s.timer p).isSpent = true := by simp [Timer.isSpent, hkind, hrem, hwait, hrep]
    refine handsOn_confirm_valid hlaw hw (v := .refused) (by rw [hv]; rfl) (hrefused (.inl hk)) ?_
    simp only [State.commit, State.refusedOutcome, hk]
    exact (hplain (by simp [hk])).recallRefused_arms hk' (.inr hspent)
  · refine handsOn_confirm_valid hlaw hw (v := .refused) (by rw [hv]; rfl) (hrefused (.inl hk)) ?_
    simp only [State.commit, State.refusedOutcome, hk]
    exact (hplain (by simp [hk])).recallRefused_keeps hne hspent
  · obtain ⟨-, -, -, -, -, hpairs, -, -, -, hclaim, -⟩ := hlaw.1
    have hretire : (State.endOrder { s with sli.inbound := rest } p).retire p = s0.retire p :=
      State.retire_endOrder hs ha.record ha.order
    refine handsOn_confirm_valid hlaw hw (v := .done) (by rw [hv]; rfl) (by rw [hk]; rfl) ?_
    simp only [State.commit, hk]
    rw [hretire]
    exact ⟨(State.retire_retires hs hpairs hclaim ha.record).closeIfEmpty,
      State.closeIfEmpty_closes (congrArg Pos.state (State.retire_pos s0 p)) (State.retire_sli_posNotice s0 p)⟩
  · refine handsOn_confirm_valid hlaw hw (v := .refused) (by rw [hv]; rfl) (hrefused (.inr hk)) ?_
    simp only [State.commit, State.refusedOutcome, hk]
    exact (hplain (by simp [hk])).divertRefused_held hst true
  · have haway := (State.TableLawful.expiry_state hlaw.1 ha.record ha.order (.inr hk)).resolve_left hst
    refine handsOn_confirm_valid hlaw hw (v := .refused) (by rw [hv]; rfl) (hrefused (.inr hk)) ?_
    simp only [State.commit, State.refusedOutcome, hk]
    exact (hplain (by simp [hk])).divertRefused_recalls ha.held haway hroom
  · have haway := (State.TableLawful.expiry_state hlaw.1 ha.record ha.order (.inr hk)).resolve_left hst
    refine handsOn_confirm_valid hlaw hw (v := .refused) (by rw [hv]; rfl) (hrefused (.inr hk)) ?_
    have hplain := hplain (by simp [hk])
    have hmay := mt (hplain.mayRecall_iff ha.held haway o.expiryKind).1 hroom
    simp only [State.commit, State.refusedOutcome, hk]
    exact hplain.divertRefused_owes hst (by simpa using hmay)

end Sys2Proof.Machine
end

