-- ==== Sys2Proof/Proofs/ConnectDone.lean ====
section
/-! PROOFS. The confirm of a CONNECT (R59). -/

namespace Sys2Proof.Machine

/-! ### What PSEL and the index see of a written record -/

/-- A record's reference is kept, so the index is (R5). -/
theorem State.enter_index_same {s : State} {p : Slot} {r r' : Record} (hr : s.record? p = some r)
    (href : r'.ref = r.ref) : (s.enter p r').ccc.index = s.ccc.index := by
  have hput : (s.put p (.live r')).ccc.index = s.ccc.index :=
    State.put_index_same (by rw [State.record?_eq_some.1 hr]; simp [href])
  exact hput

/-- A record that enters a state other than QUEUED is taken off its tenant's count where it was QUEUED (R82). -/
theorem State.enter_queued_leaving {s : State} {p : Slot} {r r' : Record} (hr : s.record? p = some r)
    (hst : r'.state ≠ .queued) :
    (s.enter p r').psel.queued =
      if r.state = .queued then s.psel.queued.set r.tenant (s.psel.queued[r.tenant] - 1)
      else s.psel.queued := by
  have hput : (s.put p (.live r')).psel.queued =
      if r.state = .queued then s.psel.queued.set r.tenant (s.psel.queued[r.tenant] - 1)
      else s.psel.queued := by
    rw [State.put_psel, Psel.setLeaf_queued, (SlotState.leaf_live_idle hst).2, State.record?_eq_some.1 hr]
    by_cases hq : r.state = .queued <;> simp [SlotState.queuedTenant, hq, Psel.countUp, Psel.countDown]
  exact hput

/-! ### The secondary of a CONNECT (R59) -/

/-- The state with the secondary of a CONNECT, if it is still present, held on its loop. -/
def State.holdSecondary (s : State) (o : Order) : State :=
  match o.secondary with
  | some q => s.holdRecord q
  | none => s

/-- CONNECT DONE holds the secondary and then puts the primary on the headset (R59). -/
theorem State.connectDone_eq (s : State) (p : Slot) (r : Record) (o : Order) :
    s.connectDone p r o = ((s.holdSecondary o).enter p (r.toActive o.reservedLoop)).clearNote := rfl

section HoldSecondary

variable {s : State} {o : Order}

theorem State.holdSecondary_none (h : o.secondary = none) : s.holdSecondary o = s := by
  simp only [State.holdSecondary, h]

theorem State.holdSecondary_some {q : Slot} {v : Record} (h : o.secondary = some q)
    (hv : s.record? q = some v) : s.holdSecondary o = s.enter q v.toHeld := by
  simp only [State.holdSecondary, h, State.holdRecord, hv]

variable (hsec : ∀ q, o.secondary = some q → ∃ v, s.record? q = some v ∧ v.state ≠ .queued)
include hsec

theorem State.slot_holdSecondary (x : Slot) :
    (s.holdSecondary o).slot x =
      if o.secondary = some x then (s.slot x).mapLive Record.toHeld else s.slot x := by
  rcases h : o.secondary with _ | q
  · simp [State.holdSecondary_none h]
  · obtain ⟨v, hv, -⟩ := hsec q h
    rw [State.holdSecondary_some h hv, State.slot_enter]
    by_cases hq : q = x
    · subst hq
      rw [State.record?_eq_some.1 hv]
      simp [SlotState.mapLive]
    · simp [hq]

theorem State.timer_holdSecondary_ne {x : Slot} (hx : o.secondary ≠ some x) :
    (s.holdSecondary o).timer x = s.timer x := by
  rcases h : o.secondary with _ | q
  · rw [State.holdSecondary_none h]
  · obtain ⟨v, hv, -⟩ := hsec q h
    rw [State.holdSecondary_some h hv, State.timer_enter, if_neg fun e => hx (by rw [h, e])]

/-- The hold of a secondary that is not QUEUED writes its slot and its timer (R115). -/
theorem State.holdSecondary_frame (hl : s.LeavesExact) :
    s.holdSecondary o =
      { s with
        ccc.table := (s.holdSecondary o).ccc.table
        tbt.timers := (s.holdSecondary o).tbt.timers } := by
  rcases h : o.secondary with _ | q
  · rw [State.holdSecondary_none h]
  · obtain ⟨v, hv, hst⟩ := hsec q h
    rw [State.holdSecondary_some h hv, State.enter_idle hl hv v.toHeld rfl hst (by simp [Record.toHeld])]

end HoldSecondary

/-- The one record on the headset is the headset record (R24). -/
theorem State.headset_eq_some {s : State} {p : Slot} {r : Record} (hr : s.record? p = some r)
    (hhead : r.onHeadset = true) (halone : ∀ q, q ≠ p → ∀ v, s.record? q = some v → v.onHeadset = false) :
    s.headset = some p := by
  rcases hq : s.headset with _ | q
  · have := find_slots_none.1 hq p
    simp [hr, hhead] at this
  · obtain ⟨v, hv, hv'⟩ := State.headset_some hq
    by_cases hqp : q = p
    · rw [hqp]
    · simp [halone q hqp v hv] at hv'

/-- The end of an order leaves every slot alone but its primary, its secondary and the one it reserved (R58). -/
theorem State.slot_endOrder_same {s : State} {p x : Slot} {o : Order}
    (h : (s.record? p).bind Record.order = some o) (hx : x ≠ p) (h1 : o.secondary ≠ some x)
    (h2 : o.reservedSlot ≠ some x) : (s.endOrder p).slot x = s.slot x := by
  rw [State.slot_endOrder h]
  cases s.slot x <;> simp [SlotState.ended, Ne.symm hx, h1, h2]

/-- The end of an order that has left the order group is not seen by the link (R54). -/
theorem State.endOrder_sli_sent {s : State} {p : Slot} {o : Order}
    (h : (s.record? p).bind Record.order = some o) (hst : o.stage ≠ .awaitingLine) :
    (s.endOrder p).sli = s.sli := by
  rw [State.endOrder_steps h, State.withdraw_sent hst]
  simp

/-! ### CONNECT DONE -/

/-- The CONNECT `o` awaits its confirm on slot `p`, whose record is `r`, and nothing but its secondary is on the
headset (R24, R52). -/
structure State.Connects (s : State) (p : Slot) (r : Record) (o : Order) : Prop where
  tied : s.OrdersTied
  record : s.record? p = some r
  order : r.order = some o
  stage : o.stage = .awaitingConfirm
  claim : s.ccc.claim = some p
  claims : s.ClaimExact
  reservedSlot : o.reservedSlot = none
  secondary : ∀ q, o.secondary = some q → ∃ v, s.record? q = some v ∧ v.lock = some p ∧ v.state = .active
  alone : ∀ q v, s.record? q = some v → v.onHeadset = true → o.secondary = some q

theorem State.Awaits.connects {s : State} {b : List Byte} {p : Slot} {r : Record} {o : Order}
    (h : s.Awaits b p r o) (hs : s.OrdersTied) (hlaw : s.TableLawful) (hk : o.kind = .connect) :
    s.Connects p r o := by
  obtain ⟨-, -, -, -, -, -, horders, -, -, hclaim, -, halone, -⟩ := hlaw
  obtain ⟨⟨-, -, -, -, hslot, -⟩, -⟩ := horders p r h.record o h.order
  obtain ⟨hactive, hsecondary⟩ := halone p r h.record o h.order hk
  refine ⟨hs, h.record, h.order, h.stage,
    (hclaim p).2 ⟨r, h.record, o, h.order, Order.takesClaim_iff.2 (.inl hk)⟩, hclaim, ?_, fun q hq => ?_,
    fun q v hv hhead => hsecondary q v hv hhead⟩
  · exact Option.not_isSome_iff_eq_none.1 fun hc => by simp [hslot.1 hc] at hk
  · obtain ⟨v, hv, hlock, -⟩ := (hs.locks p r h.record).1 o h.order q hq
    exact ⟨v, hv, hlock, hactive q hq v hv⟩

section Connects

variable {s : State} {p : Slot} {r : Record} {o : Order}

theorem State.Connects.pending (h : s.Connects p r o) : (s.record? p).bind Record.order = some o := by
  rw [h.record]; exact h.order

/-- The secondary, as the end of the CONNECT leaves it (R58). -/
theorem State.Connects.secondary_ended (h : s.Connects p r o) {q : Slot} {v : Record}
    (hq : o.secondary = some q) (hv : s.record? q = some v) :
    (s.endOrder p).slot q = .live { v with lock := none } := by
  obtain ⟨v', hv', hlock, -⟩ := h.secondary q hq
  rw [hv] at hv'
  cases hv'
  have hqp : q ≠ p := fun e => h.tied.secondary_ne h.record h.order (e ▸ hq)
  rw [h.tied.slot_endOrder_other hqp hv, if_pos hlock]

theorem State.Connects.secondary_holds (h : s.Connects p r o) (q : Slot) (hq : o.secondary = some q) :
    ∃ v, (s.endOrder p).record? q = some v ∧ v.state ≠ .queued := by
  obtain ⟨v, hv, -, hst⟩ := h.secondary q hq
  exact ⟨_, State.record?_eq_some.2 (h.secondary_ended hq hv), by simp [hst]⟩

end Connects

/-- The state that CONNECT DONE leaves, from the state in which the CONNECT still awaits its confirm. -/
def State.connected (s : State) (p : Slot) (r : Record) (o : Order) : State :=
  (s.endOrder p).connectDone p { r with order := none } o

theorem State.timer_connected (s : State) (p : Slot) (r : Record) (o : Order) (x : Slot) :
    (s.connected p r o).timer x = if p = x then Timer.stopped else ((s.endOrder p).holdSecondary o).timer x :=
  State.timer_enter _ p x _

section Connected

variable {s : State} {p : Slot} {r : Record} {o : Order} (h : s.Connects p r o)
include h

/-- Slot by slot: the primary is ACTIVE, and the secondary held (R59). -/
theorem State.Connects.slot_connected (x : Slot) :
    (s.connected p r o).slot x =
      if p = x then .live (Record.toActive { r with order := none } o.reservedLoop)
      else if o.secondary = some x then ((s.endOrder p).slot x).mapLive Record.toHeld
      else s.slot x := by
  have hslot : (s.connected p r o).slot x = (((s.endOrder p).holdSecondary o).enter p
      (Record.toActive { r with order := none } o.reservedLoop)).slot x := rfl
  rw [hslot, State.slot_enter, State.slot_holdSecondary h.secondary_holds]
  by_cases hp : p = x
  · simp [hp]
  · by_cases hq : o.secondary = some x
    · simp [hq]
    · simp only [if_neg hp, if_neg hq]
      exact State.slot_endOrder_same h.pending (Ne.symm hp) hq (by simp [h.reservedSlot])

theorem State.Connects.secondary_connected {q : Slot} {v : Record} (hq : o.secondary = some q)
    (hv : s.record? q = some v) :
    (s.connected p r o).slot q = .live { v with state := .held, lock := none }
      ∧ (s.connected p r o).timer q = armed .hold (s.profile v.tenant).holdReload := by
  have hqp : p ≠ q := fun e => h.tied.secondary_ne h.record h.order (e ▸ hq)
  have hended := h.secondary_ended hq hv
  rw [h.slot_connected, State.timer_connected, if_neg hqp, if_neg hqp, if_pos hq, hended]
  refine ⟨rfl, ?_⟩
  rw [State.holdSecondary_some hq (State.record?_eq_some.2 hended), State.timer_enter, if_pos rfl]
  exact (timerFor_armed _ rfl).trans (by rw [State.endOrder_profile]; rfl)

theorem State.Connects.other_connected {x : Slot} (hx : x ≠ p) (hq : o.secondary ≠ some x) :
    (s.connected p r o).slot x = s.slot x ∧ (s.connected p r o).timer x = s.timer x := by
  rw [h.slot_connected, State.timer_connected, if_neg (Ne.symm hx), if_neg (Ne.symm hx), if_neg hq,
    State.timer_holdSecondary_ne h.secondary_holds hq]
  simp [State.timer]

/-- The primary is the headset record (R24, R59). -/
theorem State.Connects.headset_connected : (s.connected p r o).headset = some p := by
  have hself : (s.connected p r o).record? p =
      some (Record.toActive { r with order := none } o.reservedLoop) := by
    rw [State.record?_eq_some, h.slot_connected, if_pos rfl]
  refine State.headset_eq_some hself rfl fun q hq v hv => ?_
  by_cases hsec : o.secondary = some q
  · obtain ⟨u, hu, -⟩ := h.secondary q hsec
    rw [State.record?_eq_some, (h.secondary_connected hsec hu).1] at hv
    cases hv
    rfl
  · rw [State.record?_eq_some, (h.other_connected hq hsec).1, ← State.record?_eq_some] at hv
    cases hhead : v.onHeadset
    · rfl
    · exact absurd (h.alone q v hv hhead) hsec

/-- Every leaf is as it was: a pending order keeps its primary out of the contest (R78). -/
theorem State.Connects.leaves_connected : (s.connected p r o).psel.leaves = s.psel.leaves := by
  have hexact : (s.connected p r o).LeavesExact := by
    have hended := State.endOrder_leavesExact h.tied.leaves p
    have hheld : ((s.endOrder p).holdSecondary o).LeavesExact := by
      rcases hq : o.secondary with _ | q
      · rw [State.holdSecondary_none hq]
        exact hended
      · obtain ⟨v, hv, -⟩ := h.secondary_holds q hq
        rw [State.holdSecondary_some hq hv]
        exact State.enter_leavesExact hended q _
    exact State.enter_leavesExact hheld p _
  refine Vector.ext fun i hi => ?_
  refine (hexact ⟨i, hi⟩).trans (Eq.trans ?_ (h.tied.leaves ⟨i, hi⟩).symm)
  generalize (⟨i, hi⟩ : Slot) = x
  by_cases hx : x = p
  · subst hx
    rw [h.slot_connected, if_pos rfl, State.record?_eq_some.1 h.record]
    simp [SlotState.leaf, Record.toActive, h.order]
  · by_cases hq : o.secondary = some x
    · obtain ⟨v, hv, -, hst⟩ := h.secondary x hq
      rw [(h.secondary_connected hq hv).1, State.record?_eq_some.1 hv]
      simp [SlotState.leaf, hst]
    · rw [(h.other_connected hx hq).1]

/-- What CONNECT DONE leaves alone (R59). -/
theorem State.Connects.connected_frame :
    s.connected p r o =
      { s with
        ccc.table := (s.connected p r o).ccc.table, ccc.claim := none, ccc.note := none
        psel.nodes := (s.connected p r o).psel.nodes
        psel.queued :=
          if r.state = .queued then s.psel.queued.set r.tenant (s.psel.queued[r.tenant] - 1)
          else s.psel.queued
        tbt.timers := (s.connected p r o).tbt.timers } := by
  have hframe := State.holdSecondary_frame h.secondary_holds (State.endOrder_leavesExact h.tied.leaves p)
  have hrecord : ((s.endOrder p).holdSecondary o).record? p = some { r with order := none } := by
    have hended := State.record?_endOrder_self h.tied h.record h.order
    rw [State.record?_eq_some] at hended ⊢
    rw [State.slot_holdSecondary h.secondary_holds, if_neg (h.tied.secondary_ne h.record h.order), hended]
  have hindex : (s.connected p r o).ccc.index = s.ccc.index := by
    refine (State.enter_index_same hrecord rfl).trans ?_
    rw [hframe]
    exact State.endOrder_index s p
  have hqueued : (s.connected p r o).psel.queued =
      if r.state = .queued then s.psel.queued.set r.tenant (s.psel.queued[r.tenant] - 1)
      else s.psel.queued := by
    refine (State.enter_queued_leaving hrecord (by simp [Record.toActive])).trans ?_
    rw [hframe]
    simp only [State.endOrder_queued]
  have hclaim : (s.connected p r o).ccc.claim = none := by
    have hkeep : (s.connected p r o).ccc.claim = ((s.endOrder p).holdSecondary o).ccc.claim := by
      simp [State.connected, State.connectDone_eq]
    rw [hkeep, hframe]
    exact h.claims.endOrder_claim.trans (if_pos h.claim)
  have hleaves := h.leaves_connected
  have hsli := State.endOrder_sli_sent h.pending (by simp [h.stage])
  have hconnected : s.connected p r o = (((s.endOrder p).holdSecondary o).enter p
      (Record.toActive { r with order := none } o.reservedLoop)).clearNote := rfl
  simp only [State.eq_iff, Ccc.eq_iff, Psel.eq_iff, Tbt.eq_iff, hindex, hqueued, hclaim, hleaves, true_and,
    and_true]
  rw [hconnected, hframe]
  simp [hsli]

end Connected

/-- Settles O40: the CONNECT ends, its secondary is held, and its primary becomes ACTIVE. -/
theorem connectDoneTakesTheHeadset : Obligations.ConnectDoneTakesTheHeadset := by
  intro s b rest p r o hlaw hw hk hv
  let s0 : State := { s with sli.inbound := rest }
  have hs := (State.ordersTied_of_lawful hlaw).congr (t := s0) rfl rfl rfl
  have hc : s0.Connects p r o := hw.awaits.2.connects hs hlaw.1 hk
  refine handsOn_confirm_valid hlaw hw (v := .done) (by rw [hv]; rfl) (by rw [hk]; rfl) ?_
  simp only [State.commit, hk]
  refine ⟨?_, hc.headset_connected, fun q hq v hv => hc.secondary_connected hq hv,
    (State.timer_connected s0 p r o p).trans (if_pos rfl), fun x hx hq => hc.other_connected hx hq, hc.leaves_connected,
    hc.connected_frame⟩
  exact (hc.slot_connected p).trans (if_pos rfl)

end Sys2Proof.Machine
end

