-- ==== Sys2Proof/Proofs/ConfirmFaults.lean ====
section
/-! PROOFS. The entry to resync from a state in which an order has just ended or been cancelled (R66, R68), and
the confirms that raise a fault (R56, R57, R63). -/

namespace Sys2Proof.Machine

/-! ### The cancellation of every order, begun with one of them (R66) -/

/-- What the cancellation of one order leaves alone (R66, R67). -/
theorem State.cancelOrder_frame (s : State) (p : Slot) :
    s.cancelOrder p =
      { s with
        ccc.table := (s.cancelOrder p).ccc.table
        ccc.claim := (s.cancelOrder p).ccc.claim
        psel.leaves := (s.cancelOrder p).psel.leaves
        psel.nodes := (s.cancelOrder p).psel.nodes
        tbt.timers := (s.cancelOrder p).tbt.timers
        sli.orders := (s.cancelOrder p).sli.orders } := by
  simp [State.eq_iff, Ccc.eq_iff, Psel.eq_iff, Tbt.eq_iff, Sli.eq_iff, State.cancelOrder_index,
    State.cancelOrder_queued]

section CancelledOn

variable {s t : State} {done : Finset Slot} (hs : s.OrdersTied) (h : s.CancelledOn t done)
  (hl : t.LeavesExact)
  (hframe : t = { s with
    ccc.table := t.ccc.table, ccc.claim := t.ccc.claim, psel.leaves := t.psel.leaves
    psel.nodes := t.psel.nodes, tbt.timers := t.tbt.timers, sli.orders := t.sli.orders })
include hs h hl hframe

/-- Cancelling every order after some of them cancels every order (R66). -/
theorem State.CancelledOn.cancels : s.CancelsAll t.cancelAll id := by
  have hall : s.CancelledOn t.cancelAll Finset.univ := by
    have hfold := State.CancelledOn.foldl hs slots h
    have huniv : done ∪ slots.toFinset = Finset.univ := by ext; simp
    rw [huniv] at hfold
    rw [State.cancelAll_eq]
    generalize slots.foldl State.cancelOrder t = u at hfold ⊢
    exact ⟨hfold.slot, hfold.timer, hfold.orders⟩
  refine ⟨fun p r hr => ?_, fun p hr => ?_, fun p => by simp [hall.timer],
    State.cancelAll_leavesExact hl, ?_⟩
  · rw [hall.slot, State.record?_eq_some.1 hr]
    simp [SlotState.cancelled]
  · rw [hall.slot]
    cases hp : s.slot p with
    | free => rfl
    | reserved w => simp [SlotState.cancelled]
    | live r => simp [State.record?, hp] at hr
  · have horders : t.cancelAll.sli.orders = [] := by simp [hall.orders]
    have htwice : t.cancelAll =
        { t with
          ccc.table := t.cancelAll.ccc.table, ccc.claim := none, psel.leaves := t.cancelAll.psel.leaves
          psel.nodes := t.cancelAll.psel.nodes, tbt.timers := t.cancelAll.tbt.timers, sli.orders := [] } := by
      simp [State.eq_iff, Ccc.eq_iff, Psel.eq_iff, Tbt.eq_iff, Sli.eq_iff, State.cancelAll_index,
        State.cancelAll_queued, State.cancelAll_claim, horders]
    have hres : t.cancelAll.ccc.resync = t.ccc.resync := State.cancelAll_ccc_resync t
    have haudit : t.cancelAll.sli.auditNotice = t.sli.auditNotice := State.cancelAll_sli_auditNotice t
    rw [hres, haudit]
    generalize t.cancelAll = u at htwice ⊢
    rw [htwice, hframe]

/-- The entry to resync after some orders have been cancelled is an entry to resync (R176). -/
theorem State.CancelledOn.enters (hres : s.ccc.resync = false) : s.EntersResync t.enterResync := by
  have hres' : t.ccc.resync = false := by rw [hframe]; exact hres
  have hcancels := State.CancelsAll.clearMarks (State.CancelledOn.cancels
    (s := { s with ccc.resync := true }) (t := { t with ccc.resync := true }) (done := done)
    ⟨hs.group, hs.locks, hs.reserved, hs.leaves⟩ ⟨h.slot, h.timer, h.orders⟩ hl
    (congrArg (fun u : State => { u with ccc.resync := true }) hframe))
  refine ⟨?_, State.enterResync_sets hres'⟩
  rw [State.enterResync_eq hres']
  generalize (State.cancelAll { t with ccc.resync := true }).clearMarks = u at hcancels ⊢
  obtain ⟨hlive, hdead, htimer, hleaves, hkept⟩ := hcancels
  exact ⟨hlive, hdead, htimer, hleaves,
    congrArg (fun u : State => { u with sli.auditNotice := true }) hkept⟩

end CancelledOn

/-- An ORDER-FAULT raised where one order has just been cancelled leaves what it leaves where none has (R66,
R68). -/
theorem State.cancelOrder_orderFault {s : State} (hs : s.OrdersTied) (hres : s.ccc.resync = false) {p : Slot}
    {o : Order} (ho : (s.record? p).bind Record.order = some o) (k : OrderFault) (ref : Word) :
    State.EntersResync { s with sli.orderNotice := some (k, ref) } ((s.cancelOrder p).orderFault k ref) := by
  have hon := (State.CancelledOn.refl s).insert_pending hs (by simp) ho
  exact State.CancelledOn.enters (s := { s with sli.orderNotice := some (k, ref) })
    (t := (s.cancelOrder p).orderNotice k ref) (done := insert p ∅)
    ⟨hs.group, hs.locks, hs.reserved, hs.leaves⟩ ⟨hon.slot, hon.timer, hon.orders⟩
    (State.cancelOrder_leavesExact hs.leaves p)
    (congrArg (fun u : State => { u with sli.orderNotice := some (k, ref) }) (State.cancelOrder_frame s p)) hres

/-- A cancelled order that is neither a RECALL nor a DIVERT leaves nothing owed (R67). -/
theorem State.cancelOrder_eq_endOrder {s : State} {p : Slot} {o : Order}
    (ho : (s.record? p).bind Record.order = some o) (h1 : o.kind ≠ .recall) (h2 : o.kind ≠ .divert) :
    s.cancelOrder p = s.endOrder p := by
  have howes : o.kind.owes = none := by cases hk : o.kind <;> simp_all [OrderKind.owes]
  simp only [State.cancelOrder, ho, howes]

/-! ### The laws about orders where an order has ended (R58) -/

/-- Where an order that holds nothing but itself has ended, every law about orders holds (R58). -/
theorem State.EndsPlainly.ordersTied_set {s : State} {p : Slot} {r r' : Record} {o : Order}
    (h : s.EndsPlainly p r o) (ho : r'.order = none) (hlock : r'.lock = r.lock) (hst : r'.state ≠ .queued) :
    State.OrdersTied { s with ccc.table := s.ccc.table.set p (.live r') } := by
  set t : State := { s with ccc.table := s.ccc.table.set p (.live r') } with ht
  have hslot : ∀ q, t.slot q = if p = q then .live r' else s.slot q := fun q => State.slot_set s p q _
  have hself : t.record? p = some r' := by rw [State.record?_eq_some, hslot, if_pos rfl]
  have hother : ∀ q, q ≠ p → t.record? q = s.record? q := fun q hq => by
    unfold State.record?
    rw [hslot, if_neg (Ne.symm hq)]
  have hlocked : r'.lock = none := hlock.trans (h.tied.lock_none h.record h.order)
  have hpending : ∀ q u w, s.record? q = some u → u.order = some w → w ≠ o → q ≠ p := by
    rintro q u w hu hw hne rfl
    rw [h.record] at hu
    cases hu
    rw [h.order] at hw
    exact hne (Option.some.inj hw).symm
  have hwaiting : ∀ q u w, s.record? q = some u → u.order = some w → w.stage = .awaitingLine → q ≠ p :=
    fun q u w hu hw hline => hpending q u w hu hw fun e => by simp [e, h.stage] at hline
  refine ⟨⟨h.tied.group.1, fun q hq => ?_, fun q u hu w hw hline => ?_⟩, fun q u hu => ?_,
    ⟨fun f q hf => ?_, fun q u hu w hw f hf => ?_⟩, ?_⟩
  · obtain ⟨u, hu, w, hw, hline⟩ := h.tied.group.2.1 q hq
    exact ⟨u, (hother q (hwaiting q u w hu hw hline)).trans hu, w, hw, hline⟩
  · by_cases hq : q = p
    · subst hq
      rw [Option.mem_def, hself] at hu
      cases hu
      simp [ho] at hw
    · exact h.tied.group.2.2 q u ((hother q hq).symm.trans hu) w hw hline
  · by_cases hq : q = p
    · subst hq
      rw [Option.mem_def, hself] at hu
      cases hu
      exact ⟨fun w hw => by simp [ho] at hw, fun w hw => by simp [hlocked] at hw⟩
    · have hu' : s.record? q = some u := (hother q hq).symm.trans hu
      obtain ⟨hsec, hlocks⟩ := h.tied.locks q u hu'
      refine ⟨fun w hw x hx => ?_, fun x hx => ?_⟩
      · obtain ⟨v, hv, hvlock, hvorder⟩ := hsec w hw x hx
        have hxp : x ≠ p := by
          rintro rfl
          rw [Option.mem_def, h.record] at hv
          cases hv
          simp [h.order] at hvorder
        exact ⟨v, (hother x hxp).trans hv, hvlock, hvorder⟩
      · obtain ⟨hnone, v, hv, w, hw, hwsec⟩ := hlocks x hx
        have hxp : x ≠ p := hpending x v w hv hw fun e => by simp [e, h.secondary] at hwsec
        exact ⟨hnone, v, (hother x hxp).trans hv, w, hw, hwsec⟩
  · rw [hslot] at hf
    split at hf
    · cases hf
    · obtain ⟨u, hu, w, hw, hres⟩ := h.tied.reserved.1 f q hf
      have hqp : q ≠ p := hpending q u w hu hw fun e => by simp [e, h.reservedSlot] at hres
      exact ⟨u, (hother q hqp).trans hu, w, hw, hres⟩
  · by_cases hq : q = p
    · subst hq
      rw [Option.mem_def, hself] at hu
      cases hu
      simp [ho] at hw
    · have hres := h.tied.reserved.2 q u ((hother q hq).symm.trans hu) w hw f hf
      have hfp : p ≠ f := by
        rintro rfl
        rw [State.record?_eq_some.1 h.record] at hres
        cases hres
      rw [hslot, if_neg hfp]
      exact hres
  · intro q
    rw [hslot, ht, h.tied.leaves q]
    split
    · next hq =>
      subst hq
      rw [State.record?_eq_some.1 h.record, (SlotState.leaf_live_idle h.state).1,
        (SlotState.leaf_live_idle hst).1]
    · rfl

/-- An ORDER-FAULT raised where such an order has ended and its primary's record and timer have been settled. -/
theorem State.EndsPlainly.orderFault_enters {s : State} {p : Slot} {r r' : Record} {o : Order}
    (h : s.EndsPlainly p r o) (hres : s.ccc.resync = false) (ho : r'.order = none) (hlock : r'.lock = r.lock)
    (hst : r'.state ≠ .queued) (m : Timer) (k : OrderFault) (ref : Word) :
    State.EntersResync
      { s with
        sli.orderNotice := some (k, ref), ccc.table := s.ccc.table.set p (.live r')
        tbt.timers := s.tbt.timers.set p m }
      (State.orderFault
        { s with ccc.table := s.ccc.table.set p (.live r'), tbt.timers := s.tbt.timers.set p m } k ref) := by
  have hs : State.OrdersTied
      { s with ccc.table := s.ccc.table.set p (.live r'), tbt.timers := s.tbt.timers.set p m } :=
    (h.ordersTied_set ho hlock hst).congr rfl rfl rfl
  exact (State.orderFault_faults hs k ref).2 hres

/-! ### Outcomes (R56, R57) -/

/-- The five codes of an outcome (R174). -/
theorem verdictOfCode_eq_some {c : Byte} {v : Verdict} :
    verdictOfCode c = some v ↔
      (c = 0x01 ∧ v = .done) ∨ (c = 0x02 ∧ v = .ringing) ∨ (c = 0x03 ∧ v = .busy)
        ∨ (c = 0x04 ∧ v = .invalid) ∨ (c = 0x05 ∧ v = .refused) := by
  unfold verdictOfCode
  split_ifs with h1 h2 h3 h4 h5
  · simp [h1, eq_comm]
  · simp [h2, eq_comm]
  · simp [h3, eq_comm]
  · simp [h4, eq_comm]
  · simp [h5, eq_comm]
  · refine iff_of_false (by simp) ?_
    rintro (⟨h, -⟩ | ⟨h, -⟩ | ⟨h, -⟩ | ⟨h, -⟩ | ⟨h, -⟩)
    exacts [h1 h, h2 h, h3 h, h4 h, h5 h]

/-- Which outcomes are valid for an order of a kind (R57). -/
theorem validVerdict_iff {k : OrderKind} {v : Verdict} {ref : Word} :
    validVerdict k v ref = true ↔
      (v = .done → k ≠ .extend ∧ (k = .dial → ref ≠ 0)) ∧ (v = .ringing → k = .extend)
        ∧ (v = .busy ∨ v = .invalid → k = .extend ∨ k = .dial) := by
  cases v <;> cases k <;> simp [validVerdict]

/-- A timer that is spent, field by field (R113). -/
theorem Timer.isSpent_iff {m : Timer} :
    m.isSpent = true ↔ m.kind.isSome ∧ m.remaining = 0 ∧ m.waiting = false ∧ m.reported = false := by
  simp [Timer.isSpent, and_assoc]

/-! ### The confirms that raise a fault (R56, R57) -/

section Faults

variable {s : State} {b : List Byte} {p : Slot} {r : Record}

/-- A CONFIRM while the position is frozen or in resync is ignored (R56). -/
theorem State.takeConfirm_held (hlook : s.lookup (refOf b) = some p) (hr : s.record? p = some r)
    (hheld : s.isHeld = true) : s.takeConfirm b = s := by
  simp only [State.takeConfirm, State.onKnown_live hlook hr, hheld]
  rfl

/-- A CONFIRM that matches no order awaiting it is LATE (R56). -/
theorem State.takeConfirm_late (hlook : s.lookup (refOf b) = some p) (hr : s.record? p = some r)
    (hheld : s.isHeld = false)
    (hnone : ∀ o ∈ r.order, o.kind.code ≠ byteAt b 4 ∨ o.stage ≠ .awaitingConfirm) :
    s.takeConfirm b = s.orderFault .late (refOf b) := by
  have hfilter : r.order.filter (fun o => o.answers (readConfirm b).kind) = none :=
    Option.filter_eq_none_iff.2 fun o ho => by
      rcases hnone o ho with h | h <;> simp [Order.answers, readConfirm, h]
  simp only [State.takeConfirm, State.onKnown_live hlook hr, hheld, hfilter]
  rfl

/-- REFUSED has no effect of its own on an order that is neither a RECALL nor a DIVERT (R58). -/
theorem State.refusedOutcome_other (s : State) (p : Slot) (r : Record) {o : Order} (h1 : o.kind ≠ .recall)
    (h2 : o.kind ≠ .divert) (mayReplace : Bool) : s.refusedOutcome p r o mayReplace = s := by
  cases hk : o.kind <;> simp_all [State.refusedOutcome]

/-- The end of an order leaves the index, and so what a reference names (R5). -/
theorem State.lookup_endOrder (s : State) (p : Slot) (ref : Word) : (s.endOrder p).lookup ref = s.lookup ref := by
  unfold State.lookup
  rw [State.endOrder_index]

end Faults

section Unfitting

variable {s : State} {b : List Byte} {rest : List (List Byte)} {p : Slot} {r : Record} {o : Order}
  (hlaw : s.Lawful) (hw : s.ConfirmWaits b rest p r o)
include hlaw hw

/-- A fault raised once the order has ended, where that leaves nothing owed, is the fault alone (R58, R68). -/
theorem State.ConfirmWaits.endOrder_faults (h1 : o.kind ≠ .recall) (h2 : o.kind ≠ .divert) (k : OrderFault)
    (ref : Word) :
    State.EntersResync { s with sli.inbound := rest, sli.orderNotice := some (k, ref) }
      ((State.endOrder { s with sli.inbound := rest } p).orderFault k ref) := by
  have hs := (State.ordersTied_of_lawful hlaw).congr (t := { s with sli.inbound := rest }) rfl rfl rfl
  have ha := hw.awaits.2
  obtain ⟨-, -, -, -, -, -, -, hres⟩ := hw
  rw [← State.cancelOrder_eq_endOrder ha.pending h1 h2]
  exact State.cancelOrder_orderFault hs hres ha.pending k ref

/-- An outcome not valid for an order that is neither a RECALL nor a DIVERT is a MISMATCH (R57). -/
theorem State.ConfirmWaits.mismatch (h1 : o.kind ≠ .recall) (h2 : o.kind ≠ .divert)
    (hv : ∀ v, verdictOfCode (byteAt b 5) = some v → validVerdict o.kind v (wordAt b 6) = false) :
    HandsOn .confirm s
      (State.EntersResync { s with sli.inbound := rest, sli.orderNotice := some (.mismatch, refOf b) }) := by
  refine handsOn_confirm_invalid hlaw hw hv ?_
  rw [State.refusedOutcome_other _ _ _ h1 h2]
  exact State.ConfirmWaits.endOrder_faults hlaw hw h1 h2 .mismatch (refOf b)

/-- An outcome not valid for a RECALL or DIVERT is a MISMATCH too, on the state that REFUSED leaves (R57). -/
theorem State.ConfirmWaits.mismatch_settled (hk : o.kind = .recall ∨ o.kind = .divert)
    (hv1 : byteAt b 5 ≠ 0x01) (hv5 : byteAt b 5 ≠ 0x05) {r' : Record} {m : Timer} (hlock : r'.lock = r.lock)
    (hstate : r'.state = r.state)
    (hsettled : (State.endOrder { s with sli.inbound := rest } p).refusedOutcome p { r with order := none } o
        false =
      { s with
        sli.inbound := rest
        ccc.table := s.ccc.table.set p (.live { r' with order := none })
        tbt.timers := s.tbt.timers.set p m }) :
    HandsOn .confirm s
      (State.EntersResync
        { s with
          sli.inbound := rest, sli.orderNotice := some (.mismatch, refOf b)
          ccc.table := s.ccc.table.set p (.live { r' with order := none })
          tbt.timers := s.tbt.timers.set p m }) := by
  have hplain := State.ConfirmWaits.endsPlainly hlaw hw (by rcases hk with hk | hk <;> simp [hk])
  refine handsOn_confirm_invalid hlaw hw (fun v hv => ?_) ?_
  · rw [← Bool.not_eq_true, validVerdict_iff]
    rcases verdictOfCode_eq_some.1 hv with ⟨hc, rfl⟩ | ⟨hc, rfl⟩ | ⟨hc, rfl⟩ | ⟨hc, rfl⟩ | ⟨hc, rfl⟩
    · exact absurd hc hv1
    · rcases hk with hk | hk <;> simp [hk]
    · rcases hk with hk | hk <;> simp [hk]
    · rcases hk with hk | hk <;> simp [hk]
    · exact absurd hc hv5
  · obtain ⟨-, -, -, -, -, -, -, hres⟩ := hw
    rw [hsettled]
    exact hplain.orderFault_enters hres (r' := { r' with order := none }) rfl hlock (hstate ▸ hplain.state)
      m .mismatch (refOf b)

end Unfitting

/-- Settles O45: a CONFIRM that fits no order raises its fault on the state as it is, and one that answers an
order on the state in which that order has ended; the entry to resync cancels the rest. -/
theorem unfittingConfirmsRaiseFaults : Obligations.UnfittingConfirmsRaiseFaults := by
  intro s b rest p r hlaw hm hlook hr faulted
  let s0 : State := { s with sli.inbound := rest }
  have hs : s0.OrdersTied := (State.ordersTied_of_lawful hlaw).congr rfl rfl rfl
  refine ⟨fun hheld => handsOn_of (exec_confirm_eq s) hm ?_, fun hlink hres =>
    ⟨fun hlate => handsOn_of (exec_confirm_eq s) hm ?_, fun o ho hcode hst => ?_⟩⟩
  · exact State.takeConfirm_held (s := s0) hlook hr (State.isHeld_iff.2 hheld)
  · rw [State.takeConfirm_late (s := s0) hlook hr (State.isHeld_eq_false hlink hres) hlate]
    exact (State.orderFault_faults hs .late (refOf b)).2 hres
  · have hw : s.ConfirmWaits b rest p r o := ⟨hm, hlook, hr, ho, hst, hcode.symm, hlink, hres⟩
    refine ⟨fun hk hv href hknown => ?_, fun hk hv href => ?_, fun h1 h2 hv => ?_, fun hv1 hv5 => ?_⟩
    · have hvalid : validVerdict o.kind .done (wordAt b 6) = true :=
        validVerdict_iff.2 ⟨fun _ => ⟨by simp [hk], fun _ => href⟩, by simp, by simp⟩
      have hknown' : ((s0.endOrder p).lookup (wordAt b 6)).isSome := by
        rw [State.lookup_endOrder]
        exact hknown
      refine handsOn_confirm_valid hlaw hw (v := .done) (by rw [hv]; rfl) hvalid ?_
      simp only [State.commit, hk]
      rw [if_pos hknown']
      exact State.ConfirmWaits.endOrder_faults hlaw hw (by simp [hk]) (by simp [hk]) .duplicateRef (wordAt b 6)
    · refine State.ConfirmWaits.mismatch hlaw hw (by simp [hk]) (by simp [hk]) fun v hv' => ?_
      have hdone : v = .done := by simpa [verdictOfCode_eq_some, hv] using hv'
      rw [← Bool.not_eq_true, validVerdict_iff]
      simp [hdone, hk, href]
    · refine State.ConfirmWaits.mismatch hlaw hw h1 h2 fun v hv' => ?_
      rw [← Bool.not_eq_true, validVerdict_iff]
      rcases verdictOfCode_eq_some.1 hv' with ⟨hc, rfl⟩ | ⟨hc, rfl⟩ | ⟨hc, rfl⟩ | ⟨hc, rfl⟩ | ⟨hc, rfl⟩ <;>
        simp [hc] at hv ⊢ <;> tauto
    · intro m spent ends
      have hself : s.tbt.timers.set p m = s.tbt.timers := Vector.set_getElem_self p.isLt
      have hplain := fun hk => State.ConfirmWaits.endsPlainly hlaw hw hk
      refine ⟨fun hk => ⟨fun hcond k hkind => ?_, fun hne hspent => ?_⟩,
        fun hk => ⟨fun hheld => ?_, fun hheld => ?_⟩⟩
      · refine State.ConfirmWaits.mismatch_settled hlaw hw (.inl hk) hv1 hv5 rfl rfl ?_
        simp only [State.refusedOutcome, hk]
        exact (hplain (by simp [hk])).recallRefused_arms hkind (hcond.imp_right Timer.isSpent_iff.2)
      · have hspent' : (s.timer p).isSpent = false := Bool.not_eq_true _ ▸ mt Timer.isSpent_iff.1 hspent
        refine State.ConfirmWaits.mismatch_settled hlaw hw (.inl hk) hv1 hv5 rfl rfl ?_
        rw [hself]
        simp only [State.refusedOutcome, hk]
        exact (hplain (by simp [hk])).recallRefused_keeps hne hspent'
      · refine State.ConfirmWaits.mismatch_settled hlaw hw (.inr hk) hv1 hv5 rfl rfl ?_
        rw [hself]
        simp only [State.refusedOutcome, hk]
        exact (hplain (by simp [hk])).divertRefused_held hheld false
      · refine State.ConfirmWaits.mismatch_settled hlaw hw (.inr hk) hv1 hv5 rfl rfl ?_
        simp only [State.refusedOutcome, hk]
        exact (hplain (by simp [hk])).divertRefused_owes hheld rfl

end Sys2Proof.Machine
end

