-- ==== Sys2Proof/Proofs/ConfirmTimers.lean ====
section
/-! PROOFS. The confirm timers' beat and their timeouts (R55, R112). -/

namespace Sys2Proof.Machine

/-! ### One beat of the confirm timers (R112) -/

/-- The record after a beat of its order's confirm timer. -/
def Record.ticked (r : Record) : Record := { r with order := r.order.map Order.tickDown }

/-- An order whose timer runs exactly while it awaits its confirm counts it down, and any other is as it was. -/
theorem Order.tickDown_eq {o : Order} (h : o.stage = .awaitingConfirm ↔ o.confirmTimer.isSome) :
    o.tickDown = { o with confirmTimer := o.confirmTimer.map fun n => n - 1 } := by
  unfold Order.tickDown
  split
  · rfl
  · next hst =>
    have hnone : o.confirmTimer = none := Option.not_isSome_iff_eq_none.1 (mt h.2 hst)
    simp [hnone]
    rw [← hnone]

/-- The confirm timer of a slot, by the order pending on it. -/
theorem State.confirmTimer_eq {s : State} {p : Slot} {o : Order}
    (ho : (s.record? p).bind Record.order = some o)
    (h : o.stage = .awaitingConfirm ↔ o.confirmTimer.isSome) : s.confirmTimer p = o.confirmTimer := by
  simp only [State.confirmTimer, ho, Option.bind_some]
  split
  · rfl
  · next hst => exact (Option.not_isSome_iff_eq_none.1 (mt h.2 hst)).symm

theorem State.confirmTimer_none {s : State} {p : Slot} (h : (s.record? p).bind Record.order = none) :
    s.confirmTimer p = none := by simp only [State.confirmTimer, h, Option.bind_none]

/-- A beat of one timer changes its slot's record, if at all, as `Record.ticked` says. -/
theorem State.slot_tickConfirm (s : State) (p q : Slot) :
    (s.tickConfirm p).slot q = if p = q then (s.slot q).mapLive Record.ticked else s.slot q := by
  unfold State.tickConfirm
  split
  · exact State.slot_update s p q Record.ticked
  · next hidle =>
    split
    · next hq =>
      subst hq
      cases hslot : s.slot p with
      | free => rfl
      | reserved w => rfl
      | live r =>
        have hsame : r.order.map Order.tickDown = r.order := by
          rcases ho : r.order with _ | o
          · rfl
          · have hpending : (s.record? p).bind Record.order = some o := by
              rw [State.record?_eq_some.2 hslot]; exact ho
            simp only [State.confirmTimer, hpending, Option.bind_some, Option.not_isSome_iff_eq_none] at hidle
            simp only [Option.map_some, Order.tickDown]
            split
            · next hst =>
              rw [if_pos hst] at hidle
              rw [hidle, Option.map_none, ← hidle]
            · rfl
        simp [SlotState.mapLive, Record.ticked, hsame]
    · rfl

/-- A beat of one timer is seen by the table alone (R112). -/
theorem State.tickConfirm_frame {s : State} (hl : s.LeavesExact) (p : Slot) :
    s.tickConfirm p = { s with ccc.table := (s.tickConfirm p).ccc.table } := by
  unfold State.tickConfirm
  split
  · have hpsel : (s.update p fun r => { r with order := r.order.map Order.tickDown }).psel = s.psel :=
      State.update_psel_same hl fun r _ => ⟨rfl, rfl, rfl, by simp⟩
    have hindex : (s.update p fun r => { r with order := r.order.map Order.tickDown }).ccc.index =
        s.ccc.index := State.update_index_same fun _ => rfl
    simp [State.eq_iff, Ccc.eq_iff, hpsel, hindex]
  · rfl

theorem State.tickConfirm_leavesExact {s : State} (hl : s.LeavesExact) (p : Slot) :
    (s.tickConfirm p).LeavesExact := by
  unfold State.tickConfirm
  split
  · exact State.update_leavesExact hl p _
  · exact hl

/-! ### A beat of some of the timers -/

/-- `t` is `s` after a beat of the confirm timers of the slots for which `f` holds. -/
structure State.Ticks (s t : State) (f : Slot → Prop) : Prop where
  slot : ∀ q, (f q → t.slot q = (s.slot q).mapLive Record.ticked) ∧ (¬ f q → t.slot q = s.slot q)
  leaves : t.LeavesExact
  frame : t = { s with ccc.table := t.ccc.table }

theorem State.tickConfirm_ticks {s : State} (hl : s.LeavesExact) (p : Slot) :
    s.Ticks (s.tickConfirm p) (p = ·) where
  slot q := ⟨fun h => by rw [State.slot_tickConfirm, if_pos h],
    fun h => by rw [State.slot_tickConfirm, if_neg h]⟩
  leaves := State.tickConfirm_leavesExact hl p
  frame := State.tickConfirm_frame hl p

/-- A beat of the timers of a list of distinct slots. -/
theorem State.foldl_tickConfirm_ticks (l : List Slot) (hl : l.Nodup) :
    ∀ {s : State}, s.LeavesExact → s.Ticks (l.foldl State.tickConfirm s) (· ∈ l) := by
  induction l with
  | nil => exact fun h => ⟨fun q => by simp, h, rfl⟩
  | cons p l ih =>
    intro s hs
    obtain ⟨hp, hl⟩ := List.nodup_cons.1 hl
    obtain ⟨hslot, hleaves, hframe⟩ := ih hl (State.tickConfirm_leavesExact hs p)
    rw [List.foldl_cons]
    refine ⟨fun q => ⟨fun hq => ?_, fun hq => ?_⟩, hleaves, ?_⟩
    · rcases List.mem_cons.1 hq with rfl | hq
      · rw [(hslot q).2 hp, State.slot_tickConfirm, if_pos rfl]
      · have hne : p ≠ q := fun e => hp (e ▸ hq)
        rw [(hslot q).1 hq, State.slot_tickConfirm, if_neg hne]
    · obtain ⟨hne, hq⟩ := not_or.1 (mt List.mem_cons.2 hq)
      rw [(hslot q).2 hq, State.slot_tickConfirm, if_neg (Ne.symm hne)]
    · have hone := State.tickConfirm_frame hs p
      generalize l.foldl State.tickConfirm (s.tickConfirm p) = t at hframe ⊢
      rw [hframe, hone]

/-- The beat of every timer (R112). -/
theorem State.beat_ticks {s : State} (hl : s.LeavesExact) :
    s.Ticks (slots.foldl State.tickConfirm s) fun _ => True := by
  obtain ⟨hslot, hleaves, hframe⟩ := State.foldl_tickConfirm_ticks slots slots_nodup hl
  exact ⟨fun q => ⟨fun _ => (hslot q).1 (mem_slots q), fun h => absurd trivial h⟩, hleaves, hframe⟩

/-! ### States that differ in confirm timers only -/

/-- The order without its confirm timer. -/
def Order.untimed (o : Order) : Order := { o with confirmTimer := none }

/-- The record with its order's confirm timer left out. -/
def Record.untimed (r : Record) : Record := { r with order := r.order.map Order.untimed }

/-- `t` is `s` but for the confirm timers of its orders. -/
structure State.SameUntimed (s t : State) : Prop where
  slot : ∀ q, (t.slot q).mapLive Record.untimed = (s.slot q).mapLive Record.untimed
  leaves : t.LeavesExact
  frame : t = { s with ccc.table := t.ccc.table }

theorem Order.tickDown_untimed (o : Order) : o.tickDown.untimed = o.untimed := by
  unfold Order.tickDown
  split <;> rfl

theorem Record.ticked_untimed (r : Record) : r.ticked.untimed = r.untimed := by
  unfold Record.ticked Record.untimed
  rw [Option.map_map]
  simp only [Function.comp_def, Order.tickDown_untimed]

theorem State.Ticks.sameUntimed {s t : State} {f : Slot → Prop} (h : s.Ticks t f) : s.SameUntimed t where
  slot q := by
    by_cases hq : f q
    · rw [(h.slot q).1 hq]
      cases s.slot q with
      | free => rfl
      | reserved w => rfl
      | live r => exact congrArg SlotState.live (Record.ticked_untimed r)
    · rw [(h.slot q).2 hq]
  leaves := h.leaves
  frame := h.frame

section Untimed

/-- Records that agree but for the timer have the same orders but for the timer. -/
theorem Record.untimed_order {r r' : Record} (h : r'.untimed = r.untimed) {o : Order} (ho : r.order = some o) :
    ∃ o', r'.order = some o' ∧ o'.untimed = o.untimed := by
  have horder : r'.order.map Order.untimed = r.order.map Order.untimed := congrArg Record.order h
  simpa [ho] using horder

theorem Record.untimed_order_none {r r' : Record} (h : r'.untimed = r.untimed) (ho : r.order = none) :
    r'.order = none := by
  have horder : r'.order.map Order.untimed = r.order.map Order.untimed := congrArg Record.order h
  simpa [ho] using horder

variable {s t : State} (h : s.SameUntimed t)
include h

theorem State.SameUntimed.record {q : Slot} {r : Record} (hr : s.record? q = some r) :
    ∃ r', t.record? q = some r' ∧ r'.untimed = r.untimed := by
  have hslot := h.slot q
  rw [State.record?_eq_some.1 hr] at hslot
  cases ht : t.slot q with
  | free => simp [ht, SlotState.mapLive] at hslot
  | reserved w => simp [ht, SlotState.mapLive] at hslot
  | live r' =>
    rw [ht] at hslot
    exact ⟨r', State.record?_eq_some.2 ht, SlotState.live.inj hslot⟩

theorem State.SameUntimed.record_back {q : Slot} {r' : Record} (hr : t.record? q = some r') :
    ∃ r, s.record? q = some r ∧ r.untimed = r'.untimed := by
  have hslot := h.slot q
  rw [State.record?_eq_some.1 hr] at hslot
  cases hs : s.slot q with
  | free => simp [hs, SlotState.mapLive] at hslot
  | reserved w => simp [hs, SlotState.mapLive] at hslot
  | live r =>
    rw [hs] at hslot
    exact ⟨r, State.record?_eq_some.2 hs, (SlotState.live.inj hslot).symm⟩

/-- A slot that holds no record is as it was. -/
theorem State.SameUntimed.dead {q : Slot} (hr : s.record? q = none) : t.slot q = s.slot q := by
  have hslot := h.slot q
  cases hs : s.slot q with
  | live r => simp [State.record?, hs] at hr
  | free => cases ht : t.slot q <;> simp [hs, ht, SlotState.mapLive] at hslot ⊢
  | reserved w => cases ht : t.slot q <;> simp [hs, ht, SlotState.mapLive] at hslot ⊢; exact hslot

theorem State.SameUntimed.reserved_iff {q p : Slot} : t.slot q = .reserved p ↔ s.slot q = .reserved p := by
  have hslot := h.slot q
  cases hs : s.slot q <;> cases ht : t.slot q <;> simp [hs, ht, SlotState.mapLive] at hslot ⊢
  simp [hslot]

/-- The laws about orders do not look at confirm timers. -/
theorem State.SameUntimed.ordersTied (hs : s.OrdersTied) : t.OrdersTied := by
  have hsli : t.sli = s.sli := by rw [h.frame]
  refine ⟨⟨?_, fun p hp => ?_, fun p r' hr' o' ho' hst => ?_⟩, fun p r' hr' => ⟨fun o' ho' q hq => ?_,
    fun q hq => ?_⟩, ⟨fun f p hf => ?_, fun p r' hr' o' ho' f hf => ?_⟩, h.leaves⟩
  · rw [hsli]
    exact hs.group.1
  · rw [hsli] at hp
    obtain ⟨r, hr, o, ho, hst⟩ := hs.group.2.1 p hp
    obtain ⟨r', hr', hsame⟩ := h.record hr
    obtain ⟨o', ho', hsame'⟩ := Record.untimed_order hsame ho
    exact ⟨r', hr', o', ho', (congrArg Order.stage hsame').trans hst⟩
  · obtain ⟨r, hr, hsame⟩ := h.record_back hr'
    obtain ⟨o, ho, hsame'⟩ := Record.untimed_order hsame ho'
    rw [hsli]
    exact hs.group.2.2 p r hr o ho ((congrArg Order.stage hsame').trans hst)
  · obtain ⟨r, hr, hsame⟩ := h.record_back hr'
    obtain ⟨o, ho, hsame'⟩ := Record.untimed_order hsame ho'
    obtain ⟨v, hv, hlock, hnone⟩ := (hs.locks p r hr).1 o ho q ((congrArg Order.secondary hsame').trans hq)
    obtain ⟨v', hv', hsamev⟩ := h.record hv
    exact ⟨v', hv', (congrArg Record.lock hsamev).trans hlock, Record.untimed_order_none hsamev hnone⟩
  · obtain ⟨r, hr, hsame⟩ := h.record_back hr'
    obtain ⟨hnone, v, hv, o, ho, hsec⟩ := (hs.locks p r hr).2 q ((congrArg Record.lock hsame).trans hq)
    obtain ⟨v', hv', hsamev⟩ := h.record hv
    obtain ⟨o', ho', hsame'⟩ := Record.untimed_order hsamev ho
    exact ⟨Record.untimed_order_none hsame.symm hnone, v', hv', o', ho',
      (congrArg Order.secondary hsame').trans hsec⟩
  · obtain ⟨r, hr, o, ho, hres⟩ := hs.reserved.1 f p (h.reserved_iff.1 hf)
    obtain ⟨r', hr', hsame⟩ := h.record hr
    obtain ⟨o', ho', hsame'⟩ := Record.untimed_order hsame ho
    exact ⟨r', hr', o', ho', (congrArg Order.reservedSlot hsame').trans hres⟩
  · obtain ⟨r, hr, hsame⟩ := h.record_back hr'
    obtain ⟨o, ho, hsame'⟩ := Record.untimed_order hsame ho'
    exact h.reserved_iff.2 (hs.reserved.2 p r hr o ho f ((congrArg Order.reservedSlot hsame').trans hf))

/-- What a cancelled order leaves owed does not depend on its confirm timer (R67). -/
theorem State.SameUntimed.timerCancelled (p : Slot) : t.timerCancelled p = s.timerCancelled p := by
  have htimer : t.timer p = s.timer p := by
    unfold State.timer
    rw [h.frame]
  rcases hr : s.record? p with _ | r
  · have hr' : t.record? p = none := by
      unfold State.record? at hr ⊢
      rw [h.dead hr]
      exact hr
    simp only [State.timerCancelled, hr, hr', Option.bind_none, htimer]
  · obtain ⟨r', hr', hsame⟩ := h.record hr
    rcases ho : r.order with _ | o
    · simp only [State.timerCancelled, hr, hr', Option.bind_some, ho, Record.untimed_order_none hsame ho, htimer]
    · obtain ⟨o', ho', hsame'⟩ := Record.untimed_order hsame ho
      have hkind : o'.kind = o.kind := (congrArg Order.kind hsame' : o'.untimed.kind = o.untimed.kind)
      have hexpiry : o'.expiryKind = o.expiryKind :=
        (congrArg Order.expiryKind hsame' : o'.untimed.expiryKind = o.untimed.expiryKind)
      simp only [State.timerCancelled, hr, hr', Option.bind_some, ho, ho', htimer, hkind, hexpiry]

/-- An entry to resync ends every order, whatever its confirm timer showed (R66, R176). -/
theorem State.SameUntimed.entersResync {u : State} (hu : t.EntersResync u) : s.EntersResync u := by
  obtain ⟨⟨hlive, hdead, htimer, hleaves, hframe⟩, hres, haudit⟩ := hu
  refine ⟨⟨fun p r hr => ?_, fun p hr => ?_, fun p => (htimer p).trans (h.timerCancelled p), hleaves, ?_⟩,
    hres, haudit⟩
  · obtain ⟨r', hr', hsame⟩ := h.record hr
    have hended : ({ r' with order := none, lock := none } : Record) = { r with order := none, lock := none } :=
      congrArg (fun x : Record => { x with order := none, lock := none }) hsame
    rw [hlive p r' hr', hended]
  · have hr' : t.record? p = none := by
      unfold State.record? at hr ⊢
      rw [h.dead hr]
      exact hr
    exact hdead p hr'
  · have hsame := h.frame
    generalize u.ccc.table = a, u.ccc.resync = b, u.psel.leaves = c, u.psel.nodes = d, u.tbt.timers = e,
      u.sli.auditNotice = f at hframe ⊢
    rw [hframe, hsame]

/-- The notice of a fault is beside the confirm timers. -/
theorem State.SameUntimed.noticed (n : Option (OrderFault × Word)) :
    State.SameUntimed { s with sli.orderNotice := n } { t with sli.orderNotice := n } where
  slot := h.slot
  leaves := h.leaves
  frame := congrArg (fun u : State => { u with sli.orderNotice := n }) h.frame

end Untimed

/-! ### Timeouts (R55, R112) -/

/-- A confirm timer runs exactly while its order awaits the confirm, at 1 or above (R112). -/
theorem State.Lawful.confirmTimer_fits {s : State} (h : s.Lawful) {p : Slot} {r : Record} {o : Order}
    (hr : s.record? p = some r) (ho : r.order = some o) :
    (o.stage = .awaitingConfirm ↔ o.confirmTimer.isSome) ∧ ∀ n, o.confirmTimer = some n → 1 ≤ n := by
  obtain ⟨⟨-, -, -, -, -, -, horders, -⟩, -⟩ := h
  obtain ⟨⟨hiff, hrange, -⟩, -⟩ := horders p r hr o ho
  exact ⟨hiff, fun n hn => (hrange n hn).1⟩

/-- A state in which an order is pending is neither frozen nor in resync (R66). -/
theorem State.Lawful.not_held {s : State} (h : s.Lawful) {p : Slot} {r : Record} {o : Order}
    (hr : s.record? p = some r) (ho : r.order = some o) : s.isHeld = false := by
  obtain ⟨⟨-, -, -, -, -, -, -, -, -, -, -, -, hquiet, -⟩, -⟩ := h
  cases hheld : s.isHeld
  · rfl
  · simp [hquiet hheld p r hr] at ho

/-- After a beat of the timer of slot `p`, it stands one lower. -/
theorem State.Ticks.confirmTimer {s t : State} {f : Slot → Prop} (h : s.Ticks t f) {p : Slot} (hp : f p)
    {r : Record} {o : Order} (hr : s.record? p = some r) (ho : r.order = some o)
    (hiff : o.stage = .awaitingConfirm ↔ o.confirmTimer.isSome) :
    t.confirmTimer p = o.confirmTimer.map fun n => n - 1 := by
  have hpending : (t.record? p).bind Record.order = some o.tickDown := by
    unfold State.record?
    rw [(h.slot p).1 hp, State.record?_eq_some.1 hr]
    simp [SlotState.mapLive, Record.ticked, ho]
  rw [State.confirmTimer_eq hpending] <;> rw [Order.tickDown_eq hiff]
  simpa using hiff

/-- A timer that a beat has brought to 0 stood at 1 (R112). -/
theorem State.Lawful.timedOut_iff {s t : State} {f : Slot → Prop} (hlaw : s.Lawful) (h : s.Ticks t f) {p : Slot}
    (hp : f p) :
    t.confirmTimer p = some 0 ↔ ∃ r ∈ s.record? p, ∃ o ∈ r.order, o.confirmTimer = some 1 := by
  constructor
  · intro hzero
    rcases hr : s.record? p with _ | r
    · have hpending : (t.record? p).bind Record.order = none := by
        unfold State.record? at hr ⊢
        rw [h.sameUntimed.dead hr, hr]
        rfl
      simp [State.confirmTimer_none hpending] at hzero
    · rcases ho : r.order with _ | o
      · obtain ⟨r', hr', hsame⟩ := h.sameUntimed.record hr
        have hpending : (t.record? p).bind Record.order = none := by
          rw [hr']
          exact Record.untimed_order_none hsame ho
        simp [State.confirmTimer_none hpending] at hzero
      · obtain ⟨hiff, hrange⟩ := hlaw.confirmTimer_fits hr ho
        rw [h.confirmTimer hp hr ho hiff] at hzero
        obtain ⟨n, hn, hzero⟩ := Option.map_eq_some_iff.1 hzero
        have hone := hrange n hn
        exact ⟨r, rfl, o, ho, by rw [hn]; congr 1; omega⟩
  · rintro ⟨r, hr, o, ho, hone⟩
    rw [h.confirmTimer hp hr ho (hlaw.confirmTimer_fits hr ho).1, hone]
    rfl

/-- Where no order is pending, no timeout is taken. -/
theorem State.foldl_confirmTimeout_idle {s : State} (h : ∀ p, (s.record? p).bind Record.order = none)
    (l : List Slot) : l.foldl State.confirmTimeout s = s := by
  induction l with
  | nil => rfl
  | cons p l ih =>
    have hidle : s.confirmTimeout p = s := if_neg (by simp [State.confirmTimer_none (h p)])
    rw [List.foldl_cons, hidle, ih]

/-- After an entry to resync no order is pending (R66, R176). -/
theorem State.EntersResync.quiet {s u : State} (h : s.EntersResync u) (p : Slot) :
    (u.record? p).bind Record.order = none := by
  obtain ⟨⟨hlive, hdead, -⟩, -⟩ := h
  unfold State.record?
  rcases hr : s.record? p with _ | r
  · rw [hdead p hr]
    rfl
  · rw [hlive p r hr]
    rfl

/-- The timeouts of a beat: the first one taken raises its fault, and none is left after it (R55, R68). -/
theorem State.Lawful.timeouts {s t : State} {f : Slot → Prop} (hlaw : s.Lawful) (h : s.Ticks t f) {p : Slot}
    (hp : f p) {r : Record} (hr : s.record? p = some r) {o : Order} (ho : r.order = some o)
    (hone : o.confirmTimer = some 1) (l : List Slot) :
    State.EntersResync { s with sli.orderNotice := some (.timeout, r.ref) }
      ((p :: l).foldl State.confirmTimeout t) := by
  have hzero : t.confirmTimer p = some 0 := (hlaw.timedOut_iff h hp).2 ⟨r, hr, o, ho, hone⟩
  have hsame := h.sameUntimed
  obtain ⟨r', hr', hrecord⟩ := hsame.record hr
  obtain ⟨o', ho', -⟩ := Record.untimed_order hrecord ho
  have hpending : (t.record? p).bind Record.order = some o' := by rw [hr']; exact ho'
  have href : t.refAt (some p) = r.ref := by
    have hsameref : r'.ref = r.ref := (congrArg Record.ref hrecord : r'.untimed.ref = r.untimed.ref)
    simp [State.refAt, hr', hsameref]
  have hres : t.ccc.resync = false := by
    have hfree : s.ccc.resync = false := by
      have hheld := hlaw.not_held hr ho
      cases hres : s.ccc.resync
      · rfl
      · simp [State.isHeld, hres] at hheld
    rw [h.frame]
    exact hfree
  have hfirst : t.confirmTimeout p = (t.cancelOrder p).orderFault .timeout r.ref := by
    rw [← href]
    exact if_pos hzero
  have henters : State.EntersResync { t with sli.orderNotice := some (.timeout, r.ref) } (t.confirmTimeout p) := by
    rw [hfirst]
    exact State.cancelOrder_orderFault (hsame.ordersTied (State.ordersTied_of_lawful hlaw)) hres hpending _ _
  rw [List.foldl_cons, State.foldl_confirmTimeout_idle henters.quiet]
  exact (hsame.noticed _).entersResync henters

/-- The slots whose confirm timers a beat brings to 0. -/
def State.dueAfter (t : State) : List Slot := slots.filter fun p => t.confirmTimer p = some 0

/-- The timeouts that a beat has brought about, taken one after the other; `n` free values have been used
before (R55; log entries 5 and 6). -/
def State.takeTimeouts (t : State) (n : Nat) : State :=
  { (timeoutOrder n t.dueAfter).foldl State.confirmTimeout t with
    freeCount := if 2 ≤ t.dueAfter.length then n + 1 else n }

/-- The beat of the confirm timers (R112). -/
theorem exec_confirmBeat_eq (s : State) :
    exec .confirmBeat s =
      .next (if s.frozen then s else (slots.foldl State.tickConfirm s).takeTimeouts s.freeCount) := by
  unfold exec execConfirmBeat State.takeTimeouts State.dueAfter
  with_reducible rfl

/-- The beat of the confirm timers while the link is UP (R112). -/
theorem exec_confirmBeat_up {s : State} (h : s.sli.link = .up) :
    exec .confirmBeat s = .next ((slots.foldl State.tickConfirm s).takeTimeouts s.freeCount) := by
  rw [exec_confirmBeat_eq, if_neg (by simp [State.frozen, h])]

/-- The first timeout taken is one of those that are due (log entry 6). -/
theorem timeoutOrder_cons {n : Nat} {due : List Slot} (h : due ≠ []) :
    ∃ x l, timeoutOrder n due = x :: l ∧ x ∈ due := by
  have hmem : ∀ x, x ∈ timeoutOrder n due ↔ x ∈ due := fun x => by
    unfold timeoutOrder
    split <;> simp
  rcases ht : timeoutOrder n due with _ | ⟨x, l⟩
  · refine absurd (List.eq_nil_iff_forall_not_mem.2 fun x hx => ?_) h
    have := (hmem x).2 hx
    simp [ht] at this
  · exact ⟨x, l, rfl, (hmem x).1 (by simp [ht])⟩

/-- The count of free values is beside an entry to resync. -/
theorem State.EntersResync.counted {s u : State} (h : s.EntersResync u) (n : Nat) :
    State.EntersResync { s with freeCount := n } { u with freeCount := n } := by
  obtain ⟨⟨hlive, hdead, htimer, hleaves, hframe⟩, hres, haudit⟩ := h
  exact ⟨⟨hlive, hdead, htimer, hleaves, congrArg (fun u : State => { u with freeCount := n }) hframe⟩, hres,
    haudit⟩

/-- The slots that a beat brings to 0 are those whose timers stand at 1 (R112). -/
theorem State.Lawful.mem_dueAfter {s : State} (hlaw : s.Lawful) (q : Slot) :
    q ∈ (slots.foldl State.tickConfirm s).dueAfter ↔
      ∃ r ∈ s.record? q, ∃ o ∈ r.order, o.confirmTimer = some 1 := by
  have hticks := State.beat_ticks (State.ordersTied_of_lawful hlaw).leaves
  rw [← hlaw.timedOut_iff hticks trivial]
  simp [State.dueAfter]

/-- A beat that brings a timer to 0 raises the fault of one of those that it brings there (R55, R112). -/
theorem State.Lawful.confirmBeat_timeout {s : State} (hlaw : s.Lawful) {p : Slot} {r : Record}
    (hr : s.record? p = some r) {o : Order} (ho : r.order = some o) (hone : o.confirmTimer = some 1) :
    ∃ x u, s.record? x = some u ∧ (∃ y ∈ u.order, y.confirmTimer = some 1)
      ∧ Runs .confirmBeat s (State.EntersResync
          { s with
            sli.orderNotice := some (.timeout, u.ref)
            freeCount :=
              if 2 ≤ (slots.foldl State.tickConfirm s).dueAfter.length then s.freeCount + 1
              else s.freeCount }) := by
  have hticks := State.beat_ticks (State.ordersTied_of_lawful hlaw).leaves
  have hlink : s.sli.link = .up := by
    have hheld := hlaw.not_held hr ho
    cases hl : s.sli.link
    · rfl
    · simp [State.isHeld, State.frozen, hl] at hheld
  have hne : (slots.foldl State.tickConfirm s).dueAfter ≠ [] :=
    List.ne_nil_of_mem ((hlaw.mem_dueAfter p).2 ⟨r, hr, o, ho, hone⟩)
  obtain ⟨x, l, horder, hx⟩ := timeoutOrder_cons (n := s.freeCount) hne
  obtain ⟨u, hu, y, hy, hyone⟩ := (hlaw.mem_dueAfter x).1 hx
  refine ⟨x, u, hu, ⟨y, hy, hyone⟩, _, exec_confirmBeat_up hlink, ?_⟩
  rw [State.takeTimeouts, horder]
  exact (hlaw.timeouts hticks trivial hu hy hyone l).counted _

/-- A list whose members are all the same, without repetition, has one at most. -/
theorem length_lt_two_of_all_eq {l : List Slot} {p : Slot} (hnodup : l.Nodup) (h : ∀ q ∈ l, q = p) :
    ¬ 2 ≤ l.length := by
  rcases l with _ | ⟨a, _ | ⟨b, l⟩⟩
  · simp
  · simp
  · have hab : a = b := (h a (by simp)).trans (h b (by simp)).symm
    simp [hab] at hnodup

theorem two_le_length_of_mem {l : List Slot} {p q : Slot} (hp : p ∈ l) (hq : q ∈ l) (hne : q ≠ p) :
    2 ≤ l.length := by
  rcases l with _ | ⟨a, _ | ⟨b, l⟩⟩
  · simp at hp
  · rw [List.mem_singleton] at hp hq
    exact absurd (hq.trans hp.symm) hne
  · simp

theorem State.dueAfter_nodup (t : State) : t.dueAfter.Nodup := slots_nodup.filter _

/-- A beat that brings no timer to 0 only counts (R112). -/
theorem State.Lawful.confirmBeat_counts {s : State} (hlaw : s.Lawful) (hlink : s.sli.link = .up)
    (h : ∀ p : Slot, ∀ r ∈ s.record? p, ∀ o ∈ r.order, ∀ n ∈ o.confirmTimer, 2 ≤ n) :
    exec .confirmBeat s = .next (slots.foldl State.tickConfirm s) := by
  have hframe := (State.beat_ticks (State.ordersTied_of_lawful hlaw).leaves).frame
  have hnone : (slots.foldl State.tickConfirm s).dueAfter = [] := by
    refine List.eq_nil_iff_forall_not_mem.2 fun q hq => ?_
    obtain ⟨r, hr, o, ho, hone⟩ := (hlaw.mem_dueAfter q).1 hq
    have := h q r hr o ho 1 hone
    omega
  have hcount : (slots.foldl State.tickConfirm s).freeCount = s.freeCount := by
    generalize slots.foldl State.tickConfirm s = t at hframe ⊢
    rw [hframe]
  rw [exec_confirmBeat_up hlink]
  generalize slots.foldl State.tickConfirm s = t at hnone hcount ⊢
  simp only [State.takeTimeouts, hnone, timeoutOrder, List.foldl_nil, ← hcount]
  rfl

/-- CONFIRM_TIMEOUT of a timer that stands at 1 takes its timeout alone (R55). -/
theorem exec_confirmTimeout_due {s : State} {p : Slot} (hfrozen : s.frozen = false)
    (h : s.confirmTimer p = some 1) :
    exec (.confirmTimeout p) s = .next ((s.tickConfirm p).confirmTimeout p) := by
  simp [exec, execConfirmTimeout, hfrozen, h]

/-- Settles O54: a beat changes the confirm timers and nothing else, and the first timeout it brings about is the
cancellation of one order with its fault, after which no order and no timer is left. -/
theorem confirmTimersCountDownAndTimeOut : Obligations.ConfirmTimersCountDownAndTimeOut := by
  intro s hlaw
  have hticks := State.beat_ticks (State.ordersTied_of_lawful hlaw).leaves
  refine ⟨fun hdown => ?_, fun hup hcount => ⟨_, hlaw.confirmBeat_counts hup hcount, fun p r hr => ?_,
    fun p hr => hticks.sameUntimed.dead hr, hticks.frame⟩, fun p r hr o ho hone => ⟨?_, fun halone => ?_,
      fun q hqp v hv w hw hwone => ?_⟩⟩
  · exact congrArg _ (if_pos (by simp [State.frozen, hdown]))
  · have horder : r.order.map Order.tickDown =
        r.order.map fun o => { o with confirmTimer := o.confirmTimer.map fun n => n - 1 } :=
      Option.map_congr fun o ho => Order.tickDown_eq (hlaw.confirmTimer_fits hr ho).1
    rw [(hticks.slot p).1 trivial, State.record?_eq_some.1 hr, ← horder]
    rfl
  · have hfrozen : s.frozen = false := by
      have hheld := hlaw.not_held hr ho
      simp only [State.isHeld, Bool.or_eq_false_iff] at hheld
      exact hheld.1
    have htimer : s.confirmTimer p = some 1 := by
      have hpending : (s.record? p).bind Record.order = some o := by rw [Option.mem_def.1 hr]; exact ho
      rw [State.confirmTimer_eq hpending (hlaw.confirmTimer_fits hr ho).1, hone]
    exact ⟨_, exec_confirmTimeout_due hfrozen htimer, hlaw.timeouts
      (State.tickConfirm_ticks (State.ordersTied_of_lawful hlaw).leaves p) rfl hr ho hone []⟩
  · obtain ⟨x, u, hu, ⟨y, hy, hyone⟩, hruns⟩ := hlaw.confirmBeat_timeout hr ho hone
    have hall : ∀ q ∈ (slots.foldl State.tickConfirm s).dueAfter, q = p := fun q hq => by
      obtain ⟨v, hv, w, hw, hwone⟩ := (hlaw.mem_dueAfter q).1 hq
      by_contra hqp
      exact halone q hqp v hv w hw hwone
    have hxp : x = p := hall x ((hlaw.mem_dueAfter x).2 ⟨u, hu, y, hy, hyone⟩)
    rw [hxp, Option.mem_def.1 hr] at hu
    cases hu
    rw [if_neg (length_lt_two_of_all_eq (State.dueAfter_nodup _) hall)] at hruns
    exact hruns
  · obtain ⟨x, u, hu, hy, hruns⟩ := hlaw.confirmBeat_timeout hr ho hone
    have hp := (hlaw.mem_dueAfter p).2 ⟨r, hr, o, ho, hone⟩
    have hq := (hlaw.mem_dueAfter q).2 ⟨v, hv, w, hw, hwone⟩
    rw [if_pos (two_le_length_of_mem hp hq hqp)] at hruns
    exact ⟨x, u, hu, hy, hruns⟩

end Sys2Proof.Machine
end

