-- ==== Sys2Proof/Proofs/IndexAndCounts.lean ====
section
/-! PROOFS. The reference index and the queued counts under writes (R5, R82): what keeps them exact, and what a
lookup answers. -/

namespace Sys2Proof.Machine

/-! ### The reference index (R5) -/

/-- The index is exact: it rises, and its entries are the references that the slots hold. -/
theorem State.indexExact_iff {s : State} :
    s.IndexExact ↔
      s.ccc.index.Pairwise (fun a b => a.1.toNat < b.1.toNat)
        ∧ ∀ w p, (w, p) ∈ s.ccc.index ↔ (s.slot p).ref? = some w := by
  have href : ∀ w p, (s.slot p).ref? = some w ↔ ∃ r, s.record? p = some r ∧ r.ref = w := fun w p => by
    simp [SlotState.ref?, State.record?]
  simp only [State.IndexExact, List.all_eq_true, Option.any_eq_true, decide_eq_true_eq, href]
  constructor
  · rintro ⟨hrises, hnames, hlists⟩
    refine ⟨hrises, fun w p => ⟨fun h => hnames (w, p) h, ?_⟩⟩
    rintro ⟨r, hr, rfl⟩
    exact hlists p r hr
  · rintro ⟨hrises, hiff⟩
    exact ⟨hrises, fun e he => (hiff e.1 e.2).1 he, fun p r hr => (hiff r.ref p).2 ⟨r, hr, rfl⟩⟩

/-- A reference stands in a rising index once. -/
theorem index_unique {ix : List (Word × Slot)} (h : ix.Pairwise fun a b => a.1.toNat < b.1.toNat)
    {a b : Word × Slot} (ha : a ∈ ix) (hb : b ∈ ix) (hab : a.1 = b.1) : a = b := by
  have hnodup : (ix.map Prod.fst).Nodup := List.pairwise_map.2 (h.imp fun hlt e => by simp [e] at hlt)
  exact List.inj_on_of_nodup_map hnodup ha hb hab

/-- A lookup answers the slot that holds the reference (R6). -/
theorem State.IndexExact.lookup_eq_some {s : State} (h : s.IndexExact) {w : Word} {p : Slot} :
    s.lookup w = some p ↔ (s.slot p).ref? = some w := by
  obtain ⟨hrises, hiff⟩ := State.indexExact_iff.1 h
  rw [← hiff]
  simp only [State.lookup, Option.map_eq_some_iff]
  constructor
  · rintro ⟨e, he, rfl⟩
    have hw : e.1 = w := by simpa using List.find?_some he
    rw [← hw]
    exact List.mem_of_find?_eq_some he
  · intro hmem
    rcases hfind : s.ccc.index.find? (fun e => e.1 = w) with _ | e
    · simpa using List.find?_eq_none.1 hfind _ hmem
    · have hw : e.1 = w := by simpa using List.find?_some hfind
      exact ⟨e, hfind, congrArg Prod.snd (index_unique hrises (List.mem_of_find?_eq_some hfind) hmem hw)⟩

/-- The index stays exact where neither it nor any slot's reference changes. -/
theorem State.IndexExact.congr {s t : State} (h : s.IndexExact) (hindex : t.ccc.index = s.ccc.index)
    (href : ∀ q, (t.slot q).ref? = (s.slot q).ref?) : t.IndexExact := by
  rw [State.indexExact_iff] at h ⊢
  simpa only [hindex, href] using h

/-- A slot that becomes FREE takes its reference out of the index. -/
theorem State.IndexExact.put_free {s : State} (h : s.IndexExact) (p : Slot) : (s.put p .free).IndexExact := by
  obtain ⟨hrises, hiff⟩ := State.indexExact_iff.1 h
  have hslot : ∀ q, ((s.put p .free).slot q).ref? = if p = q then none else (s.slot q).ref? := fun q => by
    rw [State.slot_put]
    split <;> rfl
  rw [State.indexExact_iff]
  rcases hp : (s.slot p).ref? with _ | w
  · have hindex : (s.put p .free).ccc.index = s.ccc.index := State.put_index_same (by rw [hp]; rfl)
    rw [hindex]
    refine ⟨hrises, fun w q => (hiff w q).trans ?_⟩
    rw [hslot]
    split
    · next hq => rw [← hq, hp]
    · rfl
  · have hindex : (s.put p .free).ccc.index = s.ccc.index.filter fun e => e.1 ≠ w := by
      rw [State.put_ccc_index, hp]
      simp [reindex, SlotState.ref?]
    rw [hindex]
    refine ⟨hrises.filter _, fun v q => ?_⟩
    rw [List.mem_filter, hiff, hslot]
    split
    · next hq =>
      rw [← hq, hp, Option.some.injEq]
      refine iff_of_false ?_ (by simp)
      rintro ⟨hw, hv⟩
      simp [hw] at hv
    · next hq =>
      refine and_iff_left_of_imp fun hv => ?_
      have hne : v ≠ w := by
        rintro rfl
        exact hq (congrArg Prod.snd (index_unique hrises ((hiff v p).2 hp) ((hiff v q).2 hv) rfl))
      simpa using hne

/-! ### The queued counts (R82) -/

/-- Two tests that agree on a list of distinct members but for one count the same but for that one. -/
theorem countP_change {l : List Slot} (hl : l.Nodup) {p : Slot} (hp : p ∈ l) {f g : Slot → Bool}
    (h : ∀ q, q ≠ p → g q = f q) : l.countP g + (f p).toNat = l.countP f + (g p).toNat := by
  have hrest : (l.erase p).countP g = (l.erase p).countP f := by
    refine List.countP_congr fun q hq => ?_
    rw [h q ((hl.mem_erase_iff.1 hq).1)]
  rw [(List.perm_cons_erase hp).countP_eq g, (List.perm_cons_erase hp).countP_eq f, List.countP_cons,
    List.countP_cons, hrest]
  cases f p <;> cases g p <;> simp

/-- What a write to a slot makes of a tenant's count. -/
theorem State.put_queued_count (s : State) (p : Slot) (c : SlotState) (t : Tenant) :
    (s.put p c).psel.queued[t] =
      s.psel.queued[t] + (decide (c.queuedTenant = some t)).toNat
        - (decide ((s.slot p).queuedTenant = some t)).toNat := by
  have hup : ∀ (ps : Psel) (x : Option Tenant),
      (ps.countUp x).queued[t] = ps.queued[t] + (decide (x = some t)).toNat := by
    intro ps x
    rcases x with _ | x
    · rfl
    · by_cases hx : x = t
      · simp [Psel.countUp, hx]
      · have hv : ¬ x.val = t.val := fun e => hx (Fin.ext e)
        simp [Psel.countUp, hx, hv]
  have hdown : ∀ (ps : Psel) (x : Option Tenant),
      (ps.countDown x).queued[t] = ps.queued[t] - (decide (x = some t)).toNat := by
    intro ps x
    rcases x with _ | x
    · rfl
    · by_cases hx : x = t
      · simp [Psel.countDown, hx]
      · have hv : ¬ x.val = t.val := fun e => hx (Fin.ext e)
        simp [Psel.countDown, hx, hv]
  rw [State.put_psel]
  simp only [Psel.setLeaf_queued]
  rw [hdown, hup]

/-- A write to a slot keeps every count exact (R82). -/
theorem State.CountsExact.put {s : State} (h : s.CountsExact) (p : Slot) (c : SlotState) :
    (s.put p c).CountsExact := by
  intro t
  have hchange := countP_change slots_nodup (mem_slots p)
    (f := fun q => decide ((s.slot q).queuedTenant = some t))
    (g := fun q => decide (((s.put p c).slot q).queuedTenant = some t))
    fun q hq => by rw [State.slot_put_ne s c (Ne.symm hq)]
  have hcount : s.psel.queued[t] = s.countQueued t := h t
  simp only [State.slot_put_self] at hchange
  rw [State.put_queued_count, hcount]
  simp only [State.countQueued]
  omega

/-- The counts stay exact where neither they nor any slot's queued tenant changes. -/
theorem State.CountsExact.congr {s t : State} (h : s.CountsExact) (hqueued : t.psel.queued = s.psel.queued)
    (htenant : ∀ q, (t.slot q).queuedTenant = (s.slot q).queuedTenant) : t.CountsExact := by
  intro n
  have hcount : t.countQueued n = s.countQueued n := by simp only [State.countQueued, htenant]
  rw [hcount, hqueued]
  exact h n

end Sys2Proof.Machine
end

