-- ==== Sys2Proof/Proofs/AuditEnd.lean ====
section
/-! PROOFS. The AUDIT-END (R180). In a resync no order is pending, so a retirement only unlinks a partner and
frees a slot; the retirement of the unmarked records is a fold over the slots, and `Swept` says where it stands
once a set of slots has been gone through. -/

namespace Sys2Proof.Machine

/-! ### A table in which no order is pending -/

/-- No order is pending, and nothing is left of one: no lock, no reserved slot and no entry in the order group.
The index, the leaves and the counts are exact. -/
structure State.Quiet (s : State) : Prop where
  order : ∀ p r, s.record? p = some r → r.order = none
  lock : ∀ p r, s.record? p = some r → r.lock = none
  dead : ∀ p, s.record? p = none → s.slot p = .free
  index : s.IndexExact
  leaves : s.LeavesExact
  counts : s.CountsExact

/-- While the position is held every table is quiet (R66, R175, R176). -/
theorem State.Lawful.quiet {s : State} (h : s.Lawful) (hheld : s.isHeld = true) : s.Quiet := by
  obtain ⟨⟨-, hindex, -, -, -, -, -, -, hlocks, -, hreserved, -, hquiet, -⟩, ⟨hleaves, -, hcounts⟩, -⟩ := h
  have hnone : ∀ p r, s.record? p = some r → r.order = none := hquiet hheld
  refine ⟨hnone, fun p r hr => ?_, fun p hp => ?_, hindex, hleaves, hcounts⟩
  · refine Option.eq_none_iff_forall_ne_some.2 fun q hq => ?_
    obtain ⟨-, v, hv, o, ho, -⟩ := (hlocks p r hr).2 q hq
    rw [hnone q v hv] at ho
    cases ho
  · cases hslot : s.slot p with
    | free => rfl
    | live r => simp [State.record?, hslot] at hp
    | reserved w =>
      obtain ⟨v, hv, o, ho, -⟩ := hreserved.1 p w hslot
      rw [hnone w v hv] at ho
      cases ho

/-- Where no order is pending, none holds the claim (R52). -/
theorem State.Quiet.claim_none {s : State} (h : s.Quiet) (hclaim : s.ClaimExact) : s.ccc.claim = none := by
  refine Option.eq_none_iff_forall_ne_some.2 fun p hp => ?_
  obtain ⟨r, hr, o, ho, -⟩ := (hclaim p).1 hp
  rw [h.order p r hr] at ho
  cases ho

/-- In a quiet table a retirement only unlinks the partner before the slot is freed. -/
theorem State.Quiet.detach_eq {s : State} (h : s.Quiet) {p : Slot} {r : Record} (hr : s.record? p = some r) :
    s.detach p r = s.unlinkPartner r.partner := by
  have hnone : (s.record? p).bind Record.order = none := by rw [hr]; exact h.order p r hr
  rw [State.detach, State.endOrder_none hnone, h.lock p r hr]
  rfl

/-- In a quiet table a retirement leaves every other record as it was, but perhaps for its partner (R17). -/
theorem State.Quiet.slot_retire {s : State} (h : s.Quiet) {p : Slot} {r : Record} (hr : s.record? p = some r)
    (q : Slot) :
    (s.retire p).slot q =
      if p = q then .free
      else if r.partner = some q then (s.slot q).mapLive fun u => { u with partner := none }
      else s.slot q := by
  rw [State.retire_eq hr, h.detach_eq hr, ← State.slot_unlinkPartner]
  exact State.slot_put ((s.unlinkPartner r.partner).setTimer p Timer.stopped) p q .free

theorem State.Quiet.timer_retire {s : State} (h : s.Quiet) {p : Slot} {r : Record} (hr : s.record? p = some r)
    (q : Slot) : (s.retire p).timer q = if p = q then Timer.stopped else s.timer q := by
  have hkeep : (s.unlinkPartner r.partner).timer q = s.timer q := by simp [State.timer]
  rw [State.retire_eq hr, h.detach_eq hr, ← hkeep]
  exact State.timer_setTimer (s.unlinkPartner r.partner) p q Timer.stopped

/-- What unlinking a partner leaves of what the index and the counts read. -/
theorem State.unlinkPartner_exact {s : State} (x : Option Slot) (hi : s.IndexExact) (hc : s.CountsExact) :
    (s.unlinkPartner x).IndexExact ∧ (s.unlinkPartner x).CountsExact := by
  refine ⟨hi.congr (State.unlinkPartner_index s x) fun q => ?_,
    hc.congr (State.unlinkPartner_queued s x) fun q => ?_⟩ <;>
  · rw [State.slot_unlinkPartner]
    split
    · cases s.slot q <;> rfl
    · rfl

/-- A retirement keeps a quiet table quiet (R17). -/
theorem State.Quiet.retire {s : State} (h : s.Quiet) {p : Slot} {r : Record} (hr : s.record? p = some r) :
    (s.retire p).Quiet := by
  have hrecord : ∀ q u, (s.retire p).record? q = some u →
      ∃ v, s.record? q = some v ∧ u.order = v.order ∧ u.lock = v.lock := by
    intro q u hu
    rw [State.record?_eq_some, h.slot_retire hr] at hu
    split at hu
    · cases hu
    · split at hu
      · cases hq : s.slot q with
        | free => simp [hq, SlotState.mapLive] at hu
        | reserved w => simp [hq, SlotState.mapLive] at hu
        | live v =>
          rw [hq] at hu
          cases hu
          exact ⟨v, State.record?_eq_some.2 hq, rfl, rfl⟩
      · exact ⟨u, State.record?_eq_some.2 hu, rfl, rfl⟩
  obtain ⟨hi, hc⟩ := State.unlinkPartner_exact r.partner h.index h.counts
  refine ⟨fun q u hu => ?_, fun q u hu => ?_, fun q hq => ?_, ?_, State.retire_leavesExact h.leaves p, ?_⟩
  · obtain ⟨v, hv, horder, -⟩ := hrecord q u hu
    exact horder.trans (h.order q v hv)
  · obtain ⟨v, hv, -, hlock⟩ := hrecord q u hu
    exact hlock.trans (h.lock q v hv)
  · rw [h.slot_retire hr]
    by_cases hpq : p = q
    · rw [if_pos hpq]
    · rw [if_neg hpq]
      rcases hv : s.record? q with _ | v
      · rw [h.dead q hv]
        split <;> rfl
      · have hlive : ∃ w, (s.retire p).slot q = .live w := by
          rw [h.slot_retire hr, if_neg hpq, State.record?_eq_some.1 hv]
          split <;> exact ⟨_, rfl⟩
        obtain ⟨w, hw⟩ := hlive
        simp [State.record?, hw] at hq
  · rw [State.retire_eq hr, h.detach_eq hr]
    exact State.IndexExact.put_free (s := (s.unlinkPartner r.partner).setTimer p Timer.stopped) hi p
  · rw [State.retire_eq hr, h.detach_eq hr]
    exact State.CountsExact.put (s := (s.unlinkPartner r.partner).setTimer p Timer.stopped) hc p .free

/-- What a retirement in a quiet table leaves alone (R17). -/
theorem State.Quiet.retire_frame {s : State} (h : s.Quiet) {p : Slot} {r : Record} (hr : s.record? p = some r) :
    s.retire p =
      { s with
        ccc.table := (s.retire p).ccc.table, ccc.index := (s.retire p).ccc.index
        ccc.note := if r.onHeadset then none else s.ccc.note
        psel.leaves := (s.retire p).psel.leaves, psel.nodes := (s.retire p).psel.nodes
        psel.queued := (s.retire p).psel.queued, tbt.timers := (s.retire p).tbt.timers } := by
  rw [State.retire_eq hr, h.detach_eq hr]
  simp [State.eq_iff, Psel.eq_iff, Tbt.eq_iff]

/-! ### The retirement of the unmarked records (R180, step 1) -/

/-- The slot holds an unmarked record. -/
def State.unmarked (s : State) (p : Slot) : Bool := (s.record? p).any fun r => !r.marked

theorem State.unmarked_iff {s : State} {p : Slot} {r : Record} (hr : s.record? p = some r) :
    s.unmarked p = true ↔ r.marked = false := by simp [State.unmarked, hr]

/-- `t` is `s` after the unmarked records of the slots in `done` have been retired. -/
structure State.Swept (s t : State) (done : List Slot) : Prop where
  gone : ∀ p, p ∈ done → s.unmarked p = true → t.slot p = .free ∧ t.timer p = Timer.stopped
  kept : ∀ p, ¬ (p ∈ done ∧ s.unmarked p = true) → t.timer p = s.timer p
    ∧ ∀ r, s.record? p = some r → ∃ x, t.slot p = .live { r with partner := x }
  dead : ∀ p, s.record? p = none → t.slot p = .free
  quiet : t.Quiet
  note : t.ccc.note =
    if ∃ p ∈ done, ∃ r ∈ s.record? p, r.marked = false ∧ r.onHeadset = true then none else s.ccc.note
  frame : t = { s with
    ccc.table := t.ccc.table, ccc.index := t.ccc.index, ccc.note := t.ccc.note
    psel.leaves := t.psel.leaves, psel.nodes := t.psel.nodes, psel.queued := t.psel.queued
    tbt.timers := t.tbt.timers }

/-- One step of the sweep: the slot's record is retired where it is unmarked. -/
def State.sweep (s : State) (p : Slot) : State :=
  if (s.record? p).any fun r => !r.marked then s.retire p else s

theorem State.retireUnmarked_eq (s : State) : s.retireUnmarked = slots.foldl State.sweep s := rfl

theorem State.Swept.refl {s : State} (h : s.Quiet) : s.Swept s [] where
  gone := by simp
  kept p _ := ⟨rfl, fun r hr => ⟨r.partner, State.record?_eq_some.1 hr⟩⟩
  dead := h.dead
  quiet := h
  note := by simp
  frame := rfl

/-- The sweep goes on by one slot. -/
theorem State.Swept.sweep {s t : State} {done : List Slot} (h : s.Swept t done) {p : Slot} (hp : p ∉ done) :
    s.Swept (t.sweep p) (p :: done) := by
  have hsame : ∀ r, s.record? p = some r → ∃ x, t.record? p = some { r with partner := x } := fun r hr => by
    obtain ⟨x, hx⟩ := (h.kept p fun hc => hp hc.1).2 r hr
    exact ⟨x, State.record?_eq_some.2 hx⟩
  by_cases hun : s.unmarked p = true
  · obtain ⟨r, hr, hmark⟩ : ∃ r, s.record? p = some r ∧ r.marked = false := by
      simpa [State.unmarked, Option.any_eq_true] using hun
    obtain ⟨x, hx⟩ := hsame r hr
    have hsweep : t.sweep p = t.retire p := if_pos (by simp [hx, hmark])
    have hslot := h.quiet.slot_retire hx
    have htimer := h.quiet.timer_retire hx
    have hframe := h.quiet.retire_frame hx
    have hnote : (t.retire p).ccc.note = if r.onHeadset then none else t.ccc.note := by rw [hframe]; rfl
    rw [hsweep]
    refine ⟨fun q hq hunq => ?_, fun q hq => ⟨?_, fun u hu => ?_⟩, fun q hq => ?_, h.quiet.retire hx, ?_, ?_⟩
    · rw [hslot, htimer]
      by_cases hpq : p = q
      · simp [hpq]
      · obtain ⟨hfree, hstop⟩ := h.gone q ((List.mem_cons.1 hq).resolve_left (Ne.symm hpq)) hunq
        simp [hpq, hfree, hstop, SlotState.mapLive]
    · have hpq : p ≠ q := fun e => hq ⟨by simp [e], e ▸ hun⟩
      rw [htimer, if_neg hpq]
      exact (h.kept q fun hc => hq ⟨List.mem_cons_of_mem p hc.1, hc.2⟩).1
    · have hpq : p ≠ q := fun e => hq ⟨by simp [e], e ▸ hun⟩
      obtain ⟨y, hy⟩ := (h.kept q fun hc => hq ⟨List.mem_cons_of_mem p hc.1, hc.2⟩).2 u hu
      rw [hslot, if_neg hpq, hy]
      split
      · exact ⟨none, rfl⟩
      · exact ⟨y, rfl⟩
    · rw [hslot, h.dead q hq]
      split_ifs <;> rfl
    · rw [hnote, h.note]
      by_cases hhead : r.onHeadset = true
      · have hex : ∃ q ∈ p :: done, ∃ u ∈ s.record? q, u.marked = false ∧ u.onHeadset = true :=
          ⟨p, by simp, r, hr, hmark, hhead⟩
        rw [if_pos hhead, if_pos hex]
      · rw [if_neg hhead]
        refine if_congr ⟨fun ⟨q, hq, hu⟩ => ⟨q, List.mem_cons_of_mem p hq, hu⟩, ?_⟩ rfl rfl
        rintro ⟨q, hq, u, hu, hm, hh⟩
        rcases List.mem_cons.1 hq with rfl | hq
        · rw [Option.mem_def, hr] at hu
          cases hu
          exact absurd hh hhead
        · exact ⟨q, hq, u, hu, hm, hh⟩
    · have hprev := h.frame
      generalize t.retire p = u at hframe ⊢
      rw [hframe, hprev]
  · have hsweep : t.sweep p = t := if_neg (by
      rcases hr : s.record? p with _ | r
      · simp [State.record?, h.dead p hr]
      · obtain ⟨x, hx⟩ := hsame r hr
        simpa [hx, State.unmarked_iff hr] using hun)
    rw [hsweep]
    refine ⟨fun q hq hunq => ?_, fun q hq => h.kept q fun hc => hq ⟨List.mem_cons_of_mem p hc.1, hc.2⟩, h.dead,
      h.quiet, ?_, h.frame⟩
    · rcases List.mem_cons.1 hq with rfl | hq
      · exact absurd hunq hun
      · exact h.gone q hq hunq
    · rw [h.note]
      refine if_congr ⟨fun ⟨q, hq, hu⟩ => ⟨q, List.mem_cons_of_mem p hq, hu⟩, ?_⟩ rfl rfl
      rintro ⟨q, hq, u, hu, hm, hh⟩
      rcases List.mem_cons.1 hq with rfl | hq
      · exact absurd ((State.unmarked_iff hu).2 hm) hun
      · exact ⟨q, hq, u, hu, hm, hh⟩

/-- The sweep of a list of distinct slots. -/
theorem State.Swept.foldl {s : State} (l : List Slot) :
    ∀ {t : State} {done : List Slot}, s.Swept t done → (l ++ done).Nodup →
      ∃ all, (∀ p, p ∈ all ↔ p ∈ l ∨ p ∈ done) ∧ s.Swept (l.foldl State.sweep t) all := by
  induction l with
  | nil => exact fun {t done} h _ => ⟨done, by simp, h⟩
  | cons p l ih =>
    intro t done h hnodup
    obtain ⟨hp, hrest⟩ := List.nodup_cons.1 hnodup
    have hdone : p ∉ done := fun hc => hp (List.mem_append_right l hc)
    have hnext : (l ++ p :: done).Nodup := List.nodup_middle.2 hnodup
    obtain ⟨all, hall, hswept⟩ := ih (h.sweep hdone) hnext
    refine ⟨all, fun q => ?_, hswept⟩
    rw [hall]
    simp only [List.mem_cons]
    tauto

/-- Every unmarked record is retired (R180, step 1). -/
theorem State.Quiet.retireUnmarked_swept {s : State} (h : s.Quiet) : s.Swept s.retireUnmarked slots := by
  obtain ⟨all, hall, hswept⟩ := State.Swept.foldl slots (State.Swept.refl h) (by simpa using slots_nodup)
  have hmem : ∀ p, p ∈ all := fun p => (hall p).2 (.inl (mem_slots p))
  obtain ⟨hgone, hkept, hdead, hquiet, hnote, hframe⟩ := hswept
  rw [State.retireUnmarked_eq]
  refine ⟨fun p _ => hgone p (hmem p), fun p hp => hkept p fun hc => hp ⟨mem_slots p, hc.2⟩, hdead, hquiet, ?_,
    hframe⟩
  simpa only [hmem, mem_slots, true_and] using hnote

/-! ### The partners set afresh (R180, step 2) -/

/-- A change of the records in a list of distinct slots, each slot by its own function. -/
theorem State.slot_foldl_update_each (f : Slot → Record → Record) (l : List Slot) (hl : l.Nodup) (q : Slot) :
    ∀ s : State, (l.foldl (fun s p => s.update p (f p)) s).slot q =
      if q ∈ l then (s.slot q).mapLive (f q) else s.slot q := by
  induction l with
  | nil => simp
  | cons p l ih =>
    intro s
    obtain ⟨hp, hl⟩ := List.nodup_cons.1 hl
    rw [List.foldl_cons, ih hl, State.slot_update]
    by_cases hq : p = q
    · subst hq
      simp [hp]
    · simp [hq, Ne.symm hq]

/-- A change of the records in a list of slots that no reference, state or tenant sees leaves everything but the
table and PSEL's contest alone. -/
theorem State.foldl_update_frame (f : Slot → Record → Record)
    (hf : ∀ p r, (f p r).ref = r.ref ∧ (f p r).state = r.state ∧ (f p r).tenant = r.tenant) (l : List Slot) :
    ∀ s : State, l.foldl (fun s p => s.update p (f p)) s =
      { s with
        ccc.table := (l.foldl (fun s p => s.update p (f p)) s).ccc.table
        psel.leaves := (l.foldl (fun s p => s.update p (f p)) s).psel.leaves
        psel.nodes := (l.foldl (fun s p => s.update p (f p)) s).psel.nodes } := by
  induction l with
  | nil => exact fun s => rfl
  | cons p l ih =>
    intro s
    have hindex : (s.update p (f p)).ccc.index = s.ccc.index := State.update_index_same fun r => (hf p r).1
    have hqueued : (s.update p (f p)).psel.queued = s.psel.queued := State.update_queued_same fun r => (hf p r).2
    have hone : s.update p (f p) =
        { s with
          ccc.table := (s.update p (f p)).ccc.table, psel.leaves := (s.update p (f p)).psel.leaves
          psel.nodes := (s.update p (f p)).psel.nodes } := by
      simp [State.eq_iff, Ccc.eq_iff, Psel.eq_iff, hindex, hqueued]
    have hrest := ih (s.update p (f p))
    rw [List.foldl_cons]
    generalize l.foldl (fun s p => s.update p (f p)) (s.update p (f p)) = t at hrest ⊢
    rw [hrest, hone]

theorem State.foldl_update_leavesExact (f : Slot → Record → Record) (l : List Slot) :
    ∀ {s : State}, s.LeavesExact → (l.foldl (fun s p => s.update p (f p)) s).LeavesExact := by
  induction l with
  | nil => exact fun h => h
  | cons p l ih => exact fun h => ih (State.update_leavesExact h p (f p))

/-- Which two records AUDIT-END links (R180). -/
theorem mayLink_iff {a b : Record} :
    mayLink a b = true ↔
      a.auditPartner = b.ref ∧ b.auditPartner = a.ref ∧ a.leg ≠ b.leg
        ∧ ((a.state = .held ∧ (b.state = .held ∨ b.onHeadset)) ∨ (a.onHeadset ∧ b.state = .held)) := by
  simp [mayLink, and_assoc]

/-- A record is linked with the other record that it names and that names it (R180). -/
theorem State.linkOf_eq_some {s : State} (h : s.IndexExact) {p q : Slot} {a : Record}
    (ha : s.record? p = some a) :
    s.linkOf p = some q ↔ ∃ b, s.record? q = some b ∧ mayLink a b = true := by
  simp only [State.linkOf, ha, Option.filter_eq_some_iff, h.lookup_eq_some, Bool.and_eq_true, decide_eq_true_eq,
    Option.any_eq_true]
  constructor
  · rintro ⟨-, -, b, hb, hlink⟩
    exact ⟨b, hb, hlink⟩
  · rintro ⟨b, hb, hlink⟩
    obtain ⟨hname, -, hleg, -⟩ := mayLink_iff.1 hlink
    refine ⟨?_, ?_, b, hb, hlink⟩
    · rw [State.record?_eq_some.1 hb, hname]
      rfl
    · rintro rfl
      rw [ha] at hb
      cases hb
      exact hleg rfl

/-- What AUDIT-END makes of a record that it keeps, with `x` as its partner (R180). -/
def Record.audited (r : Record) (x : Option Slot) : Record :=
  { r with partner := x, marked := false, auditPartner := 0 }

/-- The partners are set afresh slot by slot. -/
theorem State.relink_eq (s : State) :
    s.relink = slots.foldl (fun t p => t.update p fun r => { r with partner := s.linkOf p }) s := by
  unfold State.relink
  with_reducible rfl

theorem State.clearMarks_eq (s : State) :
    s.clearMarks =
      slots.foldl (fun t p => t.update p fun r => { r with marked := false, auditPartner := 0 }) s := by
  unfold State.clearMarks
  with_reducible rfl

/-- The linking and the clearing of the marks, slot by slot (R180, steps 2 and 3). -/
theorem State.slot_relink_clearMarks (s : State) (q : Slot) :
    s.relink.clearMarks.slot q = (s.slot q).mapLive fun r => r.audited (s.linkOf q) := by
  rw [State.slot_clearMarks, State.relink_eq,
    State.slot_foldl_update_each (fun p r => { r with partner := s.linkOf p }) slots slots_nodup q s,
    if_pos (mem_slots q)]
  cases s.slot q <;> rfl

/-- The linking and the clearing of the marks leave everything but the table and PSEL's contest alone. -/
theorem State.relink_clearMarks_frame (s : State) :
    s.relink.clearMarks =
      { s with
        ccc.table := s.relink.clearMarks.ccc.table, psel.leaves := s.relink.clearMarks.psel.leaves
        psel.nodes := s.relink.clearMarks.psel.nodes } := by
  have hrelink := State.foldl_update_frame (fun p r => { r with partner := s.linkOf p })
    (fun _ _ => ⟨rfl, rfl, rfl⟩) slots s
  have hmarks := State.foldl_update_frame (fun _ r => { r with marked := false, auditPartner := 0 })
    (fun _ _ => ⟨rfl, rfl, rfl⟩) slots s.relink
  rw [← State.relink_eq] at hrelink
  rw [← State.clearMarks_eq] at hmarks
  generalize s.relink.clearMarks = t at hmarks ⊢
  generalize s.relink = u at hmarks hrelink
  rw [hmarks, hrelink]

theorem State.relink_clearMarks_exact {s : State} (hi : s.IndexExact) (hl : s.LeavesExact) (hc : s.CountsExact) :
    s.relink.clearMarks.IndexExact ∧ s.relink.clearMarks.LeavesExact ∧ s.relink.clearMarks.CountsExact := by
  have hframe := State.relink_clearMarks_frame s
  have hslot := State.slot_relink_clearMarks s
  have hleaves : s.relink.LeavesExact := by
    rw [State.relink_eq]
    exact State.foldl_update_leavesExact (fun p r => { r with partner := s.linkOf p }) slots hl
  have hexact := State.clearMarks_leavesExact hleaves
  generalize s.relink.clearMarks = t at hframe hslot hexact ⊢
  refine ⟨hi.congr (by rw [hframe]) fun q => ?_, hexact, hc.congr (by rw [hframe]) fun q => ?_⟩
  · rw [hslot]
    cases s.slot q <;> rfl
  · rw [hslot]
    cases s.slot q <;> rfl

/-! ### AUDIT-END as a whole (R180) -/

/-- AUDIT-END is handed on to its owner. -/
theorem exec_auditEnd_eq (s : State) :
    exec .auditEnd s = .next (s.handOn (· = kindAuditEnd) State.takeEnd) := rfl

/-- The state in which an AUDIT-END has retired, linked and ended the resync, before the close. -/
def State.audited (s : State) : State :=
  { s.retireUnmarked.relink.clearMarks with ccc.resync := false }

theorem State.takeEnd_resync {s : State} (h : s.ccc.resync = true) (b : List Byte) :
    s.takeEnd b = s.audited.closeIfEmpty.reply (.ack (tagOf b) (refOf b) false) := by
  unfold State.takeEnd State.audited
  rw [if_pos h]

theorem State.takeEnd_idle {s : State} (h : s.ccc.resync = false) (b : List Byte) :
    s.takeEnd b = s.reply (.ack (tagOf b) (refOf b) false) := by
  unfold State.takeEnd
  rw [if_neg (by simp [h])]

/-- `u` is `s` after an AUDIT-END in a resync, before the close: unmarked records are retired, the others keep
all but their partner and their marks (R180). -/
structure State.Audits (s u : State) : Prop where
  unmarked : ∀ p r, s.record? p = some r → r.marked = false → u.slot p = .free ∧ u.timer p = Timer.stopped
  marked : ∀ p r, s.record? p = some r → r.marked = true → u.timer p = s.timer p
    ∧ ∃ x, u.slot p = .live (r.audited x) ∧ ∀ q, x = some q ↔
      ∃ v, s.record? q = some v ∧ v.marked = true ∧ mayLink r v = true
  dead : ∀ p, s.record? p = none → u.slot p = .free ∧ u.timer p = s.timer p
  note : u.ccc.note =
    if ∃ p, ∃ r ∈ s.record? p, r.marked = false ∧ r.onHeadset = true then none else s.ccc.note
  index : u.IndexExact
  leaves : u.LeavesExact
  counts : u.CountsExact
  frame : u = { s with
    ccc.table := u.ccc.table, ccc.index := u.ccc.index, ccc.note := u.ccc.note, ccc.resync := false
    psel.leaves := u.psel.leaves, psel.nodes := u.psel.nodes, psel.queued := u.psel.queued
    tbt.timers := u.tbt.timers }

/-- A record kept by the sweep is linked with the marked record that it names and that names it (R180). -/
theorem State.Swept.linkOf_eq_some {s t : State} (h : s.Swept t slots) {p q : Slot} {r : Record}
    {x : Option Slot} (hr : t.record? p = some { r with partner := x }) :
    t.linkOf p = some q ↔ ∃ v, s.record? q = some v ∧ v.marked = true ∧ mayLink r v = true := by
  have hpartner : ∀ (a b : Record) (x y : Option Slot),
      mayLink { a with partner := x } { b with partner := y } = mayLink a b := fun _ _ _ _ => rfl
  rw [State.linkOf_eq_some h.quiet.index hr]
  constructor
  · rintro ⟨b, hb, hlink⟩
    rcases hv : s.record? q with _ | v
    · simp [State.record?, h.dead q hv] at hb
    · cases hm : v.marked
      · have hgone := (h.gone q (mem_slots q) ((State.unmarked_iff hv).2 hm)).1
        simp [State.record?, hgone] at hb
      · obtain ⟨y, hy⟩ := (h.kept q fun hc => by simp [(State.unmarked_iff hv).1 hc.2] at hm).2 v hv
        rw [State.record?_eq_some, hy] at hb
        cases hb
        exact ⟨v, rfl, hm, (hpartner r v x y).symm.trans hlink⟩
  · rintro ⟨v, hv, hm, hlink⟩
    obtain ⟨y, hy⟩ := (h.kept q fun hc => by simp [(State.unmarked_iff hv).1 hc.2] at hm).2 v hv
    exact ⟨_, State.record?_eq_some.2 hy, (hpartner r v x y).trans hlink⟩

/-- Everything an AUDIT-END does in a resync, before the close (R180). -/
theorem State.Quiet.audited_audits {s : State} (h : s.Quiet) : s.Audits s.audited := by
  have hswept := h.retireUnmarked_swept
  have hslot := State.slot_relink_clearMarks s.retireUnmarked
  have hframe := State.relink_clearMarks_frame s.retireUnmarked
  obtain ⟨hi, hl, hc⟩ := State.relink_clearMarks_exact hswept.quiet.index hswept.quiet.leaves hswept.quiet.counts
  unfold State.audited
  generalize s.retireUnmarked.relink.clearMarks = u at hslot hframe hi hl hc ⊢
  generalize s.retireUnmarked = t at hswept hslot hframe
  have htimer : ∀ p, u.timer p = t.timer p := fun p => by
    unfold State.timer
    rw [hframe]
  have hnote : u.ccc.note = t.ccc.note := by rw [hframe]
  refine ⟨fun p r hr hm => ?_, fun p r hr hm => ?_, fun p hr => ?_, ?_, hi, hl, hc, ?_⟩
  · obtain ⟨hfree, hstop⟩ := hswept.gone p (mem_slots p) ((State.unmarked_iff hr).2 hm)
    exact ⟨(hslot p).trans (by rw [hfree]; rfl), (htimer p).trans hstop⟩
  · obtain ⟨hkeep, hrecord⟩ := hswept.kept p fun hc => by simp [(State.unmarked_iff hr).1 hc.2] at hm
    obtain ⟨x, hx⟩ := hrecord r hr
    exact ⟨(htimer p).trans hkeep, t.linkOf p, (hslot p).trans (by rw [hx]; rfl),
      fun q => hswept.linkOf_eq_some (State.record?_eq_some.2 hx)⟩
  · have hun : ¬ s.unmarked p = true := by simp [State.unmarked, hr]
    exact ⟨(hslot p).trans (by rw [hswept.dead p hr]; rfl),
      (htimer p).trans (hswept.kept p fun hc => hun hc.2).1⟩
  · have h1 := hswept.note
    simp only [mem_slots, true_and] at h1
    exact hnote.trans h1
  · have h1 := hswept.frame
    rw [hframe, h1]

/-- The outcome note goes exactly where the headset record is unmarked (R24, R62). -/
theorem State.HeadsetAlone.unmarked_iff {s : State} (h : s.HeadsetAlone) :
    (∃ p, ∃ r ∈ s.record? p, r.marked = false ∧ r.onHeadset = true) ↔
      ∃ p ∈ s.headset, ∃ r ∈ s.record? p, r.marked = false := by
  constructor
  · rintro ⟨p, r, hr, hm, hhead⟩
    refine ⟨p, State.headset_eq_some hr hhead fun q hq v hv => ?_, r, hr, hm⟩
    cases hv' : v.onHeadset
    · rfl
    · exact absurd (h p r hr hhead q v hv hv') hq
  · rintro ⟨p, hp, r, hr, hm⟩
    obtain ⟨r', hr', hhead⟩ := State.headset_some hp
    rw [Option.mem_def.1 hr] at hr'
    cases hr'
    exact ⟨p, r, hr, hm, hhead⟩

/-- The close at the end of the step, and the ACK after it. -/
theorem State.closeIfEmpty_reply_frame (s : State) (x : Reply) :
    s.closeIfEmpty.reply x =
      { s with
        pos.state := s.closeIfEmpty.pos.state, sli.posNotice := s.closeIfEmpty.sli.posNotice
        sli.replies := s.sli.replies ++ [x] } := by
  rcases State.closeIfEmpty_cases s with e | ⟨-, -, e⟩ <;> rw [e] <;> rfl

/-- A reply is not seen by the close. -/
theorem State.Closes.reply {s t : State} (h : s.Closes t) (x : Reply) : s.Closes (t.reply x) := h

/-- Settles O52: in a resync no order is pending, so the sweep retires the unmarked records one by one, and the
links are set by the table that it leaves. -/
theorem auditEndRetiresAndLinks : Obligations.AuditEndRetiresAndLinks := by
  intro s b rest hm s0
  let s1 : State := { s with sli.inbound := rest }
  refine ⟨fun hres => handsOn_of (exec_auditEnd_eq s) hm ?_, fun hres hlaw => handsOn_of (exec_auditEnd_eq s) hm ?_⟩
  · rw [State.takeEnd_idle (s := s1) hres]
    rfl
  · rw [State.takeEnd_resync (s := s1) hres]
    have hquiet := hlaw.quiet (State.isHeld_iff.2 (.inr hres))
    have haudits : s1.Audits s1.audited := State.Quiet.audited_audits
      ⟨hquiet.order, hquiet.lock, hquiet.dead, hquiet.index, hquiet.leaves, hquiet.counts⟩
    obtain ⟨⟨-, -, halone, -, -, -, -, -, -, hclaims, -⟩, -⟩ := hlaw
    have halone : s1.HeadsetAlone := halone
    have hclaim := hquiet.claim_none hclaims
    have hpos : s1.audited.pos.state = s.pos.state := by rw [haudits.frame]
    have hposNotice : s1.audited.sli.posNotice = s.sli.posNotice := by rw [haudits.frame]
    have hcloses := (State.closeIfEmpty_closes (s := s) hpos hposNotice).reply (.ack (tagOf b) (refOf b) false)
    have hreply := State.closeIfEmpty_reply_frame s1.audited (.ack (tagOf b) (refOf b) false)
    generalize s1.audited.closeIfEmpty.reply (.ack (tagOf b) (refOf b) false) = u at hcloses hreply ⊢
    generalize s1.audited = v at haudits hreply
    have hslot : ∀ p, u.slot p = v.slot p := fun p => by rw [hreply]; rfl
    have htimer : ∀ p, u.timer p = v.timer p := fun p => by rw [hreply]; rfl
    have hccc : u.ccc = v.ccc := by rw [hreply]
    have hpsel : u.psel = v.psel := by rw [hreply]
    refine ⟨fun p r hr => ⟨fun hmark => ?_, fun hmark => ?_⟩, fun p hr => ?_, ?_, ?_, ?_, ?_, ?_, ?_, hcloses, ?_⟩
    · obtain ⟨hfree, hstop⟩ := haudits.unmarked p r hr hmark
      exact ⟨(hslot p).trans hfree, (htimer p).trans hstop⟩
    · obtain ⟨hkeep, x, hx, hlink⟩ := haudits.marked p r hr hmark
      refine ⟨(htimer p).trans hkeep, r.audited x, State.record?_eq_some.2 ((hslot p).trans hx), rfl,
        fun q => (hlink q).trans ?_⟩
      simp only [mayLink_iff]
      rfl
    · obtain ⟨hfree, hkeep⟩ := haudits.dead p hr
      exact ⟨(hslot p).trans hfree, (htimer p).trans hkeep⟩
    · rw [hccc, haudits.frame]
    · rw [hccc, haudits.frame]
      exact hclaim
    · rw [hccc, haudits.note]
      exact if_congr halone.unmarked_iff rfl rfl
    · exact haudits.index.congr (by rw [hccc]) fun q => by rw [hslot]
    · intro q
      rw [hpsel, hslot]
      exact haudits.leaves q
    · exact haudits.counts.congr (by rw [hpsel]) fun q => by rw [hslot]
    · have hframe := haudits.frame
      rw [hreply, hframe]

end Sys2Proof.Machine
end

