-- ==== Sys2Proof/Proofs/SelectionTree.lean ====
section
/-! PROOFS. The selection tree (R78, R79): a node names a leaf below it, so a leaf that changes is seen by the
nodes on its path alone, and the replay of that path decides the whole tree again. -/

namespace Sys2Proof.Machine

/-! ### Nodes above nodes -/

/-- Node `n` is node `m` or stands above it: halving `m` leads to `n`. -/
def Above (n m : Nat) : Prop := ∃ k, m / 2 ^ k = n

theorem Above.refl (n : Nat) : Above n n := ⟨0, by simp⟩

theorem above_iff {n m : Nat} : Above n m ↔ m = n ∨ Above n (m / 2) := by
  constructor
  · rintro ⟨_ | k, h⟩
    · exact .inl (by simpa using h)
    · exact .inr ⟨k, by rw [Nat.div_div_eq_div_mul, ← Nat.pow_succ', h]⟩
  · rintro (rfl | ⟨k, h⟩)
    · exact Above.refl _
    · exact ⟨k + 1, by rw [← h, Nat.div_div_eq_div_mul, ← Nat.pow_succ']⟩

/-- What stands below a child stands below its parent. -/
theorem Above.parent {c n m : Nat} (h : Above c m) (hc : c / 2 = n) : Above n m := by
  obtain ⟨k, h⟩ := h
  exact ⟨k + 1, by rw [← hc, ← h, Nat.div_div_eq_div_mul, ← Nat.pow_succ]⟩

/-- What stands strictly below a node stands below one of its children. -/
theorem Above.child {n m : Nat} (h : Above n m) (hne : m ≠ n) : Above (2 * n) m ∨ Above (2 * n + 1) m := by
  obtain ⟨_ | k, h⟩ := h
  · exact absurd (by simpa using h) hne
  · have hk : m / 2 ^ k / 2 = n := by rw [Nat.div_div_eq_div_mul, ← Nat.pow_succ, h]
    rcases Nat.mod_two_eq_zero_or_one (m / 2 ^ k) with hmod | hmod
    · exact .inl ⟨k, by omega⟩
    · exact .inr ⟨k, by omega⟩

/-- The place 0, which halving the root gives, has no node above it. -/
theorem above_zero {n : Nat} : Above n 0 ↔ n = 0 := by
  simp [Above, eq_comm]

/-- A leaf's place stands above no leaf but its own. -/
theorem Above.leaf {c : Nat} {p : Slot} (h : Above c (64 + p.val)) (hc : 64 ≤ c) : c = 64 + p.val := by
  rcases above_iff.1 h with rfl | ⟨k, hk⟩
  · rfl
  · have hle := Nat.div_le_self ((64 + p.val) / 2) (2 ^ k)
    have hp := p.isLt
    omega

/-- The root stands above every leaf. -/
theorem above_root (p : Slot) : Above 1 (64 + p.val) := ⟨6, by have := p.isLt; omega⟩

/-- What holds at every leaf, and at a node where it holds at both children, holds in the whole tree. -/
theorem tree_induction {P : Nat → Prop} (leaf : ∀ p : Slot, P (64 + p.val))
    (node : ∀ n, 1 ≤ n → n < 64 → P (2 * n) → P (2 * n + 1) → P n) : ∀ c, 1 ≤ c → c < 128 → P c := by
  have key : ∀ k c, 1 ≤ c → c + k = 127 → P c := by
    intro k
    induction k using Nat.strong_induction_on with
    | h k ih =>
      intro c hpos hk
      by_cases hc : c < 64
      · exact node c hpos hc (ih (127 - 2 * c) (by omega) _ (by omega) (by omega))
          (ih (127 - (2 * c + 1)) (by omega) _ (by omega) (by omega))
      · have hleaf := leaf ⟨c - 64, by omega⟩
        rwa [show 64 + (c - 64) = c by omega] at hleaf
  exact fun c hpos hc => key (127 - c) c hpos (by omega)

/-! ### What a child yields -/

section

variable {leaves leaves' : Vector (Option QueueFields) 64} {nodes : Vector (Option Slot) 63}

theorem childWinner_leaf (p : Slot) :
    childWinner leaves nodes (64 + p.val) = if leaves[p].isSome then some p else none := by
  have hp : 64 + p.val < 128 := by have := p.isLt; omega
  simp [childWinner, hp]

theorem childWinner_node {n : Nat} (h : n < 64) : childWinner leaves nodes n = nodes[n - 1]?.join := by
  unfold childWinner
  rw [dif_neg (by omega)]

/-- The winner of two children is one of them. -/
theorem winner_eq_some {x y : Option Slot} {q : Slot} (h : winner leaves x y = some q) :
    x = some q ∨ y = some q := by
  unfold winner at h
  split at h
  · exact .inr h
  · exact .inl h
  · split at h
    · split at h
      · exact .inl h
      · exact .inr h
    · exact .inl h
    · exact .inr h

/-- The winner of two children reads their leaves alone. -/
theorem winner_congr {x y : Option Slot} (h : ∀ q, x = some q ∨ y = some q → leaves'[q] = leaves[q]) :
    winner leaves' x y = winner leaves x y := by
  rcases x with _ | p
  · rfl
  · rcases y with _ | q
    · rfl
    · simp only [winner, h p (.inl rfl), h q (.inr rfl)]

/-- The decision of a node reads its two children alone. -/
theorem decideNode_congr {nodes' : Vector (Option Slot) 63} {n : Nat}
    (hleft : childWinner leaves nodes' (2 * n) = childWinner leaves nodes (2 * n))
    (hright : childWinner leaves nodes' (2 * n + 1) = childWinner leaves nodes (2 * n + 1)) :
    decideNode leaves nodes' n = decideNode leaves nodes n := by
  rw [decideNode, hleft, hright, decideNode]

/-! ### Nodes decided -/

/-- Internal node `n` holds what deciding it afresh gives (R79). -/
def DecidedAt (leaves : Vector (Option QueueFields) 64) (nodes : Vector (Option Slot) 63) (n : Nat) : Prop :=
  childWinner leaves nodes n = decideNode leaves nodes n

theorem Psel.decided_iff {ps : Psel} :
    ps.Decided ↔ ∀ n, 1 ≤ n → n < 64 → DecidedAt ps.leaves ps.nodes n := by
  constructor
  · intro h n hpos hn
    have hnode : ps.nodes[n - 1] = decideNode ps.leaves ps.nodes (n - 1 + 1) := h ⟨n - 1, by omega⟩
    rw [Nat.sub_add_cancel hpos] at hnode
    rw [DecidedAt, childWinner_node hn, Vector.getElem?_eq_getElem (by omega), hnode]
    rfl
  · intro h i
    have hnode := h (i.val + 1) (by omega) (by omega)
    rw [DecidedAt, childWinner_node (by omega), Nat.add_sub_cancel, Vector.getElem?_eq_getElem i.isLt] at hnode
    exact hnode

/-- Every node that does not stand above node `m` is decided. -/
def DecidedOff (leaves : Vector (Option QueueFields) 64) (nodes : Vector (Option Slot) 63) (m : Nat) : Prop :=
  ∀ n, 1 ≤ n → n < 64 → ¬ Above n m → DecidedAt leaves nodes n

/-- A node that yields a slot has that slot's leaf below it, where every node off the path of `m` is
decided. -/
theorem DecidedOff.above_winner {m : Nat} (h : DecidedOff leaves nodes m) :
    ∀ c, 1 ≤ c → c < 128 → ¬ Above c m → ∀ q : Slot, childWinner leaves nodes c = some q →
      Above c (64 + q.val) := by
  refine tree_induction (fun p _ q hq => ?_) fun n hpos hn ihl ihr hoff q hq => ?_
  · rw [childWinner_leaf] at hq
    split at hq
    · cases hq
      exact Above.refl _
    · cases hq
  · rw [h n hpos hn hoff] at hq
    rcases winner_eq_some hq with hl | hr
    · exact (ihl (fun hx => hoff (hx.parent (by omega))) q hl).parent (by omega)
    · exact (ihr (fun hx => hoff (hx.parent (by omega))) q hr).parent (by omega)

/-- A change of leaf `p` leaves the nodes off its path decided. -/
theorem DecidedOff.leaf_changed {p : Slot} (h : DecidedOff leaves nodes (64 + p.val))
    (hne : ∀ q, q ≠ p → leaves'[q] = leaves[q]) : DecidedOff leaves' nodes (64 + p.val) := by
  have hchild : ∀ c, ¬ Above c (64 + p.val) → childWinner leaves' nodes c = childWinner leaves nodes c := by
    intro c hoff
    unfold childWinner
    split
    · next hc =>
      have hq : (⟨c - 64, by omega⟩ : Slot) ≠ p := by
        rintro rfl
        exact hoff (by simpa [show 64 + (c - 64) = c by omega] using Above.refl c)
      have hleaf := hne _ hq
      dsimp only
      rw [hleaf]
    · rfl
  intro n hpos hn hoff
  have hoffl : ¬ Above (2 * n) (64 + p.val) := fun hx => hoff (hx.parent (by omega))
  have hoffr : ¬ Above (2 * n + 1) (64 + p.val) := fun hx => hoff (hx.parent (by omega))
  have hread : ∀ c q, c < 128 → 1 ≤ c → ¬ Above c (64 + p.val) → childWinner leaves nodes c = some q →
      leaves'[q] = leaves[q] := by
    rintro c q hc hpos hx hq
    refine hne q ?_
    rintro rfl
    exact hx (h.above_winner c hpos hc hx q hq)
  rw [DecidedAt, hchild n hoff, h n hpos hn hoff, decideNode, decideNode, hchild _ hoffl, hchild _ hoffr]
  refine (winner_congr fun q hq => ?_).symm
  rcases hq with hq | hq
  · exact hread _ q (by omega) (by omega) hoffl hq
  · exact hread _ q (by omega) (by omega) hoffr hq

/-! ### The replay of a path (R79) -/

theorem childWinner_set {m c : Nat} (hm : m - 1 ≠ c - 1) (x : Option Slot) :
    childWinner leaves (nodes.setIfInBounds (m - 1) x) c = childWinner leaves nodes c := by
  unfold childWinner
  split
  · rfl
  · rw [Vector.getElem?_setIfInBounds_ne hm]

/-- Deciding a node of the path moves the undecided part of the tree up by one node. -/
theorem DecidedOff.decide_node {m : Nat} (hpos : 1 ≤ m) (hm : m < 64) (h : DecidedOff leaves nodes m) :
    DecidedOff leaves (nodes.setIfInBounds (m - 1) (decideNode leaves nodes m)) (m / 2) := by
  have hkeep : ∀ c, 1 ≤ c → c ≠ m → ∀ x,
      childWinner leaves (nodes.setIfInBounds (m - 1) x) c = childWinner leaves nodes c :=
    fun c hc hne x => childWinner_set (by omega) x
  intro n hn hlt hoff
  rw [DecidedAt]
  by_cases hnm : n = m
  · subst hnm
    rw [childWinner_node hlt, Vector.getElem?_setIfInBounds_self_of_lt (by omega), Option.join_some,
      decideNode_congr (hkeep _ (by omega) (by omega) _) (hkeep _ (by omega) (by omega) _)]
  · have hoffm : ¬ Above n m := fun hx => (above_iff.1 hx).elim (fun e => hnm e.symm) hoff
    have hne : ∀ c, c / 2 = n → c ≠ m := by
      rintro c rfl rfl
      exact hoff (Above.refl _)
    rw [hkeep n hn hnm, h n hn hlt hoffm,
      decideNode_congr (hkeep _ (by omega) (hne _ (by omega)) _) (hkeep _ (by omega) (hne _ (by omega)) _)]

/-- The replay of a leaf's path decides the whole tree. -/
theorem decidedOff_replay {p : Slot} (h : DecidedOff leaves nodes (64 + p.val)) :
    DecidedOff leaves (replay leaves nodes p) 0 := by
  have hp := p.isLt
  have hstart : DecidedOff leaves nodes ((64 + p.val) / 2) := fun n hn hlt hoff =>
    h n hn hlt fun hx => (above_iff.1 hx).elim (fun e => by omega) hoff
  have hpath : pathNodes p = [(64 + p.val) / 2, (64 + p.val) / 2 / 2, (64 + p.val) / 2 / 2 / 2,
      (64 + p.val) / 2 / 2 / 2 / 2, (64 + p.val) / 2 / 2 / 2 / 2 / 2,
      (64 + p.val) / 2 / 2 / 2 / 2 / 2 / 2] := by
    simp [pathNodes, Nat.div_div_eq_div_mul]
  have hend : (64 + p.val) / 2 / 2 / 2 / 2 / 2 / 2 / 2 = 0 := by omega
  rw [replay, hpath, ← hend]
  exact (((((hstart.decide_node (by omega) (by omega)).decide_node (by omega) (by omega)).decide_node
    (by omega) (by omega)).decide_node (by omega) (by omega)).decide_node (by omega) (by omega)).decide_node
    (by omega) (by omega)

end

theorem Psel.decided_iff_off_zero {ps : Psel} : ps.Decided ↔ DecidedOff ps.leaves ps.nodes 0 := by
  rw [Psel.decided_iff]
  refine ⟨fun h n hn hlt _ => h n hn hlt, fun h n hn hlt => h n hn hlt fun hx => ?_⟩
  rw [above_zero] at hx
  omega

/-- A leaf that is written, its path replayed, leaves the tree decided (R79). -/
theorem Psel.Decided.setLeaf {ps : Psel} (h : ps.Decided) (p : Slot) (l : Option QueueFields) :
    (ps.setLeaf p l).Decided := by
  unfold Psel.setLeaf
  split
  · exact h
  · have hoff : DecidedOff ps.leaves ps.nodes (64 + p.val) := fun n hn hlt _ => Psel.decided_iff.1 h n hn hlt
    refine Psel.decided_iff_off_zero.2 (decidedOff_replay (hoff.leaf_changed fun q hq => ?_))
    have hv : p.val ≠ q.val := fun e => hq (Fin.ext e.symm)
    simp [hv]

/-- The tree reads the leaves and the nodes alone. -/
theorem Psel.Decided.congr {a b : Psel} (h : a.Decided) (hleaves : b.leaves = a.leaves)
    (hnodes : b.nodes = a.nodes) : b.Decided := by
  rw [Psel.Decided, hleaves, hnodes]
  exact h

/-- A write to a slot leaves the tree decided (R79). -/
theorem State.put_decided {s : State} (h : s.psel.Decided) (p : Slot) (c : SlotState) :
    (s.put p c).psel.Decided := by
  rw [State.put_psel]
  exact Psel.Decided.setLeaf (h.congr (by simp) (by simp)) p c.leaf

end Sys2Proof.Machine
end

