-- ==== Sys2Proof/Proofs/HeadOrder.lean ====
section
/-! PROOFS. The head (R81): a decided node yields, of the occupied leaves below it, the one that leads all the
others in any relation that the comparisons of R76 imply and that is transitive on the occupied leaves. -/

namespace Sys2Proof.Machine

/-- Of two leaves of different slots one comes first (R76). -/
theorem comesFirst_total {a b : QueueFields} {p q : Slot} (hpq : p ≠ q) (h : comesFirst a p b q = false) :
    comesFirst b q a p = true := by
  have hnot : ¬ comesFirst a p b q = true := by simp [h]
  have ha := a.seq.isLt
  have hb := b.seq.isLt
  have hv : p.val ≠ q.val := fun e => hpq (Fin.ext e)
  rw [comesFirst_iff] at hnot ⊢
  simp only [Fin.lt_def] at hnot ⊢
  omega

/-! ### Leading -/

/-- A relation between leaves, each named with its slot. -/
abbrev LeafOrder := QueueFields → Slot → QueueFields → Slot → Prop

/-- The relation holds wherever the comparison of R76 does. -/
def LeafOrder.Weakens (r : LeafOrder) : Prop := ∀ a p b q, comesFirst a p b q = true → r a p b q

/-- The relation is transitive on the occupied leaves. -/
def Psel.Consistent (ps : Psel) (r : LeafOrder) : Prop :=
  ∀ x y z : Slot, ∀ i ∈ ps.leaves[x], ∀ j ∈ ps.leaves[y], ∀ k ∈ ps.leaves[z],
    r i x j y → r j y k z → r i x k z

/-- Slots `x` and `y` are the same, or their leaves are occupied and `r` holds of them. -/
def Psel.Leads (ps : Psel) (r : LeafOrder) (x y : Slot) : Prop :=
  x = y ∨ ∃ i ∈ ps.leaves[x], ∃ j ∈ ps.leaves[y], r i x j y

section

variable {ps : Psel} {r : LeafOrder}

theorem Psel.Leads.trans (hr : ps.Consistent r) {x y z : Slot} (hxy : ps.Leads r x y)
    (hyz : ps.Leads r y z) : ps.Leads r x z := by
  rcases hxy with rfl | ⟨i, hi, j, hj, hij⟩
  · exact hyz
  · rcases hyz with rfl | ⟨j', hj', k, hk, hjk⟩
    · exact .inr ⟨i, hi, j, hj, hij⟩
    · obtain rfl : j = j' := Option.mem_unique hj hj'
      exact .inr ⟨i, hi, k, hk, hr x y z i hi j hj k hk hij hjk⟩

/-- The winner of two children leads each of them. -/
theorem winner_pair_leads (hr : r.Weakens) {x y : Option Slot} (hx : ∀ p ∈ x, ps.leaves[p].isSome)
    (hy : ∀ q ∈ y, ps.leaves[q].isSome) {z : Slot} (hz : x = some z ∨ y = some z) :
    ∃ w, winner ps.leaves x y = some w ∧ ps.Leads r w z := by
  rcases x with _ | p
  · exact ⟨z, by simpa [winner] using hz, .inl rfl⟩
  rcases y with _ | q
  · exact ⟨z, by simpa [winner] using hz, .inl rfl⟩
  obtain ⟨a, ha⟩ := Option.isSome_iff_exists.1 (hx p rfl)
  obtain ⟨b, hb⟩ := Option.isSome_iff_exists.1 (hy q rfl)
  have hz : p = z ∨ q = z := by simpa using hz
  have hwinner : winner ps.leaves (some p) (some q) = if comesFirst a p b q then some p else some q := by
    simp only [winner, ha, hb]
  rw [hwinner]
  cases hfirst : comesFirst a p b q with
  | true =>
    refine ⟨p, rfl, hz.imp id ?_⟩
    rintro rfl
    exact ⟨a, ha, b, hb, hr a p b q hfirst⟩
  | false =>
    refine ⟨q, rfl, ?_⟩
    rcases hz with rfl | rfl
    · by_cases hpq : p = q
      · exact .inl hpq.symm
      · exact .inr ⟨b, hb, a, ha, hr b q a p (comesFirst_total hpq hfirst)⟩
    · exact .inl rfl

/-! ### What a node of a decided tree yields -/

/-- A node of a decided tree yields the winner of its children (R78, R79). -/
theorem Psel.Decided.childWinner_eq (h : ps.Decided) {n : Nat} (hpos : 1 ≤ n) (hn : n < 64) :
    childWinner ps.leaves ps.nodes n =
      winner ps.leaves (childWinner ps.leaves ps.nodes (2 * n)) (childWinner ps.leaves ps.nodes (2 * n + 1)) :=
  Psel.decided_iff.1 h n hpos hn

/-- What a node yields is an occupied leaf. -/
theorem Psel.Decided.winner_occupied (h : ps.Decided) :
    ∀ c, 1 ≤ c → c < 128 → ∀ w ∈ childWinner ps.leaves ps.nodes c, ps.leaves[w].isSome := by
  refine tree_induction (fun p w hw => ?_) fun n hpos hn ihl ihr w hw => ?_
  · rw [childWinner_leaf] at hw
    split at hw
    · next hp =>
      cases hw
      exact hp
    · cases hw
  · rw [h.childWinner_eq hpos hn] at hw
    exact (winner_eq_some hw).elim (ihl w) (ihr w)

/-- What a node yields leads every occupied leaf below it (R76 to R78). -/
theorem Psel.Decided.winner_leads (h : ps.Decided) (hweak : r.Weakens) (hr : ps.Consistent r) :
    ∀ c, 1 ≤ c → c < 128 → ∀ q : Slot, Above c (64 + q.val) → ps.leaves[q].isSome →
      ∃ w, childWinner ps.leaves ps.nodes c = some w ∧ ps.Leads r w q := by
  refine tree_induction (fun p q hq hsome => ?_) fun n hpos hn ihl ihr q hq hsome => ?_
  · obtain rfl : p = q := Fin.ext (by have := hq.leaf (by omega); omega)
    exact ⟨p, by rw [childWinner_leaf, if_pos hsome], .inl rfl⟩
  · have hside : ∃ z, (childWinner ps.leaves ps.nodes (2 * n) = some z
        ∨ childWinner ps.leaves ps.nodes (2 * n + 1) = some z) ∧ ps.Leads r z q := by
      rcases hq.child (by omega) with hq | hq
      · obtain ⟨z, hz, hzq⟩ := ihl q hq hsome
        exact ⟨z, .inl hz, hzq⟩
      · obtain ⟨z, hz, hzq⟩ := ihr q hq hsome
        exact ⟨z, .inr hz, hzq⟩
    obtain ⟨z, hz, hzq⟩ := hside
    rw [h.childWinner_eq hpos hn]
    obtain ⟨w, hw, hwz⟩ := winner_pair_leads hweak (h.winner_occupied (2 * n) (by omega) (by omega))
      (h.winner_occupied (2 * n + 1) (by omega) (by omega)) hz
    exact ⟨w, hw, hwz.trans hr hzq⟩

/-! ### The head (R81) -/

theorem Psel.head_eq (ps : Psel) : childWinner ps.leaves ps.nodes 1 = ps.head := by
  rw [childWinner_node (by omega)]
  exact congrArg Option.join (Vector.getElem?_eq_getElem (by omega : 0 < 63))

/-- The head's leaf is occupied. -/
theorem Psel.Decided.head_occupied (h : ps.Decided) {w : Slot} (hw : ps.head = some w) :
    ps.leaves[w].isSome :=
  h.winner_occupied 1 (by omega) (by omega) w (ps.head_eq.trans hw)

/-- Where a leaf is occupied there is a head, and it leads that leaf. -/
theorem Psel.Decided.head_leads (h : ps.Decided) (hweak : r.Weakens) (hr : ps.Consistent r) {q : Slot}
    (hq : ps.leaves[q].isSome) : ∃ w, ps.head = some w ∧ ps.Leads r w q := by
  rw [← ps.head_eq]
  exact h.winner_leads hweak hr 1 (by omega) (by omega) q (above_root q) hq

/-- The head's leaf relates to every other occupied one. -/
theorem Psel.Decided.head_before (h : ps.Decided) (hweak : r.Weakens) (hr : ps.Consistent r) {w q : Slot}
    (hw : ps.head = some w) (hqw : q ≠ w) {a b : QueueFields} (ha : a ∈ ps.leaves[w])
    (hb : b ∈ ps.leaves[q]) : r a w b q := by
  obtain ⟨w', hw', hlead⟩ := h.head_leads hweak hr (Option.isSome_iff_exists.2 ⟨b, hb⟩)
  obtain rfl : w = w' := Option.some.inj (hw.symm.trans hw')
  rcases hlead with rfl | ⟨i, hi, j, hj, hij⟩
  · exact absurd rfl hqw
  · obtain rfl : a = i := Option.mem_unique ha hi
    obtain rfl : b = j := Option.mem_unique hb hj
    exact hij

end

/-! ### The orders that the head leads -/

/-- The first two tests of R76: a smaller key, or the same key and a wait no smaller. -/
def keyWaitOrder : LeafOrder := fun a _ b _ => a.key ≤ b.key ∧ (a.key = b.key → b.wait ≤ a.wait)

theorem keyWaitOrder_weakens : keyWaitOrder.Weakens := by
  intro a p b q h
  rw [comesFirst_iff] at h
  simp only [keyWaitOrder]
  omega

theorem keyWaitOrder_consistent (ps : Psel) : ps.Consistent keyWaitOrder := by
  intro x y z i _ j _ k _ hij hjk
  simp only [keyWaitOrder] at hij hjk ⊢
  omega

/-- The whole of R76: what `comesFirst` decides. -/
def selectionOrder : LeafOrder := fun a p b q => comesFirst a p b q = true

/-- Settles O8: the head leads every occupied leaf by key and wait, which are transitive of themselves, and by
the whole of R76 where that is. -/
theorem headComesFirst : Obligations.HeadComesFirst := by
  unfold Obligations.HeadComesFirst
  intro ps h
  simp only [← comesFirst_iff]
  refine ⟨⟨fun hnone p => ?_, fun hempty => ?_⟩, fun w hw => ?_⟩
  · by_contra hp
    obtain ⟨w, hw, -⟩ := h.head_leads keyWaitOrder_weakens (keyWaitOrder_consistent ps)
      (Option.isSome_iff_ne_none.2 hp)
    rw [hnone] at hw
    cases hw
  · rcases hw : ps.head with _ | w
    · rfl
    · have hsome := h.head_occupied hw
      rw [hempty w] at hsome
      cases hsome
  · obtain ⟨a, ha⟩ := Option.isSome_iff_exists.1 (h.head_occupied hw)
    refine ⟨a, ha, fun q hqw b hb => ?_⟩
    obtain ⟨hkey, hwait⟩ := h.head_before keyWaitOrder_weakens (keyWaitOrder_consistent ps) hw hqw ha hb
    exact ⟨hkey, hwait, fun hr =>
      h.head_before (r := selectionOrder) (fun _ _ _ _ h => h) hr hw hqw ha hb⟩

end Sys2Proof.Machine
end

