-- ==== Sys2Proof/Proofs/PresentationKept.lean ====
section
/-! PROOFS. The laws of PSEL (R78, R79, R82) under the shared operations. A write to a slot keeps them, and every
operation is made of such writes and of changes that PSEL's leaves, nodes and counts and the call table do not
see. -/

namespace Sys2Proof.Machine

/-! ### The two ways in which the laws are kept -/

/-- The laws read the call table, the leaves, the nodes and the counts alone. -/
theorem State.PresentationLawful.congr {s t : State} (h : s.PresentationLawful)
    (htable : t.ccc.table = s.ccc.table) (hleaves : t.psel.leaves = s.psel.leaves)
    (hnodes : t.psel.nodes = s.psel.nodes) (hqueued : t.psel.queued = s.psel.queued) :
    t.PresentationLawful := by
  obtain ⟨hexact, hdecided, hcounts⟩ := h
  have hslot : ∀ q, t.slot q = s.slot q := fun q => by rw [State.slot, htable, State.slot]
  refine ⟨fun p => ?_, hdecided.congr hleaves hnodes, hcounts.congr hqueued fun q => by rw [hslot]⟩
  rw [hslot, hleaves]
  exact hexact p

/-- A change outside the call table and PSEL keeps the laws. -/
theorem State.PresentationLawful.unseen {s t : State} (h : s.PresentationLawful)
    (htable : t.ccc.table = s.ccc.table) (hpsel : t.psel = s.psel) : t.PresentationLawful :=
  h.congr htable (by rw [hpsel]) (by rw [hpsel]) (by rw [hpsel])

/-- A write to a slot keeps the laws (R78, R79, R82). -/
theorem State.PresentationLawful.put {s : State} (h : s.PresentationLawful) (p : Slot) (c : SlotState) :
    (s.put p c).PresentationLawful :=
  ⟨State.put_leavesExact h.1 p c, State.put_decided h.2.1 p c, State.CountsExact.put h.2.2 p c⟩

/-- A fold of an operation that keeps the laws keeps them. -/
theorem State.PresentationLawful.foldl {α : Type} {f : State → α → State}
    (hf : ∀ t a, t.PresentationLawful → (f t a).PresentationLawful) (l : List α)
    (s : State) (h : s.PresentationLawful) : (l.foldl f s).PresentationLawful :=
  List.foldlRecOn l f h fun t ht a _ => hf t a ht

/-- An empty table and PSEL's reset values keep the laws (R20, R86). -/
theorem State.presentationLawful_of_empty {t : State} (htable : t.ccc.table = Ccc.reset.table)
    (hleaves : t.psel.leaves = Psel.reset.leaves) (hnodes : t.psel.nodes = Psel.reset.nodes)
    (hqueued : t.psel.queued = Psel.reset.queued) : t.PresentationLawful := by
  have hslot : ∀ q, t.slot q = .free := fun q => by simp [State.slot, htable, Ccc.reset]
  refine ⟨fun p => ?_, Psel.Decided.congr (a := Psel.reset) (by decide) hleaves hnodes, fun n => ?_⟩
  · rw [hslot, hleaves]
    simp [Psel.reset, SlotState.leaf]
  · rw [hqueued]
    simp [Psel.reset, State.countQueued, hslot, SlotState.queuedTenant]

namespace State.PresentationLawful

variable {s : State}

/-! ### Records and timers -/

theorem update (h : s.PresentationLawful) (p : Slot) (f : Record → Record) :
    (s.update p f).PresentationLawful := by
  unfold State.update
  split
  · exact h.put p _
  · exact h

theorem setTimer (h : s.PresentationLawful) (p : Slot) (t : Timer) : (s.setTimer p t).PresentationLawful :=
  h.unseen rfl rfl

theorem armTimer (h : s.PresentationLawful) (p : Slot) : (s.armTimer p).PresentationLawful :=
  h.unseen (by simp) (by simp)

theorem enter (h : s.PresentationLawful) (p : Slot) (r : Record) : (s.enter p r).PresentationLawful :=
  (h.put p (.live r)).setTimer p _

/-- A record enters QUEUED: the sequence counter moves, which no law reads (R75). -/
theorem enterQueued (h : s.PresentationLawful) (p : Slot) (r : Record) :
    (s.enterQueued p r).PresentationLawful := by
  have hcounted : State.PresentationLawful { s with psel.seq := s.psel.seq + 1 } := h.congr rfl rfl rfl rfl
  exact hcounted.enter p (s.queuedRecord r)

/-! ### Flags, notices and the position -/

theorem requestChirp (h : s.PresentationLawful) : s.requestChirp.PresentationLawful :=
  h.unseen (by simp) (by simp)

theorem requestRecallTone (h : s.PresentationLawful) : s.requestRecallTone.PresentationLawful :=
  h.unseen rfl rfl

theorem reply (h : s.PresentationLawful) (x : Reply) : (s.reply x).PresentationLawful := h.unseen rfl rfl

theorem linkFault (h : s.PresentationLawful) (k : LinkFault) (ref : Word) :
    (s.linkFault k ref).PresentationLawful := h.unseen rfl rfl

theorem clearNote (h : s.PresentationLawful) : s.clearNote.PresentationLawful := h.unseen rfl rfl

theorem setNote (h : s.PresentationLawful) (n : Note) : (s.setNote n).PresentationLawful := h.unseen rfl rfl

theorem setPosition (h : s.PresentationLawful) (x : PosState) : (s.setPosition x).PresentationLawful :=
  h.unseen (by simp) (by simp)

theorem closeIfEmpty (h : s.PresentationLawful) : s.closeIfEmpty.PresentationLawful :=
  h.unseen (by simp) (by simp)

theorem compareFlow (h : s.PresentationLawful) : s.compareFlow.PresentationLawful :=
  h.unseen (by simp) (by simp)

/-! ### Orders -/

theorem reserveSlot (h : s.PresentationLawful) (p : Slot) (o : Order) :
    (s.reserveSlot p o).PresentationLawful := by
  unfold State.reserveSlot
  split
  · exact h.put _ _
  · exact h

theorem setLock (h : s.PresentationLawful) (q l : Option Slot) : (s.setLock q l).PresentationLawful := by
  cases q with
  | none => exact h
  | some q => exact h.update q _

theorem issueOrder (h : s.PresentationLawful) (p : Slot) (o : Order) :
    (s.issueOrder p o).PresentationLawful :=
  (((h.reserveSlot p o).update p _).setLock o.secondary (some p)).unseen rfl rfl

theorem releaseSlot (h : s.PresentationLawful) (p : Slot) (o : Order) :
    (s.releaseSlot p o).PresentationLawful := by
  unfold State.releaseSlot
  split
  · split
    · exact h.put _ _
    · exact h
  · exact h

theorem dropClaim (h : s.PresentationLawful) (p : Slot) : (s.dropClaim p).PresentationLawful :=
  h.unseen (by simp) (by simp)

theorem withdraw (h : s.PresentationLawful) (p : Slot) (o : Order) : (s.withdraw p o).PresentationLawful :=
  h.unseen (by simp) (by simp)

theorem endOrder (h : s.PresentationLawful) (p : Slot) : (s.endOrder p).PresentationLawful := by
  rcases ho : (s.record? p).bind Record.order with _ | o
  · rwa [State.endOrder_none ho]
  · rw [State.endOrder_steps ho]
    exact ((((h.withdraw p o).releaseSlot p o).setLock o.secondary none).dropClaim p).update p _

theorem cancelOrder (h : s.PresentationLawful) (p : Slot) : (s.cancelOrder p).PresentationLawful := by
  rcases ho : (s.record? p).bind Record.order with _ | o
  · rwa [State.cancelOrder_none ho]
  · rw [State.cancelOrder_eq ho]
    exact (h.endOrder p).setTimer p _

theorem dropAnyClaim (h : s.PresentationLawful) :
    State.PresentationLawful { s with ccc.claim := none } := h.unseen rfl rfl

theorem cancelAll (h : s.PresentationLawful) : s.cancelAll.PresentationLawful := by
  rw [State.cancelAll_eq]
  exact (foldl (fun t p ht => ht.cancelOrder p) slots s h).dropAnyClaim

/-! ### Retirement and resync -/

theorem dropSecondary (h : s.PresentationLawful) (q : Option Slot) :
    (s.dropSecondary q).PresentationLawful := by
  cases q with
  | none => exact h
  | some q =>
    simp only [State.dropSecondary]
    split
    · exact (h.update q _).dropClaim q
    · exact h.update q _

theorem unlinkPartner (h : s.PresentationLawful) (q : Option Slot) :
    (s.unlinkPartner q).PresentationLawful := by
  cases q with
  | none => exact h
  | some q => exact h.update q _

theorem retire (h : s.PresentationLawful) (p : Slot) : (s.retire p).PresentationLawful := by
  rcases hr : s.record? p with _ | r
  · simpa [State.retire, hr] using h
  · rw [State.retire_eq hr]
    exact (((((h.endOrder p).dropSecondary r.lock).unlinkPartner r.partner).setTimer p
      Timer.stopped).put p .free).unseen rfl rfl

theorem clearMarks (h : s.PresentationLawful) : s.clearMarks.PresentationLawful := by
  unfold State.clearMarks
  exact foldl (fun _ p ht => ht.update p _) slots s h

theorem setResync (h : s.PresentationLawful) (b : Bool) :
    State.PresentationLawful { s with ccc.resync := b } := h.unseen rfl rfl

theorem requestAudit (h : s.PresentationLawful) :
    State.PresentationLawful { s with sli.auditNotice := true } := h.unseen rfl rfl

theorem enterResync (h : s.PresentationLawful) : s.enterResync.PresentationLawful := by
  cases hr : s.ccc.resync with
  | true => rwa [State.enterResync_again hr]
  | false =>
    rw [State.enterResync_eq hr]
    exact (h.setResync true).cancelAll.clearMarks.requestAudit

theorem orderFault (h : s.PresentationLawful) (k : OrderFault) (ref : Word) :
    (s.orderFault k ref).PresentationLawful := by
  have hnotice : (s.orderNotice k ref).PresentationLawful := h.unseen rfl rfl
  unfold State.orderFault
  exact hnotice.enterResync

theorem linkDown (h : s.PresentationLawful) : s.linkDown.PresentationLawful := by
  have hdown : State.PresentationLawful { s with sli.link := .down, sli.haltedBy := false } :=
    h.unseen rfl rfl
  exact cancelAll hdown

theorem linkAlive (h : s.PresentationLawful) : s.linkAlive.PresentationLawful := by
  have hup : State.PresentationLawful { s with sli.supCount := 0, sli.link := .up } := h.unseen rfl rfl
  unfold State.linkAlive
  split
  · exact hup.enterResync
  · exact h.unseen rfl rfl

end State.PresentationLawful

end Sys2Proof.Machine
end

