-- ==== Sys2Proof/Proofs/PresentationSteps.lean ====
section
/-! PROOFS. Every command keeps the laws of PSEL (R78, R79, R82): each is made of the operations of
PresentationKept.lean, taken branch by branch. -/

namespace Sys2Proof.Machine

/-! ### Commands that stand unnamed in the model -/

/-- PSEL's working settings copied from POS (R69). -/
def State.copyWorking (s : State) : State := { s with psel.working := s.pos.working }

/-- What AGING_TICK leaves (R69, R73). -/
def State.agingDone (s : State) : State :=
  if s.isHeld then s.copyWorking else slots.foldl State.ageSlot s.copyWorking

theorem exec_agingTick_eq (s : State) : exec .agingTick s = .next s.agingDone := rfl

theorem exec_custodyCountTick_eq (s : State) :
    exec .custodyCountTick s =
      .next (if s.isHeld then s else slots.foldl (fun s p => s.setTimer p (s.timer p).count) s) := by
  unfold exec execCustodyCountTick
  with_reducible rfl

/-- What TRANSMIT_END leaves (R54, R170). -/
def State.endTransmission (s : State) : State :=
  match s.sli.sending with
  | none => s
  | some m =>
    let s := { s with sli.sending := none, pins.txd := m.left.map charLevels }
    match m.owner with
    | some p => s.orderSent p
    | none => s

theorem exec_transmitEnd_eq (s : State) : exec .transmitEnd s = .next s.endTransmission := rfl

namespace State.PresentationLawful

variable {s : State}

/-! ### How a command takes its key or its message -/

/-- A message handed on keeps the laws where its owner does (R166). -/
theorem handOn (h : s.PresentationLawful) (ours : Byte → Bool) {take : List Byte → State → State}
    (htake : ∀ b t, t.PresentationLawful → (take b t).PresentationLawful) :
    (s.handOn ours take).PresentationLawful := by
  unfold State.handOn
  split
  · exact h
  · next b rest _ =>
    split
    · exact (htake b { s with sli.inbound := rest } (h.unseen rfl rfl)).compareFlow
    · exact h

/-- A key taken keeps the laws where what it does keeps them (R87). -/
theorem takeKey (h : s.PresentationLawful) (e : KeyEvent) {act : State → State}
    (hact : ∀ t, t.PresentationLawful → (act t).PresentationLawful) :
    (s.takeKey e act).PresentationLawful := by
  unfold State.takeKey
  split
  · exact h
  · split
    · exact hact _ (h.unseen rfl rfl)
    · exact h

theorem refuseKey (h : s.PresentationLawful) : s.refuseKey.PresentationLawful := h.requestChirp

/-- A key other than POSITION keeps the laws where its judgement does (R88). -/
theorem attendantKey (h : s.PresentationLawful) (e : KeyEvent) {act : State → State}
    (hact : ∀ t, t.PresentationLawful → (act t).PresentationLawful) :
    (s.attendantKey e act).PresentationLawful := by
  refine h.takeKey e fun t ht => ?_
  split
  · exact ht.refuseKey
  · exact hact t ht

/-- An event that names a call keeps the laws where its effect on a record does. -/
theorem onKnown (h : s.PresentationLawful) (ref : Word) {act : Slot → Record → State}
    (hact : ∀ p r, (act p r).PresentationLawful) : (s.onKnown ref act).PresentationLawful := by
  unfold State.onKnown
  split
  · exact h
  · split
    · exact h
    · exact hact _ _

/-! ### Keys (R90 to R102) -/

theorem keyIssues (h : s.PresentationLawful) (p : Slot) (o : Order) :
    (s.keyIssues p o).PresentationLawful := by
  unfold State.keyIssues
  split
  · exact h.issueOrder p o
  · exact h.refuseKey

theorem answerKey (h : s.PresentationLawful) : s.answerKey.PresentationLawful := by
  unfold State.answerKey
  split
  · split
    · exact h.refuseKey
    · exact h.keyIssues _ _
  · exact h.refuseKey

theorem loopKeyJudged (h : s.PresentationLawful) (k : Loop) : (s.loopKeyJudged k).PresentationLawful := by
  unfold State.loopKeyJudged
  split
  · exact h.refuseKey
  · split
    · exact h.refuseKey
    · split
      · split
        · exact h.refuseKey
        · exact h.keyIssues _ _
      · split
        · exact h
        · exact h.refuseKey

theorem retrieveKey (h : s.PresentationLawful) : s.retrieveKey.PresentationLawful := by
  unfold State.retrieveKey
  split
  · split
    · dsimp only
      split
      · exact h.refuseKey
      · split
        · exact (h.issueOrder _ _).unseen rfl rfl
        · exact h.refuseKey
    · exact h.refuseKey
  · exact h.refuseKey

theorem holdKeyJudged (h : s.PresentationLawful) : s.holdKeyJudged.PresentationLawful := by
  unfold State.holdKeyJudged
  split
  · exact h.keyIssues _ _
  · exact h.refuseKey

theorem releaseKey (h : s.PresentationLawful) : s.releaseKey.PresentationLawful := by
  unfold State.releaseKey
  split
  · split
    · exact h.keyIssues _ _
    · exact h.keyIssues _ _
  · exact h.refuseKey

theorem extendKeyJudged (h : s.PresentationLawful) : s.extendKeyJudged.PresentationLawful := by
  unfold State.extendKeyJudged
  split
  · split
    · exact h.keyIssues _ _
    · exact h.refuseKey
  · exact h.refuseKey

theorem parkKeyJudged (h : s.PresentationLawful) : s.parkKeyJudged.PresentationLawful := by
  unfold State.parkKeyJudged
  split
  · split
    · exact h.keyIssues _ _
    · exact h.refuseKey
  · exact h.refuseKey

theorem callKey (h : s.PresentationLawful) : s.callKey.PresentationLawful := by
  unfold State.callKey
  split
  · split
    · exact h.keyIssues _ _
    · exact h.refuseKey
  · exact h.refuseKey

theorem swapKey (h : s.PresentationLawful) : s.swapKey.PresentationLawful := by
  unfold State.swapKey
  split
  · split
    · exact h.keyIssues _ _
    · exact h.refuseKey
  · exact h.refuseKey

theorem joinKeyJudged (h : s.PresentationLawful) : s.joinKeyJudged.PresentationLawful := by
  unfold State.joinKeyJudged
  split
  · exact h.keyIssues _ _
  · exact h.refuseKey

theorem cancelKey (h : s.PresentationLawful) : s.cancelKey.PresentationLawful := by
  unfold State.cancelKey
  split
  · exact h.keyIssues _ _
  · exact h.unseen rfl rfl

/-! ### The key scanner (R137 to R141) -/

theorem offerDigit (h : s.PresentationLawful) (d : Digit) : (s.offerDigit d).PresentationLawful := by
  unfold State.offerDigit
  split
  · exact h.requestChirp
  · exact h.unseen rfl rfl

theorem offerKey (h : s.PresentationLawful) (e : KeyEvent) : (s.offerKey e).PresentationLawful := by
  unfold State.offerKey
  split
  · exact h.unseen rfl rfl
  · exact h.requestChirp

theorem handPress (h : s.PresentationLawful) (k : Key) : (s.handPress k).PresentationLawful := by
  cases k with
  | digit d => exact h.offerDigit d
  | event e => exact h.offerKey e

theorem sampleKey (h : s.PresentationLawful) (k : Key) (closed : Bool) :
    (s.sampleKey k closed).PresentationLawful := by
  have hkeys : ∀ keys, State.PresentationLawful { s with ksc.keys := keys } := fun _ => h.unseen rfl rfl
  unfold State.sampleKey
  dsimp only
  split
  · exact (hkeys _).handPress k
  · exact hkeys _

theorem sampleRow (h : s.PresentationLawful) (col : Fin 8) (rows : BitVec 4) (row : Nat) :
    (s.sampleRow col rows row).PresentationLawful := by
  unfold State.sampleRow
  split
  · exact h.sampleKey _ _
  · exact h

theorem scanKeys (h : s.PresentationLawful) (rows : BitVec 4) : (s.scanKeys rows).PresentationLawful := by
  have hdriven : State.PresentationLawful { s with pins.kcol := BitVec.ofNat 8 (2 ^ s.ksc.scan.val) } :=
    h.unseen rfl rfl
  exact (foldl (fun _ row ht => ht.sampleRow s.ksc.scan rows row) [0, 1, 2, 3] _ hdriven).unseen rfl rfl

/-! ### The receiver and its counts (R163 to R165, R171) -/

theorem abandon (h : s.PresentationLawful) (k : LinkFault) : (s.abandon k).PresentationLawful :=
  h.unseen rfl rfl

theorem storeByte (h : s.PresentationLawful) (b : Byte) : (s.storeByte b).PresentationLawful := by
  unfold State.storeByte
  split
  · exact h.unseen rfl rfl
  · exact h.abandon _

theorem damage (h : s.PresentationLawful) (r : RxState) : (s.damage r).PresentationLawful := h.unseen rfl rfl

/-- A valid message may bring the link UP, which starts a resync (R171, R176). -/
theorem queueMessage (h : s.PresentationLawful) (body : List Byte) :
    (s.queueMessage body).PresentationLawful := by
  have hqueued : State.PresentationLawful { s with sli.inbound := s.sli.inbound ++ [body] } := h.unseen rfl rfl
  exact linkAlive (compareFlow hqueued)

theorem judgeFrame (h : s.PresentationLawful) : s.judgeFrame.PresentationLawful := by
  have hfresh : State.PresentationLawful { s with sli := s.sli.fresh .hunt } := h.unseen rfl rfl
  unfold State.judgeFrame
  split
  · exact h.abandon _
  · exact queueMessage hfresh _

theorem takeHunt (h : s.PresentationLawful) (c : Option Byte) : (s.takeHunt c).PresentationLawful := by
  unfold State.takeHunt
  split
  · exact h.unseen rfl rfl
  · exact h

theorem takeBody (h : s.PresentationLawful) (c : Option Byte) : (s.takeBody c).PresentationLawful := by
  unfold State.takeBody
  split
  · exact h.damage _
  · split
    · exact h.unseen rfl rfl
    · split
      · exact h.judgeFrame
      · split
        · exact h.unseen rfl rfl
        · exact h.storeByte _

theorem takeEscaped (h : s.PresentationLawful) (c : Option Byte) :
    (s.takeEscaped c).PresentationLawful := by
  unfold State.takeEscaped
  split
  · exact h.damage _
  · split
    · exact h.unseen rfl rfl
    · split
      · exact (h.damage _).judgeFrame
      · split
        · exact h.damage _
        · split
          · exact h.storeByte _
          · exact h.damage _

theorem takeChar (h : s.PresentationLawful) (c : Option Byte) : (s.takeChar c).PresentationLawful := by
  have hgap : s.clearGap.PresentationLawful := h.unseen rfl rfl
  unfold State.takeChar
  split
  · exact h.unseen rfl rfl
  · split
    · exact h.unseen rfl rfl
    · split
      · exact hgap.takeHunt c
      · exact hgap.takeBody c
      · exact hgap.takeEscaped c

theorem stepGap (h : s.PresentationLawful) : s.stepGap.PresentationLawful := by
  unfold State.stepGap
  dsimp only
  split
  · exact h.unseen rfl rfl
  · exact h.unseen rfl rfl

theorem stepSupervision (h : s.PresentationLawful) : s.stepSupervision.PresentationLawful := by
  have hcount : State.PresentationLawful { s with sli.supCount := s.sli.supCount + 1 } := h.unseen rfl rfl
  unfold State.stepSupervision
  split
  · dsimp only
    split
    · exact linkDown hcount
    · exact hcount
  · exact h

/-! ### The transmitter (R54, R167, R170) -/

theorem send (h : s.PresentationLawful) (body : List Byte) (owner : Option Slot) :
    (s.send body owner).PresentationLawful := h.unseen rfl rfl

theorem startOrder (h : s.PresentationLawful) (p : Slot) (rest : List Slot) :
    (s.startOrder p rest).PresentationLawful := by
  have hleft : State.PresentationLawful { s with sli.orders := rest } := h.unseen rfl rfl
  unfold State.startOrder
  dsimp only
  split
  · exact hleft
  · split
    · exact hleft
    · exact (hleft.update p _).send _ _

theorem startNotice (h : s.PresentationLawful) : s.startNotice.PresentationLawful := by
  unfold State.startNotice
  split
  · exact h.unseen rfl rfl
  · split
    · exact h.unseen rfl rfl
    · exact h.unseen rfl rfl
    · exact h.unseen rfl rfl
    · exact h

theorem startMessage (h : s.PresentationLawful) : s.startMessage.PresentationLawful := by
  unfold State.startMessage
  split
  · exact h.unseen rfl rfl
  · split
    · exact h.startOrder _ _
    · exact h.startNotice

theorem orderSent (h : s.PresentationLawful) (p : Slot) : (s.orderSent p).PresentationLawful := by
  unfold State.orderSent
  split
  · exact h
  · split
    · exact h.update p _
    · exact h

theorem endTransmission (h : s.PresentationLawful) : s.endTransmission.PresentationLawful := by
  unfold State.endTransmission
  split
  · exact h
  · next m _ =>
    have hidle : State.PresentationLawful
        { s with sli.sending := none, pins.txd := m.left.map charLevels } := h.unseen rfl rfl
    dsimp only
    split
    · exact orderSent hidle _
    · exact hidle

theorem sendControl (h : s.PresentationLawful) (c : Control) : (s.sendControl c).PresentationLawful := by
  unfold State.sendControl
  split <;> exact h.unseen rfl rfl

/-! ### Requests (R126, R130, R148, R149) -/

theorem takePosition (h : s.PresentationLawful) (b : List Byte) : (s.takePosition b).PresentationLawful := by
  unfold State.takePosition
  split
  · exact h.reply _
  · exact (h.setPosition _).reply _

theorem takeSet (h : s.PresentationLawful) (b : List Byte) : (s.takeSet b).PresentationLawful := by
  unfold State.takeSet
  split
  · exact h.reply _
  · exact h.unseen rfl rfl

theorem takeLoad (h : s.PresentationLawful) (b : List Byte) : (s.takeLoad b).PresentationLawful := by
  unfold State.takeLoad
  split
  · exact h.reply _
  · split
    · exact h.reply _
    · exact h.unseen rfl rfl

theorem takeCommit (h : s.PresentationLawful) (b : List Byte) : (s.takeCommit b).PresentationLawful := by
  unfold State.takeCommit
  split
  · exact h.reply _
  · exact h.unseen rfl rfl

/-! ### Calls (R29 to R41) -/

theorem takeOffer (h : s.PresentationLawful) (b : List Byte) : (s.takeOffer b).PresentationLawful := by
  unfold State.takeOffer
  dsimp only
  split
  · exact (h.enterQueued _ _).reply _
  · exact h.reply _
  · exact h

theorem takeCleared (h : s.PresentationLawful) (b : List Byte) : (s.takeCleared b).PresentationLawful :=
  h.onKnown _ fun p _ => (h.retire p).closeIfEmpty

theorem takeDelivered (h : s.PresentationLawful) (b : List Byte) :
    (s.takeDelivered b).PresentationLawful := by
  refine h.onKnown _ fun p r => ?_
  split
  · exact (h.retire p).closeIfEmpty
  · exact h.orderFault _ _

theorem takeCampFree (h : s.PresentationLawful) (b : List Byte) :
    (s.takeCampFree b).PresentationLawful := by
  refine h.onKnown _ fun p r => ?_
  split
  · exact h.enter p _
  · exact h.orderFault _ _

theorem takeFarEnd (h : s.PresentationLawful) (b : List Byte) : (s.takeFarEnd b).PresentationLawful := by
  refine h.onKnown _ fun p r => ?_
  split
  · exact h.orderFault _ _
  · split
    · split
      · exact h.enter p _
      · exact h.put p _
    · exact h.orderFault _ _

/-! ### Confirms (R56 to R65) -/

theorem holdRecord (h : s.PresentationLawful) (p : Slot) : (s.holdRecord p).PresentationLawful := by
  unfold State.holdRecord
  split
  · exact h.enter p _
  · exact h

theorem connectDone (h : s.PresentationLawful) (p : Slot) (r : Record) (o : Order) :
    (s.connectDone p r o).PresentationLawful := by
  unfold State.connectDone
  dsimp only
  split
  · exact ((h.holdRecord _).enter p _).clearNote
  · exact (h.enter p _).clearNote

theorem clearDone (h : s.PresentationLawful) (p : Slot) (o : Order) :
    (s.clearDone p o).PresentationLawful := by
  have hretired := h.retire p
  unfold State.clearDone
  dsimp only
  split
  · split
    · exact (hretired.enter _ _).clearNote.closeIfEmpty
    · exact hretired.closeIfEmpty
  · exact hretired.closeIfEmpty

theorem joinDone (h : s.PresentationLawful) (p : Slot) (o : Order) :
    (s.joinDone p o).PresentationLawful := by
  have hretired := h.retire p
  unfold State.joinDone
  dsimp only
  split
  · exact (hretired.retire _).closeIfEmpty
  · exact hretired.closeIfEmpty

theorem sentOn (h : s.PresentationLawful) (p : Slot) (r : Record) (o : Order) (st : Custody) :
    (s.sentOn p r o st).PresentationLawful := (h.enter p _).clearNote

theorem extendBusy (h : s.PresentationLawful) (p : Slot) (r : Record) (o : Order) :
    (s.extendBusy p r o).PresentationLawful := by
  unfold State.extendBusy
  split
  · exact h.sentOn p r o _
  · exact h.setNote _

theorem dialDone (h : s.PresentationLawful) (p : Slot) (r : Record) (o : Order) (ref : Word) :
    (s.dialDone p r o ref).PresentationLawful := by
  unfold State.dialDone
  split
  · exact h
  · exact ((h.enter _ _).enter p _).clearNote

theorem recallDone (h : s.PresentationLawful) (p : Slot) (r : Record) :
    (s.recallDone p r).PresentationLawful := (h.enterQueued p _).requestRecallTone

theorem recallRefused (h : s.PresentationLawful) (p : Slot) (r : Record) (o : Order) :
    (s.recallRefused p r o).PresentationLawful := by
  unfold State.recallRefused
  split
  · exact h.armTimer p
  · exact h

theorem divertRefused (h : s.PresentationLawful) (p : Slot) (r : Record) (o : Order) (mayReplace : Bool) :
    (s.divertRefused p r o mayReplace).PresentationLawful := by
  unfold State.divertRefused
  split
  · exact h.put p _
  · split
    · exact h.issueOrder p _
    · exact h.setTimer p _

theorem refusedOutcome (h : s.PresentationLawful) (p : Slot) (r : Record) (o : Order) (mayReplace : Bool) :
    (s.refusedOutcome p r o mayReplace).PresentationLawful := by
  unfold State.refusedOutcome
  split
  · exact h.recallRefused p r o
  · exact h.divertRefused p r o mayReplace
  · exact h

/-- A valid outcome keeps the laws, one case for each kind of order and outcome (R59 to R65). -/
theorem commit (h : s.PresentationLawful) (p : Slot) (r : Record) (o : Order) (v : Verdict) (newRef : Word) :
    (s.commit p r o v newRef).PresentationLawful := by
  unfold State.commit
  split
  · exact h.refusedOutcome p r o true
  · exact h.connectDone p r o
  · exact (h.enter p _).clearNote
  · exact h.clearDone p o
  · exact h.joinDone p o
  · exact (h.enter p _).clearNote
  · exact h.recallDone p r
  · exact (h.retire p).closeIfEmpty
  · split
    · exact h.orderFault _ _
    · exact h.dialDone p r o newRef
  · exact h.sentOn p r o _
  · exact h.extendBusy p r o
  · exact h.setNote _
  · exact h.setNote _
  · exact h.setNote _
  · exact h

theorem confirmMatched (h : s.PresentationLawful) (p : Slot) (o : Order) (c : ConfirmBody) (ref : Word) :
    (s.confirmMatched p o c ref).PresentationLawful := by
  have hended := h.endOrder p
  unfold State.confirmMatched
  dsimp only
  split
  · exact hended
  · split
    · exact hended.commit p _ o _ _
    · exact (hended.refusedOutcome p _ o false).orderFault _ _

theorem takeConfirm (h : s.PresentationLawful) (b : List Byte) : (s.takeConfirm b).PresentationLawful := by
  refine h.onKnown _ fun p r => ?_
  split
  · exact h
  · split
    · exact h.confirmMatched p _ _ _
    · exact h.orderFault _ _

theorem tickConfirm (h : s.PresentationLawful) (p : Slot) : (s.tickConfirm p).PresentationLawful := by
  unfold State.tickConfirm
  split
  · exact h.update p _
  · exact h

theorem confirmTimeout (h : s.PresentationLawful) (p : Slot) :
    (s.confirmTimeout p).PresentationLawful := by
  unfold State.confirmTimeout
  split
  · exact (h.cancelOrder p).orderFault _ _
  · exact h

theorem takeTimeouts (h : s.PresentationLawful) (n : Nat) : (s.takeTimeouts n).PresentationLawful := by
  have hcount : ∀ t : State, t.PresentationLawful → ∀ k, State.PresentationLawful { t with freeCount := k } :=
    fun _ ht _ => ht.unseen rfl rfl
  exact hcount _ (foldl (fun _ p ht => ht.confirmTimeout p) _ s h) _

/-! ### Audit and restart (R178 to R181) -/

theorem holdDisplaced (h : s.PresentationLawful) (q : Option Slot) :
    (s.holdDisplaced q).PresentationLawful := by
  unfold State.holdDisplaced
  split
  · exact h
  · split
    · exact h
    · exact (h.enter _ _).clearNote

theorem retireDisplaced (h : s.PresentationLawful) (q : Option Slot) :
    (s.retireDisplaced q).PresentationLawful := by
  cases q with
  | none => exact h
  | some q => exact h.retire q

theorem placeEntry (h : s.PresentationLawful) (p : Slot) (r : Record) (own : Option Loop) :
    (s.placeEntry p r own).PresentationLawful := by
  unfold State.placeEntry
  split
  · exact h.enterQueued p r
  · exact h.enter p _

theorem createEntry (h : s.PresentationLawful) (ref : Word) (e : EntryBody) :
    (s.createEntry ref e).PresentationLawful := by
  unfold State.createEntry
  split
  · exact h
  · dsimp only
    split
    · exact (h.placeEntry _ _ _).clearNote
    · exact h.placeEntry _ _ _

theorem noteAfterEntry (h : s.PresentationLawful) (was now : Custody) :
    (s.noteAfterEntry was now).PresentationLawful := by
  unfold State.noteAfterEntry
  split
  · split
    · exact h
    · exact h.clearNote
  · exact h

theorem restateEntry (h : s.PresentationLawful) (p : Slot) (r : Record) (e : EntryBody) :
    (s.restateEntry p r e).PresentationLawful := by
  have hunlinked := h.unlinkPartner r.partner
  unfold State.restateEntry
  dsimp only
  split
  · exact (hunlinked.put p _).noteAfterEntry _ _
  · exact (hunlinked.placeEntry p _ _).noteAfterEntry _ _

theorem acceptEntry (h : s.PresentationLawful) (own : Option Slot) (ref : Word) (e : EntryBody) :
    (s.acceptEntry own ref e).PresentationLawful := by
  have hsettled := (h.holdDisplaced (s.displacedHeadset own e)).retireDisplaced (s.displacedParked own e)
  unfold State.acceptEntry
  dsimp only
  split
  · exact hsettled.createEntry ref e
  · split
    · exact hsettled
    · exact hsettled.restateEntry _ _ e

theorem takeEntry (h : s.PresentationLawful) (b : List Byte) : (s.takeEntry b).PresentationLawful := by
  unfold State.takeEntry
  dsimp only
  split
  · exact (h.acceptEntry _ _ _).closeIfEmpty.reply _
  · exact h.reply _
  · exact h

theorem sweep (h : s.PresentationLawful) (p : Slot) : (s.sweep p).PresentationLawful := by
  unfold State.sweep
  split
  · exact h.retire p
  · exact h

theorem relink (h : s.PresentationLawful) : s.relink.PresentationLawful := by
  rw [State.relink_eq]
  exact foldl (fun _ p ht => ht.update p _) slots s h

theorem audited (h : s.PresentationLawful) : s.audited.PresentationLawful := by
  have hswept : s.retireUnmarked.PresentationLawful := by
    rw [State.retireUnmarked_eq]
    exact foldl (fun _ p ht => ht.sweep p) slots s h
  unfold State.audited
  exact hswept.relink.clearMarks.setResync false

theorem takeEnd (h : s.PresentationLawful) (b : List Byte) : (s.takeEnd b).PresentationLawful := by
  cases hr : s.ccc.resync with
  | true =>
    rw [State.takeEnd_resync hr]
    exact h.audited.closeIfEmpty.reply _
  | false =>
    rw [State.takeEnd_idle hr]
    exact h.reply _

theorem emptied (s : State) : s.emptied.PresentationLawful :=
  State.presentationLawful_of_empty rfl rfl rfl rfl

theorem takeRestart (s : State) (b : List Byte) : (s.takeRestart b).PresentationLawful :=
  (emptied s).closeIfEmpty.reply _

/-! ### The second tick (R73, R116 to R121) -/

theorem ageSlot (h : s.PresentationLawful) (p : Slot) : (s.ageSlot p).PresentationLawful := by
  unfold State.ageSlot
  split
  · split
    · exact h.put p _
    · exact h
  · exact h

theorem agingDone (h : s.PresentationLawful) : s.agingDone.PresentationLawful := by
  have hcopied : s.copyWorking.PresentationLawful := h.congr rfl rfl rfl rfl
  unfold State.agingDone
  split
  · exact hcopied
  · exact foldl (fun _ p ht => ht.ageSlot p) slots _ hcopied

theorem orderExpiry (h : s.PresentationLawful) (p : Slot) (r : Record) (k : TimerKind) (w : Owed) :
    (s.orderExpiry p r k w).PresentationLawful := by
  unfold State.orderExpiry
  split
  · exact ((h.put p _).setTimer p _).issueOrder p _
  · exact h.setTimer p _

theorem takeExpiry (h : s.PresentationLawful) (p : Slot) (k : TimerKind) :
    (s.takeExpiry p k).PresentationLawful := by
  unfold State.takeExpiry
  split
  · exact h
  · split
    · exact h.setTimer p _
    · split
      · exact h.orderExpiry p _ k _
      · split
        · exact ((h.put p _).armTimer p).requestRecallTone
        · exact h.orderExpiry p _ k _

theorem issueOwed (h : s.PresentationLawful) (p : Slot) (w : Owed) :
    (s.issueOwed p w).PresentationLawful := by
  unfold State.issueOwed
  split
  · exact h
  · dsimp only
    split
    · exact (h.setTimer p _).issueOrder p _
    · exact h

theorem stepDisplay (h : s.PresentationLawful) : s.stepDisplay.PresentationLawful := by
  unfold State.stepDisplay
  dsimp only
  split <;> exact h.unseen rfl rfl

/-! ### The commands -/

/-- Every command completes and keeps the laws. -/
theorem runs (h : s.PresentationLawful) (c : Instr) : Runs c s State.PresentationLawful := by
  cases c with
  | powerOnReset straps => exact ⟨_, rfl, State.presentationLawful_of_empty rfl rfl rfl rfl⟩
  | keyScan rows => exact ⟨_, rfl, h.scanKeys rows⟩
  | answer => exact ⟨_, rfl, h.attendantKey _ fun _ ht => ht.answerKey⟩
  | loopKey k => exact ⟨_, rfl, h.attendantKey _ fun _ ht => ht.loopKeyJudged k⟩
  | holdKey => exact ⟨_, rfl, h.attendantKey _ fun _ ht => ht.holdKeyJudged⟩
  | release => exact ⟨_, rfl, h.attendantKey _ fun _ ht => ht.releaseKey⟩
  | extendKey => exact ⟨_, rfl, h.attendantKey _ fun _ ht => ht.extendKeyJudged⟩
  | call => exact ⟨_, rfl, h.attendantKey _ fun _ ht => ht.callKey⟩
  | swap => exact ⟨_, rfl, h.attendantKey _ fun _ ht => ht.swapKey⟩
  | joinKey => exact ⟨_, rfl, h.attendantKey _ fun _ ht => ht.joinKeyJudged⟩
  | cancel => exact ⟨_, rfl, h.attendantKey _ fun _ ht => ht.cancelKey⟩
  | parkKey => exact ⟨_, rfl, h.attendantKey _ fun _ ht => ht.parkKeyJudged⟩
  | retrieve => exact ⟨_, rfl, h.attendantKey _ fun _ ht => ht.retrieveKey⟩
  | positionKey => exact ⟨_, rfl, h.takeKey _ fun _ ht => ht.setPosition _⟩
  | receiveCharacter c => exact ⟨_, rfl, h.takeChar _⟩
  | receivedHalt => exact ⟨_, rfl, h.unseen rfl rfl⟩
  | receivedGo => exact ⟨_, rfl, h.unseen rfl rfl⟩
  | gapTimeout =>
    refine ⟨_, rfl, ?_⟩
    split
    · exact h.stepGap
    · exact h
  | linkBaseTick => exact ⟨_, rfl, h.stepGap.stepSupervision⟩
  | supervisionTimeout =>
    refine ⟨_, rfl, ?_⟩
    split
    · exact h.stepSupervision
    · exact h
  | offer => exact ⟨_, rfl, h.handOn _ fun b _ ht => ht.takeOffer b⟩
  | poll => exact ⟨_, rfl, h.handOn _ fun _ _ ht => ht.reply _⟩
  | set => exact ⟨_, rfl, h.handOn _ fun b _ ht => ht.takeSet b⟩
  | cadenceLoad => exact ⟨_, rfl, h.handOn _ fun b _ ht => ht.takeLoad b⟩
  | cadenceCommit => exact ⟨_, rfl, h.handOn _ fun b _ ht => ht.takeCommit b⟩
  | position => exact ⟨_, rfl, h.handOn _ fun b _ ht => ht.takePosition b⟩
  | auditEntry => exact ⟨_, rfl, h.handOn _ fun b _ ht => ht.takeEntry b⟩
  | auditEnd => exact ⟨_, rfl, h.handOn _ fun b _ ht => ht.takeEnd b⟩
  | restart => exact ⟨_, rfl, h.handOn _ fun b t _ => takeRestart t b⟩
  | confirm => exact ⟨_, rfl, h.handOn _ fun b _ ht => ht.takeConfirm b⟩
  | cleared => exact ⟨_, rfl, h.handOn _ fun b _ ht => ht.takeCleared b⟩
  | delivered => exact ⟨_, rfl, h.handOn _ fun b _ ht => ht.takeDelivered b⟩
  | campFree => exact ⟨_, rfl, h.handOn _ fun b _ ht => ht.takeCampFree b⟩
  | farEnd => exact ⟨_, rfl, h.handOn _ fun b _ ht => ht.takeFarEnd b⟩
  | unknownKind => exact ⟨_, rfl, h.handOn _ fun _ _ ht => ht.linkFault _ _⟩
  | transmitStart =>
    refine ⟨_, rfl, ?_⟩
    split
    · exact h.startMessage
    · exact h
  | transmitEnd => exact ⟨_, exec_transmitEnd_eq s, h.endTransmission⟩
  | sendControlCharacter =>
    refine ⟨_, rfl, ?_⟩
    split
    · exact h
    · exact h.sendControl _
  | confirmBeat =>
    refine ⟨_, exec_confirmBeat_eq s, ?_⟩
    split
    · exact h
    · exact (foldl (fun _ p ht => ht.tickConfirm p) slots s h).takeTimeouts _
  | confirmTimeout p =>
    refine ⟨_, rfl, ?_⟩
    split
    · exact h
    · split
      · exact (h.tickConfirm p).confirmTimeout p
      · exact h
  | agingTick => exact ⟨_, exec_agingTick_eq s, h.agingDone⟩
  | custodyCountTick =>
    refine ⟨_, exec_custodyCountTick_eq s, ?_⟩
    split
    · exact h
    · exact foldl (fun _ p ht => ht.setTimer p _) slots s h
  | custodyTimerExpiry p =>
    refine ⟨_, rfl, ?_⟩
    split
    · have hvoid := h.setTimer p { s.timer p with reported := false }
      dsimp only
      split
      · exact hvoid.takeExpiry p _
      · exact hvoid
    · exact h
  | expiryRetry p =>
    refine ⟨_, rfl, ?_⟩
    split
    · exact h
    · split
      · exact h.issueOwed p _
      · exact h.takeExpiry p _
      · exact h
  | autoAnswer =>
    refine ⟨_, rfl, ?_⟩
    split
    · dsimp only
      split
      · exact h.issueOrder _ _
      · exact h
    · exact h
  | cadenceStep => exact ⟨_, rfl, stepDisplay (h.unseen rfl rfl)⟩
  | epochBoundary => exact ⟨_, rfl, h.unseen rfl rfl⟩

/-- A step with no command waiting changes the cascade and the queue of commands alone (R110). -/
theorem idle (h : s.PresentationLawful) : s.idle.PresentationLawful := by
  have hrefclk : s.refclk.PresentationLawful := by
    unfold State.refclk
    split
    · exact h.unseen rfl rfl
    · split
      · exact h.unseen rfl rfl
      · exact h.unseen rfl rfl
  unfold State.idle
  split
  · exact h.unseen rfl rfl
  · exact hrefclk

end State.PresentationLawful

/-- Settles O5: a step is a command, which keeps the laws whichever it is, or the part's own. -/
theorem everyStepKeepsThePresentation : Obligations.EveryStepKeepsThePresentation := by
  unfold Obligations.EveryStepKeepsThePresentation
  intro s t h ht
  unfold step at ht
  split at ht
  · next c rest _ =>
    have htaken : State.PresentationLawful { s with pending := rest } := h.unseen rfl rfl
    obtain ⟨u, hu, hlawful⟩ := htaken.runs c
    rw [hu] at ht
    cases ht
    exact hlawful
  · cases ht
    exact h.idle

end Sys2Proof.Machine
end

