-- ==== Sys2Proof/Proofs/Aging.lean ====
section
/-! PROOFS. Aging (R69 to R73, R80): the second tick's fold over the slots ages each QUEUED record once, by the
working settings just copied, and touches no more than the table, the leaves and the tree. -/

namespace Sys2Proof.Machine

/-- The condition of a slot one second on: a QUEUED record is aged (R73). -/
def SlotState.aged (w : Working) (c : SlotState) : SlotState :=
  c.mapLive fun r => if r.state = .queued then r.aged w else r

/-- Aging a slot is a write of its aged condition, or nothing where that is the condition it has. -/
theorem State.ageSlot_cases (s : State) (p : Slot) :
    (s.ageSlot p = s ∧ (s.slot p).aged s.psel.working = s.slot p)
      ∨ (s.ageSlot p = s.put p ((s.slot p).aged s.psel.working)
        ∧ ∃ r, s.slot p = .live r ∧ r.state = .queued) := by
  unfold State.ageSlot State.record?
  cases hp : s.slot p with
  | free => exact .inl ⟨rfl, rfl⟩
  | reserved f => exact .inl ⟨rfl, rfl⟩
  | live r =>
    by_cases hq : r.state = .queued
    · exact .inr (by simp [SlotState.aged, SlotState.mapLive, hq])
    · exact .inl (by simp [SlotState.aged, SlotState.mapLive, hq])

/-- A slot's aging is not seen by the others. -/
theorem State.slot_ageSlot (s : State) (p q : Slot) :
    (s.ageSlot p).slot q = if p = q then (s.slot q).aged s.psel.working else s.slot q := by
  rcases s.ageSlot_cases p with ⟨e, hsame⟩ | ⟨e, -⟩ <;> rw [e]
  · split
    · next h =>
      subst h
      exact hsame.symm
    · rfl
  · rw [State.slot_put]
    split
    · next h => rw [h]
    · rfl

/-- Aging keeps a record's reference and tenant, so the index and the counts stay as they are (R5, R82). -/
theorem State.ageSlot_frame (s : State) (p : Slot) :
    s.ageSlot p =
      { s with
        ccc.table := (s.ageSlot p).ccc.table
        psel.leaves := (s.ageSlot p).psel.leaves, psel.nodes := (s.ageSlot p).psel.nodes } := by
  rcases s.ageSlot_cases p with ⟨e, -⟩ | ⟨e, r, hr, hq⟩
  · rw [e]
  · have hindex : (s.put p ((s.slot p).aged s.psel.working)).ccc.index = s.ccc.index :=
      State.put_index_same (by simp [hr, SlotState.aged, SlotState.mapLive, hq, Record.aged])
    have hqueued : (s.put p ((s.slot p).aged s.psel.working)).psel.queued = s.psel.queued :=
      State.put_queued_same (by simp [hr, SlotState.aged, SlotState.mapLive, SlotState.queuedTenant, hq, Record.aged])
    rw [e]
    exact State.eq_iff.2 ⟨Ccc.eq_iff.2 ⟨rfl, hindex, rfl, rfl, rfl⟩,
      Psel.eq_iff.2 ⟨State.put_psel_working _ _ _, State.put_psel_seq _ _ _, rfl, rfl, hqueued⟩,
      rfl, rfl, rfl, rfl, rfl, rfl, rfl, rfl⟩

/-- Aging a slot keeps the leaves exact and the tree decided (R79, R80). -/
theorem State.ageSlot_keeps {s : State} (hleaves : s.LeavesExact) (hdecided : s.psel.Decided) (p : Slot) :
    (s.ageSlot p).LeavesExact ∧ (s.ageSlot p).psel.Decided := by
  rcases s.ageSlot_cases p with ⟨e, -⟩ | ⟨e, -⟩ <;> rw [e]
  · exact ⟨hleaves, hdecided⟩
  · exact ⟨State.put_leavesExact hleaves p _, State.put_decided hdecided p _⟩

/-- The slots of a list aged one after the other, each once. -/
theorem State.foldl_ageSlot (l : List Slot) (hl : l.Nodup) :
    ∀ s : State, (∀ q, (l.foldl State.ageSlot s).slot q =
        if q ∈ l then (s.slot q).aged s.psel.working else s.slot q)
      ∧ l.foldl State.ageSlot s =
        { s with
          ccc.table := (l.foldl State.ageSlot s).ccc.table
          psel.leaves := (l.foldl State.ageSlot s).psel.leaves
          psel.nodes := (l.foldl State.ageSlot s).psel.nodes } := by
  induction l with
  | nil => exact fun s => ⟨fun q => by simp, rfl⟩
  | cons p l ih =>
    intro s
    obtain ⟨hp, hl⟩ := List.nodup_cons.1 hl
    obtain ⟨hslots, hframe⟩ := ih hl (s.ageSlot p)
    have hone := s.ageSlot_frame p
    have hworking : (s.ageSlot p).psel.working = s.psel.working := by rw [hone]
    rw [List.foldl_cons]
    refine ⟨fun q => ?_, ?_⟩
    · rw [hslots, State.slot_ageSlot, hworking]
      by_cases hq : p = q
      · subst hq; simp [hp]
      · simp [hq, Ne.symm hq]
    · generalize l.foldl State.ageSlot (s.ageSlot p) = t at hframe ⊢
      rw [hone] at hframe
      exact hframe

/-- The base of a record's key (R70). -/
theorem keyBase_eq (w : Working) (r : Record) :
    keyBase w r.tenant r.cls r.recallCount =
      (if 0 < r.recallCount then w.baseRecall
        else if r.cls = .urgent then w.baseUrgent
        else if r.cls = .external then w.baseExternal
        else w.baseInternal) + w.offsets[r.tenant] := by
  unfold keyBase classBase
  cases r.cls <;> rfl

/-- A QUEUED record's wait and key a second on (R71, R73). -/
theorem Record.aged_queue {r : Record} {q : QueueFields} (hq : r.queue = some q) (hwait : q.wait ≤ 65535)
    (w : Working) :
    let wait := if q.wait < 65535 then q.wait + 1 else 65535
    let base := keyBase w r.tenant r.cls r.recallCount
    let capped := min (wait * w.ageRate / 8) w.ageCap
    r.aged w = { r with queue := some { q with
      wait := wait, key := if capped < base then base - capped else 0 } } := by
  have hmin : min (q.wait + 1) 65535 = if q.wait < 65535 then q.wait + 1 else 65535 := by split <;> omega
  have hkey : ∀ a b : Nat, a - b = if b < a then a - b else 0 := fun a b => by split <;> omega
  unfold Record.aged Record.keyAt presentationKey cappedCredit
  rw [hq, Option.map_some, hmin]
  dsimp only
  rw [← hkey]

theorem SlotState.aged_queued {r : Record} (h : r.state = .queued) (w : Working) :
    (SlotState.live r).aged w = .live (r.aged w) := by simp [SlotState.aged, SlotState.mapLive, h]

/-- A slot that counts for no tenant does not age. -/
theorem SlotState.aged_idle {c : SlotState} (h : c.queuedTenant = none) (w : Working) : c.aged w = c := by
  cases c with
  | free => rfl
  | reserved p => rfl
  | live r =>
    have hq : r.state ≠ .queued := by simpa [SlotState.queuedTenant] using h
    simp [SlotState.aged, SlotState.mapLive, hq]

theorem State.agingDone_working (s : State) : s.agingDone.psel.working = s.pos.working := by
  unfold State.agingDone
  split
  · rfl
  · rw [(State.foldl_ageSlot slots slots_nodup s.copyWorking).2]
    rfl

/-- Everything aging does where it is not held (R73, R80). -/
theorem State.agingDone_aged {s : State} (hheld : s.isHeld = false) (hleaves : s.LeavesExact)
    (hdecided : s.psel.Decided) :
    (∀ p, s.agingDone.slot p = (s.slot p).aged s.pos.working)
      ∧ s.agingDone.LeavesExact ∧ s.agingDone.psel.Decided
      ∧ s.agingDone = { s with
          ccc.table := s.agingDone.ccc.table
          psel.working := s.pos.working, psel.leaves := s.agingDone.psel.leaves
          psel.nodes := s.agingDone.psel.nodes } := by
  have hdone : s.agingDone = slots.foldl State.ageSlot s.copyWorking := by
    rw [State.agingDone, if_neg (by simp [hheld])]
  obtain ⟨hslots, hframe⟩ := State.foldl_ageSlot slots slots_nodup s.copyWorking
  have hkept := List.foldlRecOn slots State.ageSlot (motive := fun t : State => t.LeavesExact ∧ t.psel.Decided)
    (show s.copyWorking.LeavesExact ∧ s.copyWorking.psel.Decided from ⟨hleaves, hdecided⟩)
    fun t ht p _ => State.ageSlot_keeps ht.1 ht.2 p
  rw [← hdone] at hslots hframe hkept
  exact ⟨fun p => (hslots p).trans (if_pos (mem_slots p)), hkept.1, hkept.2, hframe⟩

/-- Settles O55: the copy of the settings comes first, whatever the condition; where aging is not held, the
fold over the slots follows. -/
theorem agingRaisesWaitsAndRecomputesKeys : Obligations.AgingRaisesWaitsAndRecomputesKeys := by
  unfold Obligations.AgingRaisesWaitsAndRecomputesKeys
  intro s hleaves hdecided
  refine ⟨_, exec_agingTick_eq s, ?_⟩
  dsimp only
  rw [s.agingDone_working]
  refine ⟨rfl, rfl, rfl, rfl, rfl, rfl, fun n => by simp [Pos.working, State.profile], fun hheld => ?_,
    fun hlink hres => ?_⟩
  · rw [State.agingDone, if_pos (State.isHeld_iff.2 hheld)]
    rfl
  · obtain ⟨hslots, hexact, htree, hframe⟩ :=
      State.agingDone_aged (State.isHeld_eq_false hlink hres) hleaves hdecided
    refine ⟨fun p r hr hstate q hq hwait => ?_, fun p hidle => ?_, hexact, htree, hframe⟩
    · rw [hslots, State.record?_eq_some.1 hr, SlotState.aged_queued hstate, Record.aged_queue hq hwait,
        keyBase_eq]
    · rw [hslots, SlotState.aged_idle hidle]

end Sys2Proof.Machine
end

