-- ==== Sys2Proof/Proofs/KeyOrders.lean ====
section
/-! PROOFS. How an attendant key is taken and judged (R87 to R102), said once for all keys: a key that asks
for an order issues it where R50 and R89 allow it, and is refused otherwise. The keys' own files follow. -/

namespace Sys2Proof.Machine

/-! ### A key taken from the queue (R87, R88) -/

/-- What key event `e` does where nothing bars it. -/
def State.judged (s : State) : KeyEvent → State
  | .loop k => s.loopKeyJudged k
  | .answer => s.answerKey
  | .release => s.releaseKey
  | .hold => s.holdKeyJudged
  | .extend => s.extendKeyJudged
  | .call => s.callKey
  | .swap => s.swapKey
  | .join => s.joinKeyJudged
  | .cancel => s.cancelKey
  | .park => s.parkKeyJudged
  | .retrieve => s.retrieveKey
  | .position => s.setPosition s.positionStepped

section TakenKey

variable {s : State} {e : KeyEvent} {rest : List KeyEvent}

/-- Every key but POSITION is an attendant key: R88 judges it first. -/
theorem exec_command_eq (he : e ≠ .position) (s : State) :
    exec e.command s = .next (s.attendantKey e (State.judged · e)) := by
  cases e with
  | position => contradiction
  | _ => rfl

/-- A key that nothing bars is judged by its own rule. -/
theorem exec_command_open (hqueue : s.ksc.queue = e :: rest) (he : e ≠ .position) (htakes : s.TakesKeys) :
    exec e.command s = .next (State.judged { s with ksc.queue := rest } e) := by
  rw [exec_command_eq he, State.attendantKey_open hqueue (State.keysBarred_iff.2 htakes)]

/-- A key that R88 bars is refused. -/
theorem exec_command_barred (hqueue : s.ksc.queue = e :: rest) (he : e ≠ .position)
    (hbars : ¬ s.TakesKeys) : exec e.command s = .next { s.chirped with ksc.queue := rest } := by
  have hbarred : s.keysBarred = true := by rw [← Bool.not_eq_false, State.keysBarred_iff]; exact hbars
  rw [exec_command_eq he, State.attendantKey_barred hqueue hbarred, State.refuseKey_eq]

end TakenKey

/-! ### The headset record and the free resources, as the keys read them -/

section Reads

variable {s : State} {p q : Slot} {r : Record}

theorem State.headsetRecord_eq_some :
    s.headsetRecord = some (p, r) ↔ s.headset = some p ∧ s.record? p = some r := by
  simp only [State.headsetRecord, Option.bind_eq_some_iff, Option.map_eq_some_iff, Prod.mk.injEq]
  constructor
  · rintro ⟨_, hp, _, hr, rfl, rfl⟩
    exact ⟨hp, hr⟩
  · rintro ⟨hp, hr⟩
    exact ⟨p, hp, r, hr, rfl, rfl⟩

theorem State.activeRecord_eq_some :
    s.activeRecord = some (p, r) ↔ s.headset = some p ∧ s.record? p = some r ∧ r.state = .active := by
  simp [State.activeRecord, Option.filter_eq_some_iff, State.headsetRecord_eq_some, and_assoc]

/-- Without an ACTIVE headset record the keys find none (R94 to R99). -/
theorem State.NoneActive.not_active (h : s.NoneActive) : s.activeRecord ≠ some (p, r) := by
  intro hactive
  obtain ⟨hp, hr, hstate⟩ := State.activeRecord_eq_some.1 hactive
  exact h p hp r hr hstate

theorem State.dialledLeg_eq_some :
    s.dialledLeg = some (p, q) ↔
      ∃ r, s.headset = some p ∧ s.record? p = some r ∧ r.leg = .dialled ∧ r.partner = some q := by
  unfold State.dialledLeg
  constructor
  · intro h
    split at h
    · next p' r hrec =>
      obtain ⟨hp, hr⟩ := State.headsetRecord_eq_some.1 hrec
      split at h
      · next hleg =>
        obtain ⟨q', hq, hpq⟩ := Option.map_eq_some_iff.1 h
        cases hpq
        exact ⟨r, hp, hr, hleg, hq⟩
      · cases h
    · cases h
  · rintro ⟨r, hp, hr, hleg, hq⟩
    simp [State.headsetRecord_eq_some.2 ⟨hp, hr⟩, hleg, hq]

theorem State.headsetInSetup_eq_false :
    s.headsetInSetup = false ↔ ∀ p ∈ s.headset, ∀ u ∈ s.record? p, u.state ≠ .setup := by
  rcases hp : s.headset with _ | p
  · simp [State.headsetInSetup, State.headsetRecord, hp]
  · rcases hr : s.record? p with _ | r <;> simp [State.headsetInSetup, State.headsetRecord, hp, hr]

/-- A record that is neither ACTIVE nor in SETUP is not the headset record (R24). -/
theorem State.headset_ne_of_off (hr : s.record? p = some r) (hoff : r.onHeadset = false) :
    s.headset ≠ some p := by
  intro h
  obtain ⟨r', hr', hhead⟩ := State.headset_some h
  cases hr.symm.trans hr'
  simp [hoff] at hhead

theorem State.loopFree_iff {k : Loop} :
    s.loopFree k = true ↔ ∀ p, ∀ r ∈ s.record? p, r.loop ≠ some k ∧ r.reservedLoop ≠ some k := by
  simp [State.loopFree, Option.all_eq_true]

theorem State.orbitFree_iff {o : Orbit} :
    s.orbitFree o = true ↔ ∀ p, ∀ r ∈ s.record? p, r.orbit ≠ some o ∧ r.reservedOrbit ≠ some o := by
  simp [State.orbitFree, Option.all_eq_true]

/-- Where no loop is free there is no lowest one (R12). -/
theorem State.NoLoop.lowestLoop_ne (h : s.NoLoop) (k : Loop) : s.lowestLoop ≠ some k := by
  intro hk
  obtain ⟨p, r, hr, hused⟩ := h k
  obtain ⟨hloop, hreserved⟩ := State.loopFree_iff.1 (List.find?_some hk) p r hr
  exact hused.elim hloop hreserved

/-- The orbit that PARK reserves is free, and the buffer is empty or names it (R97). -/
theorem State.parkOrbit_eq_some {o : Orbit} :
    s.parkOrbit = some o ↔
      (s.ksc.dial = [] ∧ s.lowestOrbit = some o) ∨ (s.ksc.dial = [o] ∧ s.orbitFree o = true) := by
  unfold State.parkOrbit
  split
  · next h => simp [h]
  · next d h =>
    simp only [h, Option.ite_none_right_eq_some, Option.some.injEq, List.cons.injEq, and_true,
      reduceCtorEq, false_and, false_or]
    constructor
    · rintro ⟨hfree, rfl⟩
      exact ⟨rfl, hfree⟩
    · rintro ⟨rfl, hfree⟩
      exact ⟨hfree, rfl⟩
  · next hnil hone =>
    simp only [reduceCtorEq, false_iff, not_or, not_and]
    exact ⟨fun h => absurd h hnil, fun h => absurd h (hone o)⟩

theorem State.parkOrbit_free {o : Orbit} (h : s.parkOrbit = some o) : s.orbitFree o = true := by
  rcases State.parkOrbit_eq_some.1 h with ⟨_, hlow⟩ | ⟨_, hfree⟩
  · exact List.find?_some hlow
  · exact hfree

theorem State.dialsDestination_iff :
    s.dialsDestination = true ↔ 1 ≤ s.ksc.dial.length ∧ s.ksc.dial.length ≤ 6 := by
  rw [State.dialsDestination, decide_eq_true_eq, Config.dialRoom]

end Reads

/-! ### The order that a key asks for (R90 to R101) -/

/-- The keys that issue an order or are refused. -/
def orderKeys : List KeyEvent :=
  [.answer, .hold, .release, .extend, .call, .park, .swap, .join, .retrieve]

/-- In state `s` key `e` asks for order `o` on slot `p`: what its rule requires, before R50 and R89 are
judged. -/
inductive State.Asks (s : State) : KeyEvent → Slot → Order → Prop
  | answer {h : Slot} {k : Loop} (hhead : s.head = some h) (hloop : s.lowestLoop = some k)
      (hsetup : s.headsetInSetup = false) : Asks s .answer h (s.connectOrder (some k))
  | retrieve {d : Digit} {p : Slot} {k : Loop} (hdial : s.ksc.dial = [d]) (hparked : s.parkedAt d = some p)
      (hloop : s.lowestLoop = some k) (hsetup : s.headsetInSetup = false) :
      Asks s .retrieve p (s.connectOrder (some k))
  | hold {p : Slot} {r : Record} (hactive : s.activeRecord = some (p, r)) :
      Asks s .hold p (Order.new .hold)
  | releaseClear {p : Slot} {r : Record} (hactive : s.activeRecord = some (p, r))
      (hplain : ¬ (r.leg = .dialled ∧ r.partner.isSome)) : Asks s .release p (Order.new .clear)
  | releaseJoin {p : Slot} {r : Record} (hactive : s.activeRecord = some (p, r))
      (hpaired : r.leg = .dialled ∧ r.partner.isSome) :
      Asks s .release p { Order.new .join with secondary := r.partner }
  | extend {p : Slot} {r : Record} (hactive : s.activeRecord = some (p, r)) (halone : r.partner = none)
      (hdial : s.dialsDestination = true) :
      Asks s .extend p { Order.new .extend with digits := s.ksc.dial }
  | park {p : Slot} {r : Record} {o : Orbit} (hactive : s.activeRecord = some (p, r))
      (halone : r.partner = none) (horbit : s.parkOrbit = some o) :
      Asks s .park p { Order.new .park with reservedOrbit := some o }
  | call {p f : Slot} {r : Record} {k : Loop} (hactive : s.activeRecord = some (p, r))
      (hloop : s.lowestLoop = some k) (hfree : s.lowestFree = some f) (hleg : r.leg = .incoming)
      (halone : r.partner = none) (hdial : s.dialsDestination = true) :
      Asks s .call p { Order.new .dial with
        reservedLoop := some k, reservedSlot := some f, digits := s.ksc.dial }
  | swap {p q : Slot} {r : Record} (hactive : s.activeRecord = some (p, r)) (hpartner : r.partner = some q) :
      Asks s .swap q { Order.new .connect with secondary := some p }
  | join {p q : Slot} (hleg : s.dialledLeg = some (p, q)) :
      Asks s .join p { Order.new .join with secondary := some q }
  | cancel {p q : Slot} (hleg : s.dialledLeg = some (p, q)) :
      Asks s .cancel p { Order.new .clear with secondary := some q }

/-! ### What R50 and R89 allow -/

section Allowed

variable {s : State} {p : Slot} {r : Record} {o : Order}

theorem State.mayIssue_of_unfenced (htakes : s.TakesKeys) (hroom : s.OrderRoom) (hr : s.record? p = some r)
    (hunfenced : r.unfenced = true) (hsecondary : ∀ q ∈ o.secondary, s.unfenced q = true)
    (hclaim : o.takesClaim = true → s.ccc.claim = none) : s.mayIssue p o = true :=
  State.mayIssue_iff.2 ⟨State.isHeld_of_takesKeys htakes, hroom, (State.unfenced_live hr).trans hunfenced,
    hsecondary, hclaim⟩

theorem State.orderRoom_of_mayIssue (h : s.mayIssue p o = true) : s.OrderRoom := by
  obtain ⟨_, hroom, _⟩ := State.mayIssue_iff.1 h
  exact hroom

theorem State.noClaim_of_mayIssue (h : s.mayIssue p o = true) (htakes : o.takesClaim = true) :
    s.ccc.claim = none := by
  obtain ⟨_, _, _, _, hclaim⟩ := State.mayIssue_iff.1 h
  exact hclaim htakes

/-- Neither the primary nor the secondary of an allowed order has a pending order or a lock (R50). -/
theorem State.unfenced_of_mayIssue (h : s.mayIssue p o = true) {q : Slot} (hq : q = p ∨ o.secondary = some q)
    {u : Record} (hu : s.record? q = some u) : u.unfenced = true := by
  obtain ⟨_, _, hprimary, hsecondary, _⟩ := State.mayIssue_iff.1 h
  rw [← State.unfenced_live hu]
  rcases hq with rfl | hq
  · exact hprimary
  · exact hsecondary q hq

theorem State.keyIssues_allowed (h : s.mayIssue p o = true) : s.keyIssues p o = s.issueOrder p o := by
  simp [State.keyIssues, h]

theorem State.keyIssues_refused (h : ¬ s.mayIssue p o = true) : s.keyIssues p o = s.refuseKey := by
  simp [State.keyIssues, h]

end Allowed

/-! ### A key judged -/

section Asked

variable {s : State} {e : KeyEvent} {p : Slot} {o : Order}

/-- What is asked for does not depend on the rest of the key event queue. -/
theorem State.Asks.taken (h : s.Asks e p o) (rest : List KeyEvent) :
    State.Asks { s with ksc.queue := rest } e p o := by
  cases h with
  | answer hhead hloop hsetup => exact .answer hhead hloop hsetup
  | retrieve hdial hparked hloop hsetup => exact .retrieve hdial hparked hloop hsetup
  | hold hactive => exact .hold hactive
  | releaseClear hactive hplain => exact .releaseClear hactive hplain
  | releaseJoin hactive hpaired => exact .releaseJoin hactive hpaired
  | extend hactive halone hdial => exact .extend hactive halone hdial
  | park hactive halone horbit => exact .park hactive halone horbit
  | call hactive hloop hfree hleg halone hdial => exact .call hactive hloop hfree hleg halone hdial
  | swap hactive hpartner => exact .swap hactive hpartner
  | join hleg => exact .join hleg
  | cancel hleg => exact .cancel hleg

/-- A key that asks for an order issues it where R50 and R89 allow it. RETRIEVE alone clears the buffer
besides (R93). -/
theorem State.Asks.judged (h : s.Asks e p o) (he : e ≠ .retrieve) : s.judged e = s.keyIssues p o := by
  cases h with
  | retrieve => contradiction
  | answer hhead hloop hsetup => simp [State.judged, State.answerKey, hhead, hloop, hsetup]
  | hold hactive => simp [State.judged, State.holdKeyJudged, hactive]
  | releaseClear hactive hplain => simp [State.judged, State.releaseKey, hactive, hplain]
  | releaseJoin hactive hpaired => simp [State.judged, State.releaseKey, hactive, hpaired]
  | extend hactive halone hdial => simp [State.judged, State.extendKeyJudged, hactive, halone, hdial]
  | park hactive halone horbit => simp [State.judged, State.parkKeyJudged, hactive, halone, horbit]
  | call hactive hloop hfree hleg halone hdial =>
    simp [State.judged, State.callKey, hactive, hloop, hfree, hleg, halone, hdial]
  | swap hactive hpartner => simp [State.judged, State.swapKey, hactive, hpartner]
  | join hleg => simp [State.judged, State.joinKeyJudged, hleg]
  | cancel hleg => simp [State.judged, State.cancelKey, hleg]

/-- RETRIEVE issues what it asks for with the buffer cleared (R93). -/
theorem State.Asks.retrieved (h : s.Asks .retrieve p o) (hmay : s.mayIssue p o = true) :
    s.judged .retrieve = { s.issueOrder p o with ksc.dial := [] } := by
  cases h with
  | retrieve hdial hparked hloop hsetup =>
    simp [State.judged, State.retrieveKey, hdial, hparked, hloop, hsetup, hmay]

/-- A key that asks for no order which R50 and R89 allow is refused (R87). -/
theorem State.judged_refused (he : e ∈ orderKeys) (h : ∀ p o, s.Asks e p o → ¬ s.mayIssue p o = true) :
    s.judged e = s.refuseKey := by
  have hasked : ∀ {p o}, s.Asks e p o → s.keyIssues p o = s.refuseKey :=
    fun hask => State.keyIssues_refused (h _ _ hask)
  cases e with
  | loop k => simp [orderKeys] at he
  | cancel => simp [orderKeys] at he
  | position => simp [orderKeys] at he
  | answer =>
    show s.answerKey = _
    unfold State.answerKey
    split
    · next hhead hloop =>
      split
      · rfl
      · next hsetup => exact hasked (.answer hhead hloop (by simpa using hsetup))
    · rfl
  | release =>
    show s.releaseKey = _
    unfold State.releaseKey
    split
    · next hactive =>
      split
      · next hpaired => exact hasked (.releaseJoin hactive hpaired)
      · next hplain => exact hasked (.releaseClear hactive hplain)
    · rfl
  | hold =>
    show s.holdKeyJudged = _
    unfold State.holdKeyJudged
    split
    · next hactive => exact hasked (.hold hactive)
    · rfl
  | extend =>
    show s.extendKeyJudged = _
    unfold State.extendKeyJudged
    split
    · next hactive =>
      split
      · next hfits => exact hasked (.extend hactive (Option.isNone_iff_eq_none.1 hfits.1) hfits.2)
      · rfl
    · rfl
  | call =>
    show s.callKey = _
    unfold State.callKey
    split
    · next hactive hloop hfree =>
      split
      · next hfits =>
        obtain ⟨hleg, halone, hdial⟩ := hfits
        exact hasked (.call hactive hloop hfree hleg (Option.isNone_iff_eq_none.1 halone) hdial)
      · rfl
    · rfl
  | swap =>
    show s.swapKey = _
    unfold State.swapKey
    split
    · next hactive =>
      split
      · next hpartner => exact hasked (.swap hactive hpartner)
      · rfl
    · rfl
  | join =>
    show s.joinKeyJudged = _
    unfold State.joinKeyJudged
    split
    · next hleg => exact hasked (.join hleg)
    · rfl
  | park =>
    show s.parkKeyJudged = _
    unfold State.parkKeyJudged
    split
    · next hactive horbit =>
      split
      · next halone => exact hasked (.park hactive (Option.isNone_iff_eq_none.1 halone) horbit)
      · rfl
    · rfl
  | retrieve =>
    show s.retrieveKey = _
    unfold State.retrieveKey
    split
    · next hdial =>
      split
      · next hparked hloop =>
        dsimp only
        split
        · rfl
        · next hsetup =>
          exact if_neg (h _ _ (.retrieve hdial hparked hloop (by simpa using hsetup)))
      · rfl
    · rfl

/-- The slot that a key reserves is FREE (R98). -/
theorem State.Asks.reserves_free (h : s.Asks e p o) : ∀ f ∈ o.reservedSlot, s.slot f = .free := by
  cases h with
  | call _ _ hfree => exact fun f hf => State.lowestFree_free (hfree.trans hf)
  | _ => exact fun f hf => nomatch hf

/-- An order that a key asks for acts on the headset record, if there is one. -/
theorem State.Asks.names_headset (h : s.Asks e p o) : ∀ q ∈ s.headset, q = p ∨ o.secondary = some q := by
  have hprimary : ∀ {x}, s.headset = some x → ∀ q ∈ s.headset, q = x :=
    fun hx q hq => Option.some.inj (hq.symm.trans hx)
  have hactivePrimary : ∀ {x r}, s.activeRecord = some (x, r) → ∀ q ∈ s.headset, q = x :=
    fun hactive => hprimary (State.activeRecord_eq_some.1 hactive).1
  have hlegPrimary : ∀ {x y}, s.dialledLeg = some (x, y) → ∀ q ∈ s.headset, q = x :=
    fun hleg => hprimary (State.dialledLeg_eq_some.1 hleg).choose_spec.1
  cases h with
  | answer | retrieve => exact fun q hq => .inr hq
  | swap hactive => exact fun q hq => .inr (congrArg some (hactivePrimary hactive q hq).symm)
  | join hleg | cancel hleg => exact fun q hq => .inl (hlegPrimary hleg q hq)
  | hold hactive | releaseClear hactive | releaseJoin hactive | extend hactive | park hactive
  | call hactive => exact fun q hq => .inl (hactivePrimary hactive q hq)

/-- R89 as the keys meet it: no order for a headset record with a pending order or a lock. -/
theorem State.Asks.headset_unfenced (h : s.Asks e p o) (hmay : s.mayIssue p o = true) :
    ∀ q ∈ s.headset, ∀ u ∈ s.record? q, u.unfenced = true :=
  fun q hq _ hu => State.unfenced_of_mayIssue hmay (h.names_headset q hq) hu

end Asked

/-! ### A key as a command -/

section KeyCommands

variable {s : State} {e : KeyEvent} {rest : List KeyEvent} {p : Slot} {r : Record} {o : Order}

/-- An order asked for and allowed is issued (R51). -/
theorem State.Asks.runs (h : s.Asks e p o) (he : e ≠ .retrieve) (hqueue : s.ksc.queue = e :: rest)
    (htakes : s.TakesKeys) (hleaves : s.LeavesExact) (hr : s.record? p = some r)
    (hmay : s.mayIssue p o = true) (hother : o.secondary ≠ some p) :
    Runs e.command s fun t => State.Issues { s with ksc.queue := rest } t p r o := by
  have hne : e ≠ .position := by rintro rfl; cases h
  refine ⟨_, exec_command_open hqueue hne htakes, ?_⟩
  rw [(h.taken rest).judged he, State.keyIssues_allowed (s := { s with ksc.queue := rest }) hmay]
  exact State.issueOrder_issues (s := { s with ksc.queue := rest }) hleaves hr hother h.reserves_free

/-- A key that asks for nothing allowed is refused with a chirp (R87). -/
theorem State.refuses_of_not_allowed (he : e ∈ orderKeys) (hqueue : s.ksc.queue = e :: rest)
    (htakes : s.TakesKeys)
    (h : ∀ p o, s.Asks e p o → ¬ s.mayIssue p o = true) : s.Refuses e.command rest := by
  have hne : e ≠ .position := by rintro rfl; simp [orderKeys] at he
  have hrefused : State.judged { s with ksc.queue := rest } e =
      State.refuseKey { s with ksc.queue := rest } :=
    State.judged_refused he fun p o hask => h p o (hask.taken s.ksc.queue)
  show exec e.command s = _
  rw [exec_command_open hqueue hne htakes, hrefused, State.refuseKey_eq]

end KeyCommands

end Sys2Proof.Machine
end

