-- ==== Sys2Proof/Proofs/TakingKeys.lean ====
section
/-! PROOFS. The keys that are barred (R88, R89), that take a call onto the headset (ANSWER, RETRIEVE and
AUTO_ANSWER: R84, R85, R90, R93) and that issue no order (CANCEL with no pair, POSITION: R102, R125). -/

namespace Sys2Proof.Machine

/-! ### Keys barred (R88, R89) -/

/-- Settles O13: R88 is judged before the key's own rule. -/
theorem keysAreBarredWhenClosedFrozenOrInResync : Obligations.KeysAreBarredWhenClosedFrozenOrInResync :=
  fun _ _ _ hqueue hne hbars => exec_command_barred hqueue hne hbars

/-- Settles O14: every order that one of these keys asks for acts on the headset record, so a fence on that
record allows none. -/
theorem headsetKeysAreRefusedWhileItsOrderIsPending :
    Obligations.HeadsetKeysAreRefusedWhileItsOrderIsPending := by
  intro e rest s p r hqueue hp hr hfenced he
  have hne : e ≠ .position := by rintro rfl; simp at he
  by_cases htakes : s.TakesKeys
  · exact State.refuses_of_not_allowed he hqueue htakes fun _ _ hask hmay =>
      hfenced (hask.headset_unfenced hmay p hp r hr)
  · exact exec_command_barred hqueue hne htakes

/-! ### ANSWER, RETRIEVE and AUTO_ANSWER -/

section Connects

variable {s : State} {e : KeyEvent} {p : Slot} {o : Order}

/-- A headset record that no CONNECT may displace bars ANSWER and RETRIEVE (R89, R90). -/
theorem State.Asks.headset_yields (h : s.Asks e p o) (he : e = .answer ∨ e = .retrieve)
    (hmay : s.mayIssue p o = true) : ¬ s.HeadsetBars := by
  have hsetup : s.headsetInSetup = false := by
    cases h with
    | answer _ _ hsetup | retrieve _ _ _ hsetup => exact hsetup
    | _ => simp at he
  rintro ⟨q, hq, u, hu, hstate | hfenced⟩
  · exact State.headsetInSetup_eq_false.1 hsetup q hq u hu hstate
  · exact hfenced (h.headset_unfenced hmay q hq u hu)

/-- The order that AUTO_ANSWER issues (R84). -/
abbrev autoOrder (k : Loop) : Order := { Order.new .connect with reservedLoop := some k }

/-- AUTO_ANSWER issues where all its conditions hold (R84). -/
theorem exec_autoAnswer_issues {k : Loop} (hhead : s.head = some p) (hloop : s.lowestLoop = some k)
    (hset : s.pos.settings.autoAnswer = 1) (hopen : s.pos.state ≠ .closed) (hnone : s.headset = none)
    (hmay : s.mayIssue p (autoOrder k) = true) :
    exec .autoAnswer s = .next (s.issueOrder p (autoOrder k)) := by
  simp [exec, execAutoAnswer, hhead, hloop, hset, hopen, hnone, hmay]

/-- AUTO_ANSWER does nothing where one of its conditions fails (R84, R85). -/
theorem exec_autoAnswer_idle
    (h : ∀ p k, s.head = some p → s.lowestLoop = some k → s.pos.settings.autoAnswer = 1 →
      s.pos.state ≠ .closed → s.headset = none → ¬ s.mayIssue p (autoOrder k) = true) :
    exec .autoAnswer s = .next s := by
  show Host.Outcome.next _ = _
  congr 1
  split
  · next p k hhead hloop =>
    refine if_neg ?_
    rintro ⟨hset, hopen, hnone, hmay⟩
    exact h p k hhead hloop hset hopen (Option.isNone_iff_eq_none.1 hnone) hmay
  · rfl

/-- An order allowed while the position is not CLOSED is allowed where keys are judged (R50, R88). -/
theorem State.takesKeys_of_mayIssue (h : s.mayIssue p o = true) (hopen : s.pos.state ≠ .closed) :
    s.TakesKeys := by
  obtain ⟨hheld, _⟩ := State.mayIssue_iff.1 h
  exact State.keysBarred_iff.1 (by simp [State.keysBarred, hheld, hopen])

end Connects

/-- Settles O15: both issue a CONNECT for the head where R50 allows it; each refusal denies one of the
conditions under which an order is asked for and allowed. -/
theorem answerAndAutoAnswerConnectTheHead : Obligations.AnswerAndAutoAnswerConnectTheHead := by
  refine ⟨fun s rest h r k htakes hleaves hroom hclaim hhead hr hstate _ hunfenced hyields hloop => ?_,
    fun s rest => ⟨fun hqueue htakes hcause => ?_, fun hcause => ?_⟩⟩
  · obtain ⟨hsetup, hmay⟩ := (State.mayConnect_iff hr (some k) (State.isHeld_of_takesKeys htakes)).2
      ⟨hunfenced, hroom, hclaim, hyields⟩
    have hother : s.headset ≠ some h := State.headset_ne_of_off hr (by simp [Record.onHeadset, hstate])
    refine ⟨fun hqueue => (State.Asks.answer hhead hloop hsetup).runs (by decide) hqueue htakes hleaves hr
      hmay hother, fun hset hnone => ?_, fun hcause => ?_⟩
    · have hmayAuto : s.mayIssue h (autoOrder k) = true :=
        State.mayIssue_of_unfenced htakes hroom hr hunfenced nofun fun _ => hclaim
      exact ⟨_, exec_autoAnswer_issues hhead hloop hset htakes.1 hnone hmayAuto,
        State.issueOrder_issues hleaves hr nofun nofun⟩
    · refine exec_autoAnswer_idle fun _ _ _ _ hset _ hnone _ => ?_
      rcases hcause with h0 | hsome
      · omega
      · simp [hnone] at hsome
  · refine State.refuses_of_not_allowed (e := .answer) (by decide) hqueue htakes fun p o hask hmay => ?_
    have hyields := hask.headset_yields (.inl rfl) hmay
    cases hask with
    | answer hhead hloop =>
      rcases hcause with (hnone | hclaim | hnoLoop | hfull) | hbars
      · simp [hnone] at hhead
      · exact hclaim (State.noClaim_of_mayIssue hmay rfl)
      · exact hnoLoop.lowestLoop_ne _ hloop
      · exact hfull (State.orderRoom_of_mayIssue hmay)
      · exact hyields hbars
  · refine exec_autoAnswer_idle fun p k hhead hloop hset hopen hnone hmay => ?_
    rcases hcause with h0 | hsome | hbarred | hheadless | hclaim | hnoLoop | hfull
    · omega
    · simp [hnone] at hsome
    · exact hbarred (State.takesKeys_of_mayIssue hmay hopen)
    · simp [hheadless] at hhead
    · exact hclaim (State.noClaim_of_mayIssue hmay rfl)
    · exact hnoLoop.lowestLoop_ne _ hloop
    · exact hfull (State.orderRoom_of_mayIssue hmay)

/-- Clearing the dial buffer besides an issue that leaves it alone (R93). -/
theorem State.Issues.clearDial {s t : State} {p : Slot} {r : Record} {o : Order}
    (h : State.Issues s t p r o) :
    State.Issues { s with ksc.dial := [] } { t with ksc.dial := [] } p r o := by
  obtain ⟨hprimary, hsecondary, hreserved, hrest, hleaves, hpsel, hframe⟩ := h
  refine ⟨hprimary, hsecondary, hreserved, hrest, hleaves, hpsel, ?_⟩
  simp only [ite_self]
  exact congrArg (fun x : State => { x with ksc.dial := [] }) hframe

/-- Settles O17: RETRIEVE asks for a CONNECT of the record at the orbit that the buffer's one digit names. -/
theorem retrieveConnectsTheParkedRecord : Obligations.RetrieveConnectsTheParkedRecord := by
  refine ⟨fun s rest d p r k hqueue htakes hleaves hroom hclaim hdial hparked hr hunfenced hyields
    hloop => ?_, fun s rest hqueue htakes hcause => ?_⟩
  · obtain ⟨hsetup, hmay⟩ := (State.mayConnect_iff hr (some k) (State.isHeld_of_takesKeys htakes)).2
      ⟨hunfenced, hroom, hclaim, hyields⟩
    have hask : s.Asks .retrieve p (s.connectOrder (some k)) := .retrieve hdial hparked hloop hsetup
    obtain ⟨r', hr', hstate, _⟩ := State.parkedAt_some hparked
    cases hr.symm.trans hr'
    have hother : s.headset ≠ some p := State.headset_ne_of_off hr (by simp [Record.onHeadset, hstate])
    refine ⟨_, exec_command_open (e := .retrieve) hqueue (by decide) htakes, ?_⟩
    rw [(hask.taken rest).retrieved hmay]
    exact (State.issueOrder_issues (s := { s with ksc.queue := rest }) hleaves hr hother
      hask.reserves_free).clearDial
  · refine State.refuses_of_not_allowed (e := .retrieve) (by decide) hqueue htakes fun p o hask hmay => ?_
    have hyields := hask.headset_yields (.inr rfl) hmay
    cases hask with
    | @retrieve d p k hdial hparked hloop =>
      obtain ⟨r, hr, hstate, horbit⟩ := State.parkedAt_some hparked
      rcases hcause with hlength | hempty | ⟨d', hd', p', hp', r', hr', hfenced⟩ | hclaim | hbars | hnoLoop
        | hfull
      · simp [hdial] at hlength
      · exact hempty d (by simp [hdial]) p r hr hstate horbit
      · obtain rfl : d' = d := by simpa [hdial] using hd'
        cases hparked.symm.trans hp'
        exact hfenced (State.unfenced_of_mayIssue hmay (.inl rfl) hr')
      · exact hclaim (State.noClaim_of_mayIssue hmay rfl)
      · exact hyields hbars
      · exact hnoLoop.lowestLoop_ne _ hloop
      · exact hfull (State.orderRoom_of_mayIssue hmay)

/-! ### Keys that issue no order: CANCEL with no pair and POSITION -/

/-- Settles O21: with no DIALLED leg in a pair on the headset CANCEL only empties the buffer. -/
theorem cancelWithoutAPairClearsTheBuffer : Obligations.CancelWithoutAPairClearsTheBuffer := by
  intro s rest hqueue halone
  have hnoLeg : s.dialledLeg = none := by
    rw [Option.eq_none_iff_forall_ne_some]
    rintro ⟨p, q⟩ hleg
    obtain ⟨r, hp, hr, hdialled, hpartner⟩ := State.dialledLeg_eq_some.1 hleg
    rcases halone p hp r hr with h | h
    · simp [hdialled] at h
    · simp [hpartner] at h
  refine ⟨fun htakes => ?_, exec_command_barred (e := .cancel) hqueue (by decide)⟩
  have hnoLeg' : State.dialledLeg { s with ksc.queue := rest } = none := hnoLeg
  have hjudged : State.judged { s with ksc.queue := rest } .cancel =
      { s with ksc.queue := rest, ksc.dial := [] } := by
    simp only [State.judged, State.cancelKey, hnoLeg']
  exact (exec_command_open (e := .cancel) hqueue (by decide) htakes).trans (congrArg _ hjudged)

theorem State.setPosition_changes {s : State} {x : PosState} (h : s.pos.state ≠ x) :
    s.setPosition x = { s with pos.state := x, sli.posNotice := some x } := if_neg h

theorem State.liveCount_eq_zero {s : State} : s.liveCount = 0 ↔ ∀ p, s.record? p = none := by
  simp [State.liveCount, List.filter_eq_nil_iff]

/-- The POSITION key is judged in every condition (R104). -/
theorem exec_positionKey_taken {s : State} {rest : List KeyEvent} (h : s.ksc.queue = .position :: rest) :
    exec .positionKey s =
      .next (State.setPosition { s with ksc.queue := rest } s.positionStepped) := by
  show Host.Outcome.next (s.takeKey .position fun s => s.setPosition s.positionStepped) = _
  rw [State.takeKey, h]
  rfl

/-- Settles O22: the cycle of R125 from each position state, each step of which is a change. -/
theorem positionKeyStepsTheCycle : Obligations.PositionKeyStepsTheCycle := by
  intro s rest hqueue now
  have hsteps : ∀ x, s.positionStepped = x → s.pos.state ≠ x → exec .positionKey s = now x := by
    intro x hx hne
    rw [exec_positionKey_taken hqueue, hx, State.setPosition_changes (s := { s with ksc.queue := rest }) hne]
  refine ⟨fun h => hsteps _ ?_ ?_, fun h => hsteps _ ?_ ?_, fun h hempty => hsteps _ ?_ ?_,
    fun h p hlive => hsteps _ ?_ ?_, fun h => hsteps _ ?_ ?_⟩
  case refine_5 => simp [State.positionStepped, h, State.liveCount_eq_zero.2 hempty]
  case refine_7 =>
    have hsome : s.liveCount ≠ 0 := fun hzero => by simp [State.liveCount_eq_zero.1 hzero p] at hlive
    simp [State.positionStepped, h, hsome]
  all_goals simp [State.positionStepped, h]

end Sys2Proof.Machine
end

