-- ==== Sys2Proof/Proofs/SendingKeys.lean ====
section
/-! PROOFS. The keys that send the headset record on (R94 to R98) and those of a screened transfer (R95, R99
to R101): each obligation's first part is an order asked for and allowed, and each refusal denies one of the
conditions under which an order is asked for and allowed. -/

namespace Sys2Proof.Machine

/-! ### The headset record under a refusal -/

section Refusals

variable {s : State} {p q : Slot} {r : Record} {o : Order}

/-- What holds of some headset record holds of the ACTIVE one that a key has found (R24). -/
theorem State.activeRecord_unique (hactive : s.activeRecord = some (p, r)) {P : Record → Prop}
    (h : ∃ p ∈ s.headset, ∃ r ∈ s.record? p, P r) : P r := by
  obtain ⟨hp, hr, _⟩ := State.activeRecord_eq_some.1 hactive
  obtain ⟨p', hp', r', hr', hP⟩ := h
  cases hp.symm.trans hp'
  cases hr.symm.trans hr'
  exact hP

/-- A partner with a pending order or a lock bars the orders that act on it (R50, R89). -/
theorem State.partner_bars (hp : s.headset = some p) (hr : s.record? p = some r) (hq : r.partner = some q)
    {x : Slot} (hmay : s.mayIssue x o = true) (hnames : q = x ∨ o.secondary = some q)
    (h : ∃ p ∈ s.headset, ∃ r ∈ s.record? p, ∃ q ∈ r.partner, ∃ u ∈ s.record? q, ¬ u.unfenced) : False := by
  obtain ⟨p', hp', r', hr', q', hq', u, hu, hfenced⟩ := h
  cases hp.symm.trans hp'
  cases hr.symm.trans hr'
  cases hq.symm.trans hq'
  exact hfenced (State.unfenced_of_mayIssue hmay hnames hu)

end Refusals

/-! ### HOLD, RELEASE, EXTEND and PARK -/

/-- Settles O18: an order on the ACTIVE headset record that takes no claim. -/
theorem headsetKeysOrderForTheHeadset : Obligations.HeadsetKeysOrderForTheHeadset := by
  refine ⟨fun s rest p r htakes hleaves hroom hp hr hstate hunfenced => ?_, fun s rest htakes => ?_⟩
  · have hactive : s.activeRecord = some (p, r) := State.activeRecord_eq_some.2 ⟨hp, hr, hstate⟩
    have hmay : ∀ o : Order, o.secondary = none → o.takesClaim = false → s.mayIssue p o = true :=
      fun o hsec hclaim => State.mayIssue_of_unfenced htakes hroom hr hunfenced (by simp [hsec])
        (by simp [hclaim])
    refine ⟨fun hqueue => ?_, fun hqueue hplain => ?_, fun hqueue halone hlow hhigh => ?_,
      fun o hqueue halone horbit => ?_⟩
    · exact (State.Asks.hold hactive).runs (by decide) hqueue htakes hleaves hr (hmay _ rfl rfl) nofun
    · have hplain' : ¬ (r.leg = .dialled ∧ r.partner.isSome) := by
        rintro ⟨hleg, hpartner⟩
        rcases hplain with h | h
        · simp [hleg] at h
        · simp [h] at hpartner
      exact (State.Asks.releaseClear hactive hplain').runs (by decide) hqueue htakes hleaves hr
        (hmay _ rfl rfl) nofun
    · have hdial : s.dialsDestination = true := State.dialsDestination_iff.2 ⟨hlow, hhigh⟩
      exact (State.Asks.extend hactive halone hdial).runs (by decide) hqueue htakes hleaves hr
        (hmay _ rfl rfl) nofun
    · exact (State.Asks.park hactive halone (State.parkOrbit_eq_some.2 horbit)).runs (by decide) hqueue htakes
        hleaves hr (hmay _ rfl rfl) nofun
  · intro unready paired taken
    have hready : ∀ {p r o}, s.activeRecord = some (p, r) → s.mayIssue p o = true → ¬ unready :=
      fun hactive hmay hnot => hnot.elim (fun h => h.not_active hactive)
        fun h => h (State.orderRoom_of_mayIssue hmay)
    have hunpaired : ∀ {p r}, s.activeRecord = some (p, r) → r.partner = none → ¬ paired := by
      intro p r hactive halone hpaired
      have := State.activeRecord_unique hactive hpaired
      simp [halone] at this
    refine ⟨fun hqueue hcause => ?_, fun hqueue hcause => ?_, fun hqueue hcause => ?_,
      fun hqueue hcause => ?_⟩
    · refine State.refuses_of_not_allowed (e := .hold) (by decide) hqueue htakes fun p o hask hmay => ?_
      cases hask with
      | hold hactive => exact hready hactive hmay hcause
    · refine State.refuses_of_not_allowed (e := .release) (by decide) hqueue htakes fun p o hask hmay => ?_
      cases hask with
      | releaseClear hactive | releaseJoin hactive => exact hready hactive hmay hcause
    · refine State.refuses_of_not_allowed (e := .extend) (by decide) hqueue htakes fun p o hask hmay => ?_
      cases hask with
      | extend hactive halone hdial =>
        rcases hcause with hnot | hpaired | hempty
        · exact hready hactive hmay hnot
        · exact hunpaired hactive halone hpaired
        · simp [State.dialsDestination_iff, hempty] at hdial
    · refine State.refuses_of_not_allowed (e := .park) (by decide) hqueue htakes fun p o hask hmay => ?_
      cases hask with
      | @park p r o hactive halone horbit =>
        have hfree : ¬ taken o := by
          rintro ⟨q, u, hu, hused⟩
          obtain ⟨hcarried, hreserved⟩ := State.orbitFree_iff.1 (State.parkOrbit_free horbit) q u hu
          exact hused.elim hcarried hreserved
        rcases hcause with hnot | hpaired | hmany | ⟨_, hall⟩ | ⟨o', hdial', htaken⟩
        · exact hready hactive hmay hnot
        · exact hunpaired hactive halone hpaired
        · rcases State.parkOrbit_eq_some.1 horbit with ⟨hdial, _⟩ | ⟨hdial, _⟩ <;> simp [hdial] at hmany
        · exact hfree (hall o)
        · rcases State.parkOrbit_eq_some.1 horbit with ⟨hdial, _⟩ | ⟨hdial, _⟩
          · simp [hdial] at hdial'
          · obtain rfl : o = o' := by simpa [hdial] using hdial'
            exact hfree htaken

/-! ### CALL -/

/-- Settles O19: a DIAL takes the claim, and reserves the loop and the slot that the state has free. -/
theorem callReservesALoopAndASlot : Obligations.CallReservesALoopAndASlot := by
  refine ⟨fun s rest p r k f hqueue htakes hleaves hroom hclaim hp hr hstate hleg hunfenced halone hlow hhigh
    hloop hfree => ?_, fun s rest hqueue htakes hcause => ?_⟩
  · have hactive : s.activeRecord = some (p, r) := State.activeRecord_eq_some.2 ⟨hp, hr, hstate⟩
    have hdial : s.dialsDestination = true := State.dialsDestination_iff.2 ⟨hlow, hhigh⟩
    exact (State.Asks.call hactive hloop hfree hleg halone hdial).runs (by decide) hqueue htakes hleaves hr
      (State.mayIssue_of_unfenced htakes hroom hr hunfenced nofun fun _ => hclaim) nofun
  · refine State.refuses_of_not_allowed (e := .call) (by decide) hqueue htakes fun p o hask hmay => ?_
    cases hask with
    | @call p f r k hactive hloop hfree hleg halone hdial =>
      rcases hcause with hnone | hother | hempty | hclaim | hnoLoop | hnoSlot | hfull
      · exact hnone.not_active hactive
      · have := State.activeRecord_unique hactive hother
        simp [hleg, halone] at this
      · simp [State.dialsDestination_iff, hempty] at hdial
      · exact hclaim (State.noClaim_of_mayIssue hmay rfl)
      · exact hnoLoop.lowestLoop_ne k hloop
      · exact hnoSlot f (State.lowestFree_free hfree)
      · exact hfull (State.orderRoom_of_mayIssue hmay)

/-! ### SWAP, JOIN, RELEASE and CANCEL of a pair -/

/-- CANCEL on a pair is refused where R50 and R89 do not allow its CLEAR (R101). -/
theorem State.refuses_cancel {s : State} {rest : List KeyEvent} {p q : Slot}
    (hqueue : s.ksc.queue = .cancel :: rest) (htakes : s.TakesKeys) (hleg : s.dialledLeg = some (p, q))
    (h : ¬ s.mayIssue p { Order.new .clear with secondary := some q } = true) : s.Refuses .cancel rest := by
  have hopen := exec_command_open (e := .cancel) hqueue (by decide) htakes
  rwa [((State.Asks.cancel hleg).taken rest).judged (by decide),
    State.keyIssues_refused (s := { s with ksc.queue := rest }) h, State.refuseKey_eq] at hopen

/-- Settles O20: the pair's HELD leg is not the headset record, so it can be secondary of an order on the
other, or primary with the other as secondary. -/
theorem pairKeysOrderForTheirLegs : Obligations.PairKeysOrderForTheirLegs := by
  refine ⟨fun s rest p q r u htakes hleaves hroom hp hr hu hpartner hheld hunfenced hpartnerUnfenced => ?_,
    fun s rest htakes => ?_⟩
  · have hpq : q ≠ p := by
      rintro rfl
      exact State.headset_ne_of_off hu (by simp [Record.onHeadset, hheld]) hp
    have hmay : ∀ o : Order, o.secondary = some q → (o.takesClaim = true → s.ccc.claim = none) →
        s.mayIssue p o = true := fun o hsec hclaim =>
      State.mayIssue_of_unfenced htakes hroom hr hunfenced
        (by simpa [hsec] using (State.unfenced_live hu).trans hpartnerUnfenced) hclaim
    have hsecondary : (some q : Option Slot) ≠ some p := by simpa using hpq
    have hdialled : r.leg = .dialled → s.dialledLeg = some (p, q) :=
      fun hleg => State.dialledLeg_eq_some.2 ⟨r, hp, hr, hleg, hpartner⟩
    refine ⟨fun hqueue hclaim hstate => ?_, fun hqueue hleg => ?_, fun hqueue hleg hstate => ?_,
      fun hqueue hleg hclaim => ?_⟩
    · have hmayConnect : s.mayIssue q { Order.new .connect with secondary := some p } = true :=
        State.mayIssue_of_unfenced htakes hroom hu hpartnerUnfenced
          (by simpa using (State.unfenced_live hr).trans hunfenced) fun _ => hclaim
      exact (State.Asks.swap (State.activeRecord_eq_some.2 ⟨hp, hr, hstate⟩) hpartner).runs (by decide) hqueue
        htakes hleaves hu hmayConnect (by simpa using hpq.symm)
    · exact (State.Asks.join (hdialled hleg)).runs (by decide) hqueue htakes hleaves hr
        (hmay _ rfl nofun) hsecondary
    · have hask := State.Asks.releaseJoin (State.activeRecord_eq_some.2 ⟨hp, hr, hstate⟩)
        ⟨hleg, by simp [hpartner]⟩
      rw [hpartner] at hask
      exact hask.runs (by decide) hqueue htakes hleaves hr (hmay _ rfl nofun) hsecondary
    · exact (State.Asks.cancel (hdialled hleg)).runs (by decide) hqueue htakes hleaves hr
        (hmay _ rfl fun _ => hclaim) hsecondary
  · intro alone source leg fenced partnerFenced unready
    have hready : ∀ {x p q r o}, s.headset = some p → s.record? p = some r → r.partner = some q →
        s.mayIssue x o = true → (q = x ∨ o.secondary = some q) → ¬ unready :=
      fun hp hr hq hmay hnames hnot => hnot.elim (State.partner_bars hp hr hq hmay hnames)
        fun h => h (State.orderRoom_of_mayIssue hmay)
    refine ⟨fun hqueue hcause => ?_, fun hqueue hcause => ?_, fun hqueue hleg hnot => ?_,
      fun hqueue hleg hcause => ?_⟩
    · refine State.refuses_of_not_allowed (e := .swap) (by decide) hqueue htakes fun _ o hask hmay => ?_
      cases hask with
      | @swap p q r hactive hpartner =>
        obtain ⟨hp, hr, _⟩ := State.activeRecord_eq_some.1 hactive
        rcases hcause with hnone | halone | hclaim | hnot
        · exact hnone.not_active hactive
        · simp [halone p hp r hr] at hpartner
        · exact hclaim (State.noClaim_of_mayIssue hmay rfl)
        · exact hready hp hr hpartner hmay (.inl rfl) hnot
    · refine State.refuses_of_not_allowed (e := .join) (by decide) hqueue htakes fun p o hask hmay => ?_
      cases hask with
      | @join _ q hpair =>
        obtain ⟨r, hp, hr, hdialled, hpartner⟩ := State.dialledLeg_eq_some.1 hpair
        rcases hcause with halone | hsource | hnot
        · simp [halone p hp r hr] at hpartner
        · simp [hsource p hp r hr] at hdialled
        · exact hready hp hr hpartner hmay (.inr rfl) hnot
    · refine State.refuses_of_not_allowed (e := .release) (by decide) hqueue htakes fun _ o hask hmay => ?_
      cases hask with
      | releaseClear hactive hplain => exact hplain (State.activeRecord_unique hactive hleg)
      | releaseJoin hactive hpaired =>
        obtain ⟨hp, hr, _⟩ := State.activeRecord_eq_some.1 hactive
        obtain ⟨q, hpartner⟩ := Option.isSome_iff_exists.1 hpaired.2
        exact hready hp hr hpartner hmay (.inr hpartner) hnot
    · obtain ⟨p, hp, r, hr, hdialled, hsome⟩ := hleg
      obtain ⟨q, hpartner⟩ := Option.isSome_iff_exists.1 hsome
      have hpair : s.dialledLeg = some (p, q) := State.dialledLeg_eq_some.2 ⟨r, hp, hr, hdialled, hpartner⟩
      refine State.refuses_cancel hqueue htakes hpair fun hmay => ?_
      rcases hcause with ⟨p', hp', r', hr', hfenced⟩ | hclaim | hnot
      · exact hfenced ((State.Asks.cancel hpair).headset_unfenced hmay p' hp' r' hr')
      · exact hclaim (State.noClaim_of_mayIssue hmay rfl)
      · exact hready hp hr hpartner hmay (.inr rfl) hnot

end Sys2Proof.Machine
end

