-- ==== Sys2Proof/Proofs/OwnSteps.lean ====
section
/-! PROOFS. The step with no command waiting: the part's own next step (R87, R116, R117, R166, R167, R170) or
one cycle of REFCLK (R110, R111), in the order that log entry 3 chooses. -/

namespace Sys2Proof.Machine

/-! ### The step with an empty queue -/

section IdleStep

variable {s : State} {c : Instr}

theorem step_own (hpending : s.pending = []) (hown : s.ownStep = some c) :
    step s = .next { s with pending := [c] } := by simp [step, hpending, State.idle, hown]

theorem step_refclk (hpending : s.pending = []) (hown : s.ownStep = none) : step s = .next s.refclk := by
  simp [step, hpending, State.idle, hown]

end IdleStep

/-! ### The cascade (R110, R111) -/

section Cascade

variable {s : State}

theorem State.refclk_counts (h : s.tbt.prescaler < 36863) :
    s.refclk = { s with tbt.prescaler := s.tbt.prescaler + 1 } := if_pos h

theorem State.refclk_baseTick (h : s.tbt.prescaler = 36863) (hstep : s.tbt.stepDivider < 4) :
    s.refclk = { s with
      tbt.prescaler := 0, tbt.stepDivider := s.tbt.stepDivider + 1
      freeCount := s.freeCount + 1, pending := s.baseTickBeats } := by
  have hcounts : s.tbt.stepDivider < Config.stepDividerLast := hstep
  unfold State.refclk
  rw [if_neg (by simp [h, Config.prescalerLast]), if_pos hcounts]

theorem State.refclk_cadenceBeat (h : s.tbt.prescaler = 36863) (hstep : s.tbt.stepDivider = 4) :
    s.refclk = { s with
      tbt.prescaler := 0, tbt.stepDivider := 0
      freeCount := s.freeCount + 1, pending := s.baseTickBeats ++ s.cadenceBeats } := by
  unfold State.refclk
  rw [if_neg (by simp [h, Config.prescalerLast]), if_neg (by simp [hstep, Config.stepDividerLast])]

/-- The beats of a cadence beat within a second: the confirm beat at every second one. -/
theorem State.cadenceBeats_within (h : s.tbt.secondDivider < 19) :
    s.cadenceBeats = (if s.tbt.secondDivider % 2 = 1 then [.confirmBeat] else []) ++ [.cadenceStep] := by
  have hcount : s.tbt.countStep = { s.tbt with secondDivider := s.tbt.secondDivider + 1 } := if_pos h
  have hparity : (s.tbt.secondDivider + 1) % 2 = 0 ↔ s.tbt.secondDivider % 2 = 1 := by omega
  simp [State.cadenceBeats, hcount, hparity]

/-- The beats of the cadence beat that ends a second; every second one ends an epoch. -/
theorem State.cadenceBeats_second (h : s.tbt.secondDivider = 19) (hphase : s.tbt.epochPhase ≤ 1) :
    s.cadenceBeats = [.confirmBeat] ++ s.secondBeats
      ++ (if s.tbt.epochPhase = 1 then [.epochBoundary] else []) ++ [.cadenceStep] := by
  have hlast : ¬ s.tbt.secondDivider < Config.secondDividerLast := by simp [h, Config.secondDividerLast]
  rcases Nat.le_one_iff_eq_zero_or_eq_one.1 hphase with hp | hp <;>
    simp [State.cadenceBeats, Tbt.countStep, hlast, hp, Config.epochPhaseLast]

end Cascade

/-! ### The part's own next step (log entry 3) -/

section OwnStep

variable {s : State}

/-- The lowest slot with an expiry reported. -/
theorem State.reportedSlot_lowest {p : Slot} (hp : (s.timer p).reported = true)
    (hlower : ∀ q : Slot, q < p → (s.timer q).reported = false) : s.reportedSlot = some p := by
  have hplace : ∀ (i : Nat) (h : i < slots.length), slots[i] = ⟨i, by simpa [slots] using h⟩ :=
    fun i h => by simp [slots]
  refine List.find?_eq_some_iff_getElem.2 ⟨hp, p.val, by simp [slots], hplace p _, fun j hj => ?_⟩
  rw [hplace j, hlower _ hj]
  rfl

theorem State.reportedSlot_eq_none : s.reportedSlot = none ↔ ¬ ∃ p : Slot, (s.timer p).reported = true := by
  simp [State.reportedSlot]

/-- The transmitter can start a message: it is idle, not halted by the switch, and has one (R170). -/
theorem State.mayStart_iff :
    (s.mayTransmit && s.hasMessage) = true ↔
      s.sli.sending = none ∧ s.sli.haltedBy = false ∧
        (s.sli.replies ≠ [] ∨ s.sli.orders ≠ [] ∨ s.sli.auditNotice = true ∨ s.sli.posNotice.isSome
          ∨ s.sli.orderNotice.isSome ∨ s.sli.linkNotice.isSome) := by
  simp [State.mayTransmit, State.hasMessage, and_assoc, or_assoc]

theorem State.ownStep_expiry {p : Slot} (h : s.reportedSlot = some p) :
    s.ownStep = some (.custodyTimerExpiry p) := by simp [State.ownStep, h]

theorem State.ownStep_control (hquiet : s.reportedSlot = none) (h : s.sli.control.isSome = true) :
    s.ownStep = some .sendControlCharacter := by simp [State.ownStep, hquiet, h]

/-- With no expiry and no control character waiting, a message is handed on first. -/
theorem State.ownStep_message {b : List Byte} {rest : List (List Byte)} (hquiet : s.reportedSlot = none)
    (hcontrol : s.sli.control = none) (h : s.sli.inbound = b :: rest) (hroom : s.sli.replies.length < 8) :
    s.ownStep = some (commandOfKind (kindOf b)) := by
  simp [State.ownStep, hquiet, hcontrol, h, Config.replyRoom, hroom]

/-- With no message to hand on either, a key event is taken, or else a transmission starts. -/
theorem State.ownStep_held (hquiet : s.reportedSlot = none) (hcontrol : s.sli.control = none)
    (h : s.sli.inbound = [] ∨ 8 ≤ s.sli.replies.length) :
    s.ownStep =
      match s.ksc.queue with
      | e :: _ => some e.command
      | [] => if s.mayTransmit && s.hasMessage then some .transmitStart else none := by
  unfold State.ownStep
  rw [hquiet]
  simp only [hcontrol]
  rcases h with hempty | hfull
  · rw [hempty]
    cases s.ksc.queue <;> rfl
  · have hroom : ¬ s.sli.replies.length < Config.replyRoom := by simpa [Config.replyRoom] using hfull
    cases s.sli.inbound <;> cases s.ksc.queue <;> simp [hroom]

theorem State.ownStep_key {e : KeyEvent} {rest : List KeyEvent} (hquiet : s.reportedSlot = none)
    (hcontrol : s.sli.control = none) (h : s.sli.inbound = [] ∨ 8 ≤ s.sli.replies.length)
    (hqueue : s.ksc.queue = e :: rest) : s.ownStep = some e.command := by
  rw [State.ownStep_held hquiet hcontrol h, hqueue]

theorem State.ownStep_keyless (hquiet : s.reportedSlot = none) (hcontrol : s.sli.control = none)
    (h : s.sli.inbound = [] ∨ 8 ≤ s.sli.replies.length) (hqueue : s.ksc.queue = []) :
    s.ownStep = if s.mayTransmit && s.hasMessage then some .transmitStart else none := by
  rw [State.ownStep_held hquiet hcontrol h, hqueue]

/-- The part calls for a step of its own in each of five conditions, and in no other. -/
theorem State.ownStep_eq_none :
    s.ownStep = none ↔
      s.reportedSlot = none ∧ s.sli.control = none ∧ (s.sli.inbound = [] ∨ 8 ≤ s.sli.replies.length)
        ∧ s.ksc.queue = [] ∧ ¬ (s.mayTransmit && s.hasMessage) = true := by
  constructor
  · intro hnone
    have hquiet : s.reportedSlot = none := by
      rcases h : s.reportedSlot with _ | p
      · rfl
      · simp [State.ownStep_expiry h] at hnone
    have hcontrol : s.sli.control = none := by
      rcases h : s.sli.control with _ | c
      · rfl
      · simp [State.ownStep_control hquiet (by simp [h])] at hnone
    have hheld : s.sli.inbound = [] ∨ 8 ≤ s.sli.replies.length := by
      rcases h : s.sli.inbound with _ | ⟨b, rest⟩
      · exact .inl rfl
      · refine .inr (Nat.le_of_not_lt fun hroom => ?_)
        simp [State.ownStep_message hquiet hcontrol h hroom] at hnone
    have hkeyless : s.ksc.queue = [] := by
      rcases h : s.ksc.queue with _ | ⟨e, rest⟩
      · rfl
      · simp [State.ownStep_key hquiet hcontrol hheld h] at hnone
    refine ⟨hquiet, hcontrol, hheld, hkeyless, fun hstart => ?_⟩
    simp [State.ownStep_keyless hquiet hcontrol hheld hkeyless, hstart] at hnone
  · rintro ⟨hquiet, hcontrol, hheld, hkeyless, hstart⟩
    rw [State.ownStep_keyless hquiet hcontrol hheld hkeyless, if_neg hstart]

end OwnStep

/-! ### The commands of the inbound kinds (R166, R174) -/

/-- The codes of the inbound kinds, each with its command. -/
def kindCommands : List (Byte × Instr) :=
  [(kindOffer, .offer), (kindPoll, .poll), (kindSet, .set), (kindCadenceLoad, .cadenceLoad),
    (kindCadenceCommit, .cadenceCommit), (kindPosition, .position), (kindAuditEntry, .auditEntry),
    (kindAuditEnd, .auditEnd), (kindRestart, .restart), (kindConfirm, .confirm), (kindCleared, .cleared),
    (kindDelivered, .delivered), (kindCampFree, .campFree), (kindFarEnd, .farEnd)]

theorem commandOfKind_known : ∀ x ∈ kindCommands, commandOfKind x.1 = x.2 := by decide

theorem commandOfKind_unknown {k : Byte} (h : ∀ x ∈ kindCommands, k ≠ x.1) :
    commandOfKind k = .unknownKind := by
  simp only [kindCommands, List.forall_mem_cons, List.not_mem_nil, false_implies, implies_true,
    and_true] at h
  simp [commandOfKind, h]

/-- Settles O2: a cycle of REFCLK by the counts at which the cascade wraps, and the part's own step by what
waits. -/
theorem idleStepCountsRefclk : Obligations.IdleStepCountsRefclk := by
  refine ⟨fun s hpending hown => ?_, fun s hpending => ?_⟩
  · intro tick second
    rw [step_refclk hpending hown]
    refine ⟨fun hpre => ?_, fun hpre hdiv => ?_, fun hpre hdiv hsec => ?_, fun hpre hdiv hsec hphase => ?_⟩
    · rw [State.refclk_counts hpre]
    · rw [State.refclk_baseTick hpre hdiv]
      rfl
    · rw [State.refclk_cadenceBeat hpre hdiv, State.cadenceBeats_within hsec, List.append_assoc]
      rfl
    · rw [State.refclk_cadenceBeat hpre hdiv, State.cadenceBeats_second hsec hphase]
      simp only [List.append_assoc]
      rfl
  · intro own reported held filled starts kinds keys
    have howned : ∀ c, s.ownStep = some c → own c := fun c => step_own hpending
    refine ⟨fun p hp hlower => howned _ (State.ownStep_expiry (State.reportedSlot_lowest hp hlower)),
      fun hquiet hcontrol => howned _ (State.ownStep_control (State.reportedSlot_eq_none.2 hquiet) hcontrol),
      fun hquiet hcontrol => ⟨fun k body rest hinbound hroom => ?_, fun hheld => ⟨fun e rest hqueue => ?_,
        fun hqueue hstarts => howned _ ?_⟩⟩, ?_⟩
    · have hmessage := State.ownStep_message (State.reportedSlot_eq_none.2 hquiet) hcontrol hinbound hroom
      refine ⟨fun x hx hk => howned _ ?_, fun hother => howned _ ?_⟩
      · rw [hmessage, ← commandOfKind_known x hx, ← hk]
        rfl
      · exact hmessage.trans (congrArg some (commandOfKind_unknown hother))
    · have hkey := State.ownStep_key (State.reportedSlot_eq_none.2 hquiet) hcontrol hheld hqueue
      have hcommands : ∀ x ∈ keys, x.1.command = x.2 := by decide
      refine ⟨fun x hx he => howned _ ?_, fun k he => howned _ ?_⟩
      · rw [hkey, he, hcommands x hx]
      · rw [hkey, he, KeyEvent.command]
    · rw [State.ownStep_keyless (State.reportedSlot_eq_none.2 hquiet) hcontrol hheld hqueue,
        if_pos (State.mayStart_iff.2 hstarts)]
    · rw [State.ownStep_eq_none, State.reportedSlot_eq_none, State.mayStart_iff]

end Sys2Proof.Machine
end
